-- ==== Sys2Proof/Word.lean ====
section
/-!
DEFINITION. The word types of the JX12 (R7, R95, R114, R116) and the index types of its units (R2, R3, R305).
-/
namespace Sys2Proof

/-- A byte of any memory. -/
abbrev Byte := BitVec 8
/-- A 64-bit scalar word (R95). -/
abbrev Word := BitVec 64
/-- A 1,024-bit vector (R114). -/
abbrev Vec := BitVec 1024
/-- A predicate: one bit for each byte of a vector (R116). -/
abbrev Pred := BitVec 128
/-- A slot word (R25). -/
abbrev SWord := BitVec 32

/-- A core c00–c95 of the package (R3). -/
abbrev CoreId := Fin 96
/-- A compute die D0–D3 (R2). -/
abbrev DieId := Fin 4
/-- An HBM4E stack 0–7 (R369). -/
abbrev StackId := Fin 8
/-- A partition 0–11 (R3). -/
abbrev PartId := Fin 12
/-- A Jexlink port 0–23 of the package (R305). -/
abbrev PortId := Fin 24
/-- A copy-engine queue q0–q7 (R188). -/
abbrev QueueId := Fin 8

end Sys2Proof
end

