-- ==== Sys2Proof/Syntax.lean ====
section
/-!
DEFINITION. The syntax of the JX12: one constructor of `Instr` for every row of spec/opcode_table.json: the 176 slot
instructions of the maps R32–R42 and the 106 events ("the part's steps, each whole and indivisible").
A slot word's frame bits J, F and L (R25) are not part of `Instr`: they decide WHEN a word issues, and stand in `Frame`.
-/
namespace Sys2Proof

/-- The eight slots of a bundle (R24). VA and VB decode one map. -/
inductive Slot where
  | ctl | sca | va | vb | xn | mx | ar | ae
  deriving DecidableEq, Repr

/-- The frame of a slot word: the join bit and the first/last iteration bits (R25). -/
structure Frame where
  j : Bool
  f : Bool
  l : Bool
  deriving DecidableEq, Repr

/-- Vector width field (R29). -/
inductive VWidth where
  | w256 | w512 | w1024
  deriving DecidableEq, Repr

/-- Vector type field (R29). -/
inductive VType where
  | i8 | i16 | i32 | bf16 | f16 | f32 | e4m3 | e5m2
  deriving DecidableEq, Repr

/-- Scalar conditions of CMP and CMPI (R28). -/
inductive Cond where
  | eq | ne | lt | ge | ltu | geu | le | gt | leu | gtu | bits | nobits
  deriving DecidableEq, Repr

/-- Vector compare codes (R28): codes 4, 5 and 7 mean one thing for integer types and another for floating types. -/
inductive VCond where
  | eq | ne | lt | le | ltuUn | leuOrd | gt | gtuGe
  deriving DecidableEq, Repr

/-- Conditions of FCMP (R112). -/
inductive FCond where
  | eq | lt | le | un
  deriving DecidableEq, Repr

/-- Conversion codes (R30). -/
inductive Cvt where
  | i8 | i16 | i32 | bf16 | f16 | f32 | e4m3 | e5m2 | e3m2 | e2m3 | e2m1 | mxint8 | e8m0
  deriving DecidableEq, Repr

/-- Rounding codes (R30, R143). -/
inductive Rnd where
  | rne | rtz | sr | rup
  deriving DecidableEq, Repr

/-- Scope codes (R31, R265). -/
inductive Scope where
  | queue | slot | core | cluster | half | die | package | partition | host | peer | group | system
  deriving DecidableEq, Repr

/-- Scalar access sizes (R33). -/
inductive SSize where
  | b | h | w | d
  deriving DecidableEq, Repr

/-- CFOP operations (R85). -/
inductive CfOp where
  | and | or | xor | andn
  deriving DecidableEq, Repr

/-- VUNARY operations (R124). -/
inductive UnOp where
  | abs | neg | not | clz | popc
  deriving DecidableEq, Repr

/-- VSFU functions (R125). -/
inductive SfuFn where
  | rcp | rsqrt | exp2 | log2
  deriving DecidableEq, Repr

/-- VRED and VSCAN operations (R130). -/
inductive RedFn where
  | sum | max | min
  deriving DecidableEq, Repr

/-- AROP operations (R40, R255). -/
inductive ArFn where
  | add | sub | shl | sar | max | min | copy | zero
  deriving DecidableEq, Repr

/-- AROP element widths (R40). -/
inductive ArWidth where
  | b8 | b16 | b32
  deriving DecidableEq, Repr

/-- Weight formats of MLOADW (R39, R207). -/
inductive WFmt where
  | mxint8 | mxe4m3 | mxe5m2 | mxe3m2 | mxe2m3 | mxe2m1 | bf16 | f16
  deriving DecidableEq, Repr

/-- Destinations of MOUT (R214). -/
inductive OutFmt where
  | i32 | bf16 | f16 | f32 | e4m3 | e5m2
  deriving DecidableEq, Repr

/-- Built-in reduction codes of PUTR and RED (R42). -/
inductive RedOp where
  | addF32 | addBf16 | addI32 | maxF32 | minF32 | maxI32
  deriving DecidableEq, Repr

/-- ATOM operations (R42, R287). -/
inductive AtomOp where
  | addI32 | addI64 | and | or | xor | minI32 | maxI32 | minu | maxu | swap32 | swap64 | faddF32 | faddBf16x2 | fmaxF32 | fminF32
  deriving DecidableEq, Repr

/-- PINV modes (R198). -/
inductive PinvMode where
  | addr | slot | all
  deriving DecidableEq, Repr

/-- FENCE kinds (R292). -/
inductive FenceKind where
  | full | acquire | release
  deriving DecidableEq, Repr

/-- What a JOIN brings besides its sender's limit (R328, R335): the group it names, its TSIL and LEAD; which package asks, and the numbers of the live
members that are linked to it, which the port graph gives. -/
structure Join where
  group  : Nat
  tsil   : Nat
  lead   : Nat
  joiner : Nat
  linked : List Nat
  deriving DecidableEq, Repr

/-- A post as a control flit carries it (R327, R329, R335). -/
structure Post where
  /-- the sender's member number, 0–63 -/
  member : Nat
  /-- the sender's epoch -/
  epoch  : Nat
  /-- the posted limit, a ceiling code 0–72 -/
  limit  : Nat
  /-- the send tick in GCNT -/
  tick   : Nat
  /-- a lowering notice: code and effect tick -/
  notice : Option (Nat × Nat)
  /-- a JOIN -/
  join   : Option Join
  /-- a LEAVE -/
  leave  : Bool
  deriving DecidableEq, Repr

/-- A block of a peer transfer, as it reaches the far port (R300, R318, R321, R323). -/
structure PeerBlock where
  /-- destination core and pool address (R300) -/
  core    : Nat
  addr    : Nat
  /-- the block's bytes -/
  bytes   : List Byte
  /-- the round tag it carries -/
  tag     : Nat
  /-- its arrival tick (R321) -/
  arrival : Nat
  /-- the last tick at which its window may start, t_k + σ, by which a clock change moves it (R317) -/
  latest  : Nat
  /-- how the block is applied: none for PUT, a built-in code, or a carried verb image (R235, R322) -/
  op      : Option RedOp
  verb    : List (BitVec 32)
  /-- the op at which the carried verb meets a parity error, a fault of the hardware (R235) -/
  bad     : Option Nat
  /-- the credit word in the destination's pool, if any (R300) -/
  credit  : Option Nat
  /-- marked poisoned (R306) -/
  poison  : Bool
  /-- the destination of its whole transfer: pool address and bytes (R300, R303) -/
  whole   : Nat × Nat
  deriving DecidableEq, Repr

/-- One 10 µs sample of the package's sensors (R337, R338): per die 16 thermal readings in °C, six currents in mA with their limits,
and the package power with its budget in mW. -/
structure Sensors where
  thermal : List (List Int)
  current : List (List Nat)
  limits  : List (List Nat)
  power   : Nat
  budget  : Nat
  deriving DecidableEq, Repr

/-- The package power states a POWER command names (R394, R398). -/
inductive PowerTo where
  | a0 | a3 | off
  deriving DecidableEq, Repr

/-- What a host agent accesses: a partition's HBM, whose lines it may keep in its caches; host memory; the window BAR2 (R282, R386). -/
inductive HostWay where
  | hbm (keeps : Bool)
  | own
  | bar2
  deriving DecidableEq, Repr

/-- A host agent's access: the bytes it writes, or none for a read, and what it goes to (R282). -/
structure HostOp where
  write : Option (List Byte)
  way   : HostWay
  deriving DecidableEq, Repr

/-- A block that arrives at a port, with the numbers of flits corrected, and of flits delivered poisoned, that its arrival adds (R306, R307). -/
structure BlockArrival where
  block : PeerBlock
  fecc  : Nat
  unc   : Nat
  deriving DecidableEq, Repr

/-- A failed port, and the tags of the rounds that the far end sends over it (R319). -/
structure PortLoss where
  port : PortId
  tags : List (BitVec 8)
  deriving DecidableEq, Repr

/-- What training tells of a link: its latency, the far package with its member number, and the far port (R307). -/
structure Training where
  lat    : BitVec 16
  id     : Nat
  member : BitVec 8
  far    : BitVec 5
  deriving DecidableEq, Repr

/-- What a stage of bring-up brings (R397): the stacks left out, or the dies with a failed link; the firmware image that the ROM finds; the physical
rows, by stack, pseudo-channel and bank, in which the boot self-test meets errors. -/
structure BootOut where
  mask  : BitVec 8
  image : List Byte
  rows  : List (Nat × Nat × Nat × Nat)
  deriving DecidableEq, Repr, Inhabited

/-- What a PARTSET brings beside its arguments in registers (R387, R398): PAT entries by stack and number, and the tenant debug keys that the firmware
gives the partition with it, if any: an Ed25519 and an ML-DSA-65 public key (R395). -/
structure PartsetArgs where
  pat    : List (BitVec 3 × BitVec 7 × BitVec 64)
  tenant : Option (List Byte)
  deriving DecidableEq, Repr

/-- A register of a BAR0 (R386): of physical function 0, or of virtual function p + 1 as that shows partition p's block, and its offset. -/
structure HostReg where
  vf  : Option PartId
  off : BitVec 26
  deriving DecidableEq, Repr

/-- A stamp of the group's count as it reaches an LE in a control flit on a port of its die, or as the LE gives it to a core (R309, R310). -/
structure CountStamp where
  count : BitVec 64
  port  : Option (Fin 6)
  deriving DecidableEq, Repr

/-- A stack's 10 µs sample: a temperature in °C for each of its four sensors, and the granules, by the address of a byte, in which errors have arisen
since the last: those that can be corrected, and those that cannot (R377, R380). -/
structure StackSample where
  temps : List Int
  soft  : List Nat
  hard  : List Nat
  deriving DecidableEq, Repr

/-- One constructor for every row of spec/opcode_table.json. -/
inductive Instr where
  -- every slot
  | nop
  -- S0 CTL (R32)
  | halt
  | yield
  | trap (code : BitVec 16)
  | rett
  | pbt (bt : BitVec 3) (off : BitVec 20)
  | pbtr (bt : BitVec 3) (sa : BitVec 6)
  | br (bt cf : BitVec 3) (sense : Bool)
  | brAlways (bt : BitVec 3)
  | call (bt : BitVec 3)
  | ret
  | cmp (cf : BitVec 3) (cond : Cond) (sa sb : BitVec 6)
  | cmpi (cf : BitVec 3) (cond : Cond) (sa : BitVec 6) (imm : BitVec 10)
  | cfop (cfd cfa cfb : BitVec 3) (op : CfOp)
  | vany (cf p : BitVec 3) (w : VWidth)
  | vall (cf p : BitVec 3) (w : VWidth)
  | loop (count : BitVec 10) (off : BitVec 12)
  | loopReg (sa : BitVec 6) (off : BitVec 12)
  | loopx (n : BitVec 3)
  | movsr (sd : BitVec 6) (spr : BitVec 10)
  | movrs (sa : BitVec 6) (spr : BitVec 10)
  | waitc (n : BitVec 16)
  | waitg (sa : BitVec 6)
  | align (mode : BitVec 16)
  | phase (level : BitVec 3)
  | spawn (sa : BitVec 6) (core : BitVec 7)
  | abeat (n : BitVec 16)
  -- S1 SCA (R33, R34)
  | add (sd sa sb : BitVec 6)
  | sub (sd sa sb : BitVec 6)
  | and (sd sa sb : BitVec 6)
  | or (sd sa sb : BitVec 6)
  | xor (sd sa sb : BitVec 6)
  | shl (sd sa sb : BitVec 6)
  | shr (sd sa sb : BitVec 6)
  | sar (sd sa sb : BitVec 6)
  | mul (sd sa sb : BitVec 6)
  | mulh (sd sa sb : BitVec 6)
  | mulhu (sd sa sb : BitVec 6)
  | div (sd sa sb : BitVec 6)
  | divu (sd sa sb : BitVec 6)
  | rem (sd sa sb : BitVec 6)
  | remu (sd sa sb : BitVec 6)
  | min (sd sa sb : BitVec 6)
  | max (sd sa sb : BitVec 6)
  | minu (sd sa sb : BitVec 6)
  | maxu (sd sa sb : BitVec 6)
  | sel (sd sa sb : BitVec 6) (cf : BitVec 3)
  | clz (sd sa : BitVec 6)
  | popc (sd sa : BitVec 6)
  | addi (sd sa : BitVec 6) (imm : BitVec 11)
  | andi (sd sa : BitVec 6) (imm : BitVec 11)
  | ori (sd sa : BitVec 6) (imm : BitVec 11)
  | xori (sd sa : BitVec 6) (imm : BitVec 11)
  | shli (sd sa : BitVec 6) (imm : BitVec 11)
  | shri (sd sa : BitVec 6) (imm : BitVec 11)
  | sari (sd sa : BitVec 6) (imm : BitVec 11)
  | movi (sd : BitVec 6) (imm : BitVec 17)
  | movk (sd : BitVec 6) (imm : BitVec 17)
  | ld (sd : BitVec 6) (as : BitVec 4) (size : SSize) (sx : Bool) (off : BitVec 10)
  | st (sa : BitVec 6) (as : BitVec 4) (size : SSize) (off : BitVec 10)
  | lda (sd : BitVec 6) (as : BitVec 4) (size : SSize) (scope : Scope)
  | stl (sa : BitVec 6) (as : BitVec 4) (size : SSize) (scope : Scope)
  | aset (as : BitVec 4) (field : BitVec 3) (sa : BitVec 6)
  | aget (sd : BitVec 6) (as : BitVec 4) (field : BitVec 3)
  | fadd (sd sa sb : BitVec 6)
  | fsub (sd sa sb : BitVec 6)
  | fmul (sd sa sb : BitVec 6)
  | fma (sd sa sb : BitVec 6)
  | fmin (sd sa sb : BitVec 6)
  | fmax (sd sa sb : BitVec 6)
  | fcmp (sd sa sb : BitVec 6) (cond : FCond)
  | fcvtif (sd sa : BitVec 6)
  | fcvtfi (sd sa : BitVec 6) (rtz : Bool)
  | fneg (sd sa : BitVec 6)
  | fabs (sd sa : BitVec 6)
  -- S2 VA and S3 VB (R35, R36)
  | vadd (w : VWidth) (t : VType) (vd va vb : BitVec 6)
  | vsub (w : VWidth) (t : VType) (vd va vb : BitVec 6)
  | vmul (w : VWidth) (t : VType) (vd va vb : BitVec 6)
  | vfma (w : VWidth) (t : VType) (vd va vb : BitVec 6)
  | vmin (w : VWidth) (t : VType) (vd va vb : BitVec 6)
  | vmax (w : VWidth) (t : VType) (vd va vb : BitVec 6)
  | vminu (w : VWidth) (t : VType) (vd va vb : BitVec 6)
  | vmaxu (w : VWidth) (t : VType) (vd va vb : BitVec 6)
  | vand (w : VWidth) (t : VType) (vd va vb : BitVec 6)
  | vor (w : VWidth) (t : VType) (vd va vb : BitVec 6)
  | vxor (w : VWidth) (t : VType) (vd va vb : BitVec 6)
  | vandn (w : VWidth) (t : VType) (vd va vb : BitVec 6)
  | vshl (w : VWidth) (t : VType) (vd va vb : BitVec 6)
  | vshr (w : VWidth) (t : VType) (vd va vb : BitVec 6)
  | vsar (w : VWidth) (t : VType) (vd va vb : BitVec 6)
  | vadds (w : VWidth) (t : VType) (vd va vb : BitVec 6)
  | vsubs (w : VWidth) (t : VType) (vd va vb : BitVec 6)
  | vaddsc (w : VWidth) (t : VType) (vd va sb : BitVec 6)
  | vmulsc (w : VWidth) (t : VType) (vd va sb : BitVec 6)
  | vbcast (w : VWidth) (t : VType) (vd sb : BitVec 6)
  | vmov (w : VWidth) (t : VType) (vd va : BitVec 6)
  | vcmp (w : VWidth) (t : VType) (cond : VCond) (pd : BitVec 3) (va vb : BitVec 6)
  | vsel (w : VWidth) (t : VType) (vd va : BitVec 6) (p : BitVec 3)
  | vunary (w : VWidth) (t : VType) (op : UnOp) (vd va : BitVec 6) (p : BitVec 3)
  | vsfu (w : VWidth) (t : VType) (fn : SfuFn) (vd va : BitVec 6) (p : BitVec 3)
  | vred (w : VWidth) (t : VType) (op : RedFn) (sd va : BitVec 6) (p : BitVec 3)
  | vscan (w : VWidth) (t : VType) (op : RedFn) (vd va : BitVec 6) (p : BitVec 3)
  | vdot4 (w : VWidth) (t : VType) (vd va vb : BitVec 6)
  | vdot2 (w : VWidth) (t : VType) (vd va vb : BitVec 6)
  | vdot16 (w : VWidth) (t : VType) (vd va vb : BitVec 6)
  | vcompress (w : VWidth) (t : VType) (vd va : BitVec 6) (p : BitVec 3)
  | vexpand (w : VWidth) (t : VType) (vd va : BitVec 6) (p : BitVec 3)
  | viota (w : VWidth) (t : VType) (vd : BitVec 6) (p : BitVec 3)
  | vext (w : VWidth) (t : VType) (sd va : BitVec 6) (idx : BitVec 6)
  | vins (w : VWidth) (t : VType) (vd sa : BitVec 6) (idx : BitVec 6)
  | vld (w : VWidth) (as : BitVec 4) (vd : BitVec 6) (off : BitVec 11)
  | vst (w : VWidth) (as : BitVec 4) (va : BitVec 6) (off : BitVec 11)
  | vldp (w : VWidth) (as : BitVec 4) (p : BitVec 3) (vd : BitVec 3) (off : BitVec 11)
  | vstp (w : VWidth) (as : BitVec 4) (p : BitVec 3) (va : BitVec 3) (off : BitVec 11)
  | vgather (w : VWidth) (t : VType) (vd va : BitVec 6) (as : BitVec 4)
  | vscatter (w : VWidth) (t : VType) (vs va : BitVec 6) (as : BitVec 4)
  -- S4 XN (R38)
  | xnet (k : BitVec 3) (vd va : BitVec 6)
  | xnload (k : BitVec 3) (as : BitVec 4)
  | xcvt (src dst : Cvt) (rnd : Rnd) (sat : Bool) (vd va : BitVec 6)
  | xcvth (src dst : Cvt) (rnd : Rnd) (sat : Bool) (vd va : BitVec 6)
  | xmx (src dst : Cvt) (rnd : Rnd) (sat : Bool) (vd va : BitVec 6)
  | xmxd (src dst : Cvt) (rnd : Rnd) (sat : Bool) (vd va : BitVec 6)
  | xplane (t : Cvt) (planes : BitVec 4) (rnd : Rnd) (vd va : BitVec 6)
  | xunplane (t : Cvt) (planes : BitVec 4) (rnd : Rnd) (sat : Bool) (vd va : BitVec 6)
  | xrng (vd : BitVec 6)
  -- S5 MX (R39)
  | mdset (md : BitVec 4) (field : BitVec 3) (sa : BitVec 6)
  | mloadw (md : BitVec 4) (cb : BitVec 5) (fmt : WFmt)
  | mma (md : BitVec 4) (cb : BitVec 5)
  | mmaz (md : BitVec 4) (cb : BitVec 5)
  | mouter (md : BitVec 4) (cba cbb : BitVec 5) (h : BitVec 4)
  | mcommit (batch : BitVec 3)
  | mwaitb (batch : BitVec 3)
  | mout (md : BitVec 4) (as : BitVec 4) (dst : OutFmt) (rnd : Rnd)
  | mzero (md : BitVec 4)
  | mshape (mask : BitVec 4)
  -- S6 AR (R40)
  | adset (ad : BitVec 3) (field : BitVec 3) (sa : BitVec 6)
  | ast (b : BitVec 5) (ad : BitVec 3) (as : BitVec 4)
  | ald (b : BitVec 5) (ad : BitVec 3) (as : BitVec 4)
  | astv (b : BitVec 5) (ad : BitVec 3) (va : BitVec 6)
  | aldv (b : BitVec 5) (ad : BitVec 3) (vd : BitVec 6)
  | amvm (b : BitVec 5) (ad : BitVec 3) (as : BitVec 4) (acc : BitVec 3) (planes : BitVec 4) (zero : Bool)
  | arop (b : BitVec 5) (add : BitVec 3) (op : ArFn) (ads : BitVec 3) (ew : ArWidth) (sat : Bool) (imm : BitVec 5)
  | aacc (vd : BitVec 6) (acc : BitVec 3) (part : BitVec 2) (toI32 : Bool)
  -- S7 AE (R41, R42)
  | edld (ed : BitVec 4) (as : BitVec 4)
  | edset (ed : BitVec 4) (word : BitVec 3) (sa : BitVec 6)
  | cpy (q : BitVec 3) (ed : BitVec 4)
  | cpym (q : BitVec 3) (ed : BitVec 4)
  | put (q : BitVec 3) (ed : BitVec 4)
  | putr (q : BitVec 3) (ed : BitVec 4) (op : RedOp)
  | putrVerb (q : BitVec 3) (ed : BitVec 4)
  | red (q : BitVec 3) (ed : BitVec 4) (op : RedOp)
  | zip (q : BitVec 3) (ed : BitVec 4) (h : BitVec 4)
  | fold (q : BitVec 3) (ed : BitVec 4) (h : BitVec 4) (tree : Bool)
  | scan (q : BitVec 3) (ed : BitVec 4) (h : BitVec 4) (tree : Bool)
  | vbdef (h : BitVec 4) (as : BitVec 4)
  | qfence (mask : BitVec 8)
  | flag (q : BitVec 3) (sa sb : BitVec 6) (scope : Scope)
  | qwait (q : BitVec 3)
  | qstat (sd : BitVec 6) (q : BitVec 3)
  | probe (sd sa : BitVec 6) (cf : BitVec 3) (table : BitVec 2)
  | pinv (sa : BitVec 6) (table : BitVec 2) (mode : PinvMode)
  | ppin (sa : BitVec 6) (table : BitVec 2) (pin : Bool)
  | awinit (sa sb : BitVec 6)
  | await (sa sb : BitVec 6) (cf : BitVec 3) (t : BitVec 5)
  | atom (op : AtomOp) (sd sa sb : BitVec 6) (ord : Bool)
  | atomc (wide : Bool) (sd sa sb : BitVec 6) (ord : Bool)
  | fence (scope : Scope) (kind : FenceKind)
  | xfence (mask : BitVec 8) (dir : Bool)
  | vjoin
  | cbset (cb : BitVec 5) (field : BitVec 2) (sa : BitVec 6)
  | cbp (cb : BitVec 5) (n : BitVec 10)
  | cbc (cb : BitVec 5) (n : BitVec 10)
  | cbwf (cb : BitVec 5) (n : BitVec 10)
  | cbwe (cb : BitVec 5) (n : BitVec 10)
  | round (sa : BitVec 6) (tt : BitVec 3) (tag : BitVec 8)
  | rabort (tag : BitVec 8)
  -- events of a core's sequencer, pipeline and engines
  | bundleDispatch (c : CoreId)
  | bundleRetirement (c : CoreId)
  | resultLanding (c : CoreId)
  | preciseTrapEntry (c : CoreId)
  | impreciseTrapEntry (c : CoreId)
  | waitcExpiry (c : CoreId)
  | awaitTimeout (c : CoreId)
  | beatOverrun (c : CoreId)
  | rngRefill (c : CoreId)
  | currentLimiterFreeze (c : CoreId)
  | bandReady (c : CoreId)
  | queueEntryBegin (c : CoreId) (q : QueueId)
  | engineSourceRead (c : CoreId) (q : QueueId)
  | engineBlockWrite (c : CoreId) (q : QueueId)
  | entryCompletion (c : CoreId) (q : QueueId)
  | flagWritePerformed (c : CoreId) (q : QueueId)
  | qfenceMarkerComplete (c : CoreId) (q : QueueId)
  | remoteAccessPerform (n : Nat)
  | translationWalk (d : DieId)
  | followOnReceipt (c : CoreId) (q : QueueId)
  | mxeOpBegin (c : CoreId)
  | mxeOpComplete (c : CoreId)
  | arWordPerform (c : CoreId) (n : Nat)
  | afBlockArrival (c : CoreId) (q : QueueId)
  | afBlockPerform (c : CoreId) (array : Nat)
  | beatOpen (c : CoreId)
  | receiveBlockApply (port : PortId)
  | reductionContribution (n : Nat)
  | reductionEventReturn (c : CoreId)
  | atomicPerform (d : DieId) (bank : Nat)
  | atomicResponse (c : CoreId)
  | counterStamp (c : CoreId) (stamp : CountStamp)
  | bistPhaseComplete (k : StackId) (fails : List Nat)
  | bootStageComplete (ok : Bool) (out : BootOut)
  | checkpointDone (err : Bool)
  -- events of the link engines
  | timetableWindowOpen (d : DieId) (n : Nat)
  | roundEnd (d : DieId) (n : Nat)
  -- Confluence and power
  | confluencePost
  | clockChangeEffect
  | handshakeEnd
  | raiseWindow
  | memberLost
  | joinTimeout
  -- tasks
  | taskStart (c : CoreId)
  | preloadComplete (c : CoreId)
  | preemption (c : CoreId)
  | budgetExpiry (c : CoreId)
  | taskResume (c : CoreId)
  | taskEnd (c : CoreId)
  | taskRestart (c : CoreId)
  -- host message queues
  | cqNop (p : PartId)
  | endcores (p : PartId)
  | echo (p : PartId)
  -- host, partitions, security
  | attestationDurable (p : PartId)
  | partitionResetComplete (p : PartId)
  | debugHaltTaken (c : CoreId)
  -- main memory
  | hbmRefreshSlot (k : StackId) (pc : BitVec 9)
  -- power and bring-up
  | a2Entry (c : CoreId)
  | coreWake (c : CoreId)
  | waitgExpiry (c : CoreId)
  | refreshWindowEnd (k : StackId)
  -- from outside: the host, the wires, firmware, sensors
  | sensorSample (x : Sensors)
  | launch (p : PartId) (v : BitVec 64)
  | partset (x : PartsetArgs)
  | hostMemAccess (p : PartId) (addr : Nat) (op : HostOp) (len : Nat)
  | powerGood
  | registerWrite (r : HostReg) (v : BitVec 64)
  | d2dLinkFailure (a b : DieId)
  | cqhwiWrite (p : PartId) (v : BitVec 32)
  | dbgHalt (p : PartId) (v : BitVec 64)
  | dbgResume (p : PartId) (v : BitVec 64)
  | peerBlockArrival (port : PortId) (b : BlockArrival)
  | roundAbortNotice (port : PortId) (tag : BitVec 8)
  | portFailure (x : PortLoss)
  | postReceived (p : Post)
  | cflcfgJoin (v : BitVec 64)
  | cflcfgLeave (v : BitVec 64)
  | grantReceived (code : Nat) (epoch : Nat) (member : Nat) (stamp : BitVec 64) (members : List Post)
  | eqhriWrite (p : PartId) (v : BitVec 32)
  | cqReset (p : PartId)
  | eqReset (p : PartId)
  | eqstatRead (p : PartId)
  | tlbinv (p : PartId)
  | attestationRequest (p : PartId) (v : BitVec 64)
  | partreset
  | svncommit
  | power (target : PowerTo)
  | debug
  | reset
  | recover
  | idekey
  | dbgStep (p : PartId) (v : BitVec 64)
  | dbgdataAccess (p : PartId) (write : Option (BitVec 64))
  | dbgstatRead (p : PartId)
  | checkpointGo (v dst : BitVec 64)
  | ckptstatRead
  | hbmbistGo (k : StackId) (v : BitVec 64)
  | patEntryWrite (k : StackId) (i : BitVec 7) (v : BitVec 64)
  | hbmpartWrite (p : PartId) (v : BitVec 64)
  | hbmcfgWrite (k : StackId) (v : BitVec 64)
  | hbmstatRead (k : StackId)
  | portStatusRead (port : PortId)
  | stackTempSample (k : StackId) (x : StackSample)
  | powerLoss
  | coreIdleA1 (c : CoreId)
  | portRetraining (port : PortId) (x : Training)
  deriving DecidableEq, Repr

end Sys2Proof
end

