-- ==== Sys2Proof/Config.lean ====
section
/-!
DEFINITION. What one part fixes (fused values), and the free values: what the spec leaves open. A free value has no body: nothing
can be proved about which value it is, so a statement about it holds for every value.
-/
namespace Sys2Proof.Config

/-- FREE VALUE (log 6). Position of a remote access inside its R399 window: the number of cycles, reduced modulo the bound where it is used. -/
opaque freeDelay : Nat → Nat
/-- FREE VALUE (log 7). An either/or that the spec leaves open: old or new byte of a cross-view read (R174), of an overlapping copy (R187). -/
opaque freeBool : Nat → Bool
/-- FREE VALUE (log 8). The free physical row that the MC's own generator picks for a swap (R376). -/
opaque freeRow : Nat → Nat
/-- FREE VALUE (log 60). A byte of a destination buffer of a round that has ended badly (R303, R319). -/
opaque freeByte : Nat → Byte
/-- FREE VALUE (log 10). A 64-bit value that the spec describes and does not state (the opaque fields of a report, a mailbox result). -/
opaque freeWord : Nat → Word

/-- FREE VALUE (log 9). The bytes that a list of contents takes in a layout that the spec does not give: an attestation report, a certificate
(R392, R393). -/
opaque layout : List (List Byte) → List Byte

/-- Ed25519 verification, RFC 8032, pure (R391): public key, message, signature. A named standard, not restated by the spec (log 11). -/
opaque ed25519Verify : List Byte → List Byte → List Byte → Bool
/-- ML-DSA-65 verification, FIPS 204, pure, empty context (R391) (log 11). -/
opaque mldsaVerify : List Byte → List Byte → List Byte → Bool
/-- SHA3-512 (R391) (log 11). -/
opaque sha3_512 : List Byte → List Byte
/-- SHAKE256 with an output length in bytes (R392) (log 11). -/
opaque shake256 : List Byte → Nat → List Byte
/-- Public keys of a seed, Ed25519 then ML-DSA-65 (R392) (log 11). -/
opaque edPublic : List Byte → List Byte
opaque mldsaPublic : List Byte → List Byte
/-- Signatures under a seed (R393) (log 11). -/
opaque edSign : List Byte → List Byte → List Byte
opaque mldsaSign : List Byte → List Byte → List Byte

/-- Fused hash of the firmware keys (R391), the unique secret U (R392), the fuse counter (R391) and the floor code (R328) of the part (log 12). -/
opaque fusedKeyHash : List Byte
opaque uniqueSecret : List Byte
opaque fuseCtr : Nat
opaque floorCode : Nat
/-- The number by which a JOIN of this package names it (log 12). -/
opaque packageId : Nat
/-- How far the host link has fallen back from ×16 at 128 GT/s: its rate is divided by 2 to this power, at most 3 (R385) (log 12). -/
opaque linkLoss : Nat
/-- FREE VALUE (log 103). The outcome of a stage of bring-up that has used up its time: whether it succeeds, and what it reports (R397). -/
opaque bootOk : Nat → Bool
opaque bootOut : Nat → BootOut
/-- The layout of a debug token (R395), which the spec does not give: its length, and its message and signatures, Ed25519 then ML-DSA-65 (log 54). -/
opaque tokenLen : Nat
opaque tokenParts : List Byte → List Byte × List Byte × List Byte
/-- Firmware-set: the size of a partition's SYE overflow area in bytes, at most 1 GiB where it is used (R283) (log 12). -/
opaque overflowSize : Nat → Nat

end Sys2Proof.Config
end

