-- ==== Sys2Proof/WellFormed.lean ====
section
/-!
DEFINITION. Well-formed instructions: the limits the maps R32–R42 put on an operand beyond the width of its field, and the limits
on the operands of the events.
-/
namespace Sys2Proof

/-- "Int" of R36. -/
def VType.isInt : VType → Bool
  | .i8 | .i16 | .i32 => true
  | _ => false

/-- "Num" of R36: Int plus BF16, F16 and F32. -/
def VType.isNum : VType → Bool
  | .e4m3 | .e5m2 => false
  | _ => true

/-- Element size in bytes (R114). -/
def VType.bytes : VType → Nat
  | .i8 | .e4m3 | .e5m2 => 1
  | .i16 | .bf16 | .f16 => 2
  | .i32 | .f32 => 4

/-- Width in bits (R29). -/
def VWidth.bits : VWidth → Nat
  | .w256 => 256
  | .w512 => 512
  | .w1024 => 1024

/-- Number of elements of a type at a width (R114). -/
def VWidth.elems (w : VWidth) (t : VType) : Nat := w.bits / (8 * t.bytes)

/-- Element size in bits of a conversion code (R140, R151). -/
def Cvt.bits : Cvt → Nat
  | .i16 | .bf16 | .f16 => 16
  | .i32 | .f32 => 32
  | .e2m1 => 4
  | _ => 8

/-- The numbers of R93: a special register is assigned. -/
def sprAssigned (n : BitVec 10) : Bool :=
  let k := n.toNat
  k ≤ 0x02A || (0x030 ≤ k && k ≤ 0x034) || k = 0x038 || k = 0x039 || (0x040 ≤ k && k ≤ 0x046) || k = 0x050

/-- The numbers of R93 whose access is RW or P: a MOVRS to them decodes (R32, R89). -/
def sprWritable (n : BitVec 10) : Bool :=
  let k := n.toNat
  k = 0x005 || k = 0x008 || k = 0x009 || k = 0x00A || k = 0x00C || k = 0x00D || k = 0x00E || k = 0x00F || k = 0x012 ||
  k = 0x015 || k = 0x016 || k = 0x029 || k = 0x02A || (0x030 ≤ k && k ≤ 0x034) || (0x040 ≤ k && k ≤ 0x046)

/-- Shift amounts of the immediate shifts lie in 0–63 (R34, R105). -/
def shiftImm (i : BitVec 11) : Bool := i.toNat ≤ 63

/-- A conversion pair of XCVT (R151): codes 0–10, different; XCVTH needs different element sizes. -/
def cvtPair (high : Bool) (s d : Cvt) : Bool :=
  s != d && s != .mxint8 && s != .e8m0 && d != .mxint8 && d != .e8m0 && (!high || s.bits != d.bits)

/-- An element format of an MX block: codes 6–11 (R142, R152). -/
def Cvt.isMx : Cvt → Bool
  | .e4m3 | .e5m2 | .e3m2 | .e2m3 | .e2m1 | .mxint8 => true
  | _ => false

/-- Codes 0–5: the types XUNPLANE writes (R155). -/
def Cvt.isPlain : Cvt → Bool
  | .i8 | .i16 | .i32 | .bf16 | .f16 | .f32 => true
  | _ => false

/-- The limits of R32–R42 on the operands of a slot word, and the ranges of the operands of the events. -/
def Instr.wf : Instr → Bool
  | .loop _ off => off != 0
  | .loopReg _ off => off != 0
  | .loopx n => 1 ≤ n.toNat && n.toNat ≤ 6
  | .movsr _ spr => sprAssigned spr
  | .movrs _ spr => sprWritable spr
  | .align mode => mode.toNat ≤ 1
  | .phase level => level.toNat ≤ 5
  | .spawn _ core => core.toNat ≤ 95
  | .shli _ _ i | .shri _ _ i | .sari _ _ i => shiftImm i
  | .ld _ _ size sx _ => !(size == .d && sx)
  | .vadd _ t _ _ _ | .vsub _ t _ _ _ | .vmul _ t _ _ _ | .vfma _ t _ _ _ | .vmin _ t _ _ _ | .vmax _ t _ _ _ => t.isNum
  | .vminu _ t _ _ _ | .vmaxu _ t _ _ _ => t.isInt
  | .vshl _ t _ _ _ | .vshr _ t _ _ _ | .vsar _ t _ _ _ | .vadds _ t _ _ _ | .vsubs _ t _ _ _ => t.isInt
  | .vaddsc _ t _ _ _ | .vmulsc _ t _ _ _ => t.isNum
  | .vcmp _ t _ pd _ _ => t.isNum && pd != 0
  | .vunary _ t op _ _ _ => match op with
    | .abs | .neg => t.isNum
    | .not | .clz | .popc => t.isInt
  | .vsfu _ t _ _ _ _ => t == .f32
  | .vred _ t _ _ _ _ | .vscan _ t _ _ _ _ => t == .i32 || t == .f32
  | .vdot4 _ t _ _ _ => t == .i8
  | .vdot2 _ t _ _ _ => t == .bf16 || t == .f16
  | .vdot16 _ t _ _ _ => t == .e4m3 || t == .e5m2
  | .viota _ t _ _ => t.isInt
  | .vext w t _ _ idx | .vins w t _ _ idx => idx.toNat < w.elems t
  | .xnet _ _ va => va.toNat % 2 == 0
  | .xcvt s d _ _ _ _ => cvtPair false s d
  | .xcvth s d _ _ _ _ => cvtPair true s d
  | .xmx s d _ _ _ _ => s == .f32 && d.isMx
  | .xmxd s d _ _ _ _ => s.isMx && d == .f32
  | .xplane t _ rnd _ _ => t != .e8m0 && rnd != .rup
  | .xunplane t _ rnd _ _ _ => t.isPlain && rnd != .rup
  | .adset _ f _ => f.toNat ≤ 5
  | .arop _ _ op _ ew _ imm => match op with
    | .shl | .sar => imm.toNat < (match ew with | .b8 => 8 | .b16 => 16 | .b32 => 32)
    | _ => imm == 0
  | .pinv sa _ mode => mode != .all || sa == 0
  | .afBlockPerform _ a => a < 64
  | .atomicPerform _ b => b < 16
  | .sensorSample x => x.thermal.length = 4 && x.thermal.all (·.length = 16) && x.current.length = 4 && x.current.all (·.length = 6) &&
      x.limits.length = 4 && x.limits.all (·.length = 6)
  | .stackTempSample _ x => x.temps.length = 4
  | .postReceived p => p.member < 64 && p.limit ≤ 72
  | .grantReceived code _ member _ _ => code ≤ 72 && member < 64
  | _ => true

end Sys2Proof
end

