-- ==== Sys2Proof/Decode.lean ====
section
/-!
DEFINITION. The decoder of the eight slot maps (R25–R43), total on any word and rejecting by name; the encoder from the same
tables; bundles (R23, R37); and the bit-field helpers.
-/
namespace Sys2Proof

/-- Why a word is not an instruction (the list of R43). -/
inductive Reject where
  /-- OP = 0 with an operand bit set -/
  | opZero
  /-- an OP marked illegal in its slot's map -/
  | badOp
  /-- a nonzero bit in a field that a row requires to be zero -/
  | zeroField
  /-- a reserved or illegal code in a field of R28–R42 -/
  | badCode
  /-- a field that names p0 as a destination -/
  | p0Dest
  /-- a bundle that breaks R37 -/
  | lanes
  deriving DecidableEq, Repr

/-- `bits w lo len`: the field of `len` bits whose least significant bit is bit `lo` (R7). -/
def bits (w : SWord) (lo len : Nat) : BitVec len := w.extractLsb' lo len

/-- A field that must be zero. -/
def zeroAt (w : SWord) (lo len : Nat) : Bool := bits w lo len == 0#len

/-- The code of `VWidth` in an encoding. -/
def VWidth.code : VWidth → BitVec 2
  | .w256 => 0#2
  | .w512 => 1#2
  | .w1024 => 2#2

/-- Read a code of `VWidth`; codes with no meaning are illegal (R43). -/
def VWidth.ofCode (c : BitVec 2) : Option VWidth :=
  match c.toNat with
  | 0 => some .w256
  | 1 => some .w512
  | 2 => some .w1024
  | _ => none

/-- The code of `VType` in an encoding. -/
def VType.code : VType → BitVec 3
  | .i8 => 0#3
  | .i16 => 1#3
  | .i32 => 2#3
  | .bf16 => 3#3
  | .f16 => 4#3
  | .f32 => 5#3
  | .e4m3 => 6#3
  | .e5m2 => 7#3

/-- Read a code of `VType`; codes with no meaning are illegal (R43). -/
def VType.ofCode (c : BitVec 3) : Option VType :=
  match c.toNat with
  | 0 => some .i8
  | 1 => some .i16
  | 2 => some .i32
  | 3 => some .bf16
  | 4 => some .f16
  | 5 => some .f32
  | 6 => some .e4m3
  | _ => some .e5m2

/-- The code of `Cond` in an encoding. -/
def Cond.code : Cond → BitVec 4
  | .eq => 0#4
  | .ne => 1#4
  | .lt => 2#4
  | .ge => 3#4
  | .ltu => 4#4
  | .geu => 5#4
  | .le => 6#4
  | .gt => 7#4
  | .leu => 8#4
  | .gtu => 9#4
  | .bits => 10#4
  | .nobits => 11#4

/-- Read a code of `Cond`; codes with no meaning are illegal (R43). -/
def Cond.ofCode (c : BitVec 4) : Option Cond :=
  match c.toNat with
  | 0 => some .eq
  | 1 => some .ne
  | 2 => some .lt
  | 3 => some .ge
  | 4 => some .ltu
  | 5 => some .geu
  | 6 => some .le
  | 7 => some .gt
  | 8 => some .leu
  | 9 => some .gtu
  | 10 => some .bits
  | 11 => some .nobits
  | _ => none

/-- The code of `VCond` in an encoding. -/
def VCond.code : VCond → BitVec 3
  | .eq => 0#3
  | .ne => 1#3
  | .lt => 2#3
  | .le => 3#3
  | .ltuUn => 4#3
  | .leuOrd => 5#3
  | .gt => 6#3
  | .gtuGe => 7#3

/-- Read a code of `VCond`; codes with no meaning are illegal (R43). -/
def VCond.ofCode (c : BitVec 3) : Option VCond :=
  match c.toNat with
  | 0 => some .eq
  | 1 => some .ne
  | 2 => some .lt
  | 3 => some .le
  | 4 => some .ltuUn
  | 5 => some .leuOrd
  | 6 => some .gt
  | _ => some .gtuGe

/-- The code of `FCond` in an encoding. -/
def FCond.code : FCond → BitVec 3
  | .eq => 0#3
  | .lt => 1#3
  | .le => 2#3
  | .un => 3#3

/-- Read a code of `FCond`; codes with no meaning are illegal (R43). -/
def FCond.ofCode (c : BitVec 3) : Option FCond :=
  match c.toNat with
  | 0 => some .eq
  | 1 => some .lt
  | 2 => some .le
  | 3 => some .un
  | _ => none

/-- The code of `Cvt` in an encoding. -/
def Cvt.code : Cvt → BitVec 4
  | .i8 => 0#4
  | .i16 => 1#4
  | .i32 => 2#4
  | .bf16 => 3#4
  | .f16 => 4#4
  | .f32 => 5#4
  | .e4m3 => 6#4
  | .e5m2 => 7#4
  | .e3m2 => 8#4
  | .e2m3 => 9#4
  | .e2m1 => 10#4
  | .mxint8 => 11#4
  | .e8m0 => 12#4

/-- Read a code of `Cvt`; codes with no meaning are illegal (R43). -/
def Cvt.ofCode (c : BitVec 4) : Option Cvt :=
  match c.toNat with
  | 0 => some .i8
  | 1 => some .i16
  | 2 => some .i32
  | 3 => some .bf16
  | 4 => some .f16
  | 5 => some .f32
  | 6 => some .e4m3
  | 7 => some .e5m2
  | 8 => some .e3m2
  | 9 => some .e2m3
  | 10 => some .e2m1
  | 11 => some .mxint8
  | 12 => some .e8m0
  | _ => none

/-- The code of `Rnd` in an encoding. -/
def Rnd.code : Rnd → BitVec 2
  | .rne => 0#2
  | .rtz => 1#2
  | .sr => 2#2
  | .rup => 3#2

/-- Read a code of `Rnd`; codes with no meaning are illegal (R43). -/
def Rnd.ofCode (c : BitVec 2) : Option Rnd :=
  match c.toNat with
  | 0 => some .rne
  | 1 => some .rtz
  | 2 => some .sr
  | _ => some .rup

/-- The code of `Scope` in an encoding. -/
def Scope.code : Scope → BitVec 4
  | .queue => 0#4
  | .slot => 1#4
  | .core => 2#4
  | .cluster => 3#4
  | .half => 4#4
  | .die => 5#4
  | .package => 6#4
  | .partition => 7#4
  | .host => 8#4
  | .peer => 9#4
  | .group => 10#4
  | .system => 11#4

/-- Read a code of `Scope`; codes with no meaning are illegal (R43). -/
def Scope.ofCode (c : BitVec 4) : Option Scope :=
  match c.toNat with
  | 0 => some .queue
  | 1 => some .slot
  | 2 => some .core
  | 3 => some .cluster
  | 4 => some .half
  | 5 => some .die
  | 6 => some .package
  | 7 => some .partition
  | 8 => some .host
  | 9 => some .peer
  | 10 => some .group
  | 11 => some .system
  | _ => none

/-- The code of `SSize` in an encoding. -/
def SSize.code : SSize → BitVec 2
  | .b => 0#2
  | .h => 1#2
  | .w => 2#2
  | .d => 3#2

/-- Read a code of `SSize`; codes with no meaning are illegal (R43). -/
def SSize.ofCode (c : BitVec 2) : Option SSize :=
  match c.toNat with
  | 0 => some .b
  | 1 => some .h
  | 2 => some .w
  | _ => some .d

/-- The code of `CfOp` in an encoding. -/
def CfOp.code : CfOp → BitVec 2
  | .and => 0#2
  | .or => 1#2
  | .xor => 2#2
  | .andn => 3#2

/-- Read a code of `CfOp`; codes with no meaning are illegal (R43). -/
def CfOp.ofCode (c : BitVec 2) : Option CfOp :=
  match c.toNat with
  | 0 => some .and
  | 1 => some .or
  | 2 => some .xor
  | _ => some .andn

/-- The code of `UnOp` in an encoding. -/
def UnOp.code : UnOp → BitVec 3
  | .abs => 0#3
  | .neg => 1#3
  | .not => 2#3
  | .clz => 3#3
  | .popc => 4#3

/-- Read a code of `UnOp`; codes with no meaning are illegal (R43). -/
def UnOp.ofCode (c : BitVec 3) : Option UnOp :=
  match c.toNat with
  | 0 => some .abs
  | 1 => some .neg
  | 2 => some .not
  | 3 => some .clz
  | 4 => some .popc
  | _ => none

/-- The code of `SfuFn` in an encoding. -/
def SfuFn.code : SfuFn → BitVec 3
  | .rcp => 0#3
  | .rsqrt => 1#3
  | .exp2 => 2#3
  | .log2 => 3#3

/-- Read a code of `SfuFn`; codes with no meaning are illegal (R43). -/
def SfuFn.ofCode (c : BitVec 3) : Option SfuFn :=
  match c.toNat with
  | 0 => some .rcp
  | 1 => some .rsqrt
  | 2 => some .exp2
  | 3 => some .log2
  | _ => none

/-- The code of `RedFn` in an encoding. -/
def RedFn.code : RedFn → BitVec 3
  | .sum => 0#3
  | .max => 1#3
  | .min => 2#3

/-- Read a code of `RedFn`; codes with no meaning are illegal (R43). -/
def RedFn.ofCode (c : BitVec 3) : Option RedFn :=
  match c.toNat with
  | 0 => some .sum
  | 1 => some .max
  | 2 => some .min
  | _ => none

/-- The code of `ArFn` in an encoding. -/
def ArFn.code : ArFn → BitVec 3
  | .add => 0#3
  | .sub => 1#3
  | .shl => 2#3
  | .sar => 3#3
  | .max => 4#3
  | .min => 5#3
  | .copy => 6#3
  | .zero => 7#3

/-- Read a code of `ArFn`; codes with no meaning are illegal (R43). -/
def ArFn.ofCode (c : BitVec 3) : Option ArFn :=
  match c.toNat with
  | 0 => some .add
  | 1 => some .sub
  | 2 => some .shl
  | 3 => some .sar
  | 4 => some .max
  | 5 => some .min
  | 6 => some .copy
  | _ => some .zero

/-- The code of `ArWidth` in an encoding. -/
def ArWidth.code : ArWidth → BitVec 2
  | .b8 => 0#2
  | .b16 => 1#2
  | .b32 => 2#2

/-- Read a code of `ArWidth`; codes with no meaning are illegal (R43). -/
def ArWidth.ofCode (c : BitVec 2) : Option ArWidth :=
  match c.toNat with
  | 0 => some .b8
  | 1 => some .b16
  | 2 => some .b32
  | _ => none

/-- The code of `WFmt` in an encoding. -/
def WFmt.code : WFmt → BitVec 4
  | .mxint8 => 0#4
  | .mxe4m3 => 1#4
  | .mxe5m2 => 2#4
  | .mxe3m2 => 3#4
  | .mxe2m3 => 4#4
  | .mxe2m1 => 5#4
  | .bf16 => 6#4
  | .f16 => 7#4

/-- Read a code of `WFmt`; codes with no meaning are illegal (R43). -/
def WFmt.ofCode (c : BitVec 4) : Option WFmt :=
  match c.toNat with
  | 0 => some .mxint8
  | 1 => some .mxe4m3
  | 2 => some .mxe5m2
  | 3 => some .mxe3m2
  | 4 => some .mxe2m3
  | 5 => some .mxe2m1
  | 6 => some .bf16
  | 7 => some .f16
  | _ => none

/-- The code of `OutFmt` in an encoding. -/
def OutFmt.code : OutFmt → BitVec 4
  | .i32 => 2#4
  | .bf16 => 3#4
  | .f16 => 4#4
  | .f32 => 5#4
  | .e4m3 => 6#4
  | .e5m2 => 7#4

/-- Read a code of `OutFmt`; codes with no meaning are illegal (R43). -/
def OutFmt.ofCode (c : BitVec 4) : Option OutFmt :=
  match c.toNat with
  | 2 => some .i32
  | 3 => some .bf16
  | 4 => some .f16
  | 5 => some .f32
  | 6 => some .e4m3
  | 7 => some .e5m2
  | _ => none

/-- The code of `RedOp` in an encoding. -/
def RedOp.code : RedOp → BitVec 4
  | .addF32 => 0#4
  | .addBf16 => 1#4
  | .addI32 => 2#4
  | .maxF32 => 3#4
  | .minF32 => 4#4
  | .maxI32 => 5#4

/-- Read a code of `RedOp`; codes with no meaning are illegal (R43). -/
def RedOp.ofCode (c : BitVec 4) : Option RedOp :=
  match c.toNat with
  | 0 => some .addF32
  | 1 => some .addBf16
  | 2 => some .addI32
  | 3 => some .maxF32
  | 4 => some .minF32
  | 5 => some .maxI32
  | _ => none

/-- The code of `AtomOp` in an encoding. -/
def AtomOp.code : AtomOp → BitVec 4
  | .addI32 => 0#4
  | .addI64 => 1#4
  | .and => 2#4
  | .or => 3#4
  | .xor => 4#4
  | .minI32 => 5#4
  | .maxI32 => 6#4
  | .minu => 7#4
  | .maxu => 8#4
  | .swap32 => 9#4
  | .swap64 => 10#4
  | .faddF32 => 11#4
  | .faddBf16x2 => 12#4
  | .fmaxF32 => 13#4
  | .fminF32 => 14#4

/-- Read a code of `AtomOp`; codes with no meaning are illegal (R43). -/
def AtomOp.ofCode (c : BitVec 4) : Option AtomOp :=
  match c.toNat with
  | 0 => some .addI32
  | 1 => some .addI64
  | 2 => some .and
  | 3 => some .or
  | 4 => some .xor
  | 5 => some .minI32
  | 6 => some .maxI32
  | 7 => some .minu
  | 8 => some .maxu
  | 9 => some .swap32
  | 10 => some .swap64
  | 11 => some .faddF32
  | 12 => some .faddBf16x2
  | 13 => some .fmaxF32
  | 14 => some .fminF32
  | _ => none

/-- The code of `PinvMode` in an encoding. -/
def PinvMode.code : PinvMode → BitVec 2
  | .addr => 0#2
  | .slot => 1#2
  | .all => 2#2

/-- Read a code of `PinvMode`; codes with no meaning are illegal (R43). -/
def PinvMode.ofCode (c : BitVec 2) : Option PinvMode :=
  match c.toNat with
  | 0 => some .addr
  | 1 => some .slot
  | 2 => some .all
  | _ => none

/-- The code of `FenceKind` in an encoding. -/
def FenceKind.code : FenceKind → BitVec 2
  | .full => 0#2
  | .acquire => 1#2
  | .release => 2#2

/-- Read a code of `FenceKind`; codes with no meaning are illegal (R43). -/
def FenceKind.ofCode (c : BitVec 2) : Option FenceKind :=
  match c.toNat with
  | 0 => some .full
  | 1 => some .acquire
  | 2 => some .release
  | _ => none

/-- The CTL map (R32). -/
def rawCtl (w : SWord) : Except Reject Instr :=
  match (bits w 23 6).toNat with
  | 0x00 => if zeroAt w 0 23 then .ok .nop else .error .opZero
  | 0x01 => if zeroAt w 0 23 then .ok (.halt) else .error .zeroField
  | 0x02 => if zeroAt w 0 23 then .ok (.yield) else .error .zeroField
  | 0x03 => if zeroAt w 0 7 then .ok (.trap (bits w 7 16)) else .error .zeroField
  | 0x04 => if zeroAt w 0 23 then .ok (.rett) else .error .zeroField
  | 0x05 => .ok (.pbt (bits w 20 3) (bits w 0 20))
  | 0x06 => if zeroAt w 0 14 then .ok (.pbtr (bits w 20 3) (bits w 14 6)) else .error .zeroField
  | 0x07 => if w.getLsbD 15 = false then (if zeroAt w 15 1 && zeroAt w 0 15 then .ok (.br (bits w 20 3) (bits w 17 3) (w.getLsbD 16)) else .error .zeroField) else (if zeroAt w 16 4 && w.getLsbD 15 && zeroAt w 0 15 then .ok (.brAlways (bits w 20 3)) else .error .zeroField)
  | 0x08 => if zeroAt w 16 4 && w.getLsbD 15 && zeroAt w 0 15 then .ok (.call (bits w 20 3)) else .error .zeroField
  | 0x09 => if zeroAt w 0 23 then .ok (.ret) else .error .zeroField
  | 0x0A => if zeroAt w 0 4 then (match Cond.ofCode (bits w 16 4) with | some c' => .ok (.cmp (bits w 20 3) c' (bits w 10 6) (bits w 4 6)) | _ => .error .badCode) else .error .zeroField
  | 0x0B => (match Cond.ofCode (bits w 16 4) with | some c' => .ok (.cmpi (bits w 20 3) c' (bits w 10 6) (bits w 0 10)) | _ => .error .badCode)
  | 0x0C => if zeroAt w 0 12 then (match CfOp.ofCode (bits w 12 2) with | some op' => .ok (.cfop (bits w 20 3) (bits w 17 3) (bits w 14 3) op') | _ => .error .badCode) else .error .zeroField
  | 0x0D => if zeroAt w 0 15 then (match VWidth.ofCode (bits w 15 2) with | some w' => .ok (.vany (bits w 20 3) (bits w 17 3) w') | _ => .error .badCode) else .error .zeroField
  | 0x0E => if zeroAt w 0 15 then (match VWidth.ofCode (bits w 15 2) with | some w' => .ok (.vall (bits w 20 3) (bits w 17 3) w') | _ => .error .badCode) else .error .zeroField
  | 0x0F => if w.getLsbD 22 = false then (if zeroAt w 22 1 then .ok (.loop (bits w 12 10) (bits w 0 12)) else .error .zeroField) else (if w.getLsbD 22 && zeroAt w 12 4 then .ok (.loopReg (bits w 16 6) (bits w 0 12)) else .error .zeroField)
  | 0x10 => if zeroAt w 0 20 then .ok (.loopx (bits w 20 3)) else .error .zeroField
  | 0x11 => if zeroAt w 0 7 then .ok (.movsr (bits w 17 6) (bits w 7 10)) else .error .zeroField
  | 0x12 => if zeroAt w 0 7 then .ok (.movrs (bits w 17 6) (bits w 7 10)) else .error .zeroField
  | 0x13 => if zeroAt w 0 7 then .ok (.waitc (bits w 7 16)) else .error .zeroField
  | 0x14 => if zeroAt w 0 17 then .ok (.waitg (bits w 17 6)) else .error .zeroField
  | 0x15 => if zeroAt w 0 7 then .ok (.align (bits w 7 16)) else .error .zeroField
  | 0x16 => if zeroAt w 0 20 then .ok (.phase (bits w 20 3)) else .error .zeroField
  | 0x17 => if zeroAt w 0 10 then .ok (.spawn (bits w 17 6) (bits w 10 7)) else .error .zeroField
  | 0x18 => if zeroAt w 0 7 then .ok (.abeat (bits w 7 16)) else .error .zeroField
  | _ => .error .badOp

/-- The SCA map (R33, R34). -/
def rawSca (w : SWord) : Except Reject Instr :=
  match (bits w 23 6).toNat with
  | 0x00 => if zeroAt w 0 23 then .ok .nop else .error .opZero
  | 0x01 => if zeroAt w 0 5 then .ok (.add (bits w 17 6) (bits w 11 6) (bits w 5 6)) else .error .zeroField
  | 0x02 => if zeroAt w 0 5 then .ok (.sub (bits w 17 6) (bits w 11 6) (bits w 5 6)) else .error .zeroField
  | 0x03 => if zeroAt w 0 5 then .ok (.and (bits w 17 6) (bits w 11 6) (bits w 5 6)) else .error .zeroField
  | 0x04 => if zeroAt w 0 5 then .ok (.or (bits w 17 6) (bits w 11 6) (bits w 5 6)) else .error .zeroField
  | 0x05 => if zeroAt w 0 5 then .ok (.xor (bits w 17 6) (bits w 11 6) (bits w 5 6)) else .error .zeroField
  | 0x06 => if zeroAt w 0 5 then .ok (.shl (bits w 17 6) (bits w 11 6) (bits w 5 6)) else .error .zeroField
  | 0x07 => if zeroAt w 0 5 then .ok (.shr (bits w 17 6) (bits w 11 6) (bits w 5 6)) else .error .zeroField
  | 0x08 => if zeroAt w 0 5 then .ok (.sar (bits w 17 6) (bits w 11 6) (bits w 5 6)) else .error .zeroField
  | 0x09 => if zeroAt w 0 5 then .ok (.mul (bits w 17 6) (bits w 11 6) (bits w 5 6)) else .error .zeroField
  | 0x0A => if zeroAt w 0 5 then .ok (.mulh (bits w 17 6) (bits w 11 6) (bits w 5 6)) else .error .zeroField
  | 0x0B => if zeroAt w 0 5 then .ok (.mulhu (bits w 17 6) (bits w 11 6) (bits w 5 6)) else .error .zeroField
  | 0x0C => if zeroAt w 0 5 then .ok (.div (bits w 17 6) (bits w 11 6) (bits w 5 6)) else .error .zeroField
  | 0x0D => if zeroAt w 0 5 then .ok (.divu (bits w 17 6) (bits w 11 6) (bits w 5 6)) else .error .zeroField
  | 0x0E => if zeroAt w 0 5 then .ok (.rem (bits w 17 6) (bits w 11 6) (bits w 5 6)) else .error .zeroField
  | 0x0F => if zeroAt w 0 5 then .ok (.remu (bits w 17 6) (bits w 11 6) (bits w 5 6)) else .error .zeroField
  | 0x10 => if zeroAt w 0 5 then .ok (.min (bits w 17 6) (bits w 11 6) (bits w 5 6)) else .error .zeroField
  | 0x11 => if zeroAt w 0 5 then .ok (.max (bits w 17 6) (bits w 11 6) (bits w 5 6)) else .error .zeroField
  | 0x12 => if zeroAt w 0 5 then .ok (.minu (bits w 17 6) (bits w 11 6) (bits w 5 6)) else .error .zeroField
  | 0x13 => if zeroAt w 0 5 then .ok (.maxu (bits w 17 6) (bits w 11 6) (bits w 5 6)) else .error .zeroField
  | 0x14 => if zeroAt w 0 2 then .ok (.sel (bits w 17 6) (bits w 11 6) (bits w 5 6) (bits w 2 3)) else .error .zeroField
  | 0x15 => if zeroAt w 0 11 then .ok (.clz (bits w 17 6) (bits w 11 6)) else .error .zeroField
  | 0x16 => if zeroAt w 0 11 then .ok (.popc (bits w 17 6) (bits w 11 6)) else .error .zeroField
  | 0x18 => .ok (.addi (bits w 17 6) (bits w 11 6) (bits w 0 11))
  | 0x19 => .ok (.andi (bits w 17 6) (bits w 11 6) (bits w 0 11))
  | 0x1A => .ok (.ori (bits w 17 6) (bits w 11 6) (bits w 0 11))
  | 0x1B => .ok (.xori (bits w 17 6) (bits w 11 6) (bits w 0 11))
  | 0x1C => .ok (.shli (bits w 17 6) (bits w 11 6) (bits w 0 11))
  | 0x1D => .ok (.shri (bits w 17 6) (bits w 11 6) (bits w 0 11))
  | 0x1E => .ok (.sari (bits w 17 6) (bits w 11 6) (bits w 0 11))
  | 0x1F => .ok (.movi (bits w 17 6) (bits w 0 17))
  | 0x20 => .ok (.movk (bits w 17 6) (bits w 0 17))
  | 0x24 => (match SSize.ofCode (bits w 11 2) with | some size' => .ok (.ld (bits w 17 6) (bits w 13 4) size' (w.getLsbD 10) (bits w 0 10)) | _ => .error .badCode)
  | 0x25 => if zeroAt w 10 1 then (match SSize.ofCode (bits w 11 2) with | some size' => .ok (.st (bits w 17 6) (bits w 13 4) size' (bits w 0 10)) | _ => .error .badCode) else .error .zeroField
  | 0x26 => if zeroAt w 0 7 then (match SSize.ofCode (bits w 11 2), Scope.ofCode (bits w 7 4) with | some size', some scope' => .ok (.lda (bits w 17 6) (bits w 13 4) size' scope') | _, _ => .error .badCode) else .error .zeroField
  | 0x27 => if zeroAt w 0 7 then (match SSize.ofCode (bits w 11 2), Scope.ofCode (bits w 7 4) with | some size', some scope' => .ok (.stl (bits w 17 6) (bits w 13 4) size' scope') | _, _ => .error .badCode) else .error .zeroField
  | 0x28 => if zeroAt w 0 10 then .ok (.aset (bits w 19 4) (bits w 16 3) (bits w 10 6)) else .error .zeroField
  | 0x29 => if zeroAt w 0 10 then .ok (.aget (bits w 17 6) (bits w 13 4) (bits w 10 3)) else .error .zeroField
  | 0x30 => if zeroAt w 0 5 then .ok (.fadd (bits w 17 6) (bits w 11 6) (bits w 5 6)) else .error .zeroField
  | 0x31 => if zeroAt w 0 5 then .ok (.fsub (bits w 17 6) (bits w 11 6) (bits w 5 6)) else .error .zeroField
  | 0x32 => if zeroAt w 0 5 then .ok (.fmul (bits w 17 6) (bits w 11 6) (bits w 5 6)) else .error .zeroField
  | 0x33 => if zeroAt w 0 5 then .ok (.fma (bits w 17 6) (bits w 11 6) (bits w 5 6)) else .error .zeroField
  | 0x34 => if zeroAt w 0 5 then .ok (.fmin (bits w 17 6) (bits w 11 6) (bits w 5 6)) else .error .zeroField
  | 0x35 => if zeroAt w 0 5 then .ok (.fmax (bits w 17 6) (bits w 11 6) (bits w 5 6)) else .error .zeroField
  | 0x36 => if zeroAt w 0 2 then (match FCond.ofCode (bits w 2 3) with | some c' => .ok (.fcmp (bits w 17 6) (bits w 11 6) (bits w 5 6) c') | _ => .error .badCode) else .error .zeroField
  | 0x37 => if zeroAt w 0 11 then .ok (.fcvtif (bits w 17 6) (bits w 11 6)) else .error .zeroField
  | 0x38 => if zeroAt w 4 7 && zeroAt w 0 3 then .ok (.fcvtfi (bits w 17 6) (bits w 11 6) (w.getLsbD 3)) else .error .zeroField
  | 0x39 => if zeroAt w 0 11 then .ok (.fneg (bits w 17 6) (bits w 11 6)) else .error .zeroField
  | 0x3A => if zeroAt w 0 11 then .ok (.fabs (bits w 17 6) (bits w 11 6)) else .error .zeroField
  | _ => .error .badOp

/-- The vector map of VA and VB (R35, R36). -/
def rawVec (w : SWord) : Except Reject Instr :=
  match (bits w 23 6).toNat with
  | 0x00 => if zeroAt w 0 23 then .ok .nop else .error .opZero
  | 0x01 => (match VWidth.ofCode (bits w 21 2), VType.ofCode (bits w 18 3) with | some w', some t' => .ok (.vadd w' t' (bits w 12 6) (bits w 6 6) (bits w 0 6)) | _, _ => .error .badCode)
  | 0x02 => (match VWidth.ofCode (bits w 21 2), VType.ofCode (bits w 18 3) with | some w', some t' => .ok (.vsub w' t' (bits w 12 6) (bits w 6 6) (bits w 0 6)) | _, _ => .error .badCode)
  | 0x03 => (match VWidth.ofCode (bits w 21 2), VType.ofCode (bits w 18 3) with | some w', some t' => .ok (.vmul w' t' (bits w 12 6) (bits w 6 6) (bits w 0 6)) | _, _ => .error .badCode)
  | 0x04 => (match VWidth.ofCode (bits w 21 2), VType.ofCode (bits w 18 3) with | some w', some t' => .ok (.vfma w' t' (bits w 12 6) (bits w 6 6) (bits w 0 6)) | _, _ => .error .badCode)
  | 0x05 => (match VWidth.ofCode (bits w 21 2), VType.ofCode (bits w 18 3) with | some w', some t' => .ok (.vmin w' t' (bits w 12 6) (bits w 6 6) (bits w 0 6)) | _, _ => .error .badCode)
  | 0x06 => (match VWidth.ofCode (bits w 21 2), VType.ofCode (bits w 18 3) with | some w', some t' => .ok (.vmax w' t' (bits w 12 6) (bits w 6 6) (bits w 0 6)) | _, _ => .error .badCode)
  | 0x07 => (match VWidth.ofCode (bits w 21 2), VType.ofCode (bits w 18 3) with | some w', some t' => .ok (.vminu w' t' (bits w 12 6) (bits w 6 6) (bits w 0 6)) | _, _ => .error .badCode)
  | 0x08 => (match VWidth.ofCode (bits w 21 2), VType.ofCode (bits w 18 3) with | some w', some t' => .ok (.vmaxu w' t' (bits w 12 6) (bits w 6 6) (bits w 0 6)) | _, _ => .error .badCode)
  | 0x09 => (match VWidth.ofCode (bits w 21 2), VType.ofCode (bits w 18 3) with | some w', some t' => .ok (.vand w' t' (bits w 12 6) (bits w 6 6) (bits w 0 6)) | _, _ => .error .badCode)
  | 0x0A => (match VWidth.ofCode (bits w 21 2), VType.ofCode (bits w 18 3) with | some w', some t' => .ok (.vor w' t' (bits w 12 6) (bits w 6 6) (bits w 0 6)) | _, _ => .error .badCode)
  | 0x0B => (match VWidth.ofCode (bits w 21 2), VType.ofCode (bits w 18 3) with | some w', some t' => .ok (.vxor w' t' (bits w 12 6) (bits w 6 6) (bits w 0 6)) | _, _ => .error .badCode)
  | 0x0C => (match VWidth.ofCode (bits w 21 2), VType.ofCode (bits w 18 3) with | some w', some t' => .ok (.vandn w' t' (bits w 12 6) (bits w 6 6) (bits w 0 6)) | _, _ => .error .badCode)
  | 0x0D => (match VWidth.ofCode (bits w 21 2), VType.ofCode (bits w 18 3) with | some w', some t' => .ok (.vshl w' t' (bits w 12 6) (bits w 6 6) (bits w 0 6)) | _, _ => .error .badCode)
  | 0x0E => (match VWidth.ofCode (bits w 21 2), VType.ofCode (bits w 18 3) with | some w', some t' => .ok (.vshr w' t' (bits w 12 6) (bits w 6 6) (bits w 0 6)) | _, _ => .error .badCode)
  | 0x0F => (match VWidth.ofCode (bits w 21 2), VType.ofCode (bits w 18 3) with | some w', some t' => .ok (.vsar w' t' (bits w 12 6) (bits w 6 6) (bits w 0 6)) | _, _ => .error .badCode)
  | 0x10 => (match VWidth.ofCode (bits w 21 2), VType.ofCode (bits w 18 3) with | some w', some t' => .ok (.vadds w' t' (bits w 12 6) (bits w 6 6) (bits w 0 6)) | _, _ => .error .badCode)
  | 0x11 => (match VWidth.ofCode (bits w 21 2), VType.ofCode (bits w 18 3) with | some w', some t' => .ok (.vsubs w' t' (bits w 12 6) (bits w 6 6) (bits w 0 6)) | _, _ => .error .badCode)
  | 0x12 => (match VWidth.ofCode (bits w 21 2), VType.ofCode (bits w 18 3) with | some w', some t' => .ok (.vaddsc w' t' (bits w 12 6) (bits w 6 6) (bits w 0 6)) | _, _ => .error .badCode)
  | 0x13 => (match VWidth.ofCode (bits w 21 2), VType.ofCode (bits w 18 3) with | some w', some t' => .ok (.vmulsc w' t' (bits w 12 6) (bits w 6 6) (bits w 0 6)) | _, _ => .error .badCode)
  | 0x14 => if zeroAt w 6 6 then (match VWidth.ofCode (bits w 21 2), VType.ofCode (bits w 18 3) with | some w', some t' => .ok (.vbcast w' t' (bits w 12 6) (bits w 0 6)) | _, _ => .error .badCode) else .error .zeroField
  | 0x15 => if zeroAt w 0 6 then (match VWidth.ofCode (bits w 21 2), VType.ofCode (bits w 18 3) with | some w', some t' => .ok (.vmov w' t' (bits w 12 6) (bits w 6 6)) | _, _ => .error .badCode) else .error .zeroField
  | 0x16 => (match VWidth.ofCode (bits w 21 2), VType.ofCode (bits w 18 3), VCond.ofCode (bits w 15 3) with | some w', some t', some c' => .ok (.vcmp w' t' c' (bits w 12 3) (bits w 6 6) (bits w 0 6)) | _, _, _ => .error .badCode)
  | 0x17 => if zeroAt w 0 3 then (match VWidth.ofCode (bits w 21 2), VType.ofCode (bits w 18 3) with | some w', some t' => .ok (.vsel w' t' (bits w 12 6) (bits w 6 6) (bits w 3 3)) | _, _ => .error .badCode) else .error .zeroField
  | 0x18 => (match VWidth.ofCode (bits w 21 2), VType.ofCode (bits w 18 3), UnOp.ofCode (bits w 0 3) with | some w', some t', some x' => .ok (.vunary w' t' x' (bits w 12 6) (bits w 6 6) (bits w 3 3)) | _, _, _ => .error .badCode)
  | 0x19 => (match VWidth.ofCode (bits w 21 2), VType.ofCode (bits w 18 3), SfuFn.ofCode (bits w 0 3) with | some w', some t', some x' => .ok (.vsfu w' t' x' (bits w 12 6) (bits w 6 6) (bits w 3 3)) | _, _, _ => .error .badCode)
  | 0x1A => (match VWidth.ofCode (bits w 21 2), VType.ofCode (bits w 18 3), RedFn.ofCode (bits w 0 3) with | some w', some t', some x' => .ok (.vred w' t' x' (bits w 12 6) (bits w 6 6) (bits w 3 3)) | _, _, _ => .error .badCode)
  | 0x1B => (match VWidth.ofCode (bits w 21 2), VType.ofCode (bits w 18 3), RedFn.ofCode (bits w 0 3) with | some w', some t', some x' => .ok (.vscan w' t' x' (bits w 12 6) (bits w 6 6) (bits w 3 3)) | _, _, _ => .error .badCode)
  | 0x1C => (match VWidth.ofCode (bits w 21 2), VType.ofCode (bits w 18 3) with | some w', some t' => .ok (.vdot4 w' t' (bits w 12 6) (bits w 6 6) (bits w 0 6)) | _, _ => .error .badCode)
  | 0x1D => (match VWidth.ofCode (bits w 21 2), VType.ofCode (bits w 18 3) with | some w', some t' => .ok (.vdot2 w' t' (bits w 12 6) (bits w 6 6) (bits w 0 6)) | _, _ => .error .badCode)
  | 0x1E => (match VWidth.ofCode (bits w 21 2), VType.ofCode (bits w 18 3) with | some w', some t' => .ok (.vdot16 w' t' (bits w 12 6) (bits w 6 6) (bits w 0 6)) | _, _ => .error .badCode)
  | 0x1F => if zeroAt w 0 3 then (match VWidth.ofCode (bits w 21 2), VType.ofCode (bits w 18 3) with | some w', some t' => .ok (.vcompress w' t' (bits w 12 6) (bits w 6 6) (bits w 3 3)) | _, _ => .error .badCode) else .error .zeroField
  | 0x20 => if zeroAt w 0 3 then (match VWidth.ofCode (bits w 21 2), VType.ofCode (bits w 18 3) with | some w', some t' => .ok (.vexpand w' t' (bits w 12 6) (bits w 6 6) (bits w 3 3)) | _, _ => .error .badCode) else .error .zeroField
  | 0x21 => if zeroAt w 6 6 && zeroAt w 0 3 then (match VWidth.ofCode (bits w 21 2), VType.ofCode (bits w 18 3) with | some w', some t' => .ok (.viota w' t' (bits w 12 6) (bits w 3 3)) | _, _ => .error .badCode) else .error .zeroField
  | 0x22 => (match VWidth.ofCode (bits w 21 2), VType.ofCode (bits w 18 3) with | some w', some t' => .ok (.vext w' t' (bits w 12 6) (bits w 6 6) (bits w 0 6)) | _, _ => .error .badCode)
  | 0x23 => (match VWidth.ofCode (bits w 21 2), VType.ofCode (bits w 18 3) with | some w', some t' => .ok (.vins w' t' (bits w 12 6) (bits w 6 6) (bits w 0 6)) | _, _ => .error .badCode)
  | 0x24 => (match VWidth.ofCode (bits w 21 2) with | some w' => .ok (.vld w' (bits w 17 4) (bits w 11 6) (bits w 0 11)) | _ => .error .badCode)
  | 0x25 => (match VWidth.ofCode (bits w 21 2) with | some w' => .ok (.vst w' (bits w 17 4) (bits w 11 6) (bits w 0 11)) | _ => .error .badCode)
  | 0x26 => (match VWidth.ofCode (bits w 21 2) with | some w' => .ok (.vldp w' (bits w 17 4) (bits w 14 3) (bits w 11 3) (bits w 0 11)) | _ => .error .badCode)
  | 0x27 => (match VWidth.ofCode (bits w 21 2) with | some w' => .ok (.vstp w' (bits w 17 4) (bits w 14 3) (bits w 11 3) (bits w 0 11)) | _ => .error .badCode)
  | 0x28 => if zeroAt w 4 2 then (match VWidth.ofCode (bits w 21 2), VType.ofCode (bits w 18 3) with | some w', some t' => .ok (.vgather w' t' (bits w 12 6) (bits w 6 6) (bits w 0 4)) | _, _ => .error .badCode) else .error .zeroField
  | 0x29 => if zeroAt w 4 2 then (match VWidth.ofCode (bits w 21 2), VType.ofCode (bits w 18 3) with | some w', some t' => .ok (.vscatter w' t' (bits w 12 6) (bits w 6 6) (bits w 0 4)) | _, _ => .error .badCode) else .error .zeroField
  | _ => .error .badOp

/-- The XN map (R38). Bit 12 of XUNPLANE is the saturate bit, as R155 has it (DEDUCED, log 114). -/
def rawXn (w : SWord) : Except Reject Instr :=
  match (bits w 23 6).toNat with
  | 0x00 => if zeroAt w 0 23 then .ok .nop else .error .opZero
  | 0x01 => if zeroAt w 0 8 then .ok (.xnet (bits w 20 3) (bits w 14 6) (bits w 8 6)) else .error .zeroField
  | 0x02 => if zeroAt w 0 16 then .ok (.xnload (bits w 20 3) (bits w 16 4)) else .error .zeroField
  | 0x03 => (match Cvt.ofCode (bits w 19 4), Cvt.ofCode (bits w 15 4), Rnd.ofCode (bits w 13 2) with | some s', some d', some r' => .ok (.xcvt s' d' r' (w.getLsbD 12) (bits w 6 6) (bits w 0 6)) | _, _, _ => .error .badCode)
  | 0x04 => (match Cvt.ofCode (bits w 19 4), Cvt.ofCode (bits w 15 4), Rnd.ofCode (bits w 13 2) with | some s', some d', some r' => .ok (.xcvth s' d' r' (w.getLsbD 12) (bits w 6 6) (bits w 0 6)) | _, _, _ => .error .badCode)
  | 0x05 => (match Cvt.ofCode (bits w 19 4), Cvt.ofCode (bits w 15 4), Rnd.ofCode (bits w 13 2) with | some s', some d', some r' => .ok (.xmx s' d' r' (w.getLsbD 12) (bits w 6 6) (bits w 0 6)) | _, _, _ => .error .badCode)
  | 0x06 => (match Cvt.ofCode (bits w 19 4), Cvt.ofCode (bits w 15 4), Rnd.ofCode (bits w 13 2) with | some s', some d', some r' => .ok (.xmxd s' d' r' (w.getLsbD 12) (bits w 6 6) (bits w 0 6)) | _, _, _ => .error .badCode)
  | 0x07 => if zeroAt w 12 1 then (match Cvt.ofCode (bits w 19 4), Rnd.ofCode (bits w 13 2) with | some t', some r' => .ok (.xplane t' (bits w 15 4) r' (bits w 6 6) (bits w 0 6)) | _, _ => .error .badCode) else .error .zeroField
  | 0x08 => (match Cvt.ofCode (bits w 19 4), Rnd.ofCode (bits w 13 2) with | some t', some r' => .ok (.xunplane t' (bits w 15 4) r' (w.getLsbD 12) (bits w 6 6) (bits w 0 6)) | _, _ => .error .badCode)
  | 0x09 => if zeroAt w 0 17 then .ok (.xrng (bits w 17 6)) else .error .zeroField
  | _ => .error .badOp

/-- The MX map (R39). -/
def rawMx (w : SWord) : Except Reject Instr :=
  match (bits w 23 6).toNat with
  | 0x00 => if zeroAt w 0 23 then .ok .nop else .error .opZero
  | 0x01 => if zeroAt w 0 10 then .ok (.mdset (bits w 19 4) (bits w 16 3) (bits w 10 6)) else .error .zeroField
  | 0x02 => if zeroAt w 0 10 then (match WFmt.ofCode (bits w 10 4) with | some f' => .ok (.mloadw (bits w 19 4) (bits w 14 5) f') | _ => .error .badCode) else .error .zeroField
  | 0x03 => if zeroAt w 0 14 then .ok (.mma (bits w 19 4) (bits w 14 5)) else .error .zeroField
  | 0x04 => if zeroAt w 0 14 then .ok (.mmaz (bits w 19 4) (bits w 14 5)) else .error .zeroField
  | 0x05 => if zeroAt w 0 5 then .ok (.mouter (bits w 19 4) (bits w 14 5) (bits w 9 5) (bits w 5 4)) else .error .zeroField
  | 0x06 => if zeroAt w 0 20 then .ok (.mcommit (bits w 20 3)) else .error .zeroField
  | 0x07 => if zeroAt w 0 20 then .ok (.mwaitb (bits w 20 3)) else .error .zeroField
  | 0x08 => if zeroAt w 0 9 then (match OutFmt.ofCode (bits w 11 4), Rnd.ofCode (bits w 9 2) with | some d', some r' => .ok (.mout (bits w 19 4) (bits w 15 4) d' r') | _, _ => .error .badCode) else .error .zeroField
  | 0x09 => if zeroAt w 0 19 then .ok (.mzero (bits w 19 4)) else .error .zeroField
  | 0x0A => if zeroAt w 0 19 then .ok (.mshape (bits w 19 4)) else .error .zeroField
  | _ => .error .badOp

/-- The AR map (R40). -/
def rawAr (w : SWord) : Except Reject Instr :=
  match (bits w 23 6).toNat with
  | 0x00 => if zeroAt w 0 23 then .ok .nop else .error .opZero
  | 0x01 => if zeroAt w 0 11 then .ok (.adset (bits w 20 3) (bits w 17 3) (bits w 11 6)) else .error .zeroField
  | 0x02 => if zeroAt w 0 11 then .ok (.ast (bits w 18 5) (bits w 15 3) (bits w 11 4)) else .error .zeroField
  | 0x03 => if zeroAt w 0 11 then .ok (.ald (bits w 18 5) (bits w 15 3) (bits w 11 4)) else .error .zeroField
  | 0x04 => if zeroAt w 0 9 then .ok (.astv (bits w 18 5) (bits w 15 3) (bits w 9 6)) else .error .zeroField
  | 0x05 => if zeroAt w 0 9 then .ok (.aldv (bits w 18 5) (bits w 15 3) (bits w 9 6)) else .error .zeroField
  | 0x06 => if zeroAt w 0 3 then .ok (.amvm (bits w 18 5) (bits w 15 3) (bits w 11 4) (bits w 8 3) (bits w 4 4) (w.getLsbD 3)) else .error .zeroField
  | 0x07 => if zeroAt w 0 1 then (match ArFn.ofCode (bits w 12 3), ArWidth.ofCode (bits w 7 2) with | some op', some ew' => .ok (.arop (bits w 18 5) (bits w 15 3) op' (bits w 9 3) ew' (w.getLsbD 6) (bits w 1 5)) | _, _ => .error .badCode) else .error .zeroField
  | 0x08 => if zeroAt w 11 1 && zeroAt w 0 10 then .ok (.aacc (bits w 17 6) (bits w 14 3) (bits w 12 2) (w.getLsbD 10)) else .error .zeroField
  | _ => .error .badOp

/-- The AE map (R41, R42). -/
def rawAe (w : SWord) : Except Reject Instr :=
  match (bits w 23 6).toNat with
  | 0x00 => if zeroAt w 0 23 then .ok .nop else .error .opZero
  | 0x01 => if zeroAt w 0 15 then .ok (.edld (bits w 19 4) (bits w 15 4)) else .error .zeroField
  | 0x02 => if zeroAt w 0 10 then .ok (.edset (bits w 19 4) (bits w 16 3) (bits w 10 6)) else .error .zeroField
  | 0x03 => if zeroAt w 0 16 then .ok (.cpy (bits w 20 3) (bits w 16 4)) else .error .zeroField
  | 0x04 => if zeroAt w 0 16 then .ok (.cpym (bits w 20 3) (bits w 16 4)) else .error .zeroField
  | 0x05 => if zeroAt w 0 16 then .ok (.put (bits w 20 3) (bits w 16 4)) else .error .zeroField
  | 0x06 => if bits w 12 4 = 15#4 then (if zeroAt w 0 12 then .ok (.putrVerb (bits w 20 3) (bits w 16 4)) else .error .zeroField) else (if zeroAt w 0 12 then (match RedOp.ofCode (bits w 12 4) with | some op' => .ok (.putr (bits w 20 3) (bits w 16 4) op') | _ => .error .badCode) else .error .zeroField)
  | 0x07 => if zeroAt w 0 12 then (match RedOp.ofCode (bits w 12 4) with | some op' => .ok (.red (bits w 20 3) (bits w 16 4) op') | _ => .error .badCode) else .error .zeroField
  | 0x08 => if zeroAt w 0 12 then .ok (.zip (bits w 20 3) (bits w 16 4) (bits w 12 4)) else .error .zeroField
  | 0x09 => if zeroAt w 0 11 then .ok (.fold (bits w 20 3) (bits w 16 4) (bits w 12 4) (w.getLsbD 11)) else .error .zeroField
  | 0x0A => if zeroAt w 0 11 then .ok (.scan (bits w 20 3) (bits w 16 4) (bits w 12 4) (w.getLsbD 11)) else .error .zeroField
  | 0x0B => if zeroAt w 0 15 then .ok (.vbdef (bits w 19 4) (bits w 15 4)) else .error .zeroField
  | 0x0C => if zeroAt w 0 15 then .ok (.qfence (bits w 15 8)) else .error .zeroField
  | 0x0D => if zeroAt w 0 4 then (match Scope.ofCode (bits w 4 4) with | some scope' => .ok (.flag (bits w 20 3) (bits w 14 6) (bits w 8 6) scope') | _ => .error .badCode) else .error .zeroField
  | 0x0E => if zeroAt w 0 20 then .ok (.qwait (bits w 20 3)) else .error .zeroField
  | 0x0F => if zeroAt w 0 14 then .ok (.qstat (bits w 17 6) (bits w 14 3)) else .error .zeroField
  | 0x10 => if zeroAt w 0 6 then .ok (.probe (bits w 17 6) (bits w 11 6) (bits w 8 3) (bits w 6 2)) else .error .zeroField
  | 0x11 => if zeroAt w 17 6 && zeroAt w 8 3 && zeroAt w 0 4 then (match PinvMode.ofCode (bits w 4 2) with | some m' => .ok (.pinv (bits w 11 6) (bits w 6 2) m') | _ => .error .badCode) else .error .zeroField
  | 0x12 => if zeroAt w 17 6 && zeroAt w 8 3 && zeroAt w 0 5 then .ok (.ppin (bits w 11 6) (bits w 6 2) (w.getLsbD 5)) else .error .zeroField
  | 0x13 => if zeroAt w 0 11 then .ok (.awinit (bits w 17 6) (bits w 11 6)) else .error .zeroField
  | 0x14 => if zeroAt w 0 3 then .ok (.await (bits w 17 6) (bits w 11 6) (bits w 8 3) (bits w 3 5)) else .error .zeroField
  | 0x15 => (match AtomOp.ofCode (bits w 19 4) with | some op' => .ok (.atom op' (bits w 13 6) (bits w 7 6) (bits w 1 6) (w.getLsbD 0)) | _ => .error .badCode)
  | 0x16 => if zeroAt w 20 3 then .ok (.atomc (w.getLsbD 19) (bits w 13 6) (bits w 7 6) (bits w 1 6) (w.getLsbD 0)) else .error .zeroField
  | 0x17 => if zeroAt w 0 17 then (match Scope.ofCode (bits w 19 4), FenceKind.ofCode (bits w 17 2) with | some sc', some k' => .ok (.fence sc' k') | _, _ => .error .badCode) else .error .zeroField
  | 0x18 => if zeroAt w 0 14 then .ok (.xfence (bits w 15 8) (w.getLsbD 14)) else .error .zeroField
  | 0x19 => if zeroAt w 0 23 then .ok (.vjoin) else .error .zeroField
  | 0x1A => if zeroAt w 0 10 then .ok (.cbset (bits w 18 5) (bits w 16 2) (bits w 10 6)) else .error .zeroField
  | 0x1B => if zeroAt w 0 8 then .ok (.cbp (bits w 18 5) (bits w 8 10)) else .error .zeroField
  | 0x1C => if zeroAt w 0 8 then .ok (.cbc (bits w 18 5) (bits w 8 10)) else .error .zeroField
  | 0x1D => if zeroAt w 0 8 then .ok (.cbwf (bits w 18 5) (bits w 8 10)) else .error .zeroField
  | 0x1E => if zeroAt w 0 8 then .ok (.cbwe (bits w 18 5) (bits w 8 10)) else .error .zeroField
  | 0x1F => if zeroAt w 0 6 then .ok (.round (bits w 17 6) (bits w 14 3) (bits w 6 8)) else .error .zeroField
  | 0x20 => if zeroAt w 0 15 then .ok (.rabort (bits w 15 8)) else .error .zeroField
  | _ => .error .badOp

/-- The fields of a slot word under its own slot's map (R24), before the limits of R32–R42 are checked. -/
def rawWord (sl : Slot) (w : SWord) : Except Reject Instr :=
  match sl with
  | .ctl => rawCtl w
  | .sca => rawSca w
  | .va | .vb => rawVec w
  | .xn => rawXn w
  | .mx => rawMx w
  | .ar => rawAr w
  | .ae => rawAe w

/-- A well-formed instruction, or why the word is none (R43). -/
def checked (i : Instr) : Except Reject Instr :=
  if i.wf then .ok i else
    match i with
    | .vcmp _ t _ pd _ _ => if t.isNum && pd == 0 then .error .p0Dest else .error .badCode
    | _ => .error .badCode

/-- Decode one slot word (R24–R43). Total on every word. J, F and L do not matter (R43). -/
def decodeWord (sl : Slot) (w : SWord) : Except Reject Instr :=
  match rawWord sl w with
  | .ok i => checked i
  | .error r => .error r

/-- The frame bits of a slot word (R25). -/
def frameOf (w : SWord) : Frame := ⟨w.getLsbD 31, w.getLsbD 30, w.getLsbD 29⟩

/-- Width in bits that a vector word names; a word that is no vector instruction counts zero (R37). -/
def Instr.lanes : Instr → Nat

  | .vadd w _ _ _ _ => w.bits
  | .vsub w _ _ _ _ => w.bits
  | .vmul w _ _ _ _ => w.bits
  | .vfma w _ _ _ _ => w.bits
  | .vmin w _ _ _ _ => w.bits
  | .vmax w _ _ _ _ => w.bits
  | .vminu w _ _ _ _ => w.bits
  | .vmaxu w _ _ _ _ => w.bits
  | .vand w _ _ _ _ => w.bits
  | .vor w _ _ _ _ => w.bits
  | .vxor w _ _ _ _ => w.bits
  | .vandn w _ _ _ _ => w.bits
  | .vshl w _ _ _ _ => w.bits
  | .vshr w _ _ _ _ => w.bits
  | .vsar w _ _ _ _ => w.bits
  | .vadds w _ _ _ _ => w.bits
  | .vsubs w _ _ _ _ => w.bits
  | .vaddsc w _ _ _ _ => w.bits
  | .vmulsc w _ _ _ _ => w.bits
  | .vbcast w _ _ _ => w.bits
  | .vmov w _ _ _ => w.bits
  | .vcmp w _ _ _ _ _ => w.bits
  | .vsel w _ _ _ _ => w.bits
  | .vunary w _ _ _ _ _ => w.bits
  | .vsfu w _ _ _ _ _ => w.bits
  | .vred w _ _ _ _ _ => w.bits
  | .vscan w _ _ _ _ _ => w.bits
  | .vdot4 w _ _ _ _ => w.bits
  | .vdot2 w _ _ _ _ => w.bits
  | .vdot16 w _ _ _ _ => w.bits
  | .vcompress w _ _ _ _ => w.bits
  | .vexpand w _ _ _ _ => w.bits
  | .viota w _ _ _ => w.bits
  | .vext w _ _ _ _ => w.bits
  | .vins w _ _ _ _ => w.bits
  | .vld w _ _ _ => w.bits
  | .vst w _ _ _ => w.bits
  | .vldp w _ _ _ _ => w.bits
  | .vstp w _ _ _ _ => w.bits
  | .vgather w _ _ _ _ => w.bits
  | .vscatter w _ _ _ _ => w.bits
  | _ => 0

/-- The slot whose map holds an instruction; vector instructions are placed in VA, and NOP in CTL. -/
def Instr.home : Instr → Option Slot
  | .nop => some .ctl
  | .halt => some .ctl
  | .yield => some .ctl
  | .trap _ => some .ctl
  | .rett => some .ctl
  | .pbt _ _ => some .ctl
  | .pbtr _ _ => some .ctl
  | .br _ _ _ => some .ctl
  | .brAlways _ => some .ctl
  | .call _ => some .ctl
  | .ret => some .ctl
  | .cmp _ _ _ _ => some .ctl
  | .cmpi _ _ _ _ => some .ctl
  | .cfop _ _ _ _ => some .ctl
  | .vany _ _ _ => some .ctl
  | .vall _ _ _ => some .ctl
  | .loop _ _ => some .ctl
  | .loopReg _ _ => some .ctl
  | .loopx _ => some .ctl
  | .movsr _ _ => some .ctl
  | .movrs _ _ => some .ctl
  | .waitc _ => some .ctl
  | .waitg _ => some .ctl
  | .align _ => some .ctl
  | .phase _ => some .ctl
  | .spawn _ _ => some .ctl
  | .abeat _ => some .ctl
  | .add _ _ _ => some .sca
  | .sub _ _ _ => some .sca
  | .and _ _ _ => some .sca
  | .or _ _ _ => some .sca
  | .xor _ _ _ => some .sca
  | .shl _ _ _ => some .sca
  | .shr _ _ _ => some .sca
  | .sar _ _ _ => some .sca
  | .mul _ _ _ => some .sca
  | .mulh _ _ _ => some .sca
  | .mulhu _ _ _ => some .sca
  | .div _ _ _ => some .sca
  | .divu _ _ _ => some .sca
  | .rem _ _ _ => some .sca
  | .remu _ _ _ => some .sca
  | .min _ _ _ => some .sca
  | .max _ _ _ => some .sca
  | .minu _ _ _ => some .sca
  | .maxu _ _ _ => some .sca
  | .sel _ _ _ _ => some .sca
  | .clz _ _ => some .sca
  | .popc _ _ => some .sca
  | .addi _ _ _ => some .sca
  | .andi _ _ _ => some .sca
  | .ori _ _ _ => some .sca
  | .xori _ _ _ => some .sca
  | .shli _ _ _ => some .sca
  | .shri _ _ _ => some .sca
  | .sari _ _ _ => some .sca
  | .movi _ _ => some .sca
  | .movk _ _ => some .sca
  | .ld _ _ _ _ _ => some .sca
  | .st _ _ _ _ => some .sca
  | .lda _ _ _ _ => some .sca
  | .stl _ _ _ _ => some .sca
  | .aset _ _ _ => some .sca
  | .aget _ _ _ => some .sca
  | .fadd _ _ _ => some .sca
  | .fsub _ _ _ => some .sca
  | .fmul _ _ _ => some .sca
  | .fma _ _ _ => some .sca
  | .fmin _ _ _ => some .sca
  | .fmax _ _ _ => some .sca
  | .fcmp _ _ _ _ => some .sca
  | .fcvtif _ _ => some .sca
  | .fcvtfi _ _ _ => some .sca
  | .fneg _ _ => some .sca
  | .fabs _ _ => some .sca
  | .vadd _ _ _ _ _ => some .va
  | .vsub _ _ _ _ _ => some .va
  | .vmul _ _ _ _ _ => some .va
  | .vfma _ _ _ _ _ => some .va
  | .vmin _ _ _ _ _ => some .va
  | .vmax _ _ _ _ _ => some .va
  | .vminu _ _ _ _ _ => some .va
  | .vmaxu _ _ _ _ _ => some .va
  | .vand _ _ _ _ _ => some .va
  | .vor _ _ _ _ _ => some .va
  | .vxor _ _ _ _ _ => some .va
  | .vandn _ _ _ _ _ => some .va
  | .vshl _ _ _ _ _ => some .va
  | .vshr _ _ _ _ _ => some .va
  | .vsar _ _ _ _ _ => some .va
  | .vadds _ _ _ _ _ => some .va
  | .vsubs _ _ _ _ _ => some .va
  | .vaddsc _ _ _ _ _ => some .va
  | .vmulsc _ _ _ _ _ => some .va
  | .vbcast _ _ _ _ => some .va
  | .vmov _ _ _ _ => some .va
  | .vcmp _ _ _ _ _ _ => some .va
  | .vsel _ _ _ _ _ => some .va
  | .vunary _ _ _ _ _ _ => some .va
  | .vsfu _ _ _ _ _ _ => some .va
  | .vred _ _ _ _ _ _ => some .va
  | .vscan _ _ _ _ _ _ => some .va
  | .vdot4 _ _ _ _ _ => some .va
  | .vdot2 _ _ _ _ _ => some .va
  | .vdot16 _ _ _ _ _ => some .va
  | .vcompress _ _ _ _ _ => some .va
  | .vexpand _ _ _ _ _ => some .va
  | .viota _ _ _ _ => some .va
  | .vext _ _ _ _ _ => some .va
  | .vins _ _ _ _ _ => some .va
  | .vld _ _ _ _ => some .va
  | .vst _ _ _ _ => some .va
  | .vldp _ _ _ _ _ => some .va
  | .vstp _ _ _ _ _ => some .va
  | .vgather _ _ _ _ _ => some .va
  | .vscatter _ _ _ _ _ => some .va
  | .xnet _ _ _ => some .xn
  | .xnload _ _ => some .xn
  | .xcvt _ _ _ _ _ _ => some .xn
  | .xcvth _ _ _ _ _ _ => some .xn
  | .xmx _ _ _ _ _ _ => some .xn
  | .xmxd _ _ _ _ _ _ => some .xn
  | .xplane _ _ _ _ _ => some .xn
  | .xunplane _ _ _ _ _ _ => some .xn
  | .xrng _ => some .xn
  | .mdset _ _ _ => some .mx
  | .mloadw _ _ _ => some .mx
  | .mma _ _ => some .mx
  | .mmaz _ _ => some .mx
  | .mouter _ _ _ _ => some .mx
  | .mcommit _ => some .mx
  | .mwaitb _ => some .mx
  | .mout _ _ _ _ => some .mx
  | .mzero _ => some .mx
  | .mshape _ => some .mx
  | .adset _ _ _ => some .ar
  | .ast _ _ _ => some .ar
  | .ald _ _ _ => some .ar
  | .astv _ _ _ => some .ar
  | .aldv _ _ _ => some .ar
  | .amvm _ _ _ _ _ _ => some .ar
  | .arop _ _ _ _ _ _ _ => some .ar
  | .aacc _ _ _ _ => some .ar
  | .edld _ _ => some .ae
  | .edset _ _ _ => some .ae
  | .cpy _ _ => some .ae
  | .cpym _ _ => some .ae
  | .put _ _ => some .ae
  | .putrVerb _ _ => some .ae
  | .putr _ _ _ => some .ae
  | .red _ _ _ => some .ae
  | .zip _ _ _ => some .ae
  | .fold _ _ _ _ => some .ae
  | .scan _ _ _ _ => some .ae
  | .vbdef _ _ => some .ae
  | .qfence _ => some .ae
  | .flag _ _ _ _ => some .ae
  | .qwait _ => some .ae
  | .qstat _ _ => some .ae
  | .probe _ _ _ _ => some .ae
  | .pinv _ _ _ => some .ae
  | .ppin _ _ _ => some .ae
  | .awinit _ _ => some .ae
  | .await _ _ _ _ => some .ae
  | .atom _ _ _ _ _ => some .ae
  | .atomc _ _ _ _ _ => some .ae
  | .fence _ _ => some .ae
  | .xfence _ _ => some .ae
  | .vjoin => some .ae
  | .cbset _ _ _ => some .ae
  | .cbp _ _ => some .ae
  | .cbc _ _ => some .ae
  | .cbwf _ _ => some .ae
  | .cbwe _ _ => some .ae
  | .round _ _ _ => some .ae
  | .rabort _ => some .ae
  | _ => none

/-- The operand bits and OP of an instruction, as its map places them (R32–R42): bits 28:0 of the slot word. An event has no word. -/
def Instr.body : Instr → BitVec 29
  | .nop => 0#29
  | .halt => 1#6 ++ 0#23
  | .yield => 2#6 ++ 0#23
  | .trap x0 => 3#6 ++ x0 ++ 0#7
  | .rett => 4#6 ++ 0#23
  | .pbt x0 x1 => 5#6 ++ x0 ++ x1
  | .pbtr x0 x1 => 6#6 ++ x0 ++ x1 ++ 0#14
  | .br x0 x1 x2 => 7#6 ++ x0 ++ x1 ++ BitVec.ofBool x2 ++ 0#1 ++ 0#15
  | .brAlways x0 => 7#6 ++ x0 ++ 0#4 ++ 1#1 ++ 0#15
  | .call x0 => 8#6 ++ x0 ++ 0#4 ++ 1#1 ++ 0#15
  | .ret => 9#6 ++ 0#23
  | .cmp x0 x1 x2 x3 => 10#6 ++ x0 ++ x1.code ++ x2 ++ x3 ++ 0#4
  | .cmpi x0 x1 x2 x3 => 11#6 ++ x0 ++ x1.code ++ x2 ++ x3
  | .cfop x0 x1 x2 x3 => 12#6 ++ x0 ++ x1 ++ x2 ++ x3.code ++ 0#12
  | .vany x0 x1 x2 => 13#6 ++ x0 ++ x1 ++ x2.code ++ 0#15
  | .vall x0 x1 x2 => 14#6 ++ x0 ++ x1 ++ x2.code ++ 0#15
  | .loop x0 x1 => 15#6 ++ 0#1 ++ x0 ++ x1
  | .loopReg x0 x1 => 15#6 ++ 1#1 ++ x0 ++ 0#4 ++ x1
  | .loopx x0 => 16#6 ++ x0 ++ 0#20
  | .movsr x0 x1 => 17#6 ++ x0 ++ x1 ++ 0#7
  | .movrs x0 x1 => 18#6 ++ x0 ++ x1 ++ 0#7
  | .waitc x0 => 19#6 ++ x0 ++ 0#7
  | .waitg x0 => 20#6 ++ x0 ++ 0#17
  | .align x0 => 21#6 ++ x0 ++ 0#7
  | .phase x0 => 22#6 ++ x0 ++ 0#20
  | .spawn x0 x1 => 23#6 ++ x0 ++ x1 ++ 0#10
  | .abeat x0 => 24#6 ++ x0 ++ 0#7
  | .add x0 x1 x2 => 1#6 ++ x0 ++ x1 ++ x2 ++ 0#5
  | .sub x0 x1 x2 => 2#6 ++ x0 ++ x1 ++ x2 ++ 0#5
  | .and x0 x1 x2 => 3#6 ++ x0 ++ x1 ++ x2 ++ 0#5
  | .or x0 x1 x2 => 4#6 ++ x0 ++ x1 ++ x2 ++ 0#5
  | .xor x0 x1 x2 => 5#6 ++ x0 ++ x1 ++ x2 ++ 0#5
  | .shl x0 x1 x2 => 6#6 ++ x0 ++ x1 ++ x2 ++ 0#5
  | .shr x0 x1 x2 => 7#6 ++ x0 ++ x1 ++ x2 ++ 0#5
  | .sar x0 x1 x2 => 8#6 ++ x0 ++ x1 ++ x2 ++ 0#5
  | .mul x0 x1 x2 => 9#6 ++ x0 ++ x1 ++ x2 ++ 0#5
  | .mulh x0 x1 x2 => 10#6 ++ x0 ++ x1 ++ x2 ++ 0#5
  | .mulhu x0 x1 x2 => 11#6 ++ x0 ++ x1 ++ x2 ++ 0#5
  | .div x0 x1 x2 => 12#6 ++ x0 ++ x1 ++ x2 ++ 0#5
  | .divu x0 x1 x2 => 13#6 ++ x0 ++ x1 ++ x2 ++ 0#5
  | .rem x0 x1 x2 => 14#6 ++ x0 ++ x1 ++ x2 ++ 0#5
  | .remu x0 x1 x2 => 15#6 ++ x0 ++ x1 ++ x2 ++ 0#5
  | .min x0 x1 x2 => 16#6 ++ x0 ++ x1 ++ x2 ++ 0#5
  | .max x0 x1 x2 => 17#6 ++ x0 ++ x1 ++ x2 ++ 0#5
  | .minu x0 x1 x2 => 18#6 ++ x0 ++ x1 ++ x2 ++ 0#5
  | .maxu x0 x1 x2 => 19#6 ++ x0 ++ x1 ++ x2 ++ 0#5
  | .sel x0 x1 x2 x3 => 20#6 ++ x0 ++ x1 ++ x2 ++ x3 ++ 0#2
  | .clz x0 x1 => 21#6 ++ x0 ++ x1 ++ 0#11
  | .popc x0 x1 => 22#6 ++ x0 ++ x1 ++ 0#11
  | .addi x0 x1 x2 => 24#6 ++ x0 ++ x1 ++ x2
  | .andi x0 x1 x2 => 25#6 ++ x0 ++ x1 ++ x2
  | .ori x0 x1 x2 => 26#6 ++ x0 ++ x1 ++ x2
  | .xori x0 x1 x2 => 27#6 ++ x0 ++ x1 ++ x2
  | .shli x0 x1 x2 => 28#6 ++ x0 ++ x1 ++ x2
  | .shri x0 x1 x2 => 29#6 ++ x0 ++ x1 ++ x2
  | .sari x0 x1 x2 => 30#6 ++ x0 ++ x1 ++ x2
  | .movi x0 x1 => 31#6 ++ x0 ++ x1
  | .movk x0 x1 => 32#6 ++ x0 ++ x1
  | .ld x0 x1 x2 x3 x4 => 36#6 ++ x0 ++ x1 ++ x2.code ++ BitVec.ofBool x3 ++ x4
  | .st x0 x1 x2 x3 => 37#6 ++ x0 ++ x1 ++ x2.code ++ 0#1 ++ x3
  | .lda x0 x1 x2 x3 => 38#6 ++ x0 ++ x1 ++ x2.code ++ x3.code ++ 0#7
  | .stl x0 x1 x2 x3 => 39#6 ++ x0 ++ x1 ++ x2.code ++ x3.code ++ 0#7
  | .aset x0 x1 x2 => 40#6 ++ x0 ++ x1 ++ x2 ++ 0#10
  | .aget x0 x1 x2 => 41#6 ++ x0 ++ x1 ++ x2 ++ 0#10
  | .fadd x0 x1 x2 => 48#6 ++ x0 ++ x1 ++ x2 ++ 0#5
  | .fsub x0 x1 x2 => 49#6 ++ x0 ++ x1 ++ x2 ++ 0#5
  | .fmul x0 x1 x2 => 50#6 ++ x0 ++ x1 ++ x2 ++ 0#5
  | .fma x0 x1 x2 => 51#6 ++ x0 ++ x1 ++ x2 ++ 0#5
  | .fmin x0 x1 x2 => 52#6 ++ x0 ++ x1 ++ x2 ++ 0#5
  | .fmax x0 x1 x2 => 53#6 ++ x0 ++ x1 ++ x2 ++ 0#5
  | .fcmp x0 x1 x2 x3 => 54#6 ++ x0 ++ x1 ++ x2 ++ x3.code ++ 0#2
  | .fcvtif x0 x1 => 55#6 ++ x0 ++ x1 ++ 0#11
  | .fcvtfi x0 x1 x2 => 56#6 ++ x0 ++ x1 ++ 0#7 ++ BitVec.ofBool x2 ++ 0#3
  | .fneg x0 x1 => 57#6 ++ x0 ++ x1 ++ 0#11
  | .fabs x0 x1 => 58#6 ++ x0 ++ x1 ++ 0#11
  | .vadd x0 x1 x2 x3 x4 => 1#6 ++ x0.code ++ x1.code ++ x2 ++ x3 ++ x4
  | .vsub x0 x1 x2 x3 x4 => 2#6 ++ x0.code ++ x1.code ++ x2 ++ x3 ++ x4
  | .vmul x0 x1 x2 x3 x4 => 3#6 ++ x0.code ++ x1.code ++ x2 ++ x3 ++ x4
  | .vfma x0 x1 x2 x3 x4 => 4#6 ++ x0.code ++ x1.code ++ x2 ++ x3 ++ x4
  | .vmin x0 x1 x2 x3 x4 => 5#6 ++ x0.code ++ x1.code ++ x2 ++ x3 ++ x4
  | .vmax x0 x1 x2 x3 x4 => 6#6 ++ x0.code ++ x1.code ++ x2 ++ x3 ++ x4
  | .vminu x0 x1 x2 x3 x4 => 7#6 ++ x0.code ++ x1.code ++ x2 ++ x3 ++ x4
  | .vmaxu x0 x1 x2 x3 x4 => 8#6 ++ x0.code ++ x1.code ++ x2 ++ x3 ++ x4
  | .vand x0 x1 x2 x3 x4 => 9#6 ++ x0.code ++ x1.code ++ x2 ++ x3 ++ x4
  | .vor x0 x1 x2 x3 x4 => 10#6 ++ x0.code ++ x1.code ++ x2 ++ x3 ++ x4
  | .vxor x0 x1 x2 x3 x4 => 11#6 ++ x0.code ++ x1.code ++ x2 ++ x3 ++ x4
  | .vandn x0 x1 x2 x3 x4 => 12#6 ++ x0.code ++ x1.code ++ x2 ++ x3 ++ x4
  | .vshl x0 x1 x2 x3 x4 => 13#6 ++ x0.code ++ x1.code ++ x2 ++ x3 ++ x4
  | .vshr x0 x1 x2 x3 x4 => 14#6 ++ x0.code ++ x1.code ++ x2 ++ x3 ++ x4
  | .vsar x0 x1 x2 x3 x4 => 15#6 ++ x0.code ++ x1.code ++ x2 ++ x3 ++ x4
  | .vadds x0 x1 x2 x3 x4 => 16#6 ++ x0.code ++ x1.code ++ x2 ++ x3 ++ x4
  | .vsubs x0 x1 x2 x3 x4 => 17#6 ++ x0.code ++ x1.code ++ x2 ++ x3 ++ x4
  | .vaddsc x0 x1 x2 x3 x4 => 18#6 ++ x0.code ++ x1.code ++ x2 ++ x3 ++ x4
  | .vmulsc x0 x1 x2 x3 x4 => 19#6 ++ x0.code ++ x1.code ++ x2 ++ x3 ++ x4
  | .vbcast x0 x1 x2 x3 => 20#6 ++ x0.code ++ x1.code ++ x2 ++ 0#6 ++ x3
  | .vmov x0 x1 x2 x3 => 21#6 ++ x0.code ++ x1.code ++ x2 ++ x3 ++ 0#6
  | .vcmp x0 x1 x2 x3 x4 x5 => 22#6 ++ x0.code ++ x1.code ++ x2.code ++ x3 ++ x4 ++ x5
  | .vsel x0 x1 x2 x3 x4 => 23#6 ++ x0.code ++ x1.code ++ x2 ++ x3 ++ x4 ++ 0#3
  | .vunary x0 x1 x2 x3 x4 x5 => 24#6 ++ x0.code ++ x1.code ++ x3 ++ x4 ++ x5 ++ x2.code
  | .vsfu x0 x1 x2 x3 x4 x5 => 25#6 ++ x0.code ++ x1.code ++ x3 ++ x4 ++ x5 ++ x2.code
  | .vred x0 x1 x2 x3 x4 x5 => 26#6 ++ x0.code ++ x1.code ++ x3 ++ x4 ++ x5 ++ x2.code
  | .vscan x0 x1 x2 x3 x4 x5 => 27#6 ++ x0.code ++ x1.code ++ x3 ++ x4 ++ x5 ++ x2.code
  | .vdot4 x0 x1 x2 x3 x4 => 28#6 ++ x0.code ++ x1.code ++ x2 ++ x3 ++ x4
  | .vdot2 x0 x1 x2 x3 x4 => 29#6 ++ x0.code ++ x1.code ++ x2 ++ x3 ++ x4
  | .vdot16 x0 x1 x2 x3 x4 => 30#6 ++ x0.code ++ x1.code ++ x2 ++ x3 ++ x4
  | .vcompress x0 x1 x2 x3 x4 => 31#6 ++ x0.code ++ x1.code ++ x2 ++ x3 ++ x4 ++ 0#3
  | .vexpand x0 x1 x2 x3 x4 => 32#6 ++ x0.code ++ x1.code ++ x2 ++ x3 ++ x4 ++ 0#3
  | .viota x0 x1 x2 x3 => 33#6 ++ x0.code ++ x1.code ++ x2 ++ 0#6 ++ x3 ++ 0#3
  | .vext x0 x1 x2 x3 x4 => 34#6 ++ x0.code ++ x1.code ++ x2 ++ x3 ++ x4
  | .vins x0 x1 x2 x3 x4 => 35#6 ++ x0.code ++ x1.code ++ x2 ++ x3 ++ x4
  | .vld x0 x1 x2 x3 => 36#6 ++ x0.code ++ x1 ++ x2 ++ x3
  | .vst x0 x1 x2 x3 => 37#6 ++ x0.code ++ x1 ++ x2 ++ x3
  | .vldp x0 x1 x2 x3 x4 => 38#6 ++ x0.code ++ x1 ++ x2 ++ x3 ++ x4
  | .vstp x0 x1 x2 x3 x4 => 39#6 ++ x0.code ++ x1 ++ x2 ++ x3 ++ x4
  | .vgather x0 x1 x2 x3 x4 => 40#6 ++ x0.code ++ x1.code ++ x2 ++ x3 ++ 0#2 ++ x4
  | .vscatter x0 x1 x2 x3 x4 => 41#6 ++ x0.code ++ x1.code ++ x2 ++ x3 ++ 0#2 ++ x4
  | .xnet x0 x1 x2 => 1#6 ++ x0 ++ x1 ++ x2 ++ 0#8
  | .xnload x0 x1 => 2#6 ++ x0 ++ x1 ++ 0#16
  | .xcvt x0 x1 x2 x3 x4 x5 => 3#6 ++ x0.code ++ x1.code ++ x2.code ++ BitVec.ofBool x3 ++ x4 ++ x5
  | .xcvth x0 x1 x2 x3 x4 x5 => 4#6 ++ x0.code ++ x1.code ++ x2.code ++ BitVec.ofBool x3 ++ x4 ++ x5
  | .xmx x0 x1 x2 x3 x4 x5 => 5#6 ++ x0.code ++ x1.code ++ x2.code ++ BitVec.ofBool x3 ++ x4 ++ x5
  | .xmxd x0 x1 x2 x3 x4 x5 => 6#6 ++ x0.code ++ x1.code ++ x2.code ++ BitVec.ofBool x3 ++ x4 ++ x5
  | .xplane x0 x1 x2 x3 x4 => 7#6 ++ x0.code ++ x1 ++ x2.code ++ 0#1 ++ x3 ++ x4
  | .xunplane x0 x1 x2 x3 x4 x5 => 8#6 ++ x0.code ++ x1 ++ x2.code ++ BitVec.ofBool x3 ++ x4 ++ x5
  | .xrng x0 => 9#6 ++ x0 ++ 0#17
  | .mdset x0 x1 x2 => 1#6 ++ x0 ++ x1 ++ x2 ++ 0#10
  | .mloadw x0 x1 x2 => 2#6 ++ x0 ++ x1 ++ x2.code ++ 0#10
  | .mma x0 x1 => 3#6 ++ x0 ++ x1 ++ 0#14
  | .mmaz x0 x1 => 4#6 ++ x0 ++ x1 ++ 0#14
  | .mouter x0 x1 x2 x3 => 5#6 ++ x0 ++ x1 ++ x2 ++ x3 ++ 0#5
  | .mcommit x0 => 6#6 ++ x0 ++ 0#20
  | .mwaitb x0 => 7#6 ++ x0 ++ 0#20
  | .mout x0 x1 x2 x3 => 8#6 ++ x0 ++ x1 ++ x2.code ++ x3.code ++ 0#9
  | .mzero x0 => 9#6 ++ x0 ++ 0#19
  | .mshape x0 => 10#6 ++ x0 ++ 0#19
  | .adset x0 x1 x2 => 1#6 ++ x0 ++ x1 ++ x2 ++ 0#11
  | .ast x0 x1 x2 => 2#6 ++ x0 ++ x1 ++ x2 ++ 0#11
  | .ald x0 x1 x2 => 3#6 ++ x0 ++ x1 ++ x2 ++ 0#11
  | .astv x0 x1 x2 => 4#6 ++ x0 ++ x1 ++ x2 ++ 0#9
  | .aldv x0 x1 x2 => 5#6 ++ x0 ++ x1 ++ x2 ++ 0#9
  | .amvm x0 x1 x2 x3 x4 x5 => 6#6 ++ x0 ++ x1 ++ x2 ++ x3 ++ x4 ++ BitVec.ofBool x5 ++ 0#3
  | .arop x0 x1 x2 x3 x4 x5 x6 => 7#6 ++ x0 ++ x1 ++ x2.code ++ x3 ++ x4.code ++ BitVec.ofBool x5 ++ x6 ++ 0#1
  | .aacc x0 x1 x2 x3 => 8#6 ++ x0 ++ x1 ++ x2 ++ 0#1 ++ BitVec.ofBool x3 ++ 0#10
  | .edld x0 x1 => 1#6 ++ x0 ++ x1 ++ 0#15
  | .edset x0 x1 x2 => 2#6 ++ x0 ++ x1 ++ x2 ++ 0#10
  | .cpy x0 x1 => 3#6 ++ x0 ++ x1 ++ 0#16
  | .cpym x0 x1 => 4#6 ++ x0 ++ x1 ++ 0#16
  | .put x0 x1 => 5#6 ++ x0 ++ x1 ++ 0#16
  | .putrVerb x0 x1 => 6#6 ++ x0 ++ x1 ++ 15#4 ++ 0#12
  | .putr x0 x1 x2 => 6#6 ++ x0 ++ x1 ++ x2.code ++ 0#12
  | .red x0 x1 x2 => 7#6 ++ x0 ++ x1 ++ x2.code ++ 0#12
  | .zip x0 x1 x2 => 8#6 ++ x0 ++ x1 ++ x2 ++ 0#12
  | .fold x0 x1 x2 x3 => 9#6 ++ x0 ++ x1 ++ x2 ++ BitVec.ofBool x3 ++ 0#11
  | .scan x0 x1 x2 x3 => 10#6 ++ x0 ++ x1 ++ x2 ++ BitVec.ofBool x3 ++ 0#11
  | .vbdef x0 x1 => 11#6 ++ x0 ++ x1 ++ 0#15
  | .qfence x0 => 12#6 ++ x0 ++ 0#15
  | .flag x0 x1 x2 x3 => 13#6 ++ x0 ++ x1 ++ x2 ++ x3.code ++ 0#4
  | .qwait x0 => 14#6 ++ x0 ++ 0#20
  | .qstat x0 x1 => 15#6 ++ x0 ++ x1 ++ 0#14
  | .probe x0 x1 x2 x3 => 16#6 ++ x0 ++ x1 ++ x2 ++ x3 ++ 0#6
  | .pinv x0 x1 x2 => 17#6 ++ 0#6 ++ x0 ++ 0#3 ++ x1 ++ x2.code ++ 0#4
  | .ppin x0 x1 x2 => 18#6 ++ 0#6 ++ x0 ++ 0#3 ++ x1 ++ BitVec.ofBool x2 ++ 0#5
  | .awinit x0 x1 => 19#6 ++ x0 ++ x1 ++ 0#11
  | .await x0 x1 x2 x3 => 20#6 ++ x0 ++ x1 ++ x2 ++ x3 ++ 0#3
  | .atom x0 x1 x2 x3 x4 => 21#6 ++ x0.code ++ x1 ++ x2 ++ x3 ++ BitVec.ofBool x4
  | .atomc x0 x1 x2 x3 x4 => 22#6 ++ 0#3 ++ BitVec.ofBool x0 ++ x1 ++ x2 ++ x3 ++ BitVec.ofBool x4
  | .fence x0 x1 => 23#6 ++ x0.code ++ x1.code ++ 0#17
  | .xfence x0 x1 => 24#6 ++ x0 ++ BitVec.ofBool x1 ++ 0#14
  | .vjoin => 25#6 ++ 0#23
  | .cbset x0 x1 x2 => 26#6 ++ x0 ++ x1 ++ x2 ++ 0#10
  | .cbp x0 x1 => 27#6 ++ x0 ++ x1 ++ 0#8
  | .cbc x0 x1 => 28#6 ++ x0 ++ x1 ++ 0#8
  | .cbwf x0 x1 => 29#6 ++ x0 ++ x1 ++ 0#8
  | .cbwe x0 x1 => 30#6 ++ x0 ++ x1 ++ 0#8
  | .round x0 x1 x2 => 31#6 ++ x0 ++ x1 ++ x2 ++ 0#6
  | .rabort x0 => 32#6 ++ x0 ++ 0#15
  | _ => 0#29

/-- The slot word of an instruction with its frame (R25). -/
def encode (fr : Frame) (i : Instr) : SWord :=
  BitVec.ofBool fr.j ++ BitVec.ofBool fr.f ++ BitVec.ofBool fr.l ++ i.body

/-- Little-endian: the number that a list of bytes holds, lowest address first (R23, R107). -/
def ofBytes : List Byte → Nat
  | [] => 0
  | b :: bs => b.toNat + 256 * ofBytes bs

/-- Little-endian: the `n` low bytes of a number, lowest address first. -/
def toBytes : Nat → Nat → List Byte
  | 0, _ => []
  | n + 1, x => BitVec.ofNat 8 x :: toBytes n (x / 256)

/-- The eight slots in slot-number order (R24). -/
def allSlots : List Slot := [.ctl, .sca, .va, .vb, .xn, .mx, .ar, .ae]

/-- Slot number 0–7 (R24). -/
def Slot.num : Slot → Nat
  | .ctl => 0 | .sca => 1 | .va => 2 | .vb => 3 | .xn => 4 | .mx => 5 | .ar => 6 | .ae => 7

/-- The slot of a number. -/
def Slot.ofNum : Nat → Slot
  | 0 => .ctl | 1 => .sca | 2 => .va | 3 => .vb | 4 => .xn | 5 => .mx | 6 => .ar | _ => .ae

/-- Slot i's word of a bundle lies at bundle bits 32i+31:32i (R23). -/
def slotWord (bundle : BitVec 256) (sl : Slot) : SWord := bundle.extractLsb' (32 * sl.num) 32

/-- The bundle that 32 bytes hold, little-endian (R23). -/
def bundleOfBytes (bs : List Byte) : BitVec 256 := BitVec.ofNat 256 (ofBytes bs)

/-- The lowest-numbered slot of a bundle whose word is no instruction, with the reason (R43, R45). -/
def firstReject (bundle : BitVec 256) : List Slot → Option (Slot × Reject)
  | [] => none
  | sl :: rest =>
    match decodeWord sl (slotWord bundle sl) with
    | .error r => some (sl, r)
    | .ok _ => firstReject bundle rest

/-- R37: the widths that the VA and VB words name together do not exceed 1,024 bits; where one of the two is illegal itself, no width is counted
(DESIGN CHOICE, log 115). -/
def lanesOk (bundle : BitVec 256) : Bool :=
  match decodeWord .va (slotWord bundle .va), decodeWord .vb (slotWord bundle .vb) with
  | .ok a, .ok b => a.lanes + b.lanes ≤ 1024
  | _, _ => true

/-- Decode a bundle as its dispatch does (R43, R45): none, or the lowest-numbered offending slot and the reason. A bundle that
breaks R37 is charged to VA, unless the word of a slot below VA offends too. -/
def bundleReject (bundle : BitVec 256) : Option (Slot × Reject) :=
  match firstReject bundle [.ctl, .sca] with
  | some x => some x
  | none => if lanesOk bundle then firstReject bundle [.va, .vb, .xn, .mx, .ar, .ae] else some (.va, .lanes)

/-- The slots in the order in which a bare 32-bit word, whose slot is not given, is tried. -/
def tableOrder : List Slot := [.ctl, .sca, .va, .xn, .mx, .ar, .ae]

/-- The first of the slots whose map makes the word an instruction. -/
def firstSlot (w : SWord) : List Slot → Option (Slot × Instr)
  | [] => none
  | sl :: rest =>
    match decodeWord sl w with
    | .ok i => some (sl, i)
    | .error _ => firstSlot w rest

/-- The instruction that the decoder reads from a bare table word: four bytes, laid out little-endian (R23), in the first slot of
`tableOrder` whose map holds the word. One word can be an instruction of several slots (R24). -/
def decodeTableWord (nbits w : Nat) : Option Instr :=
  if nbits = 0 then none
  else (firstSlot (BitVec.ofNat 32 (ofBytes (toBytes 4 (w % 2 ^ nbits)))) tableOrder).map (·.2)

end Sys2Proof
end

