-- ==== Sys2Proof/Machine/Numbers.lean ====
section
/-!
DEFINITION. Numbers, rounding and conversion (R140–R148), the arithmetic of R110–R113 and R118 on exact values, and the event kinds
of R161. A finite value is exact: a sign, a whole magnitude and a power of two. Every rounding happens in `roundTo`.
-/
namespace Sys2Proof

/-- A set of event kinds, one bit for each kind of R161. -/
abbrev Kinds := BitVec 9

def kNone : Kinds := 0
def kInvalid : Kinds := 0x001
def kDivZero : Kinds := 0x002
def kOverflow : Kinds := 0x004
def kUnderflow : Kinds := 0x008
def kInexact : Kinds := 0x010
def kSaturation : Kinds := 0x020
def kTruncation : Kinds := 0x040
def kLateBeat : Kinds := 0x080
def kPoison : Kinds := 0x100

/-- The kinds, if the condition holds. -/
def kIf (b : Bool) (k : Kinds) : Kinds := if b then k else 0

/-- A number as an operand holds it: NaN (signalling or quiet), an infinity, or the exact value (−1)^neg × m × 2^e. -/
inductive Num where
  | nan (neg sig : Bool)
  | inf (neg : Bool)
  | fin (neg : Bool) (m : Nat) (e : Int)
  deriving DecidableEq, Repr

/-- The zero of a sign. -/
def Num.zero (neg : Bool) : Num := .fin neg 0 0

/-- How a floating format uses its top exponent (R140). -/
inductive Special where
  /-- infinities and NaNs, as F32 -/
  | ieee
  /-- one NaN magnitude, no infinity: E4M3 -/
  | oneNan
  /-- neither -/
  | none
  deriving DecidableEq, Repr

/-- A floating format (R140): exponent and fraction widths, bias, largest finite magnitude as bits, canonical NaN. -/
structure Fmt where
  ew   : Nat
  fw   : Nat
  bias : Nat
  top  : Nat
  nan  : Nat
  kind : Special
  deriving DecidableEq, Repr

def fmtF32 : Fmt := ⟨8, 23, 127, 0x7F7FFFFF, 0x7FC00000, .ieee⟩
def fmtF16 : Fmt := ⟨5, 10, 15, 0x7BFF, 0x7E00, .ieee⟩
def fmtBF16 : Fmt := ⟨8, 7, 127, 0x7F7F, 0x7FC0, .ieee⟩
def fmtE4M3 : Fmt := ⟨4, 3, 7, 0x7E, 0x7F, .oneNan⟩
def fmtE5M2 : Fmt := ⟨5, 2, 15, 0x7B, 0x7E, .ieee⟩
def fmtE3M2 : Fmt := ⟨3, 2, 3, 0x1F, 0, .none⟩
def fmtE2M3 : Fmt := ⟨2, 3, 1, 0x1F, 0, .none⟩
def fmtE2M1 : Fmt := ⟨2, 1, 1, 0x7, 0, .none⟩

/-- Bits of an element of a format, sign included. -/
def Fmt.bits (f : Fmt) : Nat := 1 + f.ew + f.fw

/-- Exponent of the weight of the last bit of a subnormal. -/
def Fmt.minLsb (f : Fmt) : Int := 1 - (f.bias : Int) - f.fw

/-- The value that the low `f.bits` bits of `x` hold (R140). -/
def Fmt.decode (f : Fmt) (x : Nat) : Num :=
  let neg := x.testBit (f.ew + f.fw)
  let mag := x % 2 ^ (f.ew + f.fw)
  let ex := mag / 2 ^ f.fw
  let fr := mag % 2 ^ f.fw
  if f.kind = .ieee ∧ ex = 2 ^ f.ew - 1 then
    if fr = 0 then .inf neg else .nan neg (!fr.testBit (f.fw - 1))
  else if f.kind = .oneNan ∧ mag = f.nan then .nan neg false
  else if ex = 0 then .fin neg fr f.minLsb
  else .fin neg (2 ^ f.fw + fr) (f.minLsb + (ex : Int) - 1)

/-- floor(log2 (m × 2^e)) for m ≠ 0. -/
def log2Floor (m : Nat) (e : Int) : Int := (m.log2 : Int) + e

/-- A rounding of the magnitude m × 2^e to a whole multiple of 2^lsb (R143, R148); `r` is the random byte. -/
def roundMag (mode : Rnd) (neg : Bool) (r : Nat) (m : Nat) (e lsb : Int) : Nat × Bool :=
  if lsb ≤ e then (m * 2 ^ (e - lsb).toNat, true)
  else
    let d := (lsb - e).toNat
    let q := m / 2 ^ d
    let rem := m % 2 ^ d
    let up := match mode with
      | .rne => 2 ^ d < 2 * rem || (2 * rem = 2 ^ d && q % 2 = 1)
      | .rtz => false
      | .rup => !neg && rem != 0
      | .sr => 2 ^ (d + 8) ≤ rem * 256 + r * 2 ^ d
    (if up then q + 1 else q, rem = 0)

/-- The sign bit of a format. -/
def Fmt.sign (f : Fmt) (neg : Bool) : Nat := if neg then 2 ^ (f.ew + f.fw) else 0

/-- The infinity of a sign where the format has one, else its largest magnitude. -/
def Fmt.infBits (f : Fmt) (neg : Bool) : Nat :=
  f.sign neg + (if f.kind = .ieee then (2 ^ f.ew - 1) * 2 ^ f.fw else f.top)

/-- What an overflow gives (R144). -/
def Fmt.overflow (f : Fmt) (mode : Rnd) (sat neg : Bool) : Nat :=
  if sat || f.kind != .ieee then f.sign neg + f.top
  else match mode with
    | .rne | .sr => f.infBits neg
    | .rtz => f.sign neg + f.top
    | .rup => if neg then f.sign neg + f.top else f.infBits neg

/-- Rounds an exact value into a floating format and says which events that raises (R143–R147). -/
def Fmt.roundTo (f : Fmt) (mode : Rnd) (sat : Bool) (r : Nat) : Num → Nat × Kinds
  | .nan neg sig =>
    if f.kind = .none then (f.sign neg + f.top, kInvalid)
    else (f.nan, kIf sig kInvalid)
  | .inf neg =>
    if f.kind = .ieee then (f.infBits neg, 0) else (f.sign neg + f.top, kOverflow ||| kInexact)
  | .fin neg m e =>
    if m = 0 then (f.sign neg, 0)
    else
      let lsb : Int := max (log2Floor m e - (f.fw : Int)) f.minLsb
      let k := roundMag mode neg r m e lsb
      let mag := if k.1 < 2 ^ f.fw then k.1 else (lsb - f.minLsb + 1).toNat * 2 ^ f.fw + (k.1 - 2 ^ f.fw)
      if f.top < mag then (f.overflow mode sat neg, kOverflow ||| kInexact)
      else (f.sign neg + mag, kIf (!k.2) kInexact ||| kIf (!k.2 && mag < 2 ^ f.fw) kUnderflow)

/-- Rounds an exact value into a signed integer of `w` bits (R145, R146): the integer and the events. -/
def roundInt (w : Nat) (mode : Rnd) (sat : Bool) (r : Nat) : Num → Int × Kinds
  | .nan _ _ => (0, kInvalid)
  | .inf neg => (if neg then -(2 ^ (w - 1) : Int) else (2 ^ (w - 1) : Int) - 1, kInvalid)
  | .fin neg m e =>
    let k := roundMag mode neg r m e 0
    let v : Int := if neg then -(k.1 : Int) else k.1
    if v < -(2 ^ (w - 1) : Int) then (-(2 ^ (w - 1) : Int), if sat then kSaturation else kInvalid)
    else if 2 ^ (w - 1) - 1 < v then (2 ^ (w - 1) - 1, if sat then kSaturation else kInvalid)
    else (v, kIf (!k.2) kInexact)

/-- The low `w` bits of an integer, as two's complement. -/
def intBits (w : Nat) (v : Int) : Nat := (v % (2 ^ w : Int)).toNat

/-- The signed integer that the low `w` bits hold. -/
def signed (w x : Nat) : Int := if 2 ^ (w - 1) ≤ x % 2 ^ w then (x % 2 ^ w : Nat) - (2 ^ w : Int) else (x % 2 ^ w : Nat)

/-- An integer as an exact value. -/
def Num.ofInt (v : Int) : Num := .fin (decide (v < 0)) v.natAbs 0

/-- Rounds into an MXINT8 element (R141, R144, R152). -/
def roundMxint (mode : Rnd) (r : Nat) : Num → Nat × Kinds
  | .nan neg _ => (if neg then 0x80 else 0x7F, kInvalid)
  | .inf neg => (if neg then 0x80 else 0x7F, kOverflow ||| kInexact)
  | .fin neg m e =>
    let k := roundMag mode neg r m e (-6)
    if neg && 128 < k.1 then (0x80, kOverflow ||| kInexact)
    else if !neg && 127 < k.1 then (0x7F, kOverflow ||| kInexact)
    else (intBits 8 (if neg then -(k.1 : Int) else k.1), kIf (!k.2) kInexact)

/-- The floating format of a conversion code, if it has one (R30, R140). -/
def Cvt.fmt : Cvt → Option Fmt
  | .bf16 => some fmtBF16
  | .f16 => some fmtF16
  | .f32 => some fmtF32
  | .e4m3 => some fmtE4M3
  | .e5m2 => some fmtE5M2
  | .e3m2 => some fmtE3M2
  | .e2m3 => some fmtE2M3
  | .e2m1 => some fmtE2M1
  | .i8 | .i16 | .i32 | .mxint8 | .e8m0 => none

/-- The value of an element in a conversion code's format (R140, R141). -/
def Cvt.decode (c : Cvt) (x : Nat) : Num :=
  match c.fmt with
  | some f => f.decode x
  | none => match c with
    | .mxint8 => let v := signed 8 x; .fin (decide (v < 0)) v.natAbs (-6)
    | .e8m0 => if x % 256 = 255 then .nan false false else .fin false 1 ((x % 256 : Nat) - 127)
    | _ => .ofInt (signed c.bits x)

/-- Rounds an exact value into a conversion code's format (R143–R147). -/
def Cvt.round (c : Cvt) (mode : Rnd) (sat : Bool) (r : Nat) (x : Num) : Nat × Kinds :=
  match c.fmt with
  | some f => f.roundTo mode sat r x
  | none => match c with
    | .mxint8 => roundMxint mode r x
    | _ => let y := roundInt c.bits mode sat r x; (intBits c.bits y.1, y.2)

/-- Int of R36, as a conversion code. -/
def Cvt.isInt : Cvt → Bool
  | .i8 | .i16 | .i32 => true
  | _ => false

/-- convert() of R151: one element from one code to another. An integer into a narrower integer follows R146. -/
def Cvt.convert (src dst : Cvt) (mode : Rnd) (sat : Bool) (r x : Nat) : Nat × Kinds :=
  if src.isInt && dst.isInt then
    let v := signed src.bits x
    if sat then
      let lo : Int := -(2 ^ (dst.bits - 1))
      let hi : Int := 2 ^ (dst.bits - 1) - 1
      if v < lo then (intBits dst.bits lo, kSaturation)
      else if hi < v then (intBits dst.bits hi, kSaturation)
      else (intBits dst.bits v, 0)
    else (intBits dst.bits v, 0)
  else dst.round mode sat r (src.decode x)

-- exact arithmetic

/-- A finite value as a signed whole number of 2^lsb. -/
def Num.scaled (lsb : Int) : Num → Int
  | .fin neg m e => let k : Int := m * 2 ^ (e - lsb).toNat; if neg then -k else k
  | _ => 0

/-- Exponent of a finite value. -/
def Num.exp : Num → Int
  | .fin _ _ e => e
  | _ => 0

def Num.neg : Num → Bool
  | .nan n _ | .inf n | .fin n _ _ => n

def Num.isZero : Num → Bool
  | .fin _ 0 _ => true
  | _ => false

def Num.isNan : Num → Bool
  | .nan _ _ => true
  | _ => false

def Num.isSig : Num → Bool
  | .nan _ s => s
  | _ => false

def Num.isInf : Num → Bool
  | .inf _ => true
  | _ => false

/-- The value with its sign inverted. -/
def Num.flip : Num → Num
  | .nan n s => .nan (!n) s
  | .inf n => .inf (!n)
  | .fin n m e => .fin (!n) m e

/-- The magnitude. -/
def Num.mag : Num → Num
  | .nan _ s => .nan false s
  | .inf _ => .inf false
  | .fin _ m e => .fin false m e

/-- v × 2^k, exactly. -/
def Num.shift (k : Int) : Num → Num
  | .fin n m e => .fin n m (e + k)
  | x => x

/-- The exact sum of finite values; a zero sum is −0 only when every term is −0 (R143, R158). -/
def sumExact (xs : List Num) : Num :=
  let lsb := xs.foldl (fun l x => min l x.exp) (match xs with | x :: _ => x.exp | [] => 0)
  let s := xs.foldl (fun a x => a + x.scaled lsb) (0 : Int)
  if s = 0 then .fin (xs.all (fun x => x.neg && x.isZero) && !xs.isEmpty) 0 0
  else .fin (decide (s < 0)) s.natAbs lsb

/-- The quiet NaN that arithmetic makes. -/
def Num.qnan : Num := .nan false false

/-- The exact product, and whether it is invalid (0 × ∞). -/
def Num.mul (a b : Num) : Num × Bool :=
  match a, b with
  | .nan _ _, _ => (Num.qnan, false)
  | _, .nan _ _ => (.qnan, false)
  | .inf n, y => if y.isZero then (.qnan, true) else (.inf (n != y.neg), false)
  | x, .inf n => if x.isZero then (.qnan, true) else (.inf (x.neg != n), false)
  | .fin n m e, .fin n' m' e' => (.fin (n != n') (m * m') (e + e'), false)

/-- The exact sum, and whether it is invalid (infinities of opposite sign). -/
def Num.add (a b : Num) : Num × Bool :=
  match a, b with
  | .nan _ _, _ => (Num.qnan, false)
  | _, .nan _ _ => (.qnan, false)
  | .inf n, .inf n' => if n = n' then (.inf n, false) else (.qnan, true)
  | .inf n, _ => (.inf n, false)
  | _, .inf n => (.inf n, false)
  | x, y => (sumExact [x, y], false)

/-- Numeric order of values that are not NaN: a < b. -/
def Num.lt (a b : Num) : Bool :=
  match a, b with
  | .nan _ _, _ => false
  | _, .nan _ _ => false
  | .inf n, .inf n' => n && !n'
  | .inf n, _ => n
  | _, .inf n => !n
  | x, y => let l := min x.exp y.exp; decide (x.scaled l < y.scaled l)

/-- Numeric equality, with +0 = −0. -/
def Num.eq (a b : Num) : Bool := !a.isNan && !b.isNan && !a.lt b && !b.lt a

/-- One operation rounded once, RNE, into a format, as R118 and R110 lay down. -/
def Fmt.finish (f : Fmt) (ops : List Num) (r : Num × Bool) : Nat × Kinds :=
  let y := f.roundTo .rne false 0 r.1
  (y.1, y.2 ||| kIf (r.2 || ops.any Num.isSig) kInvalid)

def Fmt.add (f : Fmt) (a b : Nat) : Nat × Kinds :=
  let x := f.decode a
  let y := f.decode b
  f.finish [x, y] (x.add y)

def Fmt.sub (f : Fmt) (a b : Nat) : Nat × Kinds :=
  let x := f.decode a
  let y := f.decode b
  f.finish [x, y] (x.add y.flip)

def Fmt.mul (f : Fmt) (a b : Nat) : Nat × Kinds :=
  let x := f.decode a
  let y := f.decode b
  f.finish [x, y] (x.mul y)

/-- d + a × b with an exact product and one rounding; 0 × ∞ is invalid whatever d is (R111). -/
def Fmt.fma (f : Fmt) (d a b : Nat) : Nat × Kinds :=
  let z := f.decode d
  let x := f.decode a
  let y := f.decode b
  let p := x.mul y
  let s := z.add p.1
  f.finish [x, y, z] (s.1, p.2 || s.2)

/-- The lesser or the greater (R111, R119): −0 below +0; the operand that is not NaN when one is. -/
def Fmt.minmax (f : Fmt) (wantMax : Bool) (a b : Nat) : Nat × Kinds :=
  let x := f.decode a
  let y := f.decode b
  let ev := kIf (x.isSig || y.isSig) kInvalid
  let below := x.lt y || (x.isZero && y.isZero && x.neg && !y.neg)
  let v :=
    if x.isNan && y.isNan then f.nan
    else if x.isNan then b
    else if y.isNan then a
    else if below != wantMax then a
    else if x.eq y && x.neg == y.neg then a
    else b
  (v % 2 ^ f.bits, ev)

/-- mix of R150. -/
def mix (x : Word) : Word :=
  let x := (x ^^^ (x >>> 30)) * 0xBF58476D1CE4E5B9
  let x := (x ^^^ (x >>> 27)) * 0x94D049BB133111EB
  x ^^^ (x >>> 31)

/-- The entry that the generator makes with counter c (R150). -/
def rngEntry (key ctr : Word) : BitVec 256 :=
  mix (key ^^^ (4 * ctr + 3)) ++ mix (key ^^^ (4 * ctr + 2)) ++ mix (key ^^^ (4 * ctr + 1)) ++ mix (key ^^^ (4 * ctr))

/-- Byte i mod 32 of an entry, for element i (R148). -/
def rndByte (entry : BitVec 256) (i : Nat) : Nat := entry.toNat / 2 ^ (8 * (i % 32)) % 256

-- elements of a vector

/-- Element i of `bits` bits (R114, R140). -/
def elem {n : Nat} (v : BitVec n) (bits i : Nat) : Nat := (v.toNat >>> (bits * i)) % 2 ^ bits

/-- The first n elements of `bits` bits. -/
def elems {k : Nat} (v : BitVec k) (bits n : Nat) : List Nat := (List.range n).map (elem v bits)

/-- Elements packed from bit 0 upward. -/
def packNat (bits : Nat) (xs : List Nat) : Nat := xs.foldr (fun x a => x % 2 ^ bits + 2 ^ bits * a) 0

/-- Elements packed into a word of n bits. -/
def pack (n bits : Nat) (xs : List Nat) : BitVec n := BitVec.ofNat n (packNat bits xs)

/-- The union of the events of elements. -/
def unionKinds (xs : List (Nat × Kinds)) : Kinds := xs.foldl (fun k x => k ||| x.2) 0

-- special functions of VSFU (R125–R129)

/-- A value rounded to binary32, RNE. -/
def rne32 (x : Num) : Num := fmtF32.decode (fmtF32.roundTo .rne false 0 x).1

def mul32 (a b : Num) : Num := rne32 (a.mul b).1
def add32 (a b : Num) : Num := rne32 (a.add b).1
def fma32 (a b c : Num) : Num := rne32 ((a.mul b).1.add c).1
def f32 (x : Nat) : Num := fmtF32.decode x

/-- The significand 1 ≤ m < 2 of a nonzero finite magnitude as a value, and its exponent. -/
def normalise : Num → Num × Int
  | .fin _ m e => (.fin false m (-(m.log2 : Int)), log2Floor m e)
  | x => (x, 0)

/-- The `k` most significant bits of the fraction of m, 1 ≤ m < 2. -/
def idxBits (k : Nat) : Num → Nat
  | .fin _ m _ => (m * 2 ^ k) / 2 ^ m.log2 - 2 ^ k
  | _ => 0

/-- scale32 of R125, and the underflow that a tiny result raises with its inexact. -/
def scale32 (neg : Bool) (y : Num) (k : Int) : Nat × Kinds :=
  let v := (if neg then y.flip else y).shift k
  let r := fmtF32.roundTo .rne false 0 v
  (r.1, r.2 ||| kInexact ||| kIf (r.1 % 2 ^ 31 < 2 ^ 23) kUnderflow)

def rcpTable : List Nat := [248, 234, 221, 210, 200, 191, 182, 174, 167, 161, 155, 149, 144, 139, 134, 130]
def rsqTable : List Nat := [248, 235, 223, 214, 205, 197, 190, 184, 176, 166, 158, 151, 145, 139, 134, 130]

/-- RCP (R126). -/
def sfuRcp (x : Nat) : Nat × Kinds :=
  match f32 x with
  | .nan _ s => (fmtF32.nan, kIf s kInvalid)
  | .inf n => (fmtF32.sign n, 0)
  | .fin n 0 _ => (fmtF32.infBits n, kDivZero)
  | .fin n m e =>
    let me := normalise (.fin n m e)
    let y0 : Num := .fin false (rcpTable.getD (idxBits 4 me.1) 0) (-8)
    let stp := fun (y : Num) => mul32 y (add32 (.fin false 2 0) (mul32 me.1 y).flip)
    scale32 n (stp (stp y0)) (-me.2)

/-- RSQRT (R127). -/
def sfuRsqrt (x : Nat) : Nat × Kinds :=
  match f32 x with
  | .nan _ s => (fmtF32.nan, kIf s kInvalid)
  | .fin n 0 _ => (fmtF32.infBits n, kDivZero)
  | .inf false => (0, 0)
  | .inf true => (fmtF32.nan, kInvalid)
  | .fin n m e =>
    if n then (fmtF32.nan, kInvalid)
    else
      let me := normalise (.fin n m e)
      let odd := me.2 % 2 = 1
      let m2 := if odd then me.1.shift 1 else me.1
      let e2 := if odd then me.2 - 1 else me.2
      let j := (if odd then 8 else 0) + idxBits 3 me.1
      let y0 : Num := .fin false (rsqTable.getD j 0) (-8)
      let stp := fun (y : Num) =>
        let b := mul32 m2 (mul32 y y)
        mul32 y (add32 (.fin false 3 (-1)) (b.shift (-1)).flip)
      scale32 false (stp (stp y0)) (-(e2 / 2))

/-- EXP2 coefficients c0 … c5 as binary32 bits (R128). -/
def exp2Coef : List Nat := [0x3F800000, 0x3F31727B, 0x3E75EAD4, 0x3D64AA23, 0x3C134806, 0x3AF61905]

/-- EXP2 (R128). The subtraction x − n is one of the binary32 operations of R125: rounded where it is not exact (log 13, DEDUCED). -/
def sfuExp2 (x : Nat) : Nat × Kinds :=
  match f32 x with
  | .nan _ s => (fmtF32.nan, kIf s kInvalid)
  | .inf false => (fmtF32.infBits false, 0)
  | .inf true => (0, 0)
  | .fin neg m e =>
    let v : Num := .fin neg m e
    if !v.lt (.fin false 128 0) then (fmtF32.infBits false, kOverflow ||| kInexact)
    else if v.lt (.fin true 160 0) then (0, kUnderflow ||| kInexact)
    else
      let d := (-e).toNat
      let s : Int := if neg then -((m * 2 ^ e.toNat : Nat) : Int) else (m * 2 ^ e.toNat : Nat)
      let n : Int := s / (2 ^ d : Int)
      let fr : Int := s % (2 ^ d : Int)
      let f : Num := rne32 (.fin false fr.toNat (-(d : Int)))
      let c := fun k => f32 (exp2Coef.getD k 0)
      let acc := fma32 f (fma32 f (fma32 f (fma32 f (fma32 f (c 5) (c 4)) (c 3)) (c 2)) (c 1)) (c 0)
      if fr = 0 && -149 ≤ n then ((scale32 false (.fin false 1 0) n).1, 0)
      else scale32 false acc n

/-- L_i and Q_i as binary32 bits, and d1 … d4 (R129). -/
def log2L : List Nat := [0x00000000, 0x3DB31FB8, 0x3E2E00D2, 0x3E7DE0B6, 0x3EA4D3C2, 0x3EC8DDD4, 0x3EEB3A9F, 0x3F060828, 0x3F15C01A, 0x3F24D3C2, 0x3F335004, 0x3F41404F, 0x3F4EAED0, 0x3F5BA4A4, 0x3F6829FB, 0x3F744636]
def log2Q : List Nat := [0x3F800000, 0x3F70F0F1, 0x3F638E39, 0x3F579436, 0x3F4CCCCD, 0x3F430C31, 0x3F3A2E8C, 0x3F321643, 0x3F2AAAAB, 0x3F23D70A, 0x3F1D89D9, 0x3F17B426, 0x3F124925, 0x3F0D3DCB, 0x3F088889, 0x3F042108]
def log2D : List Nat := [0x3FB8AA3B, 0xBF38AA3B, 0x3EF6384F, 0xBEB8AA3B]

/-- LOG2 (R129). -/
def sfuLog2 (x : Nat) : Nat × Kinds :=
  match f32 x with
  | .nan _ s => (fmtF32.nan, kIf s kInvalid)
  | .fin _ 0 _ => (fmtF32.infBits true, kDivZero)
  | .inf false => (fmtF32.infBits false, 0)
  | .inf true => (fmtF32.nan, kInvalid)
  | .fin n m e =>
    if n then (fmtF32.nan, kInvalid)
    else
      let me := normalise (.fin n m e)
      if me.1.eq (.fin false 1 0) then ((fmtF32.roundTo .rne false 0 (.ofInt me.2)).1, 0)
      else
        let i := idxBits 4 me.1
        let d := (me.1.add (.fin true (16 + i) (-4))).1
        let u := mul32 d (f32 (log2Q.getD i 0))
        let c := fun k => f32 (log2D.getD k 0)
        let h := fma32 u (fma32 u (fma32 u (c 3) (c 2)) (c 1)) (c 0)
        let h := mul32 u h
        let r := (add32 (f32 (log2L.getD i 0)) h).add (.ofInt me.2)
        ((fmtF32.roundTo .rne false 0 r.1).1, kInexact)

/-- VSFU on one element (R125). -/
def SfuFn.apply : SfuFn → Nat → Nat × Kinds
  | .rcp => sfuRcp
  | .rsqrt => sfuRsqrt
  | .exp2 => sfuExp2
  | .log2 => sfuLog2

-- dot products (R132, R157, R158)

/-- The special operands of VDOT2 and VDOT16 (R132): a result that needs no sum, and its events. -/
def dotSpecial (acc : Num) (as bs : List Num) : Option (Nat × Kinds) :=
  let prods := (as.zip bs).map fun x => x.1.mul x.2
  let terms := acc :: prods.map (·.1)
  let ins := acc :: (as ++ bs)
  let opp := (terms.any fun t => t == .inf false) && (terms.any fun t => t == .inf true)
  let bad := ins.any Num.isSig || prods.any (·.2) || opp
  if ins.any Num.isNan || bad then some (fmtF32.nan, kIf bad kInvalid)
  else match terms.find? Num.isInf with
    | some t => some (fmtF32.infBits t.neg, 0)
    | none => none

/-- One element of VDOT2 (R158). -/
def dot2 (f : Fmt) (acc : Nat) (as bs : List Nat) : Nat × Kinds :=
  let a := f32 acc
  let xs := as.map f.decode
  let ys := bs.map f.decode
  match dotSpecial a xs ys with
  | some r => r
  | none => fmtF32.roundTo .rne false 0 (sumExact (a :: (xs.zip ys).map fun x => (x.1.mul x.2).1))

/-- The window of R157: a product truncated to 25 bits below E. -/
def window (E : Int) : Num → Num
  | .fin n m e => let lsb := E - 24
    .fin n (roundMag .rtz n 0 m e lsb).1 lsb
  | x => x

/-- One element of VDOT16 (R157). R147's v is acc + Σ p_i, exact: where acc + S is exactly 0 and v is not, the result is inexact and underflows
(the spec does not say which sum is v; DEDUCED, log 91). -/
def dot16 (f : Fmt) (acc : Nat) (as bs : List Nat) : Nat × Kinds :=
  let a := f32 acc
  let xs := as.map f.decode
  let ys := bs.map f.decode
  match dotSpecial a xs ys with
  | some r => r
  | none =>
    let ps := (xs.zip ys).map fun x => (x.1.mul x.2).1
    let nz := ps.filter fun p => !p.isZero
    let es := nz.map fun p => match p with | .fin _ m e => log2Floor m e | _ => 0
    let E := es.foldl max (es.headD 0)
    let S := if nz.isEmpty then sumExact ps
      else (match sumExact (ps.map (window E)) with | .fin _ 0 _ => .fin false 0 0 | x => x)
    let r := fmtF32.roundTo .rne false 0 (a.add S).1
    let exact := sumExact (a :: ps)
    let ovf := fmtF32.top < r.1 % 2 ^ 31
    let same := !ovf && (f32 r.1).eq exact
    (r.1, kIf ovf kOverflow ||| kIf (!same) kInexact ||| kIf (!same && r.1 % 2 ^ 31 < 2 ^ 23) kUnderflow)

-- MX blocks and planes (R142, R152–R155)

/-- emax_el of R152. -/
def Cvt.emax : Cvt → Int
  | .e4m3 => 8
  | .e5m2 => 15
  | .e3m2 => 4
  | .e2m3 => 2
  | .e2m1 => 2
  | _ => 0

/-- floor(log2 max |x|) over the nonzero values. -/
def maxLog (xs : List Num) : Option Int :=
  xs.foldl (fun a x => match x with
    | .fin _ 0 _ => a
    | .fin _ m e => some (match a with | none => log2Floor m e | some b => max b (log2Floor m e))
    | _ => a) none

/-- The elements and the scale of a block in MX block layout (R142), and its 32 values. -/
def mxElems (c : Cvt) (v : Vec) : List Nat := elems v c.bits 32
def mxScale (v : Vec) : Nat := v.toNat >>> 1016

/-- A block in MX block layout. -/
def mxLayout (c : Cvt) (xs : List Nat) (scale : Nat) : Vec := BitVec.ofNat 1024 (packNat c.bits xs + scale * 2 ^ 1016)

/-- XMX (R152); the random entry gives byte i mod 32 to element i. -/
def xmxBlock (dst : Cvt) (mode : Rnd) (sat : Bool) (rnd : BitVec 256) (v : Vec) : Vec × Kinds :=
  let xs := (elems v 32 32).map f32
  if xs.any fun x => x.isNan || x.isInf then (mxLayout dst (List.replicate 32 0) 0xFF, kInvalid)
  else match maxLog xs with
    | none => (0, 0)
    | some mx =>
      let X := min (max (mx - dst.emax) (-127)) 127
      let ys := xs.zipIdx.map fun x => dst.round mode sat (rndByte rnd x.2) (x.1.shift (-X))
      (mxLayout dst (ys.map (·.1)) (X + 127).toNat, unionKinds ys)

/-- XMXD (R153). -/
def xmxdBlock (src : Cvt) (mode : Rnd) (sat : Bool) (rnd : BitVec 256) (v : Vec) : Vec × Kinds :=
  let s := mxScale v
  if s = 255 then (pack 1024 32 (List.replicate 32 fmtF32.nan), kInvalid)
  else
    let ys := (mxElems src v).zipIdx.map fun x =>
      fmtF32.roundTo mode sat (rndByte rnd x.2) ((src.decode x.1).shift ((s : Int) - 127))
    (pack 1024 32 (ys.map (·.1)), unionKinds ys)

/-- The 32 values that XPLANE reads (R154), none where the block's scale is 0xFF. -/
def planeSource (t : Cvt) (v : Vec) : Option (List Num) :=
  if t.isMx then
    if mxScale v = 255 then none
    else some ((mxElems t v).map fun x => (t.decode x).shift ((mxScale v : Int) - 127))
  else some ((elems v t.bits 32).map t.decode)

/-- Planes of integers: bit i of plane j is bit j of q_i; the exponent stands in the top byte (R154). -/
def planeLayout (p : Nat) (qs : List Int) (E : Nat) : Vec :=
  let plane := fun j => packNat 1 (qs.map fun q => intBits p q / 2 ^ j % 2)
  BitVec.ofNat 1024 (packNat 32 ((List.range p).map plane) + E * 2 ^ 1016)

/-- XPLANE (R154). A block with a NaN, an infinity or a scale of 0xFF raises invalid alone, though its nonzero elements give q_i = 0 too (DEDUCED,
log 90). -/
def xplaneBlock (t : Cvt) (p : Nat) (mode : Rnd) (rnd : BitVec 256) (v : Vec) : Vec × Kinds :=
  let zeros : List Int := List.replicate 32 0
  match planeSource t v with
  | none => (planeLayout p zeros 0xFF, kInvalid)
  | some xs =>
    if xs.any fun x => x.isNan || x.isInf then (planeLayout p zeros 0xFF, kInvalid)
    else match maxLog xs with
      | none => (0, 0)
      | some e0 =>
        if 128 < e0 then (planeLayout p zeros 0xFF, kOverflow ||| kTruncation ||| kInexact)
        else
          let e := max e0 (-127)
          let ys := xs.zipIdx.map fun x =>
            let y := x.1.shift ((p : Int) - 2 - e)
            let k := match y with | .fin _ m e' => roundMag mode false (rndByte rnd x.2) m e' 0 | _ => (0, true)
            let m := min k.1 (2 ^ (p - 1) - 1)
            let cut := 2 ^ (p - 1) - 1 < k.1
            let q : Int := if x.1.neg then -(m : Int) else m
            let trunc := !x.1.isZero && m = 0
            (q, kIf cut kSaturation ||| kIf (!k.2 || cut) kInexact ||| kIf trunc (kTruncation ||| kInexact))
          (planeLayout p (ys.map (·.1)) (e + 127).toNat, ys.foldl (fun k y => k ||| y.2) 0)

/-- The integers q_i of a plane-form block (R154). -/
def planeInts (p : Nat) (v : Vec) : List Int :=
  (List.range 32).map fun i =>
    signed p (packNat 1 ((List.range p).map fun j => v.toNat / 2 ^ (32 * j + i) % 2))

/-- XUNPLANE (R155). -/
def xunplaneBlock (t : Cvt) (p : Nat) (mode : Rnd) (sat : Bool) (rnd : BitVec 256) (v : Vec) : Vec × Kinds :=
  let E := mxScale v
  if E = 255 then
    let el := match t.fmt with | some f => f.nan | none => 0
    (pack 1024 t.bits (List.replicate 32 el), kInvalid)
  else
    let ys := (planeInts p v).zipIdx.map fun x =>
      t.round mode sat (rndByte rnd x.2) ((Num.ofInt x.1).shift ((E : Int) - 127 - p + 2))
    (pack 1024 t.bits (ys.map (·.1)), unionKinds ys)

end Sys2Proof
end

