-- ==== Sys2Proof/Machine/State.lean ====
section
/-!
DEFINITION. The state of one JX12 package as plain data: everything the spec gives the machine, and the model's own clockwork
(the cursor over the phases of a cycle, undelivered external happenings, results in flight). INVENTORY.md lists it with its rules.
-/
namespace Sys2Proof.Machine

/-- A register file of 2^k entries, indexed by a k-bit field. -/
abbrev File (k : Nat) (α : Type) := Vector α (2 ^ k)

/-- A memory: bytes in one canonical form (strictly rising addresses, no listed byte equal to what an unlisted one reads as), and
the addresses of the poisoned bytes, strictly rising (R161, R380; in HBM a granule of 32 at a time). -/
structure Mem where
  cells  : List Host.Cell
  poison : List Nat
  deriving DecidableEq, Repr

/-- An address stream (R97). -/
structure Stream where
  base : Word
  st   : Vector (BitVec 32) 6
  view : Bool
  deriving DecidableEq, Repr

/-- A circular buffer (R176). -/
structure CircBuf where
  base  : Nat
  esize : Nat
  count : Nat
  p     : Nat
  c     : Nat
  f     : Nat
  deriving DecidableEq, Repr

/-- A verb as a handle names it: the image's words from the header on (R219), and the op at which running a captured copy meets a parity error
(R226, R233): a fault of the hardware, which nothing in the model makes. -/
structure Verb where
  words : List (BitVec 32)
  bad   : Option Nat
  deriving DecidableEq, Repr

/-- What a slot instruction can write: the register classes of R62. -/
inductive Reg where
  | s (i : BitVec 6)
  | v (i : BitVec 6)
  | p (i : BitVec 3)
  | cf (i : BitVec 3)
  | bt (i : BitVec 3)
  | asf (i : BitVec 4) (field : BitVec 3)
  | md (i : BitVec 4) (field : BitVec 3)
  | ad (i : BitVec 3) (field : BitVec 3)
  | ed (i : BitVec 4)
  | edw (i : BitVec 4) (word : BitVec 3)
  | cb (i : BitVec 5) (field : BitVec 2)
  /-- a verb handle, as the scoreboard counts it -/
  | h (i : BitVec 4)
  | spr (n : BitVec 10)
  | pat (k : BitVec 3)
  deriving DecidableEq, Repr

/-- The bits of a write in flight; wide enough for a bit-network pattern. -/
abbrev Payload := BitVec 2048

/-- A result in flight (R9, R56): it lands at the end of counted cycle `due`, in the bits of `mask`. -/
structure Flight where
  seq    : Nat
  slot   : Slot
  bundle : BitVec 14
  reg    : Reg
  val    : Payload
  mask   : Payload
  due    : Nat
  kinds  : BitVec 9
  /-- the register is pending-return (R60) -/
  pend   : Bool
  deriving DecidableEq, Repr

/-- What a slot pool access does in its access cycle (R56, R171). -/
inductive AccOp where
  /-- read `len` bytes into bits from `shift` of a register, landing at `land`; sign-extend from the top byte -/
  | load (reg : Reg) (shift : Nat) (land : Nat) (sx : Bool) (sel : List Bool)
  /-- write the listed bytes, none where the byte is not written -/
  | store (bytes : List (Option Byte))
  deriving DecidableEq, Repr

/-- A slot pool access that has issued and not reached its access cycle. -/
structure Access where
  seq    : Nat
  slot   : Slot
  bundle : BitVec 14
  due    : Nat
  addr   : Nat
  len    : Nat
  view   : Bool
  op     : AccOp
  deriving DecidableEq, Repr

/-- A slot store past its access cycle whose bundle has not retired (R52, R172): seen by slot loads only. -/
structure PendStore where
  seq   : Nat
  slot  : Slot
  time  : Nat
  view  : Bool
  bytes : List (Nat × Byte)
  deriving DecidableEq, Repr

/-- One entry of the undo record (R53, R164), the latest happening first: a landing, or another effect on registers, while some bundle can
still be undone. -/
inductive Undo where
  /-- a register's bits before a landing in the bits of a mask -/
  | reg (seq : Nat) (r : Reg) (old mask : Payload)
  /-- a landing in FRZCNT or ALATECNT, which hardware goes on counting: before and after -/
  | count (seq : Nat) (n : BitVec 10) (old new : Word)
  /-- a landing in a field of a circular buffer, whose pointers engines go on moving: before and after -/
  | cbuf (seq : Nat) (i : BitVec 5) (field : BitVec 2) (old new : CircBuf)
  /-- a landing in RNGKEY or RNGCTR: the queue and the registers before -/
  | rng (seq : Nat) (rq : List (BitVec 256)) (ctr key : Word)
  /-- an entry taken from the random queue -/
  | rq (seq : Nat) (entry : BitVec 256)
  /-- event kinds raised (by an engine where there is no bundle): the bits that were clear before, and all of them -/
  | raised (seq : Option Nat) (fresh all : Kinds)
  /-- an event recorded in the log -/
  | log (seq : Option Nat) (a b : Word)
  /-- a reading of FELA, which cleared the log: what it held -/
  | felRead (seq : Nat) (a b : Word)
  deriving DecidableEq, Repr

/-- A level of the hardware loop stack (R63). -/
structure LoopLevel where
  index : BitVec 32
  count : BitVec 32
  start : BitVec 14
  stop  : BitVec 14
  deriving DecidableEq, Repr

/-- A transfer that has been dispatched and has not landed (R68): the delay bundles left, when it reads its registers, the target it has read
and that has passed R71's check, and where it goes once it is resolved (`some none`: not taken). -/
structure Xfer where
  seq    : Nat
  pc     : BitVec 14
  left   : Nat
  readAt : Option Nat
  /-- the bt it names, none for s63; the flag and sense it depends on -/
  bt     : Option (BitVec 3)
  cond   : Option (BitVec 3 × Bool)
  tgt    : Option (BitVec 14)
  res    : Option (Option (BitVec 14))
  /-- the boundary after its third delay bundle has been crossed -/
  done   : Bool
  deriving DecidableEq, Repr

/-- The tag the sequencer attaches to a bundle at its dispatch (R64). -/
structure Tag where
  lidx  : List (BitVec 32)
  lcnt  : BitVec 32
  first : Bool
  last  : Bool
  beat  : BitVec 16
  deriving DecidableEq, Repr

/-- A dispatched bundle that has not retired (R46, R51). -/
structure BundleRec where
  seq         : Nat
  pc          : BitVec 14
  words       : BitVec 256
  tag         : Tag
  loopsBefore : List LoopLevel
  /-- transfers pending at the boundary before it: sequence number and delay bundles left (R63) -/
  xfersBefore : List (Nat × Nat)
  beatBefore  : BitVec 16
  issued      : BitVec 8
  /-- the cycle in which the last pool access of the bundle happens -/
  accEnd      : Nat
  deriving DecidableEq, Repr

/-- A bundle that has retired (R51) while a transfer of it or of an earlier bundle had not yet had its target checked (R71), or its RETT had not yet
taken effect (R81): a precise trap can still name it. What its stores replaced in the pool, with poison, and the view log before it. -/
structure Gone where
  b     : BundleRec
  under : List (Nat × Byte × Bool)
  log   : List (Nat × Bool × Byte)
  deriving DecidableEq, Repr

/-- The bundle whose following boundary has not been crossed (R75). -/
structure Boundary where
  seq   : Nat
  pc    : BitVec 14
  /-- the unsuppressed CTL instruction of the bundle, or NOP -/
  ctl   : Instr
  /-- the count of a register-form LOOP once it has issued (R65) -/
  count : Option (BitVec 32)
  deriving DecidableEq, Repr

/-- A precise trap request (R53, R54). -/
structure TrapReq where
  seq   : Nat
  cause : BitVec 8
  info0 : Word
  info1 : Word
  deriving DecidableEq, Repr

/-- A trap that is not precise, waiting for the next bundle boundary (R353); `queue` is the halted queue it reports. -/
structure ImpTrap where
  cause : BitVec 8
  info0 : Word
  info1 : Word
  queue : Option (BitVec 3)
  /-- the software trap waits for its bundle's retirement (R79) -/
  after : Option Nat
  deriving DecidableEq, Repr

/-- What an engine's report is ranked by (R162): the hand-off order of its instruction, or, of a peer's block, its place among the blocks
applied and the destination address. -/
inductive Origin where
  | handoff (order : Nat)
  | peer (block addr : Nat)
  deriving DecidableEq, Repr

/-- An event report of an engine or of the SYE (R161, R162). -/
structure Report where
  kinds  : BitVec 9
  slot   : Nat
  bundle : BitVec 14
  op     : Nat
  origin : Origin
  deriving DecidableEq, Repr

/-- A place that an engine address names (R185, R266). -/
inductive Place where
  | pool (c : Nat) (a : Nat)
  | rows (c : Nat) (a : Nat)
  | hbm (stack : Nat) (a : Nat)
  | host (a : Nat)
  | sye (die : Nat) (ovf : Bool) (a : Nat)
  | letable (die : Nat) (a : Nat)
  /-- a peer package behind a port; performed in the first cycle in which GCNT exceeds the arrival tick (R278). `latest` is the last tick at which
  its window may start, t_k + σ (R317) -/
  | peer (port latest tick : Nat)
  deriving DecidableEq, Repr

/-- A destination block of an entry (R187, R262): the output bytes it writes (destination engine address and output byte number) and the
source bytes it draws (source engine address and source byte number in visiting order), the earliest cycle at whose end it may be
written, the requests whose data it still waits for with the first engine address they read, the cycle in which a ZIP reads its destination
(R230), whether a held read makes its credit LATE (R250), and whether it has reached the array field and waits there (R238, R251). -/
structure OutBlock where
  j      : Nat
  outs   : List (Nat × Nat)
  ins    : List (Nat × Nat)
  ready  : Nat
  await  : List (Nat × Nat)
  zread  : Option Nat
  late   : Bool
  inAf   : Bool
  deriving DecidableEq, Repr

/-- What a copy-engine entry does. -/
inductive EKind where
  | cpy
  | cpym
  | put
  | putr (op : RedOp)
  | putrVerb
  | red (op : RedOp)
  | zip
  | fold (tree : Bool)
  | scan (tree : Bool)
  | flag (addr data : Word) (scope : Scope)
  | marker (id : Nat)
  | fill (table : BitVec 2) (slot : Nat)
  deriving DecidableEq, Repr

/-- The follow-on a CPYM captured at its issue (R216). -/
structure FollowOn where
  zero  : Bool
  md    : Vector Word 8
  cb    : BitVec 5
  c     : Nat
  shape : BitVec 4
  lk    : Nat
  ln    : Nat
  deriving DecidableEq, Repr

/-- A peer's arrival whose block credited an arrival word (R325): the word, the arrival tick, and the counted cycle that performed it, with the package's
count at the cycle's start: ticks, and a fraction in units of the clock that ran. -/
structure Reached where
  word : Nat
  tick : Nat
  cyc  : Nat
  gcnt : Nat
  frac : Nat
  den  : Nat
  deriving DecidableEq, Repr

/-- A copy-engine queue entry (R186–R190) with its progress. -/
structure Entry where
  kind    : EKind
  ed      : Vector Word 8
  bundle  : BitVec 14
  /-- hand-off order number on this core, and the bundle's sequence number -/
  order   : Nat
  seq     : Nat
  verb    : Option Verb
  follow  : Option FollowOn
  /-- the round a PUT belongs to: its tag, and which ROUND it is among those of that tag (R301) -/
  round   : Option (BitVec 8 × Nat)
  /-- requests of other queues that its release publishes (R271) -/
  pubs    : List Nat
  /-- it may begin only after this cycle (R263) -/
  notBefore : Nat
  began   : Option Nat
  /-- its translations: 64 KiB virtual page and leaf entry (R365); all done -/
  pages   : List (Nat × Word)
  ready   : Bool
  /-- next byte in visiting order, next block number, block being read and the source blocks it still needs (R262) -/
  pos     : Nat
  blk     : Nat
  cur     : Option OutBlock
  want    : List Nat
  out     : List OutBlock
  /-- cycles lost to refused reads (R262) and to refused writes (R173), the one after the last in which a write was refused, and the earliest cycle
  of its next read -/
  slip    : Nat
  wslip   : Nat
  lagAt   : Nat
  nextRead : Nat
  /-- the step of a verb entry with which it stops while its context is saved (R231) -/
  stopStep : Option Nat
  /-- source bytes taken so far and not yet used up, by number in visiting order, with poison; destination bytes that a ZIP has read, by address
  (R228) -/
  got    : List (Nat × Byte × Bool)
  dgot   : List (Nat × Byte × Bool)
  /-- events of evaluations of a ZIP not yet reported (element, op, kinds), and the steps reported so far (R231, R232) -/
  evs    : List (Nat × Nat × BitVec 9)
  steps  : Nat
  lastWrite : Option Nat
  cbpDone : Bool
  foDone  : Bool
  /-- earliest package cycle of the flag write, once it is on its way -/
  flagDue : Option Nat
  flagDone : Bool
  /-- blocks of a PUT, staged in the send buffer (R316); the round's window has sent it, ending at this tick -/
  staged  : List OutBlock
  /-- the tick at which the cycle that staged its last block ended -/
  stagedAt : Option Nat
  sendEnd : Option Nat
  lateTrap : Bool
  /-- the arrival that reached the generation it was armed on, where it began in the cycle after (R325) -/
  armed    : Option Reached
  deriving DecidableEq, Repr

/-- A copy-engine queue (R188, R193). -/
structure Queue where
  entries : List Entry
  done    : BitVec 64
  halted  : Bool
  cause   : BitVec 8
  /-- an XFENCE orders entries handed off after it behind slot stores (R263) -/
  fenceAt : Nat
  /-- the trap that reported the halt is in a handler: RETT restarts the queue (R361) -/
  inTrap  : Bool
  deriving DecidableEq, Repr

/-- MXE operations (R205). -/
inductive MKind where
  | mshape (mask : BitVec 4)
  | mloadw (fmt : WFmt)
  | mma (zero : Bool)
  | mouter (cbb : CircBuf) (verb : Verb)
  | mout (dst : OutFmt) (rnd : Rnd) (addr : Nat) (rq : BitVec 256)
  | mzero
  deriving DecidableEq, Repr

/-- Latched weights (R207, R208): for each K-group and column, 32 integers with an exponent, or the NaN mark. -/
structure Latched where
  k    : Nat
  n    : Nat
  cols : List (List (Option (Int × List Int)))
  deriving DecidableEq, Repr

/-- A received MXE operation with its captured operands and its progress (R205, R206). -/
structure MOp where
  kind   : MKind
  md     : Vector Word 8
  cb     : CircBuf
  cbn    : BitVec 5
  shape  : BitVec 4
  slot   : Nat
  bundle : BitVec 14
  seq    : Nat
  order  : Nat
  batch  : Nat
  rcvd   : Nat
  begun  : Option Nat
  /-- cycles lost to refused grants -/
  slip   : Nat
  /-- latched weights as the operation uses them -/
  lat    : Latched
  /-- blocks or rows of operands read so far, and the cycle in which the last row was read -/
  rows   : List (List Byte)
  rowsEnd : Option Nat
  /-- pieces of the tile read or written so far: a row of MMA, MOUTER or MZERO, what one block of a MOUT holds -/
  tiles  : Nat
  /-- blocks to write (MOUT), those written, and the kinds met so far, with the op that met them and its element (MOUTER) -/
  outs   : List (List (Nat × Byte))
  wrote  : Nat
  kinds  : Kinds
  evs    : List (Nat × Nat × Kinds)
  pois   : Bool
  deriving DecidableEq, Repr

/-- A tile in flight (R213): its batch, the number it was committed under, and its byte ranges. -/
structure Tile where
  batch : Nat
  num   : Option (BitVec 3)
  accb  : Nat
  accs  : Nat
  m     : Nat
  n     : Nat
  deriving DecidableEq, Repr

/-- A power band (R200–R202): off, rising until a tick, or ready. -/
inductive Band where
  | off
  | rising (tick : Nat)
  | on
  deriving DecidableEq, Repr

/-- The matrix engine (R200–R217). -/
structure Mxe where
  ops      : List MOp
  /-- operation being performed, if its rows are all read but it has not completed -/
  running  : List MOp
  latched  : Latched
  /-- K and N that the last MLOADW handed off latches (R205) -/
  lk       : Nat
  ln       : Nat
  openB    : Nat
  /-- batch identity last committed under each number -/
  numbers  : Vector (Option Nat) 8
  tiles    : List Tile
  bands    : Vector Band 4
  deriving DecidableEq, Repr

/-- An accumulator group (R256). -/
structure AccGroup where
  s      : Vector Int 128
  nan    : BitVec 128
  poison : BitVec 128
  x      : Option Int
  arrays : List Nat
  deriving DecidableEq, Repr

/-- Array-field words in progress (R249). -/
inductive ArWork where
  | ast (addr : Nat) (view : Bool) (bytes : Option (List Byte))
  | ald (addr : Nat) (view : Bool)
  | astv (v : Vec)
  | aldv (vd : BitVec 6)
  | amvm (acc : BitVec 3) (zero : Bool) (planes : Nat) (addr : Nat) (view : Bool) (arows : Nat) (blocks : List (List Byte)) (pois : Bool)
  | arop (op : ArFn) (src : Vector Word 6) (ew : ArWidth) (sat : Bool) (imm : Nat)
  | aacc (vd : BitVec 6) (acc : BitVec 3) (part : BitVec 2) (toI32 : Bool)
  deriving DecidableEq, Repr

/-- An AR word in the array field (R249). -/
structure ArWord where
  work   : ArWork
  ad     : Vector Word 6
  beat   : BitVec 16
  bundle : BitVec 14
  seq    : Nat
  order  : Nat
  issue  : Nat
  /-- cycles lost to refused requests -/
  slip   : Nat
  start  : Option Nat
  /-- the vector register that it writes at the end of a cycle, once it has started -/
  writes : Option (BitVec 6 × Nat)
  /-- the bits it took from the rows, or from its group, when it started -/
  got    : List Nat
  kinds  : Kinds
  deriving DecidableEq, Repr

/-- An engine block at the array field: a write or a read inside one row (R238, R250). -/
structure AfBlock where
  id     : Nat
  queue  : BitVec 3
  order  : Nat
  j      : Nat
  beat   : BitVec 16
  /-- byte address in the rows memory -/
  addr   : Nat
  /-- bytes to write; none for a read of `len` bytes -/
  bytes  : Option (List (Nat × Byte))
  len    : Nat
  credit : Option Nat
  poison : Bool
  bundle : BitVec 14
  late   : Bool
  /-- the last cycle of the AF cycle it takes, once it has one -/
  at_    : Option Nat
  deriving DecidableEq, Repr

/-- The array field (R237–R261). -/
structure Af where
  openBeat : BitVec 16
  /-- the close completed in this cycle; the next beat opens in the next -/
  closing  : Option Nat
  words    : List ArWord
  pending    : List AfBlock
  active   : List AfBlock
  held     : List AfBlock
  /-- array busy until the end of this cycle -/
  busy     : List (Nat × Nat)
  groups   : File 3 AccGroup
  deriving DecidableEq, Repr

/-- A slot of a tag table (R196, R197). -/
structure TagSlot where
  tag     : Nat
  valid   : Bool
  pending : Bool
  pin     : Bool
  deriving DecidableEq, Repr

/-- A tag table: its configuration word, slots and victim pointers (R196). -/
structure TagTable where
  conf   : Word
  slots  : List TagSlot
  victim : List Nat
  deriving DecidableEq, Repr

/-- The special registers of a task (R93). -/
structure Sprs where
  frzcnt   : Word
  fela     : Word
  felb     : Word
  felmask  : BitVec 9
  fflags   : BitVec 9
  sbmode   : Bool
  shape    : BitVec 4
  alate    : BitVec 2
  astretch : BitVec 16
  alatecnt : BitVec 32
  arows    : BitVec 5
  vcnta    : BitVec 11
  vcntb    : BitVec 11
  atscope  : BitVec 4
  rngctr   : Word
  rngkey   : Word
  tcause   : BitVec 8
  tinfo0   : Word
  tinfo1   : Word
  tepc     : Word
  tvec     : BitVec 16
  taskinfo : Word
  tbudget  : Word
  dom      : Vector Word 6
  policy   : BitVec 12
  pw       : Word
  clim     : BitVec 32
  cwin     : BitVec 16
  split    : BitVec 2
  deriving DecidableEq, Repr

/-- Everything a task's context holds (R354): its registers, its position (R63), its random queue, its queues, its engines' state. -/
structure TaskCtx where
  s      : File 6 Word
  v      : File 6 Vec
  p      : File 3 Pred
  cf     : File 3 Bool
  bt     : File 3 Word
  as     : File 4 Stream
  md     : File 4 (Vector Word 8)
  ad     : File 3 (Vector Word 6)
  ed     : File 4 (Vector Word 8)
  cb     : File 5 CircBuf
  h      : File 4 (Option Verb)
  pat    : File 3 (Vector (BitVec 16) 128)
  spr    : Sprs
  domIn  : Vector Word 6
  rq     : List (BitVec 256)
  pc     : BitVec 14
  loops  : List LoopLevel
  held   : List LoopLevel
  xfers  : List Xfer
  replay : List Flight
  beat   : BitVec 16
  queues : File 3 Queue
  mxe    : Mxe
  af     : Af
  tags   : File 2 TagTable
  /-- cross-view stores not followed by a VJOIN: address, view, and the byte before (R174) -/
  viewLog : List (Nat × Bool × Byte)
  /-- the round this core last handed off (R301) -/
  round  : Option (BitVec 8 × Nat)
  retry  : Nat
  /-- the group's running count of declared losses at the first start (R336) -/
  lostBase : Nat
  /-- the start-vector entry, 32 words (R344) -/
  launch : List Word
  /-- traps that are not precise and that a suspended task has still to take -/
  traps  : List ImpTrap
  deriving DecidableEq, Repr

/-- The state of a task in a core's queue (R347). -/
inductive QState where
  | queued | loading | ready | suspended
  deriving DecidableEq, Repr

/-- A task in a core's queue: its start vector, or its saved context when suspended (none while that still stands in the core). -/
structure QTask where
  state  : QState
  launch : List Word
  saved  : Option TaskCtx
  /-- saved claimed bytes and accumulator storage: their ranges and what they held; the saved rows; whether the latched weights were saved, and
  which tag tables (R217, R354) -/
  savedPool : Option (List (Nat × Nat) × Mem)
  savedRows : Option Mem
  savedMxe  : Bool
  savedTags : List Nat
  /-- the data image staged in the preload reservation, with poison (R351) -/
  image  : Option (List (Byte × Bool))
  /-- requests a SPAWN's release waits for (R356) -/
  pubs   : List Nat
  /-- another task's code has overwritten its region since it was suspended -/
  stale  : Bool
  deriving DecidableEq, Repr

/-- A task that enters a queue, with nothing saved or loaded. -/
def QTask.enters (st : QState) (ws : List Word) (pubs : List Nat) : QTask := ⟨st, ws, none, none, none, false, [], none, pubs, false⟩

/-- What the core is doing with tasks (R348). -/
inductive Run where
  | idle
  | running
  /-- HALT has issued: the task ends once retired and landed (R77) -/
  | halting
  /-- containment under RETRY: restart once begun work has completed (R360) -/
  | restarting
  deriving DecidableEq, Repr

/-- Why dispatch holds (R65). -/
inductive Hold where
  | none
  | loopReg (seq : Nat)
  | ctl (seq : Nat)
  | trap
  deriving DecidableEq, Repr

/-- Power state of a core (R394). -/
inductive CorePower where
  | a0 | a1 | a2 | off
  deriving DecidableEq, Repr

/-- An atomic on its way (R285–R290). -/
structure Atomic where
  core   : Nat
  sd     : BitVec 6
  /-- none for ATOMC -/
  op     : Option AtomOp
  wide   : Bool
  cmp    : Word
  operand : Word
  die    : Nat
  ovf   : Bool
  addr   : Nat
  bundle : BitVec 14
  /-- its bundle, and its hand-off order -/
  seq    : Nat
  order  : Nat
  ord    : Bool
  /-- package cycle at which it reaches its bank, and the half trip back -/
  reach  : Nat
  back   : Nat
  /-- cycles beyond the trip until the data of an overflow-area variable arrives (R285) -/
  extra  : Nat
  waits  : List Nat
  /-- set once performed: response package cycle, value, kinds -/
  resp   : Option (Nat × Word × BitVec 9)
  deriving DecidableEq, Repr

/-- Uncorrectable errors in a core's storage (R362): registers, levels of the loop stack from the outermost, the replay buffer. Errors of the hardware,
which nothing in the model makes (DESIGN CHOICE, log 113); a write of a register, a new loop level, a newly filled replay buffer is free of error.
`met`: the replay buffer has been re-injected with one, which the next bundle's dispatch meets. -/
structure Upsets where
  regs   : List Reg
  loops  : List Nat
  replay : Bool
  met    : Bool
  deriving DecidableEq, Repr

def Upsets.none : Upsets := ⟨[], [], false, false⟩

/-- One core (R4): the running task's context, and what is not of the task. -/
structure Core where
  ctx     : TaskCtx
  run     : Run
  queue   : List QTask
  pool    : Mem
  rows    : Mem
  imem    : Mem
  ccnt    : Word
  /-- counted (unfrozen) cycles, in which every cycle-stated time is kept (R50) -/
  cyc     : Nat
  gskew   : Int
  /-- ticks for which a correction still holds its count (R309) -/
  ghold   : Nat
  /-- its LE has aligned it in this epoch; its ALIGN 0 has been handed off (R310) -/
  aligned : Bool
  alignAsk : Bool
  /-- what SPLIT becomes at the next step boundary (R342, R343) -/
  splitTo : BitVec 2
  /-- limiter: weights of the past cycles, newest first; weight of the present one; consecutive frozen cycles (R340) -/
  weights : List Nat
  weight  : Nat
  frzRun  : Nat
  frozen  : Bool
  /-- a freeze in which not even the later words of a split step issue (R330, R332, R340) -/
  stalled : Bool
  /-- sub-cycle of split mode (R342) -/
  sub     : Nat
  /-- weights that the words of the present step carry in its later cycles -/
  subW    : List Nat
  /-- the weight that this cycle would carry if it ran, found at its start; the limiter freezes it (R340) -/
  pred    : Nat
  limHit  : Bool
  /-- cycles frozen by the limiter, and all cycles, of this sample; samples in a row below 5 % (R343) -/
  limFrz  : Nat
  limCyc  : Nat
  limLow  : Nat
  -- pipeline
  seqNo   : Nat
  bundles : List BundleRec
  /-- bundles that have retired and that a precise trap can still name, oldest first -/
  gone    : List Gone
  next    : Vector Nat 8
  bound   : Option Boundary
  hold    : Hold
  flights : List Flight
  access  : List Access
  stores  : List PendStore
  undo    : List Undo
  ctlHold : Nat
  waitFrom : Vector (Option Nat) 8
  /-- the bundle of a RETT that has issued and not taken effect (R81) -/
  ret     : Option Nat
  ptrap   : Option TrapReq
  itraps  : List ImpTrap
  reports : List Report
  orders  : Nat
  /-- late blocks dropped in this cycle (R90) -/
  dropsNow : Nat
  -- engine ports (R173): banks granted this cycle and to whom, banks held by an accumulating receiver until a cycle, pool writes of this cycle's end
  grants  : List (Nat × Nat)
  portBusy : List (Nat × Nat)
  endWrites : List (Nat × Byte × Bool)
  /-- credits of this cycle's end, in grant order: word, bytes, poison, late (R181) -/
  credits : List (Nat × Nat × Bool × Bool)
  /-- changes that CBP and CBC of this cycle made to a buffer's F (R178, R216) -/
  cbNew   : List (BitVec 5 × Int)
  /-- arrivals of peers' blocks that credited a word in this cycle or the one before (R325) -/
  reached : List Reached
  -- other
  preempt : Bool
  /-- the budget has run out with an equal priority waiting (R350) -/
  expired : Bool
  /-- ticks, frozen time apart, that the switch under way still takes (R355); cycles for which the staged data image of the next task has been
  moved to its destination (R351) -/
  switch  : Option Nat
  moved   : Nat
  /-- ticks after which the copies under way stop for it where they are -/
  cutLeft : Nat
  /-- storage of the core with an uncorrectable error (R362) -/
  upsets  : Upsets
  tlb     : List (Nat × Word)
  ceTlb   : List (Nat × Word)
  power   : CorePower
  /-- the tick at which it entered A1 (R394) -/
  idleAt  : Nat
  halted  : Bool
  haltReq : Bool
  stepReq : Bool
  /-- a debug access waits for the core to wake (R394, R395) -/
  wake    : Bool
  ev      : List (Nat × Report)
  deriving DecidableEq, Repr

/-- A port of a link engine (R307). -/
structure Port where
  fecc     : BitVec 16
  unc      : BitVec 8
  baddst   : BitVec 8
  /-- the far package, as training told it, and its member number -/
  peerid   : Option Nat
  peermem  : BitVec 8
  peerport : BitVec 5
  state    : BitVec 2
  aln      : Bool
  linklat  : BitVec 16
  recv     : List PeerBlock
  deriving DecidableEq, Repr

/-- A window of a timetable (R312). -/
structure Window where
  start  : Nat
  len    : Nat
  port   : Nat
  queue  : Nat
  core   : Nat
  deriving DecidableEq, Repr

/-- A running round (R315). -/
structure Round where
  tag    : BitVec 8
  /-- which ROUND it is: no two rounds of the package share it -/
  ident  : Nat
  tt     : Nat
  start  : Nat
  slack  : Nat
  wins   : List Window
  /-- windows opened; windows that have sent, with the tick at which the send ends -/
  opened : List Nat
  sends  : List (Nat × Nat)
  cores  : List Nat
  deriving DecidableEq, Repr

/-- An order state of a reduction at memory (R297). -/
structure OrdState where
  home  : Place
  block : Nat
  n     : Nat
  next  : Nat
  /-- the core whose contribution opened it: its partition's reset discards the state (R389) -/
  core  : Nat
  deriving DecidableEq, Repr

/-- One die: SYE, LE, walker (R2). -/
structure Die where
  sram   : Mem
  ovf   : Mem
  tables : Mem
  /-- its LE's count less the package's, ticks for which a correction still holds it, and whether the LE has been aligned in this epoch (R309) -/
  lskew  : Int
  lhold  : Nat
  aligned : Bool
  rounds : List Round
  ports  : Vector Port 6
  /-- translation walks in arrival order, the first eight running (R365): core, queue (8: an atomic), 64 KiB virtual page, and the cycle
  in which it is done -/
  walks  : List (Nat × Nat × Nat × Nat)
  /-- banks of the SYE that have served an access in this cycle (R285) -/
  banks  : List Nat
  deriving DecidableEq, Repr

/-- A stack (R369–R382). -/
structure Stack where
  bytes   : Mem
  pat     : Vector Word 128
  hbmcfg  : Word
  paterr  : Bool
  swaps   : Nat
  ce      : Nat
  ue      : Nat
  bankfail : Nat
  temp    : Int
  hot     : Bool
  /-- pseudo-channels at which the newest mode has not taken effect (R377) -/
  hotNew  : List Nat
  cool    : Nat
  samples : List (List Int)
  suspect : List Nat
  good    : List (Nat × Nat)
  /-- (pseudo-channel, bank, logical row, physical row) where not the identity; activation counts of this window by (pseudo-channel, bank,
  logical row); queued swaps (R376) -/
  indir   : List (Nat × Nat × Nat × Nat)
  counts  : List (Nat × Nat × Nat × Nat)
  swapq   : List (Nat × Nat × Nat)
  badRows : List (Nat × Nat × Nat)
  /-- the next refresh slot of each pseudo-channel, the earliest first: tick and pseudo-channel; the slots that are not over: pseudo-channel and the
  tick at which it ends (R376, R377) -/
  slots   : List (Nat × Nat)
  shut    : List (Nat × Nat)
  /-- the last activation of each bank: pseudo-channel, bank, the row that it opened (6,144 once a refresh has closed it), tick (R376, R377) -/
  acts    : List (Nat × Nat × Nat × Nat)
  /-- lanes in use: pseudo-channel, whether they are its write lanes, and until when, in 1,260ths of a tick (R370) -/
  lanes   : List (Nat × Bool × Nat)
  /-- service that each partition has had at a pseudo-channel's read or write lanes, by its SHARE (R378); under number 13 the service at which the
  last transfer began -/
  served  : List ((Nat × Bool × Nat) × Nat)
  /-- granules of 32 bytes with an error that nothing has found, and whether it is beyond correction (R380) -/
  weak    : List (Nat × Bool)
  /-- tick of the next temperature sample -/
  nextTemp : Nat
  winEnd  : Nat
  /-- pseudo-channels at which a partition's newest read:write split has not taken effect, with the code in force (R370) -/
  splits  : List (Nat × Nat)
  /-- HBMBIST, and the tick at which the test began (R382) -/
  bist    : Word
  bistAt  : Nat
  /-- the bank whose rows stand in the park area; rows copied in the present phase of the test, the tick at which its copying began, and the ticks
  that a row takes (R382) -/
  park    : Option (Nat × Nat)
  copied  : Nat
  copyAt  : Nat
  copyStep : Nat
  retired : List (Nat × Nat)
  present : Bool
  deriving DecidableEq, Repr

/-- What a PARTSET writes (R387): PCTL, HMRANGE, HBMPART, and PAT entries by stack and number. -/
structure PartSet where
  pctl    : Word
  hmrange : Word
  hbmpart : Word
  pat     : List (BitVec 3 × BitVec 7 × BitVec 64)
  deriving DecidableEq, Repr

/-- A partition's register block and queues (R387, R388). -/
structure Part where
  pctl    : Word
  launch  : Word
  ptroot  : Word
  hbmpart : Word
  hmrange : Word
  cqbase  : Word
  cqn     : BitVec 5
  cqhwi   : BitVec 32
  cqdri   : BitVec 32
  cqover  : Bool
  cqlast  : BitVec 32
  eqbase  : Word
  eqn     : BitVec 5
  eqdwi   : BitVec 32
  eqhri   : BitVec 32
  dropped : BitVec 16
  /-- events dropped and not yet reported by a DROPPED event (R368) -/
  dropRep : Nat
  dbgcore : BitVec 7
  dbgaddr : Word
  dbgdata : Word
  dbgref  : Bool
  dbg     : BitVec 2
  tenant  : List Byte
  attctl  : Word
  nonce   : Vector Word 4
  /-- a reset under way: the tick from which it may be complete, that by which it is, and the registers and PAT entries that a PARTSET sets with its
  completion (R387, R389) -/
  resetEnd : Option Nat
  resetBy : Nat
  resetTo : Option PartSet
  deriving DecidableEq, Repr

/-- A package that has asked to join, as a member knows it (R335): its JOIN, its limit, the tick of the JOIN, the number it gets, and whether it
has posted under that number. -/
structure Joiner where
  join   : Join
  limit  : Nat
  tick   : Nat
  number : Nat
  ready  : Bool
  /-- its posts under that number, and its lowering notices by code and effect tick -/
  posts   : List Post
  notices : List (Nat × Nat)
  deriving DecidableEq, Repr

/-- A GRANT sent (R335): to which package, C, the epoch, the member number and the GCNT stamp. -/
structure Grant where
  joiner : Nat
  code   : Nat
  epoch  : Nat
  member : Nat
  stamp  : Nat
  deriving DecidableEq, Repr

/-- Confluence state of this package (R326–R336). -/
structure Confl where
  state   : BitVec 2
  epoch   : BitVec 16
  self    : Nat
  limit   : Nat
  /-- the other live members, each with its latest post; the posts of the last million ticks, this member's own among them -/
  members : List (Nat × Post)
  posts   : List Post
  /-- lowering notices known, by code and effect tick; this member's own that have not taken effect; the last effect tick applied (R329) -/
  notices : List (Nat × Nat)
  own     : List (Nat × Nat)
  lastEff : Nat
  /-- the local limit of the last sample; samples in a row that would raise the posted limit (R337); the last raise window passed, in millions
  of ticks -/
  found   : Nat
  rise    : Nat
  lastWin : Nat
  lostCnt : Nat
  joinAt  : Option Nat
  joinTry : Nat
  /-- as a joiner: the tick of its GRANT, and whether it has posted under its number -/
  granted : Option Nat
  said    : Bool
  joiners : List Joiner
  leavers : List Nat
  /-- emergency duty: the code noticed, its effect tick, and the cycle that detected the condition (R332) -/
  emerg   : Option (Nat × Nat × Nat)
  /-- the tick of the last periodic post -/
  lastPost : Nat
  deriving DecidableEq, Repr

/-- The PMC: mailbox, boot, security, sensors, checkpoint (R337–R343, R383, R385–R398). -/
structure Pmc where
  /-- the stage of bring-up, and the tick at which it began (R397) -/
  stage   : BitVec 4
  stageAt : Nat
  /-- the maintenance state (R395); and the key bytes of the running image (R390) -/
  maint   : Bool
  keys    : List Byte
  a3      : Bool
  busy    : Bool
  off     : Bool
  err     : BitVec 8
  svn     : BitVec 8
  fusectr : BitVec 8
  hbms  : BitVec 8
  dies    : BitVec 4
  args    : Vector Word 8
  res     : Word
  vendor  : Bool
  digest  : List Byte
  bar2    : Mem
  idekeys : List (Word × Word)
  cflcfg  : Word
  cfl     : Confl
  samples : List Sensors
  suspect : List (Nat × Nat)
  good    : List (Nat × Nat × Nat)
  nextSample : Nat
  ckptctl : Word
  ckptdst : Word
  ckptbusy : Bool
  ckptdone : Bool
  ckpterr : Bool
  ckptcnt : BitVec 32
  /-- lines that a running checkpoint captured before they were written, by address in the image, and which they are (R383) -/
  ckptimg : Mem
  ckptcap : List Nat
  /-- the tick of its GO, the free part of its duration, and the stacks that have been hot while it ran (R384) -/
  ckptat  : Nat
  ckptdraw : Nat
  ckpthot : BitVec 8
  deriving DecidableEq, Repr

/-- What a request to a memory outside the sender's own pool and array field does there (R267, R268). -/
inductive ReqKind where
  /-- read `len` bytes for a source block of an entry -/
  | read (len : Nat)
  | write (bytes : List (Nat × Byte)) (poison late : Bool) (credit : Option Place)
  /-- `phase`: the address of its elements within their size -/
  | red (op : RedOp) (bytes : List (Nat × Byte)) (poison : Bool) (k n phase : Nat) (credit : Option Place)
  /-- the credit of one byte of a PHASE of a level, with which the level's DOM comes into force (R357, R358) -/
  | credit (level : Nat)
  /-- the write of a FLAG entry (R264, R295) -/
  | flag (data : Word)
  deriving DecidableEq, Repr

/-- A request in transit (R268, R399). -/
structure Req where
  id     : Nat
  core   : Nat
  queue  : Nat
  order  : Nat
  bundle : BitVec 14
  /-- the sequence number of the bundle that handed it off -/
  seq    : Nat
  at_    : Place
  kind   : ReqKind
  /-- its MC has admitted it (R373); elsewhere a request waits for no admission -/
  admitted : Bool
  /-- writes that it publishes and that must have been performed before it (R271) -/
  after  : List Nat
  sent   : Nat
  due    : Nat
  back   : Nat
  /-- set once performed: the data, and its poison -/
  data   : Option (List Byte × Bool)
  held   : Bool
  deriving DecidableEq, Repr

/-- An external happening that has not been delivered: its tick and the event (its row of Instr). -/
structure Input where
  tick : Nat
  ev   : Instr
  deriving DecidableEq, Repr

/-- Which unit moves next in the present cycle. -/
inductive Cursor where
  | inputs
  | tasks (c : Nat)
  | dispatch (c : Nat)
  | access (c : Nat)
  | arbiter (c : Nat)
  | issue (c : Nat) (slots : List Slot)
  | engines (c : Nat) (k : Nat)
  | landing (c : Nat) (k : Nat)
  | units (k : Nat)
  | clock
  deriving DecidableEq, Repr

/-- The word that is issuing: which core and slot, of which bundle (the context in which a slot instruction has its meaning). -/
structure Issue where
  core : CoreId
  slot : Slot
  deriving DecidableEq, Repr

/-- A transfer of a peer of which a block has been written here (R303): its tag, the port it came over, its core, and the destination of all of it. -/
structure Landed where
  tag  : BitVec 8
  port : PortId
  core : Nat
  base : Nat
  len  : Nat
  deriving DecidableEq, Repr

/-- One JX12 package. -/
structure State where
  cursor  : Cursor
  cur     : Issue
  inputs  : List Input
  draws   : Nat
  /-- package cycles, those of handshakes apart and with them, in which requests to HBM are timed (R330, R399) -/
  now     : Nat
  mcNow   : Nat
  gcnt    : Word
  frac    : Nat
  /-- the group's count less the package's, as the last stamp showed it (R309) -/
  groupSkew : Int
  ceiling : Nat
  shake   : Option (Nat × Nat)
  cores   : Vector Core 96
  dies    : Vector Die 4
  hbms  : Vector Stack 8
  parts   : Vector Part 12
  pmc     : Pmc
  host    : Mem
  atoms   : List Atomic
  reqs    : List Req
  reqNo   : Nat
  /-- locations written in this cycle at an MC, a host line or a timetable store, which no other access reaches before the next (R269) -/
  touched : List ((Nat × Nat) × Nat)
  /-- HBM lines of 64 bytes that a host agent holds in its caches: stack and line (R282) -/
  hostLines : List (Nat × Nat)
  /-- rounds started so far -/
  roundNo : Nat
  ords    : List OrdState
  /-- tags that a RABORT of this cycle aborts at its end (R302); tags whose arriving blocks are discarded; tags a notice was sent for -/
  aborts  : List (BitVec 8)
  aborted : List (BitVec 8)
  noticed : List (BitVec 8)
  /-- transfers that peers have begun to write here; tags of rounds that a loss has ended (R303) -/
  landed  : List Landed
  spoiled : List (BitVec 8)
  badLinks : List (Nat × Nat)
  posted  : List Post
  grants  : List Grant
  notices : List (Nat × BitVec 8)
  /-- peer blocks sent, by port (R316, R321) -/
  sent    : List (Nat × PeerBlock)
  deriving DecidableEq, Repr

/-- Why a step stops with a fault. -/
inductive Fault where
  /-- The step was asked to perform an event of the part whose own condition does not hold in the state: such an event is no possible
  step of the part, and the spec gives it no effect. Raised by the meanings of the events only, never by a slot word; the model's own
  `step` asks only for events that are due. Safe: the model stops where the part cannot take the step either. -/
  | notDue (event : String)
  deriving DecidableEq, Repr

/-- Why a step has no meaning. -/
inductive Refusal where
  /-- An arm of `exec` without a meaning yet, by its mnemonic. Safe: no claim can be proved of such a step. -/
  | notModelled (mnemonic : String)
  deriving DecidableEq, Repr

/-- What a byte of any memory that nothing has written reads as: zero (R241, R389 say zero for the rows, and for pools and SYE pages after
a partition reset; elsewhere the spec gives none: DESIGN CHOICE, log 5). -/
def unlistedByte : Byte := 0

def Mem.empty : Mem := ⟨[], []⟩

def Stream.zero : Stream := ⟨0, Vector.replicate 6 0, false⟩

def CircBuf.zero : CircBuf := ⟨0, 0, 0, 0, 0, 0⟩

/-- The identity pattern (R137). -/
def patIdentity : Vector (BitVec 16) 128 := Vector.ofFn fun j => BitVec.ofNat 16 j.val

def Queue.empty : Queue := ⟨[], 0, false, 0, 0, false⟩

def Latched.none : Latched := ⟨0, 0, []⟩

def Mxe.empty : Mxe :=
  { ops := [], running := [], latched := Latched.none, lk := 0, ln := 0, openB := 0, numbers := Vector.replicate 8 none,
    tiles := [], bands := Vector.replicate 4 Band.on }

def AccGroup.clear : AccGroup := ⟨Vector.replicate 128 0, 0, 0, none, []⟩

def Af.empty : Af :=
  { openBeat := 0, closing := none, words := [], pending := [], active := [], held := [], busy := [],
    groups := Vector.replicate (2 ^ 3) AccGroup.clear }

/-- The special registers at task start that the launch does not give (R93), CLIM and CWIN as firmware sets them (R340); RNGKEY is set by the
task's start (R150). -/
def Sprs.initial : Sprs :=
  { frzcnt := 0, fela := 0, felb := 0, felmask := 0x1FF, fflags := 0, sbmode := false, shape := 0xF, alate := 0, astretch := 4096,
    alatecnt := 0, arows := 16, vcnta := 0, vcntb := 0, atscope := 7, rngctr := 0, rngkey := 0, tcause := 0, tinfo0 := 0, tinfo1 := 0,
    tepc := 0, tvec := 0, taskinfo := 0, tbudget := 0, dom := Vector.replicate 6 0, policy := 0, pw := 0, clim := 30720, cwin := 256,
    split := 0 }

/-- A context as task start gives it (R22, R95, R97, R114, R116, R137, R149, R176, R186, R203, R226, R237), without what the launch
gives. At package reset, before any task, every core holds it too (DESIGN CHOICE, log 1). -/
def TaskCtx.initial : TaskCtx :=
  { s := Vector.replicate (2 ^ 6) 0, v := Vector.replicate (2 ^ 6) 0, p := Vector.replicate (2 ^ 3) 0,
    cf := Vector.replicate (2 ^ 3) false, bt := Vector.replicate (2 ^ 3) 0, as := Vector.replicate (2 ^ 4) Stream.zero,
    md := Vector.replicate (2 ^ 4) (Vector.replicate 8 0), ad := Vector.replicate (2 ^ 3) (Vector.replicate 6 0),
    ed := Vector.replicate (2 ^ 4) (Vector.replicate 8 0), cb := Vector.replicate (2 ^ 5) CircBuf.zero,
    h := Vector.replicate (2 ^ 4) none, pat := Vector.replicate (2 ^ 3) patIdentity, spr := Sprs.initial,
    domIn := Vector.replicate 6 0, rq := [], pc := 0, loops := [], held := [], xfers := [], replay := [], beat := 0,
    queues := Vector.replicate (2 ^ 3) Queue.empty, mxe := Mxe.empty, af := Af.empty,
    tags := Vector.replicate (2 ^ 2) ⟨0, [], []⟩, viewLog := [], round := none, retry := 0, lostBase := 0,
    launch := List.replicate 32 0, traps := [] }

/-- A core after the package's reset: no task, memories empty. -/
def Core.reset : Core :=
  { ctx := TaskCtx.initial, run := .idle, queue := [], pool := Mem.empty, rows := Mem.empty, imem := Mem.empty,
    ccnt := 0, cyc := 0, gskew := 0, ghold := 0, aligned := false, alignAsk := false, splitTo := 0, weights := [], weight := 0, frzRun := 0,
    frozen := false,
    stalled := false, sub := 0, subW := [], pred := 0, limHit := false, limFrz := 0, limCyc := 0, limLow := 0, seqNo := 0, bundles := [],
    gone := [], next := Vector.replicate 8 0, bound := none,
    hold := .none, flights := [], access := [], stores := [], undo := [], ctlHold := 0, waitFrom := Vector.replicate 8 none,
    ret := none, ptrap := none, itraps := [], reports := [], orders := 0, dropsNow := 0, grants := [], portBusy := [], endWrites := [],
    credits := [], cbNew := [], reached := [],
    preempt := false, expired := false, switch := none, moved := 0, cutLeft := 0, upsets := Upsets.none, tlb := [], ceTlb := [], power := .a0, idleAt := 0, halted := false,
    haltReq := false,
    stepReq := false, wake := false, ev := [] }

/-- A Jexlink port's status at reset (R307). -/
def Port.reset : Port :=
  { fecc := 0, unc := 0, baddst := 0, peerid := none, peermem := 0xFF, peerport := 31, state := 0, aln := false, linklat := 0, recv := [] }

def Die.reset : Die :=
  { sram := Mem.empty, ovf := Mem.empty, tables := Mem.empty, lskew := 0, lhold := 0, aligned := false, rounds := [],
    ports := Vector.replicate 6 Port.reset, walks := [], banks := [] }

/-- The first refresh slots of the pseudo-channels from a tick on, at even distances within an interval (R377; DESIGN CHOICE, log 52). -/
def roundOf (start interval : Nat) : List (Nat × Nat) := (List.range 512).map fun pc => (start + pc * interval / 512, pc)

/-- A stack at reset (R371, R374, R381, R382). -/
def Stack.reset : Stack :=
  { bytes := Mem.empty, pat := Vector.replicate 128 0, hbmcfg := 0x8003, paterr := false, swaps := 0, ce := 0, ue := 0, bankfail := 0,
    temp := 0, hot := false, hotNew := [], cool := 0, samples := [], suspect := [], good := [], indir := [], counts := [], swapq := [],
    badRows := [], slots := roundOf 0 3900, shut := [], acts := [], lanes := [], served := [], weak := [], nextTemp := 10000, winEnd := 32000000,
    splits := [], bist := 0, bistAt := 0, park := none, copied := 0, copyAt := 0, copyStep := 1, retired := [], present := true }

/-- A partition's registers at reset (R367, R373, R387, R388). -/
def Part.reset : Part :=
  { pctl := 0, launch := 0, ptroot := 0, hbmpart := 0x1000100, hmrange := 0, cqbase := 0, cqn := 4, cqhwi := 0, cqdri := 0,
    cqover := false, cqlast := 0, eqbase := 0, eqn := 4, eqdwi := 0, eqhri := 0, dropped := 0, dropRep := 0, dbgcore := 0, dbgaddr := 0,
    dbgdata := 0, dbgref := false, dbg := 0, tenant := [], attctl := 0, nonce := Vector.replicate 4 0, resetEnd := none, resetBy := 0,
    resetTo := none }

/-- Confluence at reset: DETACHED, a group of one (R326, R335). -/
def Confl.reset : Confl :=
  { state := 0, epoch := 0, self := 0, limit := 72, members := [], posts := [], notices := [], own := [], lastEff := 0, found := 72, rise := 0,
    lastWin := 0, lostCnt := 0, joinAt := none,
    joinTry := 0, granted := none, said := false, joiners := [], leavers := [], emerg := none, lastPost := 0 }

/-- CFLCFG at reset (R328): GROUP 0, TSIL 100, LEAD 200, CAP 72, FLOOR fused. -/
def cflcfgReset : Word :=
  BitVec.ofNat 64 (100 * 2 ^ 42 + 200 * 2 ^ 32 + 72 * 2 ^ 25 + min 72 Config.floorCode * 2 ^ 18)

def Pmc.reset : Pmc :=
  { stage := 0, stageAt := 0, maint := false, keys := [], a3 := false, busy := false, off := false, err := 0, svn := 0, fusectr := BitVec.ofNat 8 (Config.fuseCtr % 65),
    hbms := 0, dies := 0, args := Vector.replicate 8 0, res := 0, vendor := false, digest := [], bar2 := Mem.empty, idekeys := [],
    cflcfg := cflcfgReset, cfl := Confl.reset, samples := [], suspect := [], good := [], nextSample := 0, ckptctl := 0, ckptdst := 0,
    ckptbusy := false, ckptdone := false, ckpterr := false, ckptcnt := 0, ckptimg := Mem.empty, ckptcap := [], ckptat := 0, ckptdraw := 0, ckpthot := 0 }

/-- The package right after reset (R397, stage 0). -/
def State.reset : State :=
  { cursor := .inputs, cur := ⟨0, .ctl⟩, inputs := [], draws := 0, now := 0, mcNow := 0, gcnt := 0, frac := 0, groupSkew := 0, ceiling := 72, shake := none,
    cores := Vector.replicate 96 Core.reset, dies := Vector.replicate 4 Die.reset, hbms := Vector.replicate 8 Stack.reset,
    parts := Vector.replicate 12 Part.reset, pmc := Pmc.reset, host := Mem.empty, atoms := [], reqs := [], reqNo := 0, touched := [],
    hostLines := [], roundNo := 0,
    ords := [], aborts := [], aborted := [], noticed := [], landed := [], spoiled := [], badLinks := [], posted := [], grants := [],
    notices := [], sent := [] }

end Sys2Proof.Machine
end

