-- ==== Sys2Proof/Machine/Ops.lean ====
section
/-!
DEFINITION. The named operations over memories, registers, results in flight, traps and queues that the meanings share.
-/
namespace Sys2Proof.Machine

-- memories

/-- Puts one byte into the canonical list: writing what an unlisted byte reads as removes the entry. -/
def putCell (a : Nat) (b : Byte) : List Host.Cell → List Host.Cell
  | [] => if b = unlistedByte then [] else [(a, b)]
  | (x, y) :: r =>
    if a < x then (if b = unlistedByte then (x, y) :: r else (a, b) :: (x, y) :: r)
    else if a = x then (if b = unlistedByte then r else (a, b) :: r)
    else (x, y) :: putCell a b r

/-- The byte a canonical list holds at an address. -/
def getCell (a : Nat) : List Host.Cell → Byte
  | [] => unlistedByte
  | (x, y) :: r => if a = x then y else getCell a r

/-- Adds a number to, or takes it from, a strictly rising list. -/
def putNat (on : Bool) (a : Nat) : List Nat → List Nat
  | [] => if on then [a] else []
  | x :: r =>
    if a < x then (if on then a :: x :: r else x :: r)
    else if a = x then (if on then x :: r else r)
    else x :: putNat on a r

/-- The byte at an address. -/
def Mem.read (m : Mem) (a : Nat) : Byte := getCell a m.cells

/-- One byte written, clean or poisoned. -/
def Mem.write (m : Mem) (a : Nat) (b : Byte) (poison : Bool) : Mem :=
  ⟨putCell a b m.cells, putNat poison a m.poison⟩

/-- Bytes written in order. -/
def Mem.writeAll (m : Mem) (bs : List (Nat × Byte)) (poison : Bool) : Mem :=
  bs.foldl (fun m x => m.write x.1 x.2 poison) m

/-- The strictly rising lists of a canonical memory (a decidable form). -/
def rising : List Nat → Bool
  | [] => true
  | [_] => true
  | a :: b :: r => a < b && rising (b :: r)

/-- The canonical form of a memory. -/
def Mem.wf (m : Mem) : Bool :=
  rising (m.cells.map (·.1)) && m.cells.all (fun c => c.2 != unlistedByte) && rising m.poison

/-- n bytes from an address. -/
def Mem.bytes (m : Mem) (a n : Nat) : List Byte := (List.range n).map fun i => m.read (a + i)

/-- Some of n bytes is poisoned. -/
def Mem.tainted (m : Mem) (a n : Nat) : Bool := m.poison.any fun x => a ≤ x && x < a + n

/-- Little-endian value of bytes (R23, R107). -/
def leNat (bs : List Byte) : Nat := bs.foldr (fun b a => b.toNat + 256 * a) 0

/-- n little-endian bytes of a value, as writes from an address. -/
def leBytes (a n v : Nat) : List (Nat × Byte) := (List.range n).map fun i => (a + i, BitVec.ofNat 8 (v / 256 ^ i))

/-- A 64-bit word of a memory. -/
def Mem.word (m : Mem) (a : Nat) : Word := BitVec.ofNat 64 (leNat (m.bytes a 8))

/-- HBM writes: clean data clears poison only of granules of 32 bytes it covers whole; poisoned data poisons whole granules (R380). -/
def Mem.writeHbm (m : Mem) (bs : List (Nat × Byte)) (poison : Bool) : Mem :=
  let gs := (bs.map fun x => x.1 / 32).eraseDups
  let data := bs.foldl (fun (m : Mem) x => ⟨putCell x.1 x.2 m.cells, m.poison⟩) m
  let set := fun (m : Mem) (g : Nat) (on : Bool) =>
    (List.range 32).foldl (fun (m : Mem) i => (⟨m.cells, putNat on (32 * g + i) m.poison⟩ : Mem)) m
  gs.foldl (fun m g =>
    if poison then set m g true
    else if (List.range 32).all (fun i => bs.any fun x => x.1 = 32 * g + i) then set m g false
    else m) data

-- bit fields

/-- bits(x, hi, lo) of R7, as a number. -/
def fld {n : Nat} (x : BitVec n) (hi lo : Nat) : Nat := (x.toNat >>> lo) % 2 ^ (hi + 1 - lo)

/-- Bits 23:4 style address fields (R186): the field shifted back up. -/
def fldUp {n : Nat} (x : BitVec n) (hi lo up : Nat) : Nat := fld x hi lo * 2 ^ up

/-- The word with bits from lo on replaced by the low n bits of v. -/
def setFld (x : Word) (lo n v : Nat) : Word :=
  (x &&& ~~~(BitVec.ofNat 64 ((2 ^ n - 1) * 2 ^ lo))) ||| BitVec.ofNat 64 (v % 2 ^ n * 2 ^ lo)

/-- A sum of (value, lowest bit) fields as a 64-bit word. -/
def mkWord (fs : List (Nat × Nat)) : Word := BitVec.ofNat 64 (fs.foldl (fun a x => a + x.1 * 2 ^ x.2) 0)

-- cores

/-- One core replaced. -/
def State.updCore (s : State) (c : CoreId) (f : Core → Core) : State :=
  { s with cores := s.cores.set c (f s.cores[c]) }

def State.updDie (s : State) (d : DieId) (f : Die → Die) : State :=
  { s with dies := s.dies.set d (f s.dies[d]) }

def State.updPart (s : State) (p : PartId) (f : Part → Part) : State :=
  { s with parts := s.parts.set p (f s.parts[p]) }

def State.updStack (s : State) (k : StackId) (f : Stack → Stack) : State :=
  { s with hbms := s.hbms.set k (f s.hbms[k]) }

def State.updPmc (s : State) (f : Pmc → Pmc) : State := { s with pmc := f s.pmc }

def State.updConfl (s : State) (f : Confl → Confl) : State := s.updPmc fun p => { p with cfl := f p.cfl }

/-- The number of a core as an index; numbers are 0–95. -/
def coreIx (n : Nat) : CoreId := Fin.ofNat 96 n
def dieIx (n : Nat) : DieId := Fin.ofNat 4 n
def stackIx (n : Nat) : StackId := Fin.ofNat 8 n
def partIx (n : Nat) : PartId := Fin.ofNat 12 n

/-- The die of a core (R3). -/
def dieOf (c : CoreId) : DieId := dieIx (c.val / 24)

/-- A fresh number for a free value; the counter moves with every use. -/
def State.draw (s : State) : Nat × State := (s.draws, { s with draws := s.draws + 1 })

/-- The core whose word is issuing. -/
def State.me (s : State) : Core := s.cores[s.cur.core]

/-- An update of a core's task context. -/
def Core.onCtx (c : Core) (f : TaskCtx → TaskCtx) : Core := { c with ctx := f c.ctx }
def Core.onSpr (c : Core) (f : Sprs → Sprs) : Core := { c with ctx := { c.ctx with spr := f c.ctx.spr } }
def Core.onMxe (c : Core) (f : Mxe → Mxe) : Core := { c with ctx := { c.ctx with mxe := f c.ctx.mxe } }
def Core.onAf (c : Core) (f : Af → Af) : Core := { c with ctx := { c.ctx with af := f c.ctx.af } }
def Core.onQueue (c : Core) (q : BitVec 3) (f : Queue → Queue) : Core :=
  { c with ctx := { c.ctx with queues := c.ctx.queues.set q.toNat (f (c.ctx.queues[q.toNat])) } }

/-- s0 reads 0 (R95). -/
def Core.rs (c : Core) (i : BitVec 6) : Word := if i = 0 then 0 else c.ctx.s[i.toNat]
def Core.rv (c : Core) (i : BitVec 6) : Vec := c.ctx.v[i.toNat]
/-- p0 reads as all ones (R116). -/
def Core.rp (c : Core) (i : BitVec 3) : Pred := if i = 0 then BitVec.allOnes 128 else c.ctx.p[i.toNat]
def Core.rcf (c : Core) (i : BitVec 3) : Bool := c.ctx.cf[i.toNat]
def Core.rbt (c : Core) (i : BitVec 3) : Word := c.ctx.bt[i.toNat]
def Core.ras (c : Core) (i : BitVec 4) : Stream := c.ctx.as[i.toNat]
def Core.rmd (c : Core) (i : BitVec 4) : Vector Word 8 := c.ctx.md[i.toNat]
def Core.rad (c : Core) (i : BitVec 3) : Vector Word 6 := c.ctx.ad[i.toNat]
def Core.red (c : Core) (i : BitVec 4) : Vector Word 8 := c.ctx.ed[i.toNat]
def Core.rcb (c : Core) (i : BitVec 5) : CircBuf := c.ctx.cb[i.toNat]
def Core.rh (c : Core) (i : BitVec 4) : Option Verb := c.ctx.h[i.toNat]
def Core.rq (c : Core) (i : BitVec 3) : Queue := c.ctx.queues[i.toNat]

def Core.setCb (c : Core) (i : BitVec 5) (b : CircBuf) : Core :=
  c.onCtx fun x => { x with cb := x.cb.set i.toNat b }

/-- Eight words as a 512-bit register (R186). -/
def wordsNat (w : Vector Word 8) : Nat := w.foldr (fun x a => x.toNat + 2 ^ 64 * a) 0
def natWords (n : Nat) : Vector Word 8 := Vector.ofFn fun i => BitVec.ofNat 64 (n / 2 ^ (64 * i.val))

/-- A field written by index, where it exists. -/
def setAt {n : Nat} (w : Vector Word n) (i : Nat) (v : Word) : Vector Word n := w.setIfInBounds i v
def getAt {n : Nat} (w : Vector Word n) (i : Nat) : Word := w.toArray.getD i 0

-- special registers as a task's context stores them (R93); the live ones are read elsewhere

/-- A stored special register. -/
def sprGet (x : Sprs) (n : Nat) : Word :=
  match n with
  | 0x005 => x.frzcnt
  | 0x006 => x.fela
  | 0x007 => x.felb
  | 0x008 => x.felmask.zeroExtend 64
  | 0x009 => x.fflags.zeroExtend 64
  | 0x00A => if x.sbmode then 1 else 0
  | 0x00B => x.shape.zeroExtend 64
  | 0x00C => x.alate.zeroExtend 64
  | 0x00D => x.astretch.zeroExtend 64
  | 0x00E => x.alatecnt.zeroExtend 64
  | 0x00F => x.arows.zeroExtend 64
  | 0x010 => x.vcnta.zeroExtend 64
  | 0x011 => x.vcntb.zeroExtend 64
  | 0x012 => x.atscope.zeroExtend 64
  | 0x015 => x.clim.zeroExtend 64
  | 0x016 => x.cwin.zeroExtend 64
  | 0x017 => x.split.zeroExtend 64
  | 0x029 => x.rngctr
  | 0x02A => x.rngkey
  | 0x030 => x.tcause.zeroExtend 64
  | 0x031 => x.tinfo0
  | 0x032 => x.tinfo1
  | 0x033 => x.tepc
  | 0x034 => x.tvec.zeroExtend 64
  | 0x038 => x.taskinfo
  | 0x039 => x.tbudget
  | 0x040 => x.dom[0]
  | 0x041 => x.dom[1]
  | 0x042 => x.dom[2]
  | 0x043 => x.dom[3]
  | 0x044 => x.dom[4]
  | 0x045 => x.dom[5]
  | 0x046 => x.policy.zeroExtend 64
  | 0x050 => x.pw
  | _ => 0

/-- A special register written as its row of R93 says: bits marked zero, and values out of a register's range, as R93, R94 and R357 state. -/
def sprPut (x : Sprs) (n : Nat) (v : Word) : Sprs :=
  match n with
  | 0x005 => { x with frzcnt := v }
  | 0x006 => { x with fela := v }
  | 0x007 => { x with felb := v }
  | 0x008 => { x with felmask := v.truncate 9 }
  | 0x009 => { x with fflags := v.truncate 9 }
  | 0x00A => { x with sbmode := v.getLsbD 0 }
  | 0x00B => { x with shape := v.truncate 4 }
  | 0x00C => { x with alate := if v.truncate 2 = (3 : BitVec 2) then 0 else v.truncate 2 }
  | 0x00D => { x with astretch := if v.truncate 16 = (0 : BitVec 16) then 4096 else v.truncate 16 }
  | 0x00E => { x with alatecnt := v.truncate 32 }
  | 0x00F => { x with arows := if 1 ≤ fld v 4 0 ∧ fld v 4 0 ≤ 16 then v.truncate 5 else 16 }
  | 0x010 => { x with vcnta := v.truncate 11 }
  | 0x011 => { x with vcntb := v.truncate 11 }
  | 0x012 => { x with atscope := if 12 ≤ fld v 3 0 then 7 else v.truncate 4 }
  | 0x015 => { x with clim := v.truncate 32 }
  | 0x016 => { x with cwin := if v.truncate 16 = (0 : BitVec 16) then 256 else v.truncate 16 }
  | 0x029 => { x with rngctr := v }
  | 0x02A => { x with rngkey := v }
  | 0x030 => { x with tcause := v.truncate 8 }
  | 0x031 => { x with tinfo0 := v }
  | 0x032 => { x with tinfo1 := v }
  | 0x033 => { x with tepc := v &&& 0xFFFFFFFFFFFF3FFF }
  | 0x034 => { x with tvec := (x.tvec &&& 0x8000) ||| (v.truncate 16 &&& 0x7FFF) }
  | 0x038 => { x with taskinfo := v }
  | 0x039 => { x with tbudget := v }
  | 0x040 => { x with dom := x.dom.set 0 (v &&& 0x807F0FFFFF00FFFF) }
  | 0x041 => { x with dom := x.dom.set 1 (v &&& 0x807F0FFFFF00FFFF) }
  | 0x042 => { x with dom := x.dom.set 2 (v &&& 0x807F0FFFFF00FFFF) }
  | 0x043 => { x with dom := x.dom.set 3 (v &&& 0x807F0FFFFF00FFFF) }
  | 0x044 => { x with dom := x.dom.set 4 (v &&& 0x807F0FFFFF00FFFF) }
  | 0x045 => { x with dom := x.dom.set 5 (v &&& 0x807F0FFFFF00FFFF) }
  | 0x046 => { x with policy := v.truncate 12 }
  | 0x050 => { x with pw := v }
  | _ => x

-- registers as the scoreboard sees them (R58, R62)

/-- Class and number of R62. -/
def Reg.key : Reg → Nat × Nat
  | .s i => (0, i.toNat)
  | .v i => (1, i.toNat)
  | .p i => (2, i.toNat)
  | .cf i => (3, i.toNat)
  | .bt i => (4, i.toNat)
  | .asf i _ => (5, i.toNat)
  | .md i _ => (6, i.toNat)
  | .ad i _ => (7, i.toNat)
  | .ed i => (8, i.toNat)
  | .edw i _ => (8, i.toNat)
  | .cb i _ => (9, i.toNat)
  | .h i => (10, i.toNat)
  | .spr n => (11, n.toNat)
  | .pat k => (12, k.toNat)

/-- The bits a register holds. -/
def Core.getReg (c : Core) : Reg → Payload
  | .s i => (c.rs i).zeroExtend 2048
  | .v i => (c.rv i).zeroExtend 2048
  | .p i => (c.rp i).zeroExtend 2048
  | .cf i => if c.rcf i then 1 else 0
  | .bt i => (c.rbt i).zeroExtend 2048
  | .asf i f => match f.toNat with
    | 0 => (c.ras i).base.zeroExtend 2048
    | 7 => if (c.ras i).view then 1 else 0
    | k => (((c.ras i).st.toArray.getD (k - 1) 0)).zeroExtend 2048
  | .md i f => (getAt (c.rmd i) f.toNat).zeroExtend 2048
  | .ad i f => (getAt (c.rad i) f.toNat).zeroExtend 2048
  | .ed i => BitVec.ofNat 2048 (wordsNat (c.red i))
  | .edw i k => (getAt (c.red i) k.toNat).zeroExtend 2048
  | .cb i f => match f.toNat with
    | 0 => BitVec.ofNat 2048 (c.rcb i).base
    | 1 => BitVec.ofNat 2048 (c.rcb i).esize
    | 2 => BitVec.ofNat 2048 (c.rcb i).count
    | _ => BitVec.ofNat 2048 ((c.rcb i).p + 2 ^ 16 * (c.rcb i).c + 2 ^ 32 * (c.rcb i).f)
  | .h _ => 0
  | .spr n => (sprGet c.ctx.spr n.toNat).zeroExtend 2048
  | .pat k => BitVec.ofNat 2048 ((c.ctx.pat[k.toNat]).foldr (fun x a => x.toNat + 2 ^ 16 * a) 0)

/-- A register set to bits; s0 discards (R27). -/
def Core.setReg (c : Core) (r : Reg) (v : Payload) : Core :=
  match r with
  | .s i => if i = 0 then c else c.onCtx fun x => { x with s := x.s.set i.toNat (v.truncate 64) }
  | .v i => c.onCtx fun x => { x with v := x.v.set i.toNat (v.truncate 1024) }
  | .p i => if i = 0 then c else c.onCtx fun x => { x with p := x.p.set i.toNat (v.truncate 128) }
  | .cf i => c.onCtx fun x => { x with cf := x.cf.set i.toNat (v.getLsbD 0) }
  | .bt i => c.onCtx fun x => { x with bt := x.bt.set i.toNat (v.truncate 64) }
  | .asf i f =>
    let a := c.ras i
    let a' : Stream := match f.toNat with
      | 0 => { a with base := v.truncate 64 }
      | 7 => { a with view := v.getLsbD 0 }
      | k => { a with st := a.st.setIfInBounds (k - 1) (v.truncate 32) }
    c.onCtx fun x => { x with as := x.as.set i.toNat a' }
  | .md i f => c.onCtx fun x => { x with md := x.md.set i.toNat (setAt (c.rmd i) f.toNat (v.truncate 64)) }
  | .ad i f => c.onCtx fun x => { x with ad := x.ad.set i.toNat (setAt (c.rad i) f.toNat (v.truncate 64)) }
  | .ed i => c.onCtx fun x => { x with ed := x.ed.set i.toNat (natWords v.toNat) }
  | .edw i k => c.onCtx fun x => { x with ed := x.ed.set i.toNat (setAt (c.red i) k.toNat (v.truncate 64)) }
  | .cb i f =>
    let b := c.rcb i
    c.setCb i (match f.toNat with
      | 0 => { b with base := v.toNat % 2 ^ 24, p := 0, c := 0, f := 0 }
      | 1 => { b with esize := v.toNat % 2 ^ 25, p := 0, c := 0, f := 0 }
      | 2 => { b with count := v.toNat % 2 ^ 10, p := 0, c := 0, f := 0 }
      | _ => { b with p := fld v 9 0, c := fld v 25 16, f := fld v 41 32 })
  | .h _ => c
  | .spr n => c.onSpr fun x => sprPut x n.toNat (v.truncate 64)
  | .pat k => c.onCtx fun x => { x with pat := x.pat.set k.toNat (Vector.ofFn fun j => BitVec.ofNat 16 (v.toNat / 2 ^ (16 * j.val))) }

-- bundles and the issuing word

/-- The record of a bundle that has not retired. -/
def Core.recOf (c : Core) (seq : Nat) : Option BundleRec := c.bundles.find? fun b => b.seq = seq

/-- The records of the bundles that can be undone, oldest first. -/
def Core.recs (c : Core) : List BundleRec := c.gone.map (·.b) ++ c.bundles

/-- A bundle has been dispatched and has not retired. -/
def Core.alive (c : Core) (seq : Nat) : Bool := c.bundles.any fun b => b.seq = seq

/-- Sequence number of the next word of a slot. -/
def Core.nextSeq (c : Core) (sl : Slot) : Nat := c.next.toArray.getD (sl.num) 0

def emptyTag : Tag := ⟨[], 0, true, true, 0⟩
def emptyRec : BundleRec := ⟨0, 0, 0, emptyTag, [], [], 0, 0, 0⟩

/-- The bundle of a slot's next word. -/
def Core.wordRec (c : Core) (sl : Slot) : BundleRec := (c.recOf (c.nextSeq sl)).getD emptyRec

/-- The slot word of a bundle (R23). -/
def BundleRec.word (b : BundleRec) (sl : Slot) : SWord := BitVec.ofNat 32 (b.words.toNat / 2 ^ (32 * sl.num))

/-- A word is suppressed by its tag (R66). -/
def Tag.suppresses (t : Tag) (f : Frame) : Bool := (f.f && !t.first) || (f.l && !t.last)

/-- The instruction of a slot of a bundle as it issues: a suppressed word issues as a NOP (R25, R66). -/
def BundleRec.instr (b : BundleRec) (sl : Slot) : Instr :=
  match decodeWord sl (b.word sl) with
  | .ok i => if b.tag.suppresses (frameOf (b.word sl)) then .nop else i
  | .error _ => .nop

/-- The bundle record, the tag and the word of the issuing word. -/
def State.myRec (s : State) : BundleRec := s.me.wordRec s.cur.slot
def State.myWord (s : State) : SWord := s.myRec.word s.cur.slot

/-- The word of a slot has issued: the slot goes on to its next word. -/
def Core.mark (c : Core) (sl : Slot) : Core :=
  let k := c.nextSeq sl
  { c with next := c.next.setIfInBounds (sl.num) (k + 1),
           waitFrom := c.waitFrom.setIfInBounds (sl.num) none,
           bundles := c.bundles.map fun b => if b.seq = k then { b with issued := b.issued ||| (1 <<< sl.num) } else b }

/-- A slot's word waits, from this cycle on if it did not before. -/
def Core.waitSince (c : Core) (sl : Slot) : Core :=
  if (c.waitFrom.toArray.getD sl.num none).isNone then { c with waitFrom := c.waitFrom.setIfInBounds sl.num (some c.cyc) } else c

/-- The issuing word issues with an effect on its core. -/
def State.issue (s : State) (f : Core → Core) : State :=
  s.updCore s.cur.core fun c => (f c).mark s.cur.slot

/-- A bundle's pool accesses have all reached their cycles from this cycle's end on (R51). -/
def Core.accUntil (c : Core) (seq t : Nat) : Core :=
  { c with bundles := c.bundles.map fun b => if b.seq = seq then { b with accEnd := max b.accEnd t } else b }

-- traps

/-- Of two precise trap conditions, the one taken: the older bundle, then the lower cause (R54). -/
def firstTrap (a b : TrapReq) : TrapReq :=
  if b.seq < a.seq ∨ (b.seq = a.seq ∧ b.cause.toNat < a.cause.toNat) then b else a

/-- A precise trap condition is found. -/
def Core.reqTrap (c : Core) (r : TrapReq) : Core :=
  { c with ptrap := some (match c.ptrap with | none => r | some a => firstTrap a r) }

/-- A trap that is not precise is due. -/
def Core.reqImp (c : Core) (t : ImpTrap) : Core := { c with itraps := c.itraps ++ [t] }

/-- The issuing word raises a precise trap for its own bundle. -/
def State.trapNow (s : State) (cause : Nat) (i0 i1 : Word) : State :=
  s.issue fun c => c.reqTrap ⟨s.myRec.seq, BitVec.ofNat 8 cause, i0, i1⟩

/-- The illegal trap of an issue-time check (R44, R45). -/
def State.illegal (s : State) (extra : Word := 0) : State :=
  s.trapNow 0x01 (extra ||| BitVec.ofNat 64 (Slot.num s.cur.slot)) (s.myWord.zeroExtend 64)

/-- The record of a failed address check (R99). -/
def addrInfo (addr : Word) : Word := BitVec.ofNat 64 (16 + fld addr 31 0 * 2 ^ 32)

-- results in flight

/-- The older of two bundles that has not retired (R55). Where the first writer's bundle has retired by R51 before the second issues, that is the
second's bundle, and the first write stays (R51 and R55 as they stand; the worked case after R62 names the first; DESIGN CHOICE, log 85). Where both
have retired it is a bundle no longer there: the trap is taken at the oldest one that has not retired, and both writes stay (log 85). -/
def Core.older (c : Core) (a b : Nat) : Nat := if c.alive (min a b) then min a b else max a b

/-- The record of a collision or scoreboard trap (R62). -/
def clashInfo (r : Reg) (slot other : Slot) (bundle obundle : BitVec 14) : Word × Word :=
  (mkWord [((Reg.key r).1, 52), ((Reg.key r).2, 42), (Slot.num other, 12), (Slot.num slot, 8)],
   mkWord [(obundle.toNat, 32), (bundle.toNat, 0)])

/-- Two writes of one register, by the scoreboard's names; writes to s0 never meet. -/
def Reg.same (a b : Reg) : Bool := Reg.key a == Reg.key b && Reg.key a != (0, 0)

/-- The landings that AR words which have started will make (R249). -/
def Core.arFlights (c : Core) : List Flight :=
  c.ctx.af.words.filterMap fun w => w.writes.map fun r =>
    { seq := w.seq, slot := .ar, bundle := w.bundle, reg := .v r.1, val := 0, mask := 0, due := r.2, kinds := 0, pend := false }

/-- Another slot's write landing in the same cycle as a result is the write collision (R61, R62). -/
def Core.collide (c : Core) (f : Flight) : Core :=
  match (c.flights ++ c.arFlights).find? fun g => Reg.same g.reg f.reg && g.slot != f.slot && g.due = f.due && !g.pend && !f.pend with
  | none => c
  | some g =>
    let k := c.older f.seq g.seq
    let me := if k = f.seq then f else g
    let ot := if k = f.seq then g else f
    let i := clashInfo f.reg me.slot ot.slot me.bundle ot.bundle
    c.reqTrap ⟨k, 0x06, i.1, i.2⟩

/-- A result goes into flight. -/
def Core.fly (c : Core) (f : Flight) : Core :=
  let c := c.collide f
  { c with flights := c.flights ++ [f] }

/-- A mask of the low n bits. -/
def lowMask (n : Nat) : Payload := BitVec.ofNat 2048 (2 ^ n - 1)

/-- The issuing slot's result of `bits` bits, landing at the end of issue + lat. -/
def Core.result (c : Core) (sl : Slot) (r : Reg) (bits : Nat) (v : Nat) (lat : Nat) (kinds : Kinds := 0) (pend : Bool := false) : Core :=
  let b := c.wordRec sl
  c.fly { seq := b.seq, slot := sl, bundle := b.pc, reg := r, val := BitVec.ofNat 2048 v, mask := lowMask bits, due := c.cyc + lat,
          kinds := kinds, pend := pend }

/-- A write of this register empties RQ (R150). -/
def rngWrite (r : Reg) : Bool := match r with | .spr n => n.toNat == 0x029 || n.toNat == 0x02A | _ => false

/-- Some bundle can still be undone (R53). -/
def Core.undoable (c : Core) : Bool := !c.bundles.isEmpty || !c.gone.isEmpty

/-- A register with the bits of a result in it: RQ empties as RNGCTR or RNGKEY is written (R150), and a late block dropped in the landing cycle is
counted on top of what ALATECNT is written (R90). -/
def Core.put (c : Core) (f : Flight) : Core :=
  let d := c.setReg f.reg ((c.getReg f.reg &&& ~~~f.mask) ||| (f.val &&& f.mask))
  if rngWrite f.reg then d.onCtx fun x => { x with rq := [] }
  else if f.reg = .spr 0x00E then d.onSpr fun x => { x with alatecnt := x.alatecnt + BitVec.ofNat 32 c.dropsNow }
  else d

/-- What an undo of a landing needs, of the core before and after it. -/
def undoOf (f : Flight) (c d : Core) : Undo :=
  match f.reg with
  | .cb i k => .cbuf f.seq i k (c.rcb i) (d.rcb i)
  | .spr n =>
    if rngWrite f.reg then .rng f.seq c.ctx.rq c.ctx.spr.rngctr c.ctx.spr.rngkey
    else if n = 0x005 ∨ n = 0x00E then .count f.seq n (sprGet c.ctx.spr n.toNat) (sprGet d.ctx.spr n.toNat)
    else .reg f.seq f.reg (c.getReg f.reg) f.mask
  | r => .reg f.seq r (c.getReg r) f.mask

/-- A register is written. -/
def Upsets.written (u : Upsets) (r : Reg) : Upsets := { u with regs := u.regs.filter fun x => !Reg.same x r }

/-- The register part of a landing; while some bundle can be undone, with its undo (R53). -/
def Core.land (c : Core) (f : Flight) : Core :=
  let d := { c.put f with upsets := c.upsets.written f.reg }
  if c.undoable then { d with undo := undoOf f c d :: c.undo } else d

/-- An RQ entry is taken at issue (R149); the queue is not empty. -/
def Core.takeRq (c : Core) (sl : Slot) : BitVec 256 × Core :=
  match c.ctx.rq with
  | [] => (0, c)
  | e :: r => (e, { (c.onCtx fun x => { x with rq := r }) with undo := .rq (c.nextSeq sl) e :: c.undo })

-- pool addresses

/-- The scratchpad is 0 … S − 1 (R169). -/
def scratchSize (pw : Word) : Nat :=
  2 ^ 24 - (if pw.getLsbD 0 then 4096 else 8192) - 262144 * fld pw 21 16 - 8192 * fld pw 31 24 - 262144 * fld pw 39 32

def Core.scratch (c : Core) : Nat := scratchSize c.ctx.spr.pw

/-- n bytes at a 64-bit address lie in the pool and in scratchpad, and the address is a multiple of `al` (R99). -/
def Core.inPool (c : Core) (addr : Word) (n al : Nat) : Bool :=
  addr.toNat < 2 ^ 24 && addr.toNat % al == 0 && addr.toNat + n ≤ c.scratch

/-- The stream address of R98: loop indices of the bundle's tag, an offset in units. -/
def streamAddr (a : Stream) (t : Tag) (off : Int) (unit : Nat) : Word :=
  let ix := (a.st.toList.zip t.lidx).foldl (fun (x : Word) y => x + y.2.zeroExtend 64 * y.1.signExtend 64) a.base
  ix + BitVec.ofInt 64 (off * unit)

/-- The bank of an address in a view (R170). -/
def bankOf (view : Bool) (a : Nat) : Nat :=
  if view then ((a / 128) ^^^ (a / 8192)) % 64 else a / 128 % 64

/-- A slot access is put on its way to its access cycle; the bundle cannot retire before it (R51). -/
def Core.reach (c : Core) (sl : Slot) (view : Bool) (addr len lat : Nat) (op : AccOp) : Core :=
  let b := c.wordRec sl
  let a : Access := ⟨b.seq, sl, b.pc, c.cyc + lat, addr, len, view, op⟩
  ({ c with access := c.access ++ [a] } : Core).accUntil b.seq (c.cyc + lat)

-- hand-offs

/-- The next hand-off order number. -/
def Core.order (c : Core) : Nat × Core := (c.orders, { c with orders := c.orders + 1 })

/-- Bytes written by a unit of the core at the end of this cycle. -/
def Core.endWrite (c : Core) (bs : List (Nat × Byte)) (poison : Bool := false) : Core :=
  { c with endWrites := c.endWrites ++ bs.map fun x => (x.1, x.2, poison) }

/-- An engine's event report for this cycle (R162). -/
def Core.report (c : Core) (r : Report) : Core := if r.kinds = 0 then c else { c with reports := c.reports ++ [r] }

-- partitions, host memory and the event queue

/-- The partition is enabled (R387). -/
def Part.en (p : Part) : Bool := p.pctl.getLsbD 63

/-- The partition that owns a core: an enabled one whose UNITS name its unit (R387). -/
def State.partOf (s : State) (c : CoreId) : Option PartId :=
  (List.finRange 12).find? fun p => (s.parts[p]).en && (s.parts[p]).pctl.getLsbD (c.val / 8)

/-- The cores of a partition in ascending order (R389). -/
def State.coresOf (s : State) (p : PartId) : List CoreId :=
  (List.finRange 96).filter fun c => s.partOf c = some p

/-- GCNT as a core counts it (R309). -/
def State.coreGcnt (s : State) (c : CoreId) : Word := s.gcnt + BitVec.ofInt 64 (s.cores[c]).gskew

/-- One 64-byte event into the ring (R367, R368). -/
def writeEvent (s : State) (p : PartId) (ws : List Word) : State :=
  let x := s.parts[p]
  let at_ := x.eqbase.toNat + 64 * (x.eqdwi.toNat % 2 ^ x.eqn.toNat)
  let bs := ws.zipIdx.flatMap fun w => leBytes (at_ + 8 * w.2) 8 w.1.toNat
  { (s.updPart p fun x => { x with eqdwi := x.eqdwi + 1 }) with host := s.host.writeAll bs false }

/-- The ring has no room (R368). -/
def Part.eqFull (x : Part) : Bool := (x.eqdwi - x.eqhri).toNat = 2 ^ x.eqn.toNat

/-- Word 0 and word 1 of an event (R368). -/
def eventHead (s : State) (p : PartId) (ty core : Nat) : List Word := [mkWord [(ty, 0), (core, 16), (p.val, 24)], s.gcnt]

/-- The DROPPED event that is written first once space frees (R368). -/
def flushDropped (s : State) (p : PartId) : State :=
  let x := s.parts[p]
  if x.dropRep = 0 || x.eqFull then s
  else (writeEvent s p (eventHead s p 8 0 ++ BitVec.ofNat 64 x.dropRep :: List.replicate 5 0)).updPart p fun x => { x with dropRep := 0 }

/-- An event posted to a partition's event queue, or dropped (R368). -/
def postEvent (s : State) (p : PartId) (ty core : Nat) (data : List Word) : State :=
  let s := flushDropped s p
  if (s.parts[p]).eqFull then
    s.updPart p fun x => { x with dropped := if x.dropped = 0xFFFF then x.dropped else x.dropped + 1, dropRep := x.dropRep + 1 }
  else writeEvent s p (eventHead s p ty core ++ (data ++ List.replicate 6 0).take 6)

/-- An event about a core, to its partition. -/
def postCore (s : State) (c : CoreId) (ty : Nat) (data : List Word) : State :=
  match s.partOf c with
  | some p => postEvent s p ty c.val data
  | none => s

-- positions and TEPC (R63, R94)

/-- The pending taken transfers and their delay bundles, as TEPC lists them. -/
def packTepc (pc : BitVec 14) (xs : List (BitVec 14 × Nat)) : Word :=
  let f := fun (i lo : Nat) => match xs[i]? with
    | some x => [(x.1.toNat, lo + 2), (x.2 % 4, lo)]
    | none => []
  mkWord ((pc.toNat, 0) :: (f 0 16 ++ f 1 32 ++ f 2 48))

/-- The resume bundle and the pending transfers of a TEPC, oldest first; a remaining count of 0 is an empty entry (R94). -/
def tepcXfers (w : Word) : List (BitVec 14 × Nat) :=
  ([(31, 18, 17, 16), (47, 34, 33, 32), (63, 50, 49, 48)].map fun (x : Nat × Nat × Nat × Nat) =>
    (BitVec.ofNat 14 (fld w x.1 x.2.1), fld w x.2.2.1 x.2.2.2)).filter fun x => x.2 != 0
def tepcPc (w : Word) : BitVec 14 := w.truncate 14

/-- An address of the task's code region (R71, R94). -/
def inRegion (info : Word) (pc : Nat) : Bool := fld info 13 0 ≤ pc && pc < fld info 13 0 + fld info 27 14

/-- The checks RETT makes of TEPC (R81). -/
def tepcOk (info tepc : Word) : Bool :=
  let xs := tepcXfers tepc
  inRegion info (tepcPc tepc).toNat && xs.all (fun x => inRegion info x.1.toNat) && decide (xs.map (·.2)).Nodup

/-- The transfers pending at the boundary before a bundle, with their targets (R63). -/
def Core.pendingAt (c : Core) (b : BundleRec) : List (BitVec 14 × Nat) :=
  b.xfersBefore.filterMap fun x =>
    match c.ctx.xfers.find? fun y => y.seq = x.1 with
    | some y => match y.res with
      | some (some t) => some (t, x.2)
      | _ => none
    | none => none

/-- Transfers as a resume restores them. -/
def restoreXfers (seq : Nat) (xs : List (BitVec 14 × Nat)) : List Xfer :=
  xs.zipIdx.map fun x => { seq := seq + x.2, pc := 0, left := x.1.2, readAt := none, bt := none, cond := none, tgt := some x.1.1, res := some (some x.1.1),
                            done := false }

-- undo and cancellation (R53, R164)

/-- The bundle that made a change. -/
def Undo.seq : Undo → Option Nat
  | .reg q _ _ _ | .count q _ _ _ | .cbuf q _ _ _ _ | .rng q _ _ _ | .rq q _ | .felRead q _ _ => some q
  | .raised q _ _ | .log q _ _ => q

/-- A modular difference added to a pointer of a buffer with `n` entries. -/
def moveBy (n x new old : Nat) : Nat := if n = 0 then x else (x + n - new % n + old) % n

/-- A change taken back. Counts and pointers keep what hardware has added since. -/
def Undo.back (c : Core) : Undo → Core
  | .reg _ r old mask => c.setReg r ((c.getReg r &&& ~~~mask) ||| (old &&& mask))
  | .count _ n old new => c.onSpr fun x => sprPut x n.toNat (sprGet x n.toNat - new + old)
  | .cbuf _ i _ old new =>
    let b := c.rcb i
    c.setCb i { old with p := moveBy old.count b.p new.p old.p, c := moveBy old.count b.c new.c old.c, f := b.f + old.f - new.f }
  | .rng _ q ctr key => c.onCtx fun x => { x with rq := q, spr := { x.spr with rngctr := ctr, rngkey := key } }
  | .rq _ e => c.onCtx fun x =>
    if x.rq.length < 32 then { x with rq := e :: x.rq }
    else { x with rq := e :: x.rq.dropLast, spr := { x.spr with rngctr := x.spr.rngctr - 1 } }
  | .raised _ fresh _ => c.onSpr fun x => { x with fflags := x.fflags &&& ~~~fresh }
  | .log _ _ _ => c.onSpr fun x => { x with fela := 0, felb := 0 }
  | .felRead _ a b => c.onSpr fun x => { x with fela := a, felb := b }

/-- A change made again in `d`; `c` is the core that it and what hardware added to it had led to. -/
def Undo.again (c : Core) (u : Undo) (d : Core) : Core :=
  match u with
  | .reg _ r _ mask => d.setReg r ((d.getReg r &&& ~~~mask) ||| (c.getReg r &&& mask))
  | .count _ n _ _ => d.onSpr fun x => sprPut x n.toNat (sprGet c.ctx.spr n.toNat)
  | .cbuf _ i k _ _ =>
    let b := c.rcb i
    let x := d.rcb i
    let x := match k.toNat with
      | 0 => { x with base := b.base }
      | 1 => { x with esize := b.esize }
      | 2 => { x with count := b.count }
      | _ => x
    d.setCb i { x with p := b.p, c := b.c, f := b.f }
  | .rng _ _ _ _ => d.onCtx fun x => { x with rq := c.ctx.rq, spr := { x.spr with rngctr := c.ctx.spr.rngctr, rngkey := c.ctx.spr.rngkey } }
  | .rq _ e => d.onCtx fun x => { x with rq := x.rq.erase e }
  | .raised _ _ all => d.onSpr fun x => { x with fflags := x.fflags ||| all }
  | .log _ a b => if d.ctx.spr.fela.getLsbD 63 then d else d.onSpr fun x => { x with fela := a, felb := b }
  | .felRead _ _ _ => d.onSpr fun x => { x with fela := 0, felb := 0 }

/-- Takes back every change on record, youngest first, and then makes those again, oldest first, that are not of bundle k or a later one
(R53, R164). -/
def undoFrom (k : Nat) (c : Core) (redo : List (Core → Core)) : List Undo → Core
  | [] => redo.foldl (fun c f => f c) c
  | u :: r => undoFrom k (u.back c) (match u.seq with | some q => if k ≤ q then redo else u.again c :: redo | none => u.again c :: redo) r

/-- The record without its oldest part, which no bundle that can still be undone has made. -/
def trimUndo (live : Nat → Bool) : List Undo → List Undo
  | [] => []
  | u :: r => match trimUndo live r with
    | [] => if (match u.seq with | some q => live q | none => false) then [u] else []
    | x :: q => u :: x :: q

/-- A precise trap can still name a bundle that has retired: a transfer's check or a RETT's is to come, or the trap has been found. -/
def Core.held (c : Core) (g : Gone) : Bool :=
  (c.ctx.xfers.any fun x => decide (x.seq ≤ g.b.seq) && x.readAt.isSome && x.tgt.isNone) ||
    (match c.ret with | some q => decide (q ≤ g.b.seq) | none => false) ||
    (match c.ptrap with | some t => decide (t.seq ≤ g.b.seq) | none => false)

/-- What no trap can name any more is forgotten: retired bundles, transfers that have landed, the undo record's oldest part. -/
def Core.forget (c : Core) : Core :=
  let gone := c.gone.filter c.held
  let recs := ({ c with gone := gone } : Core).recs
  { (c.onCtx fun x => { x with xfers := x.xfers.filter fun y => !y.done || recs.any fun r => r.xfersBefore.any fun z => z.1 = y.seq }) with
      gone := gone, undo := trimUndo (fun q => recs.any fun r => r.seq = q) c.undo }

/-- Retired bundles from k on stand again before their retirement: the pool and the view log as they were, their stores to be cancelled. -/
def Core.reopen (c : Core) (k : Nat) : Core :=
  let back := c.gone.filter fun g => k ≤ g.b.seq
  let c := back.foldr (fun g c =>
    { (c.onCtx fun x => { x with viewLog := g.log }) with pool := g.under.foldl (fun (m : Mem) w => m.write w.1 w.2.1 w.2.2) c.pool }) c
  { c with gone := c.gone.filter (fun g => g.b.seq < k), bundles := back.map (·.b) ++ c.bundles }

/-- The core's pipeline emptied: nothing dispatched, nothing on its way. A WAITC's remaining wait is dropped too (DESIGN CHOICE,
log 86). -/
def Core.flush (c : Core) : Core :=
  { c with bundles := [], gone := [], next := Vector.replicate 8 c.seqNo, bound := none, hold := .none, flights := [], access := [], stores := [],
           undo := [], ctlHold := 0, waitFrom := Vector.replicate 8 none, ret := none, ptrap := none }

/-- Results in flight of bundles before k as replay entries: the cycles each has still to run (R53, R353). -/
def Core.replayOf (c : Core) (k : Nat) : List Flight :=
  (c.flights.filter fun f => f.seq < k).map fun f => { f with due := f.due + 1 - c.cyc }

/-- The core as it stands before the oldest unretired bundle: everything of it and later ones taken back, older results in flight in the
replay buffer (R53, R353). -/
def Core.rollback (c : Core) : Core × Word :=
  match c.bundles with
  | [] =>
    let xs := c.ctx.xfers.filterMap fun y => match y.res with | some (some t) => if y.done then none else some (t, y.left) | _ => none
    let c' := (c.onCtx fun x => { x with replay := x.replay ++ c.replayOf c.seqNo, xfers := [] }).flush
    (c', packTepc c.ctx.pc xs)
  | b :: _ =>
    let tepc := packTepc b.pc (c.pendingAt b)
    let rep := c.replayOf b.seq
    let c := undoFrom b.seq c [] c.undo
    let c' := (c.onCtx fun x => { x with replay := x.replay ++ rep, xfers := [], loops := b.loopsBefore, beat := b.beatBefore, pc := b.pc }).flush
    (c', tepc)

/-- Re-injects the replay buffer: an entry with r cycles remaining lands at the end of the r-th cycle, the present one counted (R81). -/
def Core.reinject (c : Core) : Core :=
  let fs := c.ctx.replay.map fun f => { f with due := c.cyc + f.due - 1 }
  { (c.onCtx fun x => { x with replay := [] }) with
      flights := c.flights ++ fs,
      upsets := if c.ctx.replay.isEmpty then c.upsets else { c.upsets with replay := false, met := c.upsets.met || c.upsets.replay } }

/-- The position that a TEPC holds (R63, R81 step 2); the transfers take sequence numbers of their own. -/
def Core.position (c : Core) (tepc : Word) : Core :=
  { (c.onCtx fun x => { x with pc := tepcPc tepc, xfers := restoreXfers c.seqNo (tepcXfers tepc) }) with
      seqNo := c.seqNo + 3, next := Vector.replicate 8 (c.seqNo + 3) }

/-- Resumes at a TEPC: the PC, the pending transfers and the replay buffer (R81 steps 2 and 4). -/
def Core.resumeAt (c : Core) (tepc : Word) : Core := c.reinject.position tepc

/-- Vector registers that AR words under way are to write (R249). -/
def Core.arWrites (c : Core) : List (Reg × BitVec 14) :=
  c.ctx.af.words.filterMap fun w => match w.work with
    | .aldv vd => some (.v vd, w.bundle)
    | .aacc vd _ _ _ => some (.v vd, w.bundle)
    | _ => none

/-- The context of a pre-empted task still stands in the core (R354). -/
def Core.saving (c : Core) : Bool := c.queue.any fun t => t.state = .suspended && t.saved.isNone

/-- No task: one that has ended, none pre-empted. -/
def Core.ended (c : Core) : Bool := c.run == .idle && !c.saving

/-- An entry as it stood at its hand-off. -/
def Entry.again (e : Entry) : Entry :=
  { e with began := none, pages := [], ready := false, pos := 0, blk := 0, cur := none, want := [], out := [], slip := 0, wslip := 0, lagAt := 0, nextRead := 0,
           stopStep := none, got := [], dgot := [], evs := [], steps := 0, lastWrite := none, flagDue := none, staged := [], stagedAt := none, armed := none }

/-- Queues halted under the trap now in a handler run their faulting entry again from its beginning; of a CBP overflow, its CBP alone (R361). -/
def Queue.restart (q : Queue) : Queue :=
  if q.halted && q.inTrap then
    { q with halted := false, cause := 0, inTrap := false,
             entries := match q.entries with
               | e :: r => (if q.cause = 4 then e else e.again) :: r
               | [] => [] }
  else q

def Core.restartQueues (c : Core) : Core := c.onCtx fun x => { x with queues := x.queues.map Queue.restart }

/-- The queue that a trap reported restarts, the trap having been absorbed without a handler (R361). -/
def Core.restartQueue (c : Core) (q : Option (BitVec 3)) : Core :=
  match q with
  | some q => c.onQueue q fun y => ({ y with inTrap := true } : Queue).restart
  | none => c

-- tasks that end (R360, R368, R389)

/-- The entries of a halted queue, and those that have not begun, leave a queue (R302, R360, R361). -/
def Queue.drop (q : Queue) : Queue :=
  if q.halted then { q with entries := [], halted := false, cause := 0, inTrap := false }
  else { q with entries := q.entries.filter fun e => e.began.isSome }

def Core.dropEntries (c : Core) : Core := c.onCtx fun x => { x with queues := x.queues.map Queue.drop }

/-- The late blocks still held are written at the task's end (R239). -/
def Core.freeHeld (c : Core) : Core :=
  c.onAf fun a => { a with active := a.active ++ a.held ++ a.pending, held := [], pending := [] }

/-- The core's task ends: nothing of it dispatches any more; begun engine work goes on (R77, R360). -/
def Core.endTask (c : Core) : Core :=
  { (c.flush.freeHeld.onCtx fun x => { x with replay := [], xfers := [], loops := [], held := [] }) with
      run := .idle, itraps := [], preempt := false, expired := false, switch := none, moved := 0 }

/-- A running task ended as KILL_SELF ends it, with its event: TASKFAULT for the faulting core, KILLED for another (R360). -/
def killTask (s : State) (c : CoreId) (fault : Option (List Word)) : State :=
  let x := s.cores[c]
  if x.run = .idle then s
  else
    let s := match fault with
      | some ws => postCore s c 2 ws
      | none => postCore s c 3 []
    s.updCore c fun x => x.dropEntries.endTask

/-- The queued tasks of a core are removed, in whatever state, KILLED posted for each (R348, R352, R360). Of one whose context still stands
in the core, the entries that have not begun go with it; late blocks of one whose rows still stand there are written (R239). -/
def removeQueued (s : State) (c : CoreId) : State :=
  let s := (s.cores[c]).queue.foldl (fun s _ => postCore s c 3 []) s
  s.updCore c fun x =>
    let late := x.queue.flatMap fun t => match t.saved, t.savedRows with
      | some y, none => y.af.held ++ y.af.pending
      | _, _ => []
    { ((if x.saving then x.dropEntries.endTask else x).onAf fun a => { a with active := a.active ++ late }) with queue := [] }

/-- A running task is to restart: results in flight are discarded; it waits for begun work, then starts again (R360). -/
def Core.retryTask (c : Core) : Core :=
  let c := c.dropEntries.flush.freeHeld
  { (c.onCtx fun x => { x with replay := [], xfers := [], loops := [], held := [], retry := x.retry + 1 }) with
      run := .restarting, itraps := [], preempt := false, expired := false, switch := none, moved := 0 }

-- domains and containment (R357–R360)

/-- The home and word of an in-force DOM; none where the level is not defined. -/
def domOf (c : Core) (L : Nat) : Option Nat :=
  let d := getAt c.ctx.domIn L
  if d.getLsbD 63 then some (fld d 54 48 * 2 ^ 20 + fld d 43 24) else none

/-- A core's domain at a level: every core of the partition whose in-force DOM names the same home and word, one whose task has ended among them
(R357). -/
def State.domain (s : State) (c : CoreId) (L : Nat) : List CoreId :=
  match domOf s.cores[c] L with
  | none => []
  | some d => (List.finRange 96).filter fun x => (s.partOf x = s.partOf c && domOf s.cores[x] L = some d) || x = c

/-- Non-fatal causes (R359). -/
def nonFatal (cause : Nat) : Bool := [0x08, 0x09, 0x0D, 0x0E, 0x10, 0x11].contains cause

/-- The words of a TASKFAULT event (R368). -/
def faultWords (c : Core) : List Word := [c.ctx.spr.tcause.zeroExtend 64, c.ctx.spr.tinfo0, c.ctx.spr.tinfo1, c.ctx.spr.tepc]

/-- The trapping core gets TASKFAULT, the others of a domain KILLED. -/
def killDomain (s : State) (c : CoreId) (xs : List CoreId) : State :=
  let s := (xs.filter fun x => x != c).foldl (fun s x => killTask s x none) s
  killTask s c (some (faultWords s.cores[c]))

/-- Containment: levels from L up, on as much fuel as there are levels left (R360); q is the queue that the trap reports (R361). -/
def containFrom (s : State) (c : CoreId) (cause : Nat) (q : Option (BitVec 3)) : Nat → Nat → State
  | 0, _ => killTask s c (some (faultWords s.cores[c]))
  | fuel + 1, L =>
    let x := s.cores[c]
    if (domOf x L).isNone then containFrom s c cause q fuel (L + 1)
    else
      match fld x.ctx.spr.policy (2 * L + 1) (2 * L) with
      | 0 =>
        if nonFatal cause && tepcOk x.ctx.spr.taskinfo x.ctx.spr.tepc then
          s.updCore c fun x => (x.resumeAt x.ctx.spr.tepc).restartQueue q
        else containFrom s c cause q fuel (L + 1)
      | 1 =>
        if x.ctx.retry < 3 then
          ((s.domain c L).filter fun y => (s.cores[y]).run != .idle).foldl (fun s y => s.updCore y Core.retryTask) s
        else containFrom s c cause q fuel (L + 1)
      | 2 => killDomain s c (s.domain c L)
      | _ =>
        match (List.range 6).find? fun k => L < k && (domOf x k).isSome with
        | none => killDomain s c (s.domain c L)
        | some k =>
          let dom := s.domain c k
          dom.foldl (fun s y => removeQueued s y) (killDomain s c dom)

def contain (s : State) (c : CoreId) (cause : Nat) (q : Option (BitVec 3)) : State := containFrom s c cause q 6 0

/-- TAKING A TRAP (R80), the one shared operation: the cause and its record, TEPC := the resume position (a TEPC that RETT refused keeps its
value, R81), then the installed handler that is not active, with the loop stack held, or else containment. RETT from that handler restarts the
halted queue q that the trap reports (R361). -/
def takeTrap (s : State) (c : CoreId) (cause : BitVec 8) (i0 i1 tepc : Word) (q : Option (BitVec 3)) : State :=
  let keep := cause = 0x01 && i0.getLsbD 5
  let s := s.updCore c fun x => x.onSpr fun y =>
    { y with tcause := cause, tinfo0 := i0, tinfo1 := i1, tepc := if keep then y.tepc else tepc }
  let v := (s.cores[c]).ctx.spr.tvec
  if v.getLsbD 14 && !v.getLsbD 15 then
    s.updCore c fun x => (match q with | some q => x.onQueue q fun y => { y with inTrap := true } | none => x).onCtx fun y =>
      { y with held := y.loops, loops := [], pc := v.truncate 14, xfers := [], spr := { y.spr with tvec := v ||| 0x8000 } }
  else contain s c cause.toNat q

/-- RETURNING FROM A TRAP (R81 steps 1–4, R361): the held loop stack, PC and transfers from TEPC, TVEC.A cleared, the replay buffer
re-injected, and the queues that the trap reported restarted. -/
def Core.returnTrap (c : Core) : Core :=
  let c := c.onCtx fun y => { y with loops := y.held, held := [], spr := { y.spr with tvec := y.spr.tvec &&& 0x7FFF } }
  ((c.resumeAt c.ctx.spr.tepc).restartQueues)

/-- Dispatch goes on from a position that has just been set. -/
def Core.goOn (c : Core) : Core := { c with hold := .none, bound := none }

end Sys2Proof.Machine
end

