-- ==== Sys2Proof/Machine/Operands.lean ====
section
/-!
DEFINITION. What the operand fields of a word name: the registers it reads and writes, as the scoreboard counts them (R57–R61), which
words are hand-offs (R52), the lanes and weights they take (R49, R218), and the selection of vector elements (R114, R116).
-/
namespace Sys2Proof.Machine

/-- The hand-off instructions (R52). -/
def isHandoff : Instr → Bool
  | .halt | .spawn _ _ | .align _ | .phase _ | .abeat _ => true
  | .mloadw _ _ _ | .mma _ _ | .mmaz _ _ | .mouter _ _ _ _ | .mcommit _ | .mwaitb _ | .mout _ _ _ _ | .mzero _ | .mshape _ => true
  | .ast _ _ _ | .ald _ _ _ | .astv _ _ _ | .aldv _ _ _ | .amvm _ _ _ _ _ _ | .arop _ _ _ _ _ _ _ | .aacc _ _ _ _ => true
  | .cpy _ _ | .cpym _ _ | .put _ _ | .putr _ _ _ | .putrVerb _ _ | .red _ _ _ | .zip _ _ _ | .fold _ _ _ _ | .scan _ _ _ _ => true
  | .vbdef _ _ | .qfence _ | .flag _ _ _ _ | .qwait _ | .qstat _ _ | .probe _ _ _ _ | .pinv _ _ _ | .ppin _ _ _ => true
  | .awinit _ _ | .await _ _ _ _ | .atom _ _ _ _ _ | .atomc _ _ _ _ _ | .fence _ _ | .xfence _ _ | .vjoin => true
  | .cbp _ _ | .cbc _ _ | .cbwf _ _ | .cbwe _ _ | .round _ _ _ | .rabort _ => true
  | _ => false

/-- The width of a vector word, in bits. -/
def laneWidth : Instr → Nat
  | .vadd w .. | .vsub w .. | .vmul w .. | .vfma w .. | .vmin w .. | .vmax w .. | .vminu w .. | .vmaxu w .. | .vand w .. | .vor w ..
  | .vxor w .. | .vandn w .. | .vshl w .. | .vshr w .. | .vsar w .. | .vadds w .. | .vsubs w .. | .vaddsc w .. | .vmulsc w ..
  | .vbcast w .. | .vmov w .. | .vcmp w .. | .vsel w .. | .vunary w .. | .vsfu w .. | .vred w .. | .vscan w .. | .vdot4 w .. | .vdot2 w ..
  | .vdot16 w .. | .vcompress w .. | .vexpand w .. | .viota w .. | .vext w .. | .vins w .. | .vld w .. | .vst w .. | .vldp w ..
  | .vstp w .. | .vgather w .. | .vscatter w .. => w.bits
  | _ => 0

/-- Weight of a word that issues (R218): the table leaves a NOP out of the row of CTL, AE and MX only, and VA and VB weigh by width. -/
def wordWeight (sl : Slot) (i : Instr) : Nat :=
  match sl with
    | .ctl | .ae | .mx => if i = .nop then 0 else 1
    | .sca | .ar => 2
    | .xn => 6
    | .va | .vb => 3 * (laneWidth i / 256)

/-- The vector registers a word names (R115), the pair's second register included. -/
def vregs : Instr → List (BitVec 6)
  | .vadd _ _ d a b | .vsub _ _ d a b | .vmul _ _ d a b | .vfma _ _ d a b | .vmin _ _ d a b | .vmax _ _ d a b | .vminu _ _ d a b
  | .vmaxu _ _ d a b | .vand _ _ d a b | .vor _ _ d a b | .vxor _ _ d a b | .vandn _ _ d a b | .vshl _ _ d a b | .vshr _ _ d a b
  | .vsar _ _ d a b | .vadds _ _ d a b | .vsubs _ _ d a b | .vdot4 _ _ d a b | .vdot2 _ _ d a b | .vdot16 _ _ d a b => [d, a, b]
  | .vaddsc _ _ d a _ | .vmulsc _ _ d a _ => [d, a]
  | .vbcast _ _ d _ => [d]
  | .vmov _ _ d a => [d, a]
  | .vcmp _ _ _ _ a b => [a, b]
  | .vsel _ _ d a _ | .vunary _ _ _ d a _ | .vsfu _ _ _ d a _ | .vscan _ _ _ d a _ | .vcompress _ _ d a _ | .vexpand _ _ d a _ => [d, a]
  | .vred _ _ _ _ a _ => [a]
  | .viota _ _ d _ => [d]
  | .vext _ _ _ a _ => [a]
  | .vins _ _ d _ _ => [d]
  | .vld _ _ d _ => [d]
  | .vst _ _ a _ => [a]
  | .vgather _ _ d a _ | .vscatter _ _ d a _ => [d, a]
  | .xnet _ d a => [d, a, a + 1]
  | .xcvt _ _ _ _ d a | .xcvth _ _ _ _ d a | .xmx _ _ _ _ d a | .xmxd _ _ _ _ d a | .xplane _ _ _ d a | .xunplane _ _ _ _ d a => [d, a]
  | .xrng d => [d]
  | .astv _ _ a => [a]
  | .aldv _ _ d => [d]
  | .aacc d _ _ _ => [d]
  | _ => []

/-- With a 32-register file, a word that names v32–v63 fails (R115). -/
def Core.vregOk (c : Core) (i : Instr) : Bool := !c.ctx.spr.pw.getLsbD 0 || (vregs i).all fun r => r.toNat < 32

/-- The registers a transfer reads in the cycle after its issue (R67). -/
def lateReads : Instr → List Reg
  | .br b cf _ => [.bt b, .cf cf]
  | .brAlways b | .call b => [.bt b]
  | .ret => [.s 63]
  | _ => []

/-- The registers a word reads in its issue cycle; a descriptor word names further ones (R189, R216). VSEL selects between va and vd's own
old elements by a merging write, and the merging words VUNARY, VSFU, VLDP and VINS leave the other bits alone: none of them reads vd
(DEDUCED, log 87). -/
def Core.readsOf (c : Core) : Instr → List Reg
  | .pbtr _ a | .loopReg a _ | .movrs a _ | .waitg a | .spawn a _ => [.s a]
  | .cmp _ _ a b => [.s a, .s b]
  | .cmpi _ _ a _ => [.s a]
  | .cfop _ a b _ => [.cf a, .cf b]
  | .vany _ p _ | .vall _ p _ => if p = 0 then [] else [.p p]
  | .movsr _ n => if 0x020 ≤ n.toNat ∧ n.toNat ≤ 0x027 then [.bt (BitVec.ofNat 3 (n.toNat - 0x020))] else [.spr n]
  | .phase l => [.spr (BitVec.ofNat 10 (0x040 + l.toNat))]
  | .add _ a b | .sub _ a b | .and _ a b | .or _ a b | .xor _ a b | .shl _ a b | .shr _ a b | .sar _ a b | .mul _ a b | .mulh _ a b
  | .mulhu _ a b | .div _ a b | .divu _ a b | .rem _ a b | .remu _ a b | .min _ a b | .max _ a b | .minu _ a b | .maxu _ a b
  | .fadd _ a b | .fsub _ a b | .fmul _ a b | .fmin _ a b | .fmax _ a b | .fcmp _ a b _ => [.s a, .s b]
  | .fma d a b => [.s d, .s a, .s b]
  | .sel _ a b cf => [.s a, .s b, .cf cf]
  | .clz _ a | .popc _ a | .addi _ a _ | .andi _ a _ | .ori _ a _ | .xori _ a _ | .shli _ a _ | .shri _ a _ | .sari _ a _
  | .fcvtif _ a | .fcvtfi _ a _ | .fneg _ a | .fabs _ a => [.s a]
  | .movk d _ => [.s d]
  | .ld _ as .. | .lda _ as .. => [.asf as 0]
  | .st a as .. | .stl a as .. => [.s a, .asf as 0]
  | .aset _ _ a => [.s a]
  | .aget _ as _ => [.asf as 0]
  | .vadd _ _ _ a b | .vsub _ _ _ a b | .vmul _ _ _ a b | .vmin _ _ _ a b | .vmax _ _ _ a b | .vminu _ _ _ a b | .vmaxu _ _ _ a b
  | .vand _ _ _ a b | .vor _ _ _ a b | .vxor _ _ _ a b | .vandn _ _ _ a b | .vshl _ _ _ a b | .vshr _ _ _ a b | .vsar _ _ _ a b
  | .vadds _ _ _ a b | .vsubs _ _ _ a b | .vcmp _ _ _ _ a b => [.v a, .v b]
  | .vfma _ _ d a b | .vdot4 _ _ d a b | .vdot2 _ _ d a b | .vdot16 _ _ d a b => [.v d, .v a, .v b]
  | .vaddsc _ _ _ a b | .vmulsc _ _ _ a b => [.v a, .s b]
  | .vbcast _ _ _ b => [.s b]
  | .vmov _ _ _ a => [.v a]
  | .vsel _ _ _ a p | .vunary _ _ _ _ a p | .vsfu _ _ _ _ a p | .vred _ _ _ _ a p | .vscan _ _ _ _ a p | .vcompress _ _ _ a p
  | .vexpand _ _ _ a p => if p = 0 then [.v a] else [.v a, .p p]
  | .viota _ _ _ p => if p = 0 then [] else [.p p]
  | .vext _ _ _ a _ => [.v a]
  | .vins _ _ _ a _ => [.s a]
  | .vld _ as .. => [.asf as 0]
  | .vst _ as a _ => [.v a, .asf as 0]
  | .vldp _ as p _ _ => if p = 0 then [.asf as 0] else [.asf as 0, .p p]
  | .vstp _ as p a _ => (if p = 0 then [] else [.p p]) ++ [.v (a.zeroExtend 6), .asf as 0]
  | .vgather _ _ _ a as => [.v a, .asf as 0]
  | .vscatter _ _ d a as => [.v d, .v a, .asf as 0]
  | .xnet k _ a => [.pat k, .v a, .v (a + 1)]
  | .xnload _ as => [.asf as 0]
  | .xcvt _ _ _ _ _ a | .xcvth _ _ _ _ _ a | .xmx _ _ _ _ _ a | .xmxd _ _ _ _ _ a | .xplane _ _ _ _ a | .xunplane _ _ _ _ _ a => [.v a]
  | .mdset _ _ a | .adset _ _ a | .edset _ _ a | .cbset _ _ a => [.s a]
  | .mloadw md cb _ | .mma md cb | .mmaz md cb => [.md md 0, .cb cb 0]
  | .mouter md a b h => [.md md 0, .cb a 0, .cb b 0, .h h]
  | .mout md as _ _ => [.md md 0, .asf as 0]
  | .mzero md => [.md md 0]
  | .ast _ ad as | .ald _ ad as => [.ad ad 0, .asf as 0]
  | .astv _ ad a => [.ad ad 0, .v a]
  | .aldv _ ad _ => [.ad ad 0]
  | .amvm _ ad as _ _ _ => [.ad ad 0, .asf as 0, .spr 0x00F]
  | .arop _ d _ a _ _ _ => [.ad d 0, .ad a 0]
  | .edld _ as | .vbdef _ as => [.asf as 0]
  | .cpy _ ed | .put _ ed | .putr _ ed _ | .red _ ed _ => [.ed ed]
  | .putrVerb _ ed => [.ed ed, .h (BitVec.ofNat 4 (fld (getAt (c.red ed) 7) 27 24))]
  | .zip _ ed h | .fold _ ed h _ | .scan _ ed h _ => [.ed ed, .h h]
  | .cpym _ ed => let w := getAt (c.red ed) 7
    [.ed ed, .md (BitVec.ofNat 4 (fld w 41 38)) 0, .cb (BitVec.ofNat 5 (fld w 36 32)) 0, .spr 0x00B]
  | .flag _ a b _ => [.s a, .s b]
  | .probe _ a _ _ | .pinv a _ _ | .ppin a _ _ | .round a _ _ => [.s a]
  | .awinit a b | .await a b _ _ => [.s a, .s b]
  | .atom _ _ a b ord => (if ord then [.spr 0x012] else []) ++ [.s a, .s b]
  | .atomc _ d a b ord => (if ord then [.spr 0x012] else []) ++ [.s d, .s a, .s b]
  | .cbp cb _ | .cbc cb _ | .cbwf cb _ | .cbwe cb _ => [.cb cb 0]
  | _ => []

/-- The registers a word writes. -/
def writesOf (sl : Slot) : Instr → List Reg
  | .pbt b _ | .pbtr b _ => [.bt b]
  | .call _ => [.s 63]
  | .cmp cf .. | .cmpi cf .. | .cfop cf .. | .vany cf .. | .vall cf .. => [.cf cf]
  | .movsr d _ => [.s d]
  | .movrs _ n => [.spr n]
  | .add d .. | .sub d .. | .and d .. | .or d .. | .xor d .. | .shl d .. | .shr d .. | .sar d .. | .mul d .. | .mulh d .. | .mulhu d ..
  | .div d .. | .divu d .. | .rem d .. | .remu d .. | .min d .. | .max d .. | .minu d .. | .maxu d .. | .sel d .. | .clz d .. | .popc d ..
  | .addi d .. | .andi d .. | .ori d .. | .xori d .. | .shli d .. | .shri d .. | .sari d .. | .movi d .. | .movk d .. | .ld d .. | .lda d ..
  | .aget d .. | .fadd d .. | .fsub d .. | .fmul d .. | .fma d .. | .fmin d .. | .fmax d .. | .fcmp d .. | .fcvtif d .. | .fcvtfi d ..
  | .fneg d .. | .fabs d .. => [.s d]
  | .aset a f _ => [.asf a f]
  | .vadd _ _ d .. | .vsub _ _ d .. | .vmul _ _ d .. | .vfma _ _ d .. | .vmin _ _ d .. | .vmax _ _ d .. | .vminu _ _ d .. | .vmaxu _ _ d ..
  | .vand _ _ d .. | .vor _ _ d .. | .vxor _ _ d .. | .vandn _ _ d .. | .vshl _ _ d .. | .vshr _ _ d .. | .vsar _ _ d .. | .vadds _ _ d ..
  | .vsubs _ _ d .. | .vaddsc _ _ d .. | .vmulsc _ _ d .. | .vbcast _ _ d .. | .vmov _ _ d .. | .vsel _ _ d .. | .vunary _ _ _ d ..
  | .vsfu _ _ _ d .. | .vscan _ _ _ d .. | .vdot4 _ _ d .. | .vdot2 _ _ d .. | .vdot16 _ _ d .. | .viota _ _ d .. | .vins _ _ d ..
  | .vld _ _ d _ | .vgather _ _ d .. => [.v d]
  | .vcompress _ _ d .. | .vexpand _ _ d .. => [.v d, .spr (if sl = .va then 0x010 else 0x011)]
  | .vcmp _ _ _ p .. => [.p p]
  | .vred _ _ _ d .. | .vext _ _ d .. => [.s d]
  | .vldp _ _ _ d _ => [.v (d.zeroExtend 6)]
  | .xnet _ d _ | .xcvt _ _ _ _ d _ | .xcvth _ _ _ _ d _ | .xmx _ _ _ _ d _ | .xmxd _ _ _ _ d _ | .xplane _ _ _ d _
  | .xunplane _ _ _ _ d _ | .xrng d => [.v d]
  | .xnload k _ => [.pat k]
  | .mdset m f _ => [.md m f]
  | .mshape _ => [.spr 0x00B]
  | .adset a f _ => [.ad a f]
  | .aldv _ _ d | .aacc d _ _ _ => [.v d]
  | .edld e _ => [.ed e]
  | .edset e k _ => [.edw e k]
  | .cbset cb f _ => [.cb cb f]
  | .cbp cb _ | .cbc cb _ => [.cb cb 3]
  | .vbdef h _ => [.h h]
  | .qstat d _ | .atom _ d .. | .atomc _ d .. => [.s d]
  | .probe d _ cf _ => [.s d, .cf cf]
  | .await _ _ cf _ => [.cf cf]
  | _ => []

/-- An instruction that takes one entry of RQ at issue (R149). -/
def takesRq : Instr → Bool
  | .xcvt _ _ .sr .. | .xcvth _ _ .sr .. | .xmx _ _ .sr .. | .xmxd _ _ .sr .. | .xplane _ _ .sr .. | .xunplane _ _ .sr .. => true
  | .xrng _ => true
  | .mout _ _ _ .sr => true
  | _ => false

-- elements

/-- Element i of e bytes is selected by a predicate (R116). -/
def selected (p : Pred) (e i : Nat) : Bool := p.getLsbD (e * i)

/-- The bits of the selected elements, as the mask of a merging write (R117). -/
def elemMask (p : Pred) (e n : Nat) : Payload :=
  BitVec.ofNat 2048 ((List.range n).foldl (fun a i => if selected p e i then a + (2 ^ (8 * e) - 1) * 2 ^ (8 * e * i) else a) 0)

/-- The format of a floating vector type. -/
def vfmt : VType → Fmt
  | .bf16 => fmtBF16
  | .f16 => fmtF16
  | .e4m3 => fmtE4M3
  | .e5m2 => fmtE5M2
  | _ => fmtF32

/-- The bytes of an access size (R33). -/
def ssize : SSize → Nat
  | .b => 1
  | .h => 2
  | .w => 4
  | .d => 8

end Sys2Proof.Machine
end

