-- ==== Sys2Proof/Machine/Flags.lean ====
section
/-!
DEFINITION. The event record (R161–R164): sticky flags and the first-event log of a core.
-/
namespace Sys2Proof.Machine

/-- An event offered to the log in a cycle: its rank under R162 and the fields of FELA and FELB (R163). -/
structure Offer where
  rank   : List Nat
  kind   : Nat
  slot   : Nat
  engine : Bool
  op     : Nat
  bundle : BitVec 14
  /-- the bundle whose slot instruction made it -/
  seq    : Option Nat
  deriving DecidableEq, Repr

/-- Lexicographic order of ranks. -/
def rankLt : List Nat → List Nat → Bool
  | a :: r, b :: q => a < b || (a == b && rankLt r q)
  | [], _ :: _ => true
  | _, _ => false

/-- The kinds of a set, as bit numbers. -/
def kindBits (k : Kinds) : List Nat := (List.range 9).filter fun i => k.getLsbD i

/-- The offers of a landing result. -/
def flightOffers (f : Flight) : List Offer :=
  (kindBits f.kinds).map fun k =>
    ⟨[Slot.num f.slot, 0, k, f.seq], k, Slot.num f.slot, false, 0, f.bundle, some f.seq⟩

/-- The offers of an engine report: those without a hand-off of this core rank last (R162), and of one element of a block the lowest kind bit
comes first, as everywhere in R162. -/
def reportOffers (r : Report) : List Offer :=
  (kindBits r.kinds).map fun k =>
    ⟨match r.origin with | .handoff h => [r.slot, 1, k, h] | .peer b a => [8, r.slot, b, a, k], k, r.slot, true, r.op, r.bundle, none⟩

/-- The first offer under R162 whose kind the mask records. -/
def bestOffer (mask : Kinds) (os : List Offer) : Option Offer :=
  (os.filter fun o => mask.getLsbD o.kind).foldl
    (fun a o => match a with | none => some o | some b => if rankLt o.rank b.rank then some o else some b) none

/-- FELA and FELB of a recorded event (R163). -/
def felaOf (o : Offer) : Word := mkWord [(1, 63), (o.bundle.toNat, 0)]
def felbOf (o : Offer) (cycle : Word) : Word :=
  mkWord [(fld cycle 31 0, 32), (o.op % 16, 12), (if o.engine then 1 else 0, 8), (o.kind, 4), (o.slot % 8, 0)]

/-- Sticky flags of one raising: the record keeps what was clear before, while some bundle can be undone (R164). -/
def Core.sticky (c : Core) (seq : Option Nat) (k : Kinds) : Core :=
  if k = 0 then c
  else
    let fresh := k &&& ~~~c.ctx.spr.fflags
    let c := c.onSpr fun x => { x with fflags := x.fflags ||| k }
    if c.undoable then { c with undo := .raised seq fresh k :: c.undo } else c

/-- The events of one cycle set their flags, and one may be recorded (R162). -/
def Core.raise (c : Core) (fs : List Flight) (rs : List Report) : Core :=
  let mask := c.ctx.spr.felmask
  let offers := (fs.flatMap flightOffers) ++ rs.flatMap reportOffers
  let c := fs.foldl (fun c f => c.sticky (some f.seq) f.kinds) c
  let c := rs.foldl (fun c r => c.sticky none r.kinds) c
  if c.ctx.spr.fela.getLsbD 63 then c
  else match bestOffer mask offers with
    | none => c
    | some o =>
      let a := felaOf o
      let b := felbOf o c.ccnt
      let d := c.onSpr fun x => { x with fela := a, felb := b }
      if c.undoable then { d with undo := .log o.seq a b :: c.undo } else d

/-- Reading FELA clears the log at the end of the issue cycle; an undo brings it back (R90, R53). -/
def Core.clearLog (c : Core) (seq : Nat) : Core :=
  let a := c.ctx.spr.fela
  let b := c.ctx.spr.felb
  { (c.onSpr fun x => { x with fela := 0, felb := 0 }) with undo := .felRead seq a b :: c.undo }

end Sys2Proof.Machine
end

