-- ==== Sys2Proof/Machine/Scalar.lean ====
section
/-!
DEFINITION. The meanings of the S1 SCA words (R102–R113, R97–R101, R107–R109): each reads its registers in its issue cycle and puts a
result, or a pool access, on its way.
-/
namespace Sys2Proof.Machine

open Host

/-- A scalar result of `lat` cycles. -/
def putS (s : State) (sd : BitVec 6) (v : Word) (lat : Nat) (k : Kinds := 0) : Outcome State Fault Refusal :=
  .next (s.issue fun c => c.result s.cur.slot (.s sd) 64 v.toNat lat k)

/-- A two-operand integer word of one cycle (R102). -/
def alu (s : State) (sd sa sb : BitVec 6) (f : Word → Word → Word) (lat : Nat := 1) : Outcome State Fault Refusal :=
  putS s sd (f (s.me.rs sa) (s.me.rs sb)) lat

def execAdd (sd sa sb : BitVec 6) (s : State) : Outcome State Fault Refusal := alu s sd sa sb fun a b => a + b
def execSub (sd sa sb : BitVec 6) (s : State) : Outcome State Fault Refusal := alu s sd sa sb fun a b => a - b
def execAnd (sd sa sb : BitVec 6) (s : State) : Outcome State Fault Refusal := alu s sd sa sb fun a b => a &&& b
def execOr (sd sa sb : BitVec 6) (s : State) : Outcome State Fault Refusal := alu s sd sa sb fun a b => a ||| b
def execXor (sd sa sb : BitVec 6) (s : State) : Outcome State Fault Refusal := alu s sd sa sb fun a b => a ^^^ b
def execShl (sd sa sb : BitVec 6) (s : State) : Outcome State Fault Refusal := alu s sd sa sb fun a b => a <<< (b.toNat % 64)
def execShr (sd sa sb : BitVec 6) (s : State) : Outcome State Fault Refusal := alu s sd sa sb fun a b => a >>> (b.toNat % 64)
def execSar (sd sa sb : BitVec 6) (s : State) : Outcome State Fault Refusal := alu s sd sa sb fun a b => a.sshiftRight (b.toNat % 64)
def execMul (sd sa sb : BitVec 6) (s : State) : Outcome State Fault Refusal := alu s sd sa sb (fun a b => a * b) 3
def execMulh (sd sa sb : BitVec 6) (s : State) : Outcome State Fault Refusal :=
  alu s sd sa sb (fun a b => BitVec.ofInt 64 (a.toInt * b.toInt / 2 ^ 64)) 3
def execMulhu (sd sa sb : BitVec 6) (s : State) : Outcome State Fault Refusal :=
  alu s sd sa sb (fun a b => BitVec.ofNat 64 (a.toNat * b.toNat / 2 ^ 64)) 3
def execMin (sd sa sb : BitVec 6) (s : State) : Outcome State Fault Refusal := alu s sd sa sb fun a b => if a.slt b then a else b
def execMax (sd sa sb : BitVec 6) (s : State) : Outcome State Fault Refusal := alu s sd sa sb fun a b => if a.slt b then b else a
def execMinu (sd sa sb : BitVec 6) (s : State) : Outcome State Fault Refusal := alu s sd sa sb fun a b => if a.ult b then a else b
def execMaxu (sd sa sb : BitVec 6) (s : State) : Outcome State Fault Refusal := alu s sd sa sb fun a b => if a.ult b then b else a

/-- A divide (R103): by zero, the stated value and the div-zero event. -/
def divide (s : State) (sd sa sb : BitVec 6) (zero : Word → Word) (f : Word → Word → Word) : Outcome State Fault Refusal :=
  let a := s.me.rs sa
  let b := s.me.rs sb
  if b = 0 then putS s sd (zero a) 18 kDivZero else putS s sd (f a b) 18

def execDiv (sd sa sb : BitVec 6) (s : State) : Outcome State Fault Refusal :=
  divide s sd sa sb (fun _ => BitVec.allOnes 64) fun a b => BitVec.ofInt 64 (a.toInt.tdiv b.toInt)
def execDivu (sd sa sb : BitVec 6) (s : State) : Outcome State Fault Refusal :=
  divide s sd sa sb (fun _ => BitVec.allOnes 64) fun a b => a / b
def execRem (sd sa sb : BitVec 6) (s : State) : Outcome State Fault Refusal :=
  divide s sd sa sb (fun a => a) fun a b => BitVec.ofInt 64 (a.toInt.tmod b.toInt)
def execRemu (sd sa sb : BitVec 6) (s : State) : Outcome State Fault Refusal :=
  divide s sd sa sb (fun a => a) fun a b => a % b

def execSel (sd sa sb : BitVec 6) (cf : BitVec 3) (s : State) : Outcome State Fault Refusal :=
  alu s sd sa sb fun a b => if s.me.rcf cf then a else b

/-- Leading zero bits of the low w bits of x. -/
def clzNat (w x : Nat) : Nat := if x % 2 ^ w = 0 then w else w - 1 - (x % 2 ^ w).log2
/-- One bits of the low w bits of x. -/
def popNat (w x : Nat) : Nat := ((List.range w).filter fun i => x.testBit i).length

def execClz (sd sa : BitVec 6) (s : State) : Outcome State Fault Refusal :=
  putS s sd (BitVec.ofNat 64 (clzNat 64 (s.me.rs sa).toNat)) 1
def execPopc (sd sa : BitVec 6) (s : State) : Outcome State Fault Refusal :=
  putS s sd (BitVec.ofNat 64 (popNat 64 (s.me.rs sa).toNat)) 1

/-- An immediate word (R105). -/
def aluI (s : State) (sd sa : BitVec 6) (imm : BitVec 11) (f : Word → Word → Word) : Outcome State Fault Refusal :=
  putS s sd (f (s.me.rs sa) (imm.signExtend 64)) 1

def execAddi (sd sa : BitVec 6) (imm : BitVec 11) (s : State) : Outcome State Fault Refusal := aluI s sd sa imm fun a i => a + i
def execAndi (sd sa : BitVec 6) (imm : BitVec 11) (s : State) : Outcome State Fault Refusal := aluI s sd sa imm fun a i => a &&& i
def execOri (sd sa : BitVec 6) (imm : BitVec 11) (s : State) : Outcome State Fault Refusal := aluI s sd sa imm fun a i => a ||| i
def execXori (sd sa : BitVec 6) (imm : BitVec 11) (s : State) : Outcome State Fault Refusal := aluI s sd sa imm fun a i => a ^^^ i
def execShli (sd sa : BitVec 6) (imm : BitVec 11) (s : State) : Outcome State Fault Refusal := aluI s sd sa imm fun a i => a <<< i.toNat
def execShri (sd sa : BitVec 6) (imm : BitVec 11) (s : State) : Outcome State Fault Refusal := aluI s sd sa imm fun a i => a >>> i.toNat
def execSari (sd sa : BitVec 6) (imm : BitVec 11) (s : State) : Outcome State Fault Refusal :=
  aluI s sd sa imm fun a i => a.sshiftRight i.toNat
def execMovi (sd : BitVec 6) (imm : BitVec 17) (s : State) : Outcome State Fault Refusal := putS s sd (imm.signExtend 64) 1
def execMovk (sd : BitVec 6) (imm : BitVec 17) (s : State) : Outcome State Fault Refusal :=
  putS s sd ((s.me.rs sd <<< 17) ||| imm.zeroExtend 64) 1

/-- The address of the issuing word through a stream (R98). -/
def State.addr (s : State) (as : BitVec 4) (off : Int) (unit : Nat) : Word := streamAddr (s.me.ras as) s.myRec.tag off unit

/-- A pool read into bits of a register, landing at issue + lat (R107, R135, R138, R194). -/
def loadTo (s : State) (r : Reg) (as : BitVec 4) (a : Word) (n bits acc lat : Nat) (mask : Payload) (op : AccOp) :
    Outcome State Fault Refusal :=
  .next (s.issue fun c =>
    let b := s.myRec
    (c.fly { seq := b.seq, slot := s.cur.slot, bundle := b.pc, reg := r, val := 0, mask := mask &&& lowMask bits, due := c.cyc + lat,
             kinds := 0, pend := false }).reach s.cur.slot (c.ras as).view a.toNat n acc op)

/-- A scalar load (R107, R99). -/
def loadS (s : State) (sd : BitVec 6) (as : BitVec 4) (size : SSize) (sx : Bool) (off : Int) : Outcome State Fault Refusal :=
  let n := ssize size
  let a := s.addr as off n
  if s.me.inPool a n n then loadTo s (.s sd) as a n 64 2 4 (lowMask 64) (.load (.s sd) 0 0 sx [])
  else .next (s.illegal (addrInfo a))

/-- A scalar store (R107, R99). -/
def storeS (s : State) (sa : BitVec 6) (as : BitVec 4) (size : SSize) (off : Int) : Outcome State Fault Refusal :=
  let n := ssize size
  let a := s.addr as off n
  if s.me.inPool a n n then
    .next (s.issue fun c => c.reach s.cur.slot (c.ras as).view a.toNat n 2
      (.store ((leBytes 0 n (c.rs sa).toNat).map fun x => some x.2)))
  else .next (s.illegal (addrInfo a))

def execLd (sd : BitVec 6) (as : BitVec 4) (size : SSize) (sx : Bool) (off : BitVec 10) (s : State) : Outcome State Fault Refusal :=
  loadS s sd as size sx off.toInt
def execSt (sa : BitVec 6) (as : BitVec 4) (size : SSize) (off : BitVec 10) (s : State) : Outcome State Fault Refusal :=
  storeS s sa as size off.toInt

/-- LDA (R109): timing, checks and data of LD; the acquire adds no wait of its own (R272). -/
def execLda (sd : BitVec 6) (as : BitVec 4) (size : SSize) (_scope : Scope) (s : State) : Outcome State Fault Refusal :=
  loadS s sd as size false 0
/-- STL (R109): timing, checks and data of ST. What it publishes was performed when its bundle retires (R271). -/
def execStl (sa : BitVec 6) (as : BitVec 4) (size : SSize) (_scope : Scope) (s : State) : Outcome State Fault Refusal :=
  storeS s sa as size 0

/-- ASET (R100). -/
def execAset (as : BitVec 4) (field : BitVec 3) (sa : BitVec 6) (s : State) : Outcome State Fault Refusal :=
  .next (s.issue fun c => c.result s.cur.slot (.asf as field) 64 (c.rs sa).toNat 1)
/-- AGET (R101): base, sign-extended stride, or view. -/
def execAget (sd : BitVec 6) (as : BitVec 4) (field : BitVec 3) (s : State) : Outcome State Fault Refusal :=
  let a := s.me.ras as
  let v : Word := match field.toNat with
    | 0 => a.base
    | 7 => if a.view then 1 else 0
    | k => (a.st.toArray.getD (k - 1) 0).signExtend 64
  putS s sd v 1

-- binary32 (R110–R113)

/-- A binary32 operand: bits 31:0. -/
def Core.f32 (c : Core) (i : BitVec 6) : Nat := fld (c.rs i) 31 0

/-- A binary32 result: bits 63:32 zero, landing at issue + 4. -/
def putF (s : State) (sd : BitVec 6) (r : Nat × Kinds) : Outcome State Fault Refusal := putS s sd (BitVec.ofNat 64 r.1) 4 r.2

def execFadd (sd sa sb : BitVec 6) (s : State) : Outcome State Fault Refusal := putF s sd (fmtF32.add (s.me.f32 sa) (s.me.f32 sb))
def execFsub (sd sa sb : BitVec 6) (s : State) : Outcome State Fault Refusal := putF s sd (fmtF32.sub (s.me.f32 sa) (s.me.f32 sb))
def execFmul (sd sa sb : BitVec 6) (s : State) : Outcome State Fault Refusal := putF s sd (fmtF32.mul (s.me.f32 sa) (s.me.f32 sb))
def execFma (sd sa sb : BitVec 6) (s : State) : Outcome State Fault Refusal :=
  putF s sd (fmtF32.fma (s.me.f32 sd) (s.me.f32 sa) (s.me.f32 sb))
def execFmin (sd sa sb : BitVec 6) (s : State) : Outcome State Fault Refusal := putF s sd (fmtF32.minmax false (s.me.f32 sa) (s.me.f32 sb))
def execFmax (sd sa sb : BitVec 6) (s : State) : Outcome State Fault Refusal := putF s sd (fmtF32.minmax true (s.me.f32 sa) (s.me.f32 sb))
def execFneg (sd sa : BitVec 6) (s : State) : Outcome State Fault Refusal := putF s sd (s.me.f32 sa ^^^ 2 ^ 31, 0)
def execFabs (sd sa : BitVec 6) (s : State) : Outcome State Fault Refusal := putF s sd (s.me.f32 sa % 2 ^ 31, 0)

/-- FCMP (R112): the condition and its events. -/
def fcmp (cond : FCond) (a b : Nat) : Bool × Kinds :=
  let x := fmtF32.decode a
  let y := fmtF32.decode b
  let nan := x.isNan || y.isNan
  let sig := x.isSig || y.isSig
  match cond with
  | .eq => (x.eq y, kIf sig kInvalid)
  | .lt => (x.lt y, kIf nan kInvalid)
  | .le => (x.lt y || x.eq y, kIf nan kInvalid)
  | .un => (nan, kIf sig kInvalid)

def execFcmp (sd sa sb : BitVec 6) (cond : FCond) (s : State) : Outcome State Fault Refusal :=
  let r := fcmp cond (s.me.f32 sa) (s.me.f32 sb)
  putF s sd (if r.1 then 1 else 0, r.2)

/-- FCVTIF (R113): the signed 64-bit integer, rounded RNE; inexact when the value changes. -/
def execFcvtif (sd sa : BitVec 6) (s : State) : Outcome State Fault Refusal :=
  putF s sd (fmtF32.roundTo .rne false 0 (.ofInt (s.me.rs sa).toInt))
/-- FCVTFI (R113). -/
def execFcvtfi (sd sa : BitVec 6) (rtz : Bool) (s : State) : Outcome State Fault Refusal :=
  let r := roundInt 64 (if rtz then .rtz else .rne) false 0 (fmtF32.decode (s.me.f32 sa))
  putS s sd (BitVec.ofInt 64 r.1) 4 r.2

/-- NOP, the pure join, and a suppressed word (R25, R26, R76). -/
def execNop (s : State) : Outcome State Fault Refusal := .next (s.issue fun c => c)

end Sys2Proof.Machine
end

