-- ==== Sys2Proof/Machine/Tasks.lean ====
section
/-!
DEFINITION. Shared operations on tasks and on what a core has in transit: the start-vector checks (R344, R345), the task queue (R347),
scopes around a core (R265) and the writes that a release publishes (R271).
-/
namespace Sys2Proof.Machine

-- scopes

/-- The die a memory belongs to; none for host memory and peers. -/
def Place.die : Place → Option Nat
  | .pool c _ => some (c / 24)
  | .rows c _ => some (c / 24)
  | .hbm s _ => some (s / 2)
  | .sye d _ _ => some d
  | .letable d _ => some d
  | .host _ => none
  | .peer _ _ _ => none

/-- The core whose pool or array field a memory is. -/
def Place.core : Place → Option Nat
  | .pool c _ => some c
  | .rows c _ => some c
  | _ => none

/-- The partition of a core spans a die: it has a core there. -/
def State.spans (s : State) (c : CoreId) (d : Nat) : Bool :=
  (List.range 24).any fun i => s.partOf (coreIx (24 * d + i)) == s.partOf c

/-- The package at the far end of a port is a live member of this package's group (R265, R307); a package in no group is alone in its own. -/
def State.memberOn (s : State) (port : Nat) : Bool :=
  let far := ((s.dies.toArray.getD (port / 6) Die.reset).ports.toArray.getD (port % 6) Port.reset).peermem
  decide (2 ≤ s.pmc.cfl.state.toNat) && s.pmc.cfl.members.any fun m => m.1 = far.toNat

/-- A memory lies inside a scope around a core (R265). A core reaches only pools, HBM and SYE pages of its own partition, and any LE-table
page. -/
def State.inScope (s : State) (c : CoreId) (sc : Scope) (p : Place) : Bool :=
  match sc with
  | .queue | .slot => false
  | .core => p.core = some c.val
  | .cluster => match p.core with | some x => x / 4 == c.val / 4 | none => false
  | .half => match p.core with | some x => x / 12 == c.val / 12 | none => false
  | .die => p.die = some (c.val / 24)
  | .package => p.die.isSome
  | .partition => match p with | .letable d _ => s.spans c d | _ => p.die.isSome
  | .host => match p with | .peer _ _ _ => false | _ => true
  | .peer => match p with | .host _ => false | _ => true
  | .group => match p with | .host _ => false | .peer port _ _ => s.memberOn port | _ => true
  | .system => match p with | .peer port _ _ => s.memberOn port | _ => true

/-- A request that writes. -/
def Req.writes (r : Req) : Bool := match r.kind with | .read _ => false | _ => true

/-- The entry that sent a request has completed: it has left its queue (R190). -/
def Core.entryGone (c : Core) (q order : Nat) : Bool :=
  !((c.ctx.queues.toArray.getD q Queue.empty).entries.any fun e => e.order = order)

/-- It needs no more data: it has left its queue, or made its last write. -/
def Core.entryFed (c : Core) (q order : Nat) : Bool :=
  !((c.ctx.queues.toArray.getD q Queue.empty).entries.any fun e => e.order = order && e.lastWrite.isNone)

/-- The writes in transit that a release at a scope, handed off now, publishes (R271): those of completed entries, PHASE and SPAWN credits
among them, whose memory lies inside it. -/
def State.pubsOf (s : State) (c : CoreId) (sc : Scope) : List Nat :=
  (s.reqs.filter fun r => r.core = c.val && r.writes && r.data.isNone && (s.cores[c]).entryGone r.queue r.order && s.inScope c sc r.at_).map (·.id)

/-- Of a list of requests, those that had not been performed when this cycle began: a request performed in it stands until its end. -/
def State.pending (s : State) (ids : List Nat) : List Nat :=
  ids.filter fun i => s.reqs.any fun r => r.id = i && r.writes

-- start vectors (R344, R345)

/-- Bits hi … lo of word i of a start-vector entry. -/
def lw (ws : List Word) (i hi lo : Nat) : Nat := fld (ws.getD i 0) hi lo

/-- A PW of R169: no reserved bit, fields in range, at least 64 KiB of scratchpad. -/
def pwOk (pw : Word) : Bool :=
  pw &&& 0xFFFFFF0000C0FFFE == 0 && fld pw 39 32 ≤ 16 && fld pw 31 24 ≤ 16 && fld pw 21 16 ≤ 32 && 65536 ≤ scratchSize pw

/-- A tag table's configuration of R196, if it exists. -/
def tagOk (S : Nat) (w : Word) : Bool :=
  !w.getLsbD 63 ||
    (w &&& 0x7FE0EFF0FF000000 == 0 && 6 ≤ fld w 52 48 && fld w 52 48 ≤ 12 && (if w.getLsbD 44 then 3 else 2) ≤ fld w 35 32 && fld w 35 32 ≤ 12 &&
      fld w 23 0 % 2 ^ fld w 52 48 == 0 && fld w 23 0 + 2 ^ (fld w 52 48 + fld w 35 32) ≤ S)

/-- Bytes of tags that a table needs. -/
def tagBytes (w : Word) : Nat := if w.getLsbD 63 then 8 * 2 ^ fld w 35 32 else 0

/-- The reason code of R345 for which an entry with V = 1 is refused, the lowest where several hold; the full queue is told apart. -/
def refusal (ws : List Word) (inPart priv full : Bool) : Option Nat :=
  let base := lw ws 0 13 0
  let len := lw ws 0 27 14
  let pw := ws.getD 2 0
  let S := scratchSize pw
  let tags := (ws.drop 16).take 4
  let dlen := lw ws 7 47 24
  let ddst := lw ws 7 23 0
  let lim := lw ws 3 47 24
  let cbase := lw ws 3 23 0
  let doms := (ws.drop 20).take 6
  if !inPart then some 1
  else if len = 0 ∨ 8192 < len ∨ base / 8192 ≠ (base + len - 1) / 8192 then some 2
  else if lw ws 0 61 48 < base ∨ base + len ≤ lw ws 0 61 48 then some 3
  else if lw ws 0 63 63 = 1 ∧ !priv then some 4
  else if !pwOk pw ∨ tags.any (fun w => !tagOk S w) ∨ 8192 * fld pw 31 24 < (tags.map tagBytes).foldl (· + ·) 0 then some 5
  else if S < ddst + dlen ∨ S < lim ∨ (0 < dlen ∧ (ddst < cbase ∨ lim < ddst + dlen)) then some 6
  else if lw ws 0 47 30 ≠ 0 ∨ lw ws 3 57 48 ≠ 0 ∨ doms.any (fun d => d &&& 0x7F80F00000FF0000 != 0) ∨ (ws.drop 26).any (fun w => w != 0)
    then some 7
  else if full then some 8
  else none

/-- Priority of a start vector (R344). -/
def launchPrio (ws : List Word) : Nat := lw ws 0 29 28

/-- The priority of a queued task. -/
def QTask.prio (t : QTask) : Nat := launchPrio t.launch

/-- The queue has no place (R347). -/
def Core.queueFull (c : Core) : Bool := 4 ≤ c.queue.length

/-- The next to run: highest priority, then earliest to enter (R347). -/
def Core.nextTask (c : Core) : Option Nat :=
  (c.queue.zipIdx.foldl (fun (a : Option (Nat × Nat)) t =>
    match a with
    | none => some (t.1.prio, t.2)
    | some b => if b.1 < t.1.prio then some (t.1.prio, t.2) else a) none).map (·.2)

/-- A pre-empted task (R347): one that has a saved context, or whose context still stands in the core. -/
def QTask.stopped (t : QTask) : Bool := t.state == .suspended || t.saved.isSome

/-- A task's preload is discarded (R348, R352). -/
def QTask.unload (t : QTask) : QTask := { t with state := if t.stopped then .suspended else .queued, image := none }

/-- A queued task as its being next or not leaves it: while a task runs the next begins to load, and no other stays loaded (R348, R351). -/
def QTask.label (t : QTask) (isNext runs : Bool) : QTask :=
  match t.state, isNext with
  | .queued, true | .suspended, true => if runs then { t with state := .loading } else t
  | .loading, false | .ready, false => t.unload
  | _, _ => t

def Core.relabel (c : Core) : Core :=
  { c with queue := c.queue.zipIdx.map fun (x : QTask × Nat) => x.1.label (some x.2 == c.nextTask) (c.run != .idle) }

/-- A task enters a core's queue (R347); the task that it overtakes loses its preload at once (R348). -/
def enqueue (s : State) (c : CoreId) (ws : List Word) (pubs : List Nat) : State :=
  s.updCore c fun x => ({ x with queue := x.queue ++ [QTask.enters .queued ws pubs] } : Core).relabel

/-- Priority of the running task (R94). -/
def Core.prio (c : Core) : Nat := fld c.ctx.spr.taskinfo 29 28

/-- 32 words of the pool, as a start-vector entry (R344). -/
def wordsAt (m : Mem) (a n : Nat) : List Word := (List.range n).map fun i => m.word (a + 8 * i)

-- the close of a beat (R238)

/-- An AR word that holds no close: a NOP, and ADSET (R246). -/
def holdsNoClose : Instr → Bool
  | .nop => true
  | .adset _ _ _ => true
  | _ => false

/-- The close conditions of the open beat, for an ABEAT of bundle seq: the AR slot has issued its word of that bundle, unless that word
holds no close, no AR word is in progress and no admitted block is unwritten. -/
def Core.closeCond (c : Core) (seq : Nat) : Bool :=
  (seq < c.nextSeq .ar || (match c.recOf seq with | some b => holdsNoClose (b.instr .ar) | none => false)) &&
    c.ctx.af.words.isEmpty && c.ctx.af.active.isEmpty

-- Confluence as a core reads it (R326, R336)

/-- Sensors of the package now suspect, held at 255. -/
def Pmc.susp (p : Pmc) : Nat := min 255 p.suspect.length

/-- GRPSTAT as a core reads it (R336). -/
def grpstat (s : State) (c : CoreId) : Word :=
  let g := s.pmc.cfl
  let codes := (g.notices.filter fun n => s.gcnt.toNat < n.2 + 2048).map (·.1)
  mkWord [(g.epoch.toNat, 48), (g.members.length + 1, 41), (g.self, 35), (g.state.toNat, 32), (if codes.isEmpty then 0 else 1, 31),
    (codes.foldl min (codes.headD 0), 24), (if g.emerg.isSome then 1 else 0, 23), (g.limit, 16), (s.pmc.susp, 8),
    (min 255 (g.lostCnt - (s.cores[c]).ctx.lostBase), 0)]

end Sys2Proof.Machine
end

