-- ==== Sys2Proof/Machine/Control.lean ====
section
/-!
DEFINITION. The meanings of the S0 CTL words (R77–R92, R304, R310, R311, R356, R358). What a loop, a transfer, HALT, TRAP, RETT or YIELD does at
a bundle boundary happens there (R75); the word puts it on its way.
-/
namespace Sys2Proof.Machine

open Host

/-- HALT (R77): the task ends once the bundle has retired and everything in flight has landed. -/
def execHalt (s : State) : Outcome State Fault Refusal := .next (s.issue fun c => { c with run := .halting })

/-- A task that YIELD gives way to: ready, or suspended, of equal or higher priority (R78). -/
def Core.yieldsTo (c : Core) : Bool :=
  c.queue.any fun t => c.prio ≤ t.prio && (t.state = .ready || t.state = .suspended)

/-- YIELD (R78): a pre-emption at the boundary after its bundle, or no effect; dispatch then goes on in the next cycle. -/
def execYield (s : State) : Outcome State Fault Refusal :=
  .next (s.issue fun c => if c.yieldsTo then { c with preempt := true } else { c with hold := .none })

/-- TRAP (R79): the software trap, raised once the bundle has retired. -/
def execTrap (code : BitVec 16) (s : State) : Outcome State Fault Refusal :=
  .next (s.issue fun c => c.reqImp ⟨0x10, code.zeroExtend 64, 0, none, some (c.nextSeq .ctl)⟩)

/-- The trap of a RETT that is refused, found when it would take effect (R81). -/
def Core.rettTrap (c : Core) (k : Nat) : Option TrapReq :=
  let b := ((c.gone.find? fun g => g.b.seq = k).map (·.b)).getD emptyRec
  let w := (b.word .ctl).zeroExtend 64
  if !c.ctx.spr.tvec.getLsbD 15 then some ⟨k, 0x01, 0, w⟩
  else if !tepcOk c.ctx.spr.taskinfo c.ctx.spr.tepc then some ⟨k, 0x01, mkWord [(b.pc.toNat, 32), (1, 5)], w⟩
  else none

/-- RETT (R81). It issues; once its bundle has retired and every result in flight has landed, it returns from the trap, or traps itself. -/
def execRett (s : State) : Outcome State Fault Refusal :=
  match s.me.ret with
  | none => .next (s.issue fun c => { c with ret := some (c.nextSeq .ctl) })
  | some k =>
    if s.me.alive k then .next s
    else match s.me.rettTrap k with
      | some t => .next (s.updCore s.cur.core fun c => c.reqTrap t)
      | none => .next (s.updCore s.cur.core fun c => ({ c with ret := none } : Core).forget.returnTrap.goOn)

/-- PBT (R82): this bundle + the signed offset. -/
def execPbt (bt : BitVec 3) (off : BitVec 20) (s : State) : Outcome State Fault Refusal :=
  .next (s.issue fun c => c.result .ctl (.bt bt) 64 (s.myRec.pc.zeroExtend 64 + off.signExtend 64 : Word).toNat 1)
/-- PBTR (R82). -/
def execPbtr (bt : BitVec 3) (sa : BitVec 6) (s : State) : Outcome State Fault Refusal :=
  .next (s.issue fun c => c.result .ctl (.bt bt) 64 (c.rs sa).toNat 1)

/-- A transfer of the issuing bundle (R67, R68): its registers are read in the next cycle. -/
def Core.transfer (c : Core) (bt : Option (BitVec 3)) (cond : Option (BitVec 3 × Bool)) : Core :=
  let b := c.wordRec .ctl
  let put := fun (x : Xfer) => { x with readAt := some (c.cyc + 1), bt := bt, cond := cond }
  if c.ctx.xfers.any fun x => x.seq = b.seq then
    c.onCtx fun y => { y with xfers := y.xfers.map fun x => if x.seq = b.seq then put x else x }
  else c.onCtx fun y => { y with xfers := y.xfers ++ [put ⟨b.seq, b.pc, 3, none, none, none, none, none, false⟩] }

/-- BR on a condition (R83). -/
def execBr (bt cf : BitVec 3) (sense : Bool) (s : State) : Outcome State Fault Refusal :=
  .next (s.issue fun c => c.transfer (some bt) (some (cf, sense)))
/-- BR always (R83). -/
def execBrAlways (bt : BitVec 3) (s : State) : Outcome State Fault Refusal := .next (s.issue fun c => c.transfer (some bt) none)
/-- CALL (R83): also s63 := the bundle after its three delay bundles. -/
def execCall (bt : BitVec 3) (s : State) : Outcome State Fault Refusal :=
  .next (s.issue fun c => (c.transfer (some bt) none).result .ctl (.s 63) 64 (s.myRec.pc.toNat + 4) 1)
/-- RET (R83): the target is s63. -/
def execRet (s : State) : Outcome State Fault Refusal := .next (s.issue fun c => c.transfer none none)

/-- The conditions of R28 on 64-bit operands (R84). -/
def condHolds (cond : Cond) (a b : Word) : Bool :=
  match cond with
  | .eq => a == b
  | .ne => a != b
  | .lt => a.slt b
  | .ge => !a.slt b
  | .ltu => a.ult b
  | .geu => !a.ult b
  | .le => !b.slt a
  | .gt => b.slt a
  | .leu => !b.ult a
  | .gtu => b.ult a
  | .bits => a &&& b != 0
  | .nobits => a &&& b == 0

/-- A flag result. -/
def putCf (s : State) (cf : BitVec 3) (v : Bool) (lat : Nat) : Outcome State Fault Refusal :=
  .next (s.issue fun c => c.result .ctl (.cf cf) 1 (if v then 1 else 0) lat)

/-- CMP (R84). -/
def execCmp (cf : BitVec 3) (cond : Cond) (sa sb : BitVec 6) (s : State) : Outcome State Fault Refusal :=
  putCf s cf (condHolds cond (s.me.rs sa) (s.me.rs sb)) 1
/-- CMPI (R84). -/
def execCmpi (cf : BitVec 3) (cond : Cond) (sa : BitVec 6) (imm : BitVec 10) (s : State) : Outcome State Fault Refusal :=
  putCf s cf (condHolds cond (s.me.rs sa) (imm.signExtend 64)) 1
/-- CFOP (R85). -/
def execCfop (cfd cfa cfb : BitVec 3) (op : CfOp) (s : State) : Outcome State Fault Refusal :=
  let a := s.me.rcf cfa
  let b := s.me.rcf cfb
  putCf s cfd (match op with | .and => a && b | .or => a || b | .xor => a ^^ b | .andn => a && !b) 1

/-- Bits W/8 − 1 : 0 of a predicate (R86). -/
def voteBits (w : VWidth) (p : Pred) : Nat := p.toNat % 2 ^ (w.bits / 8)

/-- VANY (R86). -/
def execVany (cf p : BitVec 3) (w : VWidth) (s : State) : Outcome State Fault Refusal :=
  putCf s cf (voteBits w (s.me.rp p) != 0) 2
/-- VALL (R86). -/
def execVall (cf p : BitVec 3) (w : VWidth) (s : State) : Outcome State Fault Refusal :=
  putCf s cf (voteBits w (s.me.rp p) == 2 ^ (w.bits / 8) - 1) 2

/-- The traps of a LOOP (R73), at its issue: with its count, against the loop stack before its bundle. -/
def loopTrap (s : State) (count : Word) (off : BitVec 12) : Option TrapReq :=
  let b := s.myRec
  let depth := b.loopsBefore.length
  let stop := b.pc.toNat + off.toNat
  let beyond := match b.loopsBefore with | [] => false | l :: _ => decide (l.stop.toNat < stop)
  let w := s.myWord.zeroExtend 64
  if beyond = true ∨ fld count 63 32 ≠ 0 then some ⟨b.seq, 0x01, 0, w⟩
  else if depth = 6 ∧ count ≠ 0 then some ⟨b.seq, 0x07, mkWord [(count.toNat, 32), (off.toNat, 16)], w⟩
  else none

/-- A LOOP issues (R72, R73): its push or skip is made at the boundary after its bundle. -/
def loopIssue (s : State) (count : Word) (off : BitVec 12) (f : Core → Core) : Outcome State Fault Refusal :=
  match loopTrap s count off with
  | some r => .next (s.issue fun c => c.reqTrap r)
  | none => .next (s.issue f)

/-- LOOP (R87). -/
def execLoop (count : BitVec 10) (off : BitVec 12) (s : State) : Outcome State Fault Refusal :=
  loopIssue s (count.zeroExtend 64) off fun c => c
/-- LOOP with a register count (R87): dispatch held until it has read its count (R65). -/
def execLoopReg (sa : BitVec 6) (off : BitVec 12) (s : State) : Outcome State Fault Refusal :=
  let n := s.me.rs sa
  loopIssue s n off fun c =>
    { c with hold := .none,
             bound := c.bound.map fun b => if b.seq = c.nextSeq .ctl then { b with count := some (n.truncate 32) } else b }
/-- LOOPX (R88): n more than the depth is the illegal trap; the pops are made at the boundary. -/
def execLoopx (n : BitVec 3) (s : State) : Outcome State Fault Refusal :=
  if s.myRec.loopsBefore.length < n.toNat then .next s.illegal else .next (s.issue fun c => c)

/-- A special register as MOVSR samples it (R93): the tag's, the live ones, the stored ones. -/
def sprRead (s : State) (c : CoreId) (t : Tag) (n : Nat) : Word :=
  let x := s.cores[c]
  match n with
  | 0x000 => BitVec.ofNat 64 c.val
  | 0x001 => match s.partOf c with | some p => BitVec.ofNat 64 p.val | none => 0
  | 0x002 => x.ccnt
  | 0x003 => s.coreGcnt c
  | 0x004 => t.beat.zeroExtend 64
  | 0x013 => grpstat s c
  | 0x014 => BitVec.ofNat 64 s.ceiling
  | 0x018 => (t.lidx.getD 0 0).zeroExtend 64
  | 0x019 => (t.lidx.getD 1 0).zeroExtend 64
  | 0x01A => (t.lidx.getD 2 0).zeroExtend 64
  | 0x01B => (t.lidx.getD 3 0).zeroExtend 64
  | 0x01C => (t.lidx.getD 4 0).zeroExtend 64
  | 0x01D => (t.lidx.getD 5 0).zeroExtend 64
  | 0x01E => BitVec.ofNat 64 t.lidx.length
  | 0x01F => t.lcnt.zeroExtend 64
  | 0x020 => (x.rbt 0).zeroExtend 64 &&& 0x3FFF
  | 0x021 => (x.rbt 1).zeroExtend 64 &&& 0x3FFF
  | 0x022 => (x.rbt 2).zeroExtend 64 &&& 0x3FFF
  | 0x023 => (x.rbt 3).zeroExtend 64 &&& 0x3FFF
  | 0x024 => (x.rbt 4).zeroExtend 64 &&& 0x3FFF
  | 0x025 => (x.rbt 5).zeroExtend 64 &&& 0x3FFF
  | 0x026 => (x.rbt 6).zeroExtend 64 &&& 0x3FFF
  | 0x027 => (x.rbt 7).zeroExtend 64 &&& 0x3FFF
  | 0x028 => BitVec.ofNat 64 x.ctx.rq.length
  | k => sprGet x.ctx.spr k

/-- MOVSR (R89): sampled in the issue cycle; reading FELA clears the log (R90). -/
def execMovsr (sd : BitVec 6) (spr : BitVec 10) (s : State) : Outcome State Fault Refusal :=
  let v := sprRead s s.cur.core s.myRec.tag spr.toNat
  .next (s.issue fun c =>
    let c := c.result .ctl (.s sd) 64 v.toNat 2
    if spr.toNat = 0x006 then c.clearLog (c.nextSeq .ctl) else c)

/-- The privileged special registers (R93). -/
def sprPriv (n : Nat) : Bool := decide (n = 0x015 ∨ n = 0x016 ∨ (0x040 ≤ n ∧ n ≤ 0x046))

/-- MOVRS (R89): the write lands at the end of issue + 2; without privilege, the privileged-write trap. -/
def execMovrs (sa : BitVec 6) (spr : BitVec 10) (s : State) : Outcome State Fault Refusal :=
  if sprPriv spr.toNat && !s.me.ctx.spr.taskinfo.getLsbD 63 then
    .next (s.trapNow 0x14 (BitVec.ofNat 64 (spr.toNat * 2 ^ 16)) (s.myWord.zeroExtend 64))
  else .next (s.issue fun c => c.result .ctl (.spr spr) 64 (c.rs sa).toNat 2)

/-- WAITC (R91): the next CTL word issues no earlier than max(n, 1) counted cycles later. -/
def execWaitc (n : BitVec 16) (s : State) : Outcome State Fault Refusal :=
  .next (s.issue fun c => { c with ctlHold := c.cyc + max n.toNat 1 })

/-- WAITG (R311): issues once this core's GCNT has reached sa. -/
def execWaitg (sa : BitVec 6) (s : State) : Outcome State Fault Refusal :=
  if (s.me.rs sa).toNat ≤ (s.coreGcnt s.cur.core).toNat then .next (s.issue fun c => c) else .next (s.updCore s.cur.core fun c => c.waitSince .ctl)

/-- The core and its LE count within ±2 ticks of the package's count with a difference. -/
def near (s : State) (c : CoreId) (off : Int) : Bool :=
  let x := (s.cores[c]).gskew - off
  let d := (s.dies[dieOf c]).lskew - off
  decide (-2 ≤ x) && decide (x ≤ 2) && decide (-2 ≤ d) && decide (d ≤ 2)

/-- The package is a member of a group with others. -/
def State.grouped (s : State) : Bool := (s.pmc.cfl.state == 2 || s.pmc.cfl.state == 3) && !s.pmc.cfl.members.isEmpty

/-- The core and its LE count within ±2 ticks: of the package's count in mode 1 and in a package in no group, else of the group's, which the LE
knows from the first stamp of the epoch on (R304, R309, R310). -/
def alignOk (s : State) (c : CoreId) (mode : Nat) : Bool :=
  if mode = 0 && s.grouped then (s.dies[dieOf c]).aligned && near s c s.groupSkew else near s c 0

/-- ALIGN (R310, R304). The hand-off of ALIGN 0 has its LE align the core. -/
def execAlign (mode : BitVec 16) (s : State) : Outcome State Fault Refusal :=
  if alignOk s s.cur.core mode.toNat then .next (s.issue fun c => { c with alignAsk := false })
  else if mode = 0 then .next (s.updCore s.cur.core fun c => { c with alignAsk := true }) else .next s

/-- The scope of PHASE's credit by level (R358). -/
def phaseScope (level : Nat) : Scope :=
  match level with
  | 0 => .core
  | 1 => .cluster
  | 2 => .half
  | 3 => .die
  | _ => .partition

/-- A request goes on its way (R268): numbered, sent now. -/
def State.send (s : State) (r : Req) : State :=
  { s with reqs := s.reqs ++ [{ r with id := s.reqNo, sent := s.now }], reqNo := s.reqNo + 1 }

/-- Cycles by which a credit or block for another core's pool is performed there at the latest (R399); 1 within the core. -/
def poolBound (from_ tgt : Nat) : Nat := if from_ = tgt then 1 else if from_ / 24 = tgt / 24 then 48 else 96

/-- A cycle between 1 and n later, open within R399. -/
def State.within (s : State) (n : Nat) : Nat × State :=
  let d := s.draw
  (s.now + 1 + Config.freeDelay d.1 % n, d.2)

/-- PHASE (R358): one credit of one byte to the phase word of the level's membership in force, a release at the level's scope; DOMn comes into force
when it is performed (R357). -/
def execPhase (level : BitVec 3) (s : State) : Outcome State Fault Refusal :=
  let d := getAt s.me.ctx.domIn level.toNat
  if !d.getLsbD 63 then .next s.illegal
  else
    let home := fld d 54 48 % 96
    let pubs := s.pubsOf s.cur.core (phaseScope level.toNat)
    let t := s.within (poolBound s.cur.core.val home)
    let b := s.myRec
    let s' := t.2.send
      { id := 0, core := s.cur.core.val, queue := 8, order := s.me.orders, bundle := b.pc, at_ := .pool home (fldUp d 43 24 4),
        kind := .credit level.toNat, seq := b.seq, admitted := true, after := pubs, sent := 0, due := t.1, back := 0, data := none, held := false }
    .next (s'.issue fun c => { c with orders := c.orders + 1 })

/-- SPAWN (R356): the entry of 256 bytes at sa, checked as a launch entry; the task is posted to the target's queue, or the slot waits for a
place there. -/
def execSpawn (sa : BitVec 6) (core : BitVec 7) (s : State) : Outcome State Fault Refusal :=
  let a := s.me.rs sa
  let t := coreIx core.toNat
  let ws := wordsAt s.me.pool a.toNat 32
  let p := s.partOf s.cur.core
  let inPart := p.isSome && core.toNat < 96 && s.partOf t = p
  let priv := match p with | some i => (s.parts[i]).pctl.getLsbD 62 | none => false
  if !s.me.inPool a 256 256 then .next (s.illegal)
  else if !inPart || !(ws.getD 0 0).getLsbD 62 || ((ws.getD 0 0).getLsbD 63 && !s.me.ctx.spr.taskinfo.getLsbD 63) ||
      (refusal ws inPart priv false).isSome then .next s.illegal
  else if (s.cores[t]).queueFull then .next s
  else .next ((enqueue s t ws (s.pubsOf s.cur.core .partition)).issue fun c => c)

/-- ABEAT (R92): it waits from the cycle in which it met its hand-off condition, and issues once the close conditions hold; the close completes. -/
def execAbeat (_n : BitVec 16) (s : State) : Outcome State Fault Refusal :=
  let c := s.me
  if c.closeCond (c.nextSeq .ctl) then .next (s.issue fun c => c.onAf fun a => { a with closing := some c.cyc })
  else .next (s.updCore s.cur.core fun c => c.waitSince .ctl)

end Sys2Proof.Machine
end

