-- ==== Sys2Proof/Machine/Vector.lean ====
section
/-!
DEFINITION. The meanings of the S2 VA and S3 VB words (R114–R136). A word of width w writes bits below w; a merging word writes the bits
of its selected elements only.
-/
namespace Sys2Proof.Machine

open Host

/-- The register check of R115, then the word. Of an access that fails this check and that of its address (R99) the register's failure alone is
recorded: the spec does not order the two (DESIGN CHOICE, log 105). -/
def withV (s : State) (rs : List (BitVec 6)) (k : Outcome State Fault Refusal) : Outcome State Fault Refusal :=
  if !s.me.ctx.spr.pw.getLsbD 0 || rs.all (fun r => r.toNat < 32) then k else .next s.illegal

/-- A vector result in the bits of a mask. -/
def putVM (s : State) (vd : BitVec 6) (mask : Payload) (v : Nat) (lat : Nat) (k : Kinds := 0) : Outcome State Fault Refusal :=
  .next (s.issue fun c =>
    let b := s.myRec
    c.fly { seq := b.seq, slot := s.cur.slot, bundle := b.pc, reg := .v vd, val := BitVec.ofNat 2048 v, mask := mask,
            due := c.cyc + lat, kinds := k, pend := false })

/-- A vector result of n elements of e bytes from bit 0. -/
def putElems (s : State) (vd : BitVec 6) (e : Nat) (xs : List (Nat × Kinds)) (lat : Nat) : Outcome State Fault Refusal :=
  putVM s vd (lowMask (8 * e * xs.length)) (packNat (8 * e) (xs.map (·.1))) lat (unionKinds xs)

/-- Elements of a register at a width and type (R114). -/
def velems (s : State) (w : VWidth) (t : VType) (r : BitVec 6) : List Nat := elems (s.me.rv r) (8 * t.bytes) (w.elems t)

/-- An integer operation without events, wrapped to the element (R118). -/
def wrap (t : VType) (f : Nat → Nat → Nat) (a b : Nat) : Nat × Kinds := (f a b % 2 ^ (8 * t.bytes), 0)

/-- A signed integer operation, wrapped. -/
def wrapI (t : VType) (f : Int → Int → Int) (a b : Nat) : Nat × Kinds :=
  (intBits (8 * t.bytes) (f (signed (8 * t.bytes) a) (signed (8 * t.bytes) b)), 0)

/-- A saturating signed operation (R119). -/
def satI (t : VType) (f : Int → Int → Int) (a b : Nat) : Nat × Kinds :=
  let w := 8 * t.bytes
  let v := f (signed w a) (signed w b)
  let lo : Int := -(2 ^ (w - 1))
  let hi : Int := 2 ^ (w - 1) - 1
  if v < lo then (intBits w lo, kSaturation) else if hi < v then (intBits w hi, kSaturation) else (intBits w v, 0)

/-- The two-operand arithmetic of a type: Int wraps, the floating types follow R118. -/
def addE (t : VType) (a b : Nat) : Nat × Kinds := if t.isInt then wrap t (· + ·) a b else (vfmt t).add a b
def subE (t : VType) (a b : Nat) : Nat × Kinds := if t.isInt then wrapI t (· - ·) a b else (vfmt t).sub a b
def mulE (t : VType) (a b : Nat) : Nat × Kinds := if t.isInt then wrap t (· * ·) a b else (vfmt t).mul a b
def fmaE (t : VType) (d a b : Nat) : Nat × Kinds :=
  if t.isInt then ((d + a * b) % 2 ^ (8 * t.bytes), 0) else (vfmt t).fma d a b
def minE (t : VType) (a b : Nat) : Nat × Kinds := if t.isInt then wrapI t min a b else (vfmt t).minmax false a b
def maxE (t : VType) (a b : Nat) : Nat × Kinds := if t.isInt then wrapI t max a b else (vfmt t).minmax true a b

/-- Latency of VADD, VSUB, VMIN, VMAX, VADDSC; and of VMUL, VFMA, VMULSC (R56). -/
def latAdd (t : VType) : Nat := if t.isInt then 2 else 4
def latMul (t : VType) : Nat := if t.isInt then 3 else 4

/-- A two-operand elementwise word (R119). -/
def elementwise (s : State) (w : VWidth) (t : VType) (vd va vb : BitVec 6) (lat : Nat) (f : Nat → Nat → Nat × Kinds) :
    Outcome State Fault Refusal :=
  withV s [vd, va, vb] (putElems s vd t.bytes (List.zipWith f (velems s w t va) (velems s w t vb)) lat)

def execVadd (w : VWidth) (t : VType) (vd va vb : BitVec 6) (s : State) : Outcome State Fault Refusal :=
  elementwise s w t vd va vb (latAdd t) (addE t)
def execVsub (w : VWidth) (t : VType) (vd va vb : BitVec 6) (s : State) : Outcome State Fault Refusal :=
  elementwise s w t vd va vb (latAdd t) (subE t)
def execVmul (w : VWidth) (t : VType) (vd va vb : BitVec 6) (s : State) : Outcome State Fault Refusal :=
  elementwise s w t vd va vb (latMul t) (mulE t)
def execVmin (w : VWidth) (t : VType) (vd va vb : BitVec 6) (s : State) : Outcome State Fault Refusal :=
  elementwise s w t vd va vb (latAdd t) (minE t)
def execVmax (w : VWidth) (t : VType) (vd va vb : BitVec 6) (s : State) : Outcome State Fault Refusal :=
  elementwise s w t vd va vb (latAdd t) (maxE t)
def execVminu (w : VWidth) (t : VType) (vd va vb : BitVec 6) (s : State) : Outcome State Fault Refusal :=
  elementwise s w t vd va vb 2 (wrap t min)
def execVmaxu (w : VWidth) (t : VType) (vd va vb : BitVec 6) (s : State) : Outcome State Fault Refusal :=
  elementwise s w t vd va vb 2 (wrap t max)
def execVand (w : VWidth) (t : VType) (vd va vb : BitVec 6) (s : State) : Outcome State Fault Refusal :=
  elementwise s w t vd va vb 2 (wrap t (· &&& ·))
def execVor (w : VWidth) (t : VType) (vd va vb : BitVec 6) (s : State) : Outcome State Fault Refusal :=
  elementwise s w t vd va vb 2 (wrap t (· ||| ·))
def execVxor (w : VWidth) (t : VType) (vd va vb : BitVec 6) (s : State) : Outcome State Fault Refusal :=
  elementwise s w t vd va vb 2 (wrap t (· ^^^ ·))
def execVandn (w : VWidth) (t : VType) (vd va vb : BitVec 6) (s : State) : Outcome State Fault Refusal :=
  elementwise s w t vd va vb 2 (fun a b => (a - (a &&& b), 0))
def execVshl (w : VWidth) (t : VType) (vd va vb : BitVec 6) (s : State) : Outcome State Fault Refusal :=
  elementwise s w t vd va vb 2 (wrap t fun a b => a <<< (b % (8 * t.bytes)))
def execVshr (w : VWidth) (t : VType) (vd va vb : BitVec 6) (s : State) : Outcome State Fault Refusal :=
  elementwise s w t vd va vb 2 (wrap t fun a b => a >>> (b % (8 * t.bytes)))
def execVsar (w : VWidth) (t : VType) (vd va vb : BitVec 6) (s : State) : Outcome State Fault Refusal :=
  elementwise s w t vd va vb 2 (fun a b => (intBits (8 * t.bytes) (signed (8 * t.bytes) a / 2 ^ (b % (8 * t.bytes))), 0))
def execVadds (w : VWidth) (t : VType) (vd va vb : BitVec 6) (s : State) : Outcome State Fault Refusal :=
  elementwise s w t vd va vb 2 (satI t (· + ·))
def execVsubs (w : VWidth) (t : VType) (vd va vb : BitVec 6) (s : State) : Outcome State Fault Refusal :=
  elementwise s w t vd va vb 2 (satI t (· - ·))

/-- An accumulating word that reads vd in its issue cycle (R119, R132). -/
def zip3 (f : Nat → Nat → Nat → Nat × Kinds) (ds as bs : List Nat) : List (Nat × Kinds) :=
  List.zipWith (fun d ab => f d ab.1 ab.2) ds (as.zip bs)

def execVfma (w : VWidth) (t : VType) (vd va vb : BitVec 6) (s : State) : Outcome State Fault Refusal :=
  withV s [vd, va, vb] (putElems s vd t.bytes (zip3 (fmaE t) (velems s w t vd) (velems s w t va) (velems s w t vb)) (latMul t))

/-- The scalar operand as an element (R120). -/
def scalarElem (s : State) (t : VType) (sb : BitVec 6) : Nat := (s.me.rs sb).toNat % 2 ^ (8 * t.bytes)

def execVaddsc (w : VWidth) (t : VType) (vd va sb : BitVec 6) (s : State) : Outcome State Fault Refusal :=
  withV s [vd, va] (putElems s vd t.bytes ((velems s w t va).map fun a => addE t a (scalarElem s t sb)) (latAdd t))
def execVmulsc (w : VWidth) (t : VType) (vd va sb : BitVec 6) (s : State) : Outcome State Fault Refusal :=
  withV s [vd, va] (putElems s vd t.bytes ((velems s w t va).map fun a => mulE t a (scalarElem s t sb)) (latMul t))
def execVbcast (w : VWidth) (t : VType) (vd sb : BitVec 6) (s : State) : Outcome State Fault Refusal :=
  withV s [vd] (putElems s vd t.bytes (List.replicate (w.elems t) (scalarElem s t sb, 0)) 2)
def execVmov (w : VWidth) (_t : VType) (vd va : BitVec 6) (s : State) : Outcome State Fault Refusal :=
  withV s [vd, va] (putVM s vd (lowMask w.bits) (s.me.rv va).toNat 2)

/-- A compare of floating elements (R122): the condition and its events. -/
def vcmpF (f : Fmt) (cond : VCond) (a b : Nat) : Bool × Kinds :=
  let x := f.decode a
  let y := f.decode b
  let nan := x.isNan || y.isNan
  let sig := kIf (x.isSig || y.isSig) kInvalid
  let any := kIf nan kInvalid
  match cond with
  | .eq => (x.eq y, sig)
  | .ne => (!x.eq y, sig)
  | .lt => (x.lt y, any)
  | .le => (x.lt y || x.eq y, any)
  | .ltuUn => (nan, sig)
  | .leuOrd => (!nan, sig)
  | .gt => (y.lt x, any)
  | .gtuGe => (y.lt x || x.eq y, any)

/-- A compare of integer elements (R28, R122). -/
def vcmpI (w : Nat) (cond : VCond) (a b : Nat) : Bool :=
  match cond with
  | .eq => a == b
  | .ne => a != b
  | .lt => signed w a < signed w b
  | .le => signed w a ≤ signed w b
  | .ltuUn => a < b
  | .leuOrd => a ≤ b
  | .gt => signed w b < signed w a
  | .gtuGe => b < a

def vcmpE (t : VType) (cond : VCond) (a b : Nat) : Bool × Kinds :=
  if t.isInt then (vcmpI (8 * t.bytes) cond a b, 0) else vcmpF (vfmt t) cond a b

/-- VCMP (R122): bits e·i … e·i + e − 1 of pd for element i; bits of pd at w/8 and above keep. -/
def execVcmp (w : VWidth) (t : VType) (cond : VCond) (pd : BitVec 3) (va vb : BitVec 6) (s : State) : Outcome State Fault Refusal :=
  withV s [va, vb] (
    let rs := List.zipWith (vcmpE t cond) (velems s w t va) (velems s w t vb)
    let bits := packNat t.bytes (rs.map fun r => if r.1 then 2 ^ t.bytes - 1 else 0)
    .next (s.issue fun c => c.result s.cur.slot (.p pd) (w.bits / 8) bits 2 (rs.foldl (fun k r => k ||| r.2) 0)))

/-- A word that writes only the selected elements (R117). -/
def merging (s : State) (w : VWidth) (t : VType) (vd va : BitVec 6) (p : BitVec 3) (lat : Nat) (f : Nat → Nat × Kinds) :
    Outcome State Fault Refusal :=
  withV s [vd, va] (
    let pr := s.me.rp p
    let xs := (velems s w t va).zipIdx.map fun x => if selected pr t.bytes x.2 then f x.1 else (0, 0)
    putVM s vd (elemMask pr t.bytes (w.elems t)) (packNat (8 * t.bytes) (xs.map (·.1))) lat (unionKinds xs))

def execVsel (w : VWidth) (t : VType) (vd va : BitVec 6) (p : BitVec 3) (s : State) : Outcome State Fault Refusal :=
  merging s w t vd va p 2 fun a => (a, 0)

/-- VUNARY (R124); the float forms change only the sign bit. -/
def unaryE (t : VType) (op : UnOp) (a : Nat) : Nat × Kinds :=
  let w := 8 * t.bytes
  match op with
  | .abs => if t.isInt then (intBits w (signed w a).natAbs, 0) else (a % 2 ^ (w - 1), 0)
  | .neg => if t.isInt then (intBits w (-(signed w a)), 0) else (a ^^^ 2 ^ (w - 1), 0)
  | .not => (2 ^ w - 1 - a % 2 ^ w, 0)
  | .clz => (clzNat w a, 0)
  | .popc => (popNat w a, 0)

def execVunary (w : VWidth) (t : VType) (op : UnOp) (vd va : BitVec 6) (p : BitVec 3) (s : State) : Outcome State Fault Refusal :=
  merging s w t vd va p 2 (unaryE t op)
def execVsfu (w : VWidth) (t : VType) (fn : SfuFn) (vd va : BitVec 6) (p : BitVec 3) (s : State) : Outcome State Fault Refusal :=
  merging s w t vd va p 12 fn.apply

/-- One step of a reduction and its identity (R130). -/
def redOp (t : VType) : RedFn → Nat → Nat → Nat × Kinds
  | .sum => addE t
  | .max => maxE t
  | .min => minE t
def redIdent (t : VType) : RedFn → Nat
  | .sum => if t.isInt then 0 else 0x80000000
  | .max => if t.isInt then 0x80000000 else 0xFF800000
  | .min => if t.isInt then 0x7FFFFFFF else 0x7F800000

/-- One level of the pairwise tree: an odd last element passes up (R130, R229). -/
def treeLevel {α : Type} (op : α → α → α) : List α → List α
  | a :: b :: r => op a b :: treeLevel op r
  | l => l

/-- The pairwise tree of a list, on as much fuel as the list is long. -/
def treeFold {α : Type} (op : α → α → α) : Nat → List α → Option α
  | _, [] => none
  | _, [a] => some a
  | 0, a :: _ => some a
  | k + 1, l => treeFold op k (treeLevel op l)

def tree {α : Type} (op : α → α → α) (l : List α) : Option α := treeFold op l.length l

/-- Values with the events met on the way. -/
def opK (f : Nat → Nat → Nat × Kinds) (a b : Nat × Kinds) : Nat × Kinds :=
  let r := f a.1 b.1
  (r.1, a.2 ||| b.2 ||| r.2)

/-- The aligned blocks of 0 … n − 1, largest first (R131). -/
def blocksOf {α : Type} : Nat → List α → List (List α)
  | 0, _ => []
  | _, [] => []
  | k + 1, l => let n := 2 ^ l.length.log2
    l.take n :: blocksOf k (l.drop n)

/-- The running value of R131: blocks by their trees, combined from left to right. -/
def prefixOf {α : Type} (op : α → α → α) (l : List α) : Option α :=
  (blocksOf l.length l).foldl (fun acc b =>
    match acc, tree op b with
    | none, x => x
    | some a, some x => some (op a x)
    | some a, none => some a) none

/-- Elements with the identity where unselected (R130). -/
def redElems (s : State) (w : VWidth) (t : VType) (op : RedFn) (va : BitVec 6) (p : BitVec 3) : List (Nat × Kinds) :=
  (velems s w t va).zipIdx.map fun x => (if selected (s.me.rp p) t.bytes x.2 then x.1 else redIdent t op, 0)

/-- VRED (R130), into a pending-return register. -/
def execVred (w : VWidth) (t : VType) (op : RedFn) (sd va : BitVec 6) (p : BitVec 3) (s : State) : Outcome State Fault Refusal :=
  withV s [va] (
    let r := (tree (opK (redOp t op)) (redElems s w t op va p)).getD (0, 0)
    let v := if t.isInt then intBits 64 (signed 32 r.1) else r.1
    .next (s.issue fun c => c.result s.cur.slot (.s sd) 64 v 8 r.2 true))

/-- VSCAN (R131). -/
def execVscan (w : VWidth) (t : VType) (op : RedFn) (vd va : BitVec 6) (p : BitVec 3) (s : State) : Outcome State Fault Refusal :=
  withV s [vd, va] (
    let xs := redElems s w t op va p
    putElems s vd t.bytes ((List.range xs.length).map fun k => (prefixOf (opK (redOp t op)) (xs.take (k + 1))).getD (0, 0)) 8)

/-- VDOT4 (R132). -/
def dot4 (acc : Nat) (as bs : List Nat) : Nat × Kinds :=
  (intBits 32 (signed 32 acc + (List.zipWith (fun a b => signed 8 a * signed 8 b) as bs).foldl (· + ·) 0), 0)

/-- Groups of k elements. -/
def chunk {α : Type} (k : Nat) : Nat → List α → List (List α)
  | 0, _ => []
  | n + 1, l => l.take k :: chunk k n (l.drop k)

/-- A dot product: k products to each 32-bit element of vd (R132). -/
def dots (s : State) (w : VWidth) (t : VType) (vd va vb : BitVec 6) (k lat : Nat) (f : Nat → List Nat → List Nat → Nat × Kinds) :
    Outcome State Fault Refusal :=
  withV s [vd, va, vb] (
    let n := w.elems t / k
    let as := chunk k n (velems s w t va)
    let bs := chunk k n (velems s w t vb)
    putElems s vd 4 (List.zipWith (fun d ab => f d ab.1 ab.2) (elems (s.me.rv vd) 32 n) (as.zip bs)) lat)

def execVdot4 (w : VWidth) (t : VType) (vd va vb : BitVec 6) (s : State) : Outcome State Fault Refusal := dots s w t vd va vb 4 4 dot4
def execVdot2 (w : VWidth) (t : VType) (vd va vb : BitVec 6) (s : State) : Outcome State Fault Refusal :=
  dots s w t vd va vb 2 5 (dot2 (vfmt t))
def execVdot16 (w : VWidth) (t : VType) (vd va vb : BitVec 6) (s : State) : Outcome State Fault Refusal :=
  dots s w t vd va vb 16 6 (dot16 (vfmt t))

/-- The count register of the issuing slot (R133). -/
def cntReg (sl : Slot) : Reg := .spr (if sl = .va then 0x010 else 0x011)

/-- A vector result and its count, landing together (R133). -/
def putCount (s : State) (vd : BitVec 6) (w : VWidth) (e : Nat) (xs : List Nat) (n : Nat) : Outcome State Fault Refusal :=
  .next (s.issue fun c =>
    (c.result s.cur.slot (.v vd) w.bits (packNat (8 * e) xs) 4).result s.cur.slot (cntReg s.cur.slot) 64 n 4)

def execVcompress (w : VWidth) (t : VType) (vd va : BitVec 6) (p : BitVec 3) (s : State) : Outcome State Fault Refusal :=
  withV s [vd, va] (
    let xs := ((velems s w t va).zipIdx.filter fun x => selected (s.me.rp p) t.bytes x.2).map (·.1)
    putCount s vd w t.bytes xs xs.length)

/-- VEXPAND: the next source element for each selected position (R133). -/
def expand (sel : List Bool) (xs : List Nat) : List Nat :=
  match sel with
  | [] => []
  | true :: r => xs.headD 0 :: expand r xs.tail
  | false :: r => 0 :: expand r xs

def execVexpand (w : VWidth) (t : VType) (vd va : BitVec 6) (p : BitVec 3) (s : State) : Outcome State Fault Refusal :=
  withV s [vd, va] (
    let sel := (List.range (w.elems t)).map fun i => selected (s.me.rp p) t.bytes i
    putCount s vd w t.bytes (expand sel (velems s w t va)) (sel.filter id).length)

def execViota (w : VWidth) (t : VType) (vd : BitVec 6) (p : BitVec 3) (s : State) : Outcome State Fault Refusal :=
  withV s [vd] (
    putElems s vd t.bytes ((List.range (w.elems t)).map fun i =>
      (((List.range i).filter fun j => selected (s.me.rp p) t.bytes j).length % 2 ^ (8 * t.bytes), 0)) 2)

/-- VEXT (R134): sign-extended for the integer types, zero-extended for every other. -/
def execVext (_w : VWidth) (t : VType) (sd va : BitVec 6) (idx : BitVec 6) (s : State) : Outcome State Fault Refusal :=
  withV s [va] (
    let x := elem (s.me.rv va) (8 * t.bytes) idx.toNat
    let v := if t.isInt then intBits 64 (signed (8 * t.bytes) x) else x
    .next (s.issue fun c => c.result s.cur.slot (.s sd) 64 v 4 0 true))

/-- VINS (R134). -/
def execVins (_w : VWidth) (t : VType) (vd sa : BitVec 6) (idx : BitVec 6) (s : State) : Outcome State Fault Refusal :=
  withV s [vd] (
    let b := 8 * t.bytes
    putVM s vd (BitVec.ofNat 2048 ((2 ^ b - 1) * 2 ^ (b * idx.toNat))) ((s.me.rs sa).toNat % 2 ^ b * 2 ^ (b * idx.toNat)) 2)

/-- The address of a contiguous access, with its check (R135). -/
def vaddr (s : State) (w : VWidth) (as : BitVec 4) (off : BitVec 11) : Word := s.addr as off.toInt (w.bits / 8)
def vaddrOk (s : State) (w : VWidth) (a : Word) : Bool := s.me.inPool a (w.bits / 8) (w.bits / 8)

def execVld (w : VWidth) (as : BitVec 4) (vd : BitVec 6) (off : BitVec 11) (s : State) : Outcome State Fault Refusal :=
  withV s [vd] (
    let a := vaddr s w as off
    if vaddrOk s w a then loadTo s (.v vd) as a (w.bits / 8) 1024 3 5 (lowMask w.bits) (.load (.v vd) 0 0 false [])
    else .next (s.illegal (addrInfo a)))

def execVst (w : VWidth) (as : BitVec 4) (va : BitVec 6) (off : BitVec 11) (s : State) : Outcome State Fault Refusal :=
  withV s [va] (
    let a := vaddr s w as off
    if vaddrOk s w a then
      .next (s.issue fun c => c.reach s.cur.slot (c.ras as).view a.toNat (w.bits / 8) 3
        (.store ((leBytes 0 (w.bits / 8) (c.rv va).toNat).map fun x => some x.2)))
    else .next (s.illegal (addrInfo a)))

/-- VLDP (R135): only the bytes whose predicate bit is 1 are written into vd. -/
def execVldp (w : VWidth) (as : BitVec 4) (p : BitVec 3) (vd : BitVec 3) (off : BitVec 11) (s : State) : Outcome State Fault Refusal :=
  let a := vaddr s w as off
  let d : BitVec 6 := vd.zeroExtend 6
  if vaddrOk s w a then
    loadTo s (.v d) as a (w.bits / 8) 1024 3 5 (elemMask (s.me.rp p) 1 (w.bits / 8)) (.load (.v d) 0 0 false [])
  else .next (s.illegal (addrInfo a))

/-- VSTP (R135). -/
def execVstp (w : VWidth) (as : BitVec 4) (p : BitVec 3) (va : BitVec 3) (off : BitVec 11) (s : State) : Outcome State Fault Refusal :=
  let a := vaddr s w as off
  if vaddrOk s w a then
    .next (s.issue fun c => c.reach s.cur.slot (c.ras as).view a.toNat (w.bits / 8) 3
      (.store ((leBytes 0 (w.bits / 8) (c.rv (va.zeroExtend 6)).toNat).map fun x =>
        if selected (c.rp p) 1 x.1 then some x.2 else none)))
  else .next (s.illegal (addrInfo a))

/-- The addresses of a gather or scatter, index by index (R136). -/
def gatherAddrs (s : State) (w : VWidth) (va : BitVec 6) (as : BitVec 4) : List Word :=
  (elems (s.me.rv va) 32 (w.bits / 32)).map fun i => s.addr as 0 1 + BitVec.ofInt 64 (signed 32 i)

/-- The first address that fails its check (R136). -/
def gatherBad (s : State) (xs : List Word) : Option Word := xs.find? fun a => !s.me.inPool a 4 4

/-- VGATHER (R136): index i reads during issue + 3 + floor(4 × i / m); the gather lands whole. -/
def execVgather (w : VWidth) (_t : VType) (vd va : BitVec 6) (as : BitVec 4) (s : State) : Outcome State Fault Refusal :=
  withV s [vd, va] (
    let xs := gatherAddrs s w va as
    match gatherBad s xs with
    | some a => .next (s.illegal (addrInfo a))
    | none => .next (s.issue fun c =>
      let b := s.myRec
      let c := c.fly { seq := b.seq, slot := s.cur.slot, bundle := b.pc, reg := .v vd, val := 0, mask := lowMask w.bits, due := c.cyc + 8,
                       kinds := 0, pend := false }
      xs.zipIdx.foldl (fun c x => c.reach s.cur.slot (c.ras as).view x.1.toNat 4 (3 + 4 * x.2 / xs.length)
        (.load (.v vd) (32 * x.2) 0 false [])) c))

/-- VSCATTER (R136): index i writes at the end of issue + 3 + floor(4 × i / m). -/
def execVscatter (w : VWidth) (_t : VType) (vs va : BitVec 6) (as : BitVec 4) (s : State) : Outcome State Fault Refusal :=
  withV s [vs, va] (
    let xs := gatherAddrs s w va as
    match gatherBad s xs with
    | some a => .next (s.illegal (addrInfo a))
    | none => .next (s.issue fun c =>
      xs.zipIdx.foldl (fun c x => c.reach s.cur.slot (c.ras as).view x.1.toNat 4 (3 + 4 * x.2 / xs.length)
        (.store ((leBytes 0 4 (elem (c.rv vs) 32 x.2)).map fun y => some y.2))) c))

end Sys2Proof.Machine
end

