-- ==== Sys2Proof/Machine/Verbs.lean ====
section
/-!
DEFINITION. Verbs (R219–R223, R229, R232, R233): the image and its faults, one evaluation, folds and scans in both orders, with the event
kinds that each evaluation raises and the op that raises them.
-/
namespace Sys2Proof.Machine

/-- An op of an image (R220), with the literal of a CONST. -/
structure VOp where
  code : Nat
  d    : Nat
  hd   : Nat
  a    : Nat
  ha   : Nat
  b    : Nat
  hb   : Nat
  c    : Nat
  hc   : Nat
  lit  : Nat
  deriving DecidableEq, Repr

def VOp.ofWord (w : BitVec 32) (lit : Nat) : VOp :=
  ⟨fld w 31 27, fld w 26 25, fld w 24 24, fld w 23 21, fld w 20 20, fld w 19 17, fld w 16 16, fld w 15 13, fld w 12 12, lit⟩

/-- Header fields (R219). -/
def Verb.header (v : Verb) : BitVec 32 := v.words.headD 0
def Verb.kind (v : Verb) : Nat := fld v.header 10 8
def Verb.len (v : Verb) : Nat := fld v.header 4 0
def Verb.assoc (v : Verb) : Bool := v.header.getLsbD 16
def Verb.comm (v : Verb) : Bool := v.header.getLsbD 17
def Verb.isPair (v : Verb) : Bool := v.kind == 6

/-- The element type of a verb kind; for a PAIR, the type of a half is chosen op by op. -/
def verbType (kind : Nat) : VType :=
  match kind with
  | 0 => .f32
  | 1 => .bf16
  | 2 => .f16
  | 3 => .i32
  | 4 => .i16
  | 5 => .i8
  | _ => .f32

/-- Element bytes, the size code and the conversion code that w2 must hold (R227). -/
def Verb.bytes (v : Verb) : Nat := if v.isPair then 8 else (verbType v.kind).bytes
def Verb.sizeCode (v : Verb) : Nat := v.bytes.log2
def Verb.typeCode (v : Verb) : Nat :=
  match v.kind with
  | 1 => 3
  | 2 => 4
  | 3 => 2
  | 4 => 1
  | 5 => 0
  | _ => 5

/-- Which of d, a, b, c an op uses (R221). -/
def opUses (code : Nat) : Bool × Bool × Bool × Bool :=
  if code = 3 then (true, true, true, true)
  else if code = 6 ∨ code = 7 ∨ code = 16 then (true, true, false, false)
  else if code = 13 ∨ code = 14 then (false, true, true, false)
  else if code = 17 then (false, false, false, false)
  else (true, true, true, false)

/-- An op word without a fault of R223, for a verb kind. A half bit of an operand k counts among the op's halves (log 14). -/
def opOk (kind : Nat) (w : BitVec 32) : Bool :=
  let o := VOp.ofWord w 0
  let u := opUses o.code
  let halves := (if u.1 then [o.hd] else []) ++ (if u.2.1 then [o.ha] else []) ++ (if u.2.2.1 then [o.hb] else []) ++ (if u.2.2.2 then [o.hc] else [])
  let whole := kind != 6 || o.code == 15 || o.code == 16
  o.code ≤ 17 && fld w 11 0 == 0 &&
    (u.1 || (o.d == 0 && o.hd == 0)) && (u.2.1 || (o.a == 0 && o.ha == 0)) && (u.2.2.1 || (o.b == 0 && o.hb == 0)) &&
    (u.2.2.2 || (o.c == 0 && o.hc == 0)) && o.a != 7 && o.b != 7 && o.c != 7 &&
    (if whole then halves.all (fun h => h == 0) else halves.all (fun h => h == halves.headD 0)) &&
    !((o.code == 11 || o.code == 12) && (kind < 3 || (kind == 6 && o.ha == 0)))

/-- The ops that stand from word k on, the words used, and the first op word with a fault. -/
def walkOps (kind : Nat) : Nat → Nat → List (BitVec 32) → List VOp × Nat × Option Nat
  | 0, k, _ => ([], k, none)
  | n + 1, k, ws =>
    let w := ws.headD 0
    let isConst := fld w 31 27 = 17
    let o := VOp.ofWord w (if isConst then ((ws.getD 1 0)).toNat else 0)
    let r := if isConst then walkOps kind n (k + 2) (ws.drop 2) else walkOps kind n (k + 1) (ws.drop 1)
    (o :: r.1, r.2.1, if opOk kind w then r.2.2 else some k)

/-- The identity's words (R219). -/
def Verb.identWords (v : Verb) : Nat := if v.header.getLsbD 18 then (if v.isPair then 2 else 1) else 0

/-- The identity, if the image has one (R221, R222). -/
def Verb.ident (v : Verb) : Option Nat :=
  if v.header.getLsbD 18 then
    some (if v.isPair then (v.words.getD 1 0).toNat + 2 ^ 32 * (v.words.getD 2 0).toNat else (v.words.getD 1 0).toNat % 2 ^ (8 * v.bytes))
  else none

def Verb.walk (v : Verb) : List VOp × Nat × Option Nat :=
  walkOps v.kind v.len (1 + v.identWords) (v.words.drop (1 + v.identWords))
def Verb.ops (v : Verb) : List VOp := v.walk.1

/-- Words of the image (R219). -/
def Verb.size (v : Verb) : Nat := v.walk.2.1

/-- The first offending word of the image (R223). -/
def Verb.fault (v : Verb) : Option Nat :=
  if v.header &&& 0xFFF8F8E0 != 0 || v.kind == 7 || v.len == 0 || 16 < v.len then some 0 else v.walk.2.2

-- one evaluation (R221, R222)

/-- An op on operands of a type. -/
def calcOp (t : VType) (code a b c : Nat) : Nat × Kinds :=
  match code with
  | 0 => addE t a b
  | 1 => subE t a b
  | 2 => mulE t a b
  | 3 => fmaE t c a b
  | 4 => minE t a b
  | 5 => maxE t a b
  | 6 => unaryE t .abs a
  | 7 => unaryE t .neg a
  | 8 => (a &&& b, 0)
  | 9 => (a ||| b, 0)
  | 10 => (a ^^^ b, 0)
  | 11 => wrap t (fun a b => a <<< (b % (8 * t.bytes))) a b
  | 12 => wrap t (fun a b => a >>> (b % (8 * t.bytes))) a b
  | 13 => let r := vcmpE t .lt a b; (if r.1 then 1 else 0, r.2)
  | 14 => let r := vcmpE t .eq a b; (if r.1 then 1 else 0, r.2)
  | _ => (a, 0)

/-- The machine of one evaluation: the operands x, y, t0–t3, k with their poison, the flag, the events by op, the first op with a poisoned
operand. -/
structure VSt where
  r   : List (Nat × Bool)
  f   : Bool × Bool
  evs : List (Nat × Kinds)
  pz  : Option Nat
  deriving DecidableEq, Repr

/-- One op at index j. -/
def VSt.op (kind : Nat) (m : VSt) (j : Nat) (o : VOp) : VSt :=
  let pair := kind == 6
  let x := fun (n : Nat) => m.r.getD n (0, false)
  let u := opUses o.code
  let hit := (u.2.1 && (x o.a).2) || (u.2.2.1 && (x o.b).2) || (u.2.2.2 && (x o.c).2)
  let pz := if hit && m.pz.isNone then some j else m.pz
  if o.code = 17 then { m with r := m.r.set 6 (o.lit, false) }
  else if o.code = 15 then
    { m with r := m.r.set (o.d + 2) ((if m.f.1 then x o.a else x o.b).1, hit || m.f.2), pz := pz }
  else if o.code = 16 then { m with r := m.r.set (o.d + 2) ((x o.a).1, hit), pz := pz }
  else
    let t := if pair then (if o.ha = 0 then VType.f32 else VType.i32) else verbType kind
    let get := fun (n h : Nat) =>
      let v := (x n).1
      if pair then (if n = 6 then v % 2 ^ 32 else v / 2 ^ (32 * h) % 2 ^ 32) else v % 2 ^ (8 * t.bytes)
    let y := calcOp t o.code (get o.a o.ha) (get o.b o.hb) (get o.c o.hc)
    let m := { m with pz := pz, evs := if y.2 = 0 then m.evs else m.evs ++ [(j, y.2)] }
    if o.code = 13 ∨ o.code = 14 then { m with f := (y.1 = 1, hit) }
    else if pair then
      let old := x (o.d + 2)
      let keep := if o.hd = 0 then old.1 / 2 ^ 32 * 2 ^ 32 + y.1 else old.1 % 2 ^ 32 + y.1 * 2 ^ 32
      { m with r := m.r.set (o.d + 2) (keep, hit || old.2) }
    else { m with r := m.r.set (o.d + 2) (y.1, hit) }

/-- verb(x, y): the result with its poison, the events, and the first op with a poisoned operand. -/
def Verb.eval (v : Verb) (x y : Nat × Bool) : (Nat × Bool) × List (Nat × Kinds) × Option Nat :=
  let m0 : VSt := ⟨[x, y, (0, false), (0, false), (0, false), (0, false), (0, false)], (false, false), [], none⟩
  let m := v.ops.zipIdx.foldl (fun m o => m.op v.kind o.2 o.1) m0
  (m.r.getD 2 (0, false), m.evs, m.pz)

-- values on their way through an entry (R229–R233)

/-- A value, whether it is poisoned, the highest source element it covers, and the kinds met on its way with their element and op. -/
structure VVal where
  bits : Nat
  pz   : Bool
  hi   : Nat
  evs  : List (Nat × Nat × Kinds)
  deriving DecidableEq, Repr

/-- Two values combined, left of lower index. -/
def Verb.combine (v : Verb) (a b : VVal) : VVal :=
  let r := v.eval (a.bits, a.pz) (b.bits, b.pz)
  let hi := max a.hi b.hi
  { bits := r.1.1, pz := r.1.2, hi := hi,
    evs := a.evs ++ b.evs ++ r.2.1.map (fun e => (hi, e.1, e.2)) ++ (match r.2.2 with | some j => [(hi, j, kPoison)] | none => []) }

/-- A source element as a value. -/
def srcVal (x : (Word × Bool) × Nat) : VVal := ⟨x.1.1.toNat, x.1.2, x.2, []⟩

/-- A poisoned value written without having been an operand reports op 0 (R233). -/
def VVal.written (x : VVal) : VVal :=
  if x.pz && !x.evs.any (fun e => e.2.2 == kPoison) then { x with evs := x.evs ++ [(x.hi, 0, kPoison)] } else x

/-- Sequential order: the accumulated values after each element (R229). -/
def Verb.runs (v : Verb) : List VVal → Option VVal → List VVal
  | [], _ => []
  | x :: r, none => x :: v.runs r (some x)
  | x :: r, some a => let y := v.combine a x; y :: v.runs r (some y)

def Verb.start (v : Verb) : Option VVal := v.ident.map fun i => ⟨i, false, 0, []⟩

/-- A fold over elements in either order (R229). -/
def Verb.fold (v : Verb) (isTree : Bool) (xs : List VVal) : VVal :=
  ((if isTree then tree v.combine xs else (v.runs xs v.start).getLast?).getD ⟨0, false, 0, []⟩).written

/-- A scan over elements in either order (R229, R131). -/
def Verb.scan (v : Verb) (isTree : Bool) (xs : List VVal) : List VVal :=
  (if isTree then (List.range xs.length).map fun k => ((prefixOf v.combine (xs.take (k + 1))).getD ⟨0, false, 0, []⟩)
   else v.runs xs v.start).map VVal.written

/-- The reports of a step (R232): each kind once, with the op of the first raising in (element, op) order. -/
def stepReports (evs : List (Nat × Nat × Kinds)) : List (Nat × Kinds) :=
  (List.range 9).filterMap fun k =>
    let xs := evs.filter fun e => e.2.2.getLsbD k
    let best := xs.foldl (fun (a : Option (Nat × Nat)) e =>
      match a with
      | none => some (e.1, e.2.1)
      | some b => if rankLt [e.1, e.2.1] [b.1, b.2] then some (e.1, e.2.1) else a) none
    best.map fun b => (b.2, BitVec.ofNat 9 (2 ^ k))

/-- The combinations of a fold or scan tree over c elements, level by level (R230). -/
def treeCounts : Nat → Nat → List Nat
  | 0, _ => []
  | k + 1, c => if c ≤ 1 then [] else c / 2 :: treeCounts k ((c + 1) / 2)

def ceilDiv (a b : Nat) : Nat := (a + b - 1) / b

/-- The cycles of R230 from begin + 16 to the last write of a fold or scan. -/
def foldCycles (n c0 R L : Nat) (isScan isTree : Bool) : Nat :=
  if isTree then
    n * ((treeCounts c0 c0).map fun j => ceilDiv (j * R) L).foldl (· + ·) 0 + (if isScan then n * ceilDiv (c0 * R) L else 0)
  else n * c0 * ceilDiv R L

end Sys2Proof.Machine
end

