-- ==== Sys2Proof/Machine/Copy.lean ====
section
/-!
DEFINITION. Engine addresses and descriptors (R185–R187), their checks at issue (R189, R216, R227, R235, R298, R322), and the S7 words that
hand an entry to a copy-engine queue; VBDEF (R225).
-/
namespace Sys2Proof.Machine

open Host

-- engine addresses (R185)

/-- The space of an engine address. -/
def space (a : Nat) : Nat := a / 2 ^ 60 % 16

/-- The width of the address within a space; above it stand the space's core field and bits that must be zero. -/
def spWidth (sp : Nat) : Nat :=
  match sp with
  | 2 => 48
  | 3 => 22
  | _ => 24

/-- The bits a space does not use are zero. -/
def spClean (a : Nat) : Bool :=
  match space a with
  | 0 => a / 2 ^ 24 % 2 ^ 36 == 0
  | 1 => a / 2 ^ 24 % 2 ^ 29 == 0
  | 2 => a / 2 ^ 48 % 2 ^ 12 == 0
  | 3 => a / 2 ^ 22 % 2 ^ 38 == 0
  | 4 => a / 2 ^ 24 % 2 ^ 29 == 0
  | _ => false

/-- The address within its space, and the core it names. -/
def spOff (a : Nat) : Nat := a % 2 ^ spWidth (space a)
def spCore (a : Nat) : Nat := a / 2 ^ 53 % 2 ^ 7

/-- An engine address moved by an offset, within its space (R187). -/
def spMove (a : Nat) (off : Int) : Nat :=
  let w : Nat := 2 ^ spWidth (space a)
  let r : Int := ((a : Int) + off) % (w : Int)
  a / w * w + r.toNat

-- descriptors (R186)

/-- A descriptor taken apart. Strides are in bytes. -/
structure Desc where
  src  : Nat
  dst  : Nat
  c0   : Nat
  c1   : Nat
  c2   : Nat
  ty   : Nat
  size : Nat
  es   : Nat
  s0   : Int
  s1   : Int
  s2   : Int
  d0   : Int
  d1   : Int
  d2   : Int
  arm  : Bool
  armAt : Nat
  armGen : Nat
  flag : Bool
  flagAt : Nat
  flagScope : Nat
  cred : Bool
  credAt : Nat
  cbpe : Bool
  cb   : BitVec 5
  n    : Nat
  dv   : Bool
  sv   : Bool
  pfx  : Bool
  foOp : Nat
  foMd : BitVec 4
  fo   : Bool
  foCb : BitVec 5
  handle : Nat
  slot : Nat
  beat : BitVec 16
  deriving DecidableEq, Repr

/-- A signed 20-bit stride in bytes: elements × 2^shift. -/
def strideOf (w : Word) (hi lo es : Nat) : Int :=
  (BitVec.ofNat 20 (fld w hi lo)).toInt * ((es * 2 ^ fld w 63 60 : Nat) : Int)

/-- The fields of R186. -/
def descOf (w : Vector Word 8) : Desc :=
  let es := 2 ^ fld w[2] 3 0
  { src := w[0].toNat, dst := w[1].toNat, c0 := fld w[2] 31 16, c1 := fld w[2] 47 32, c2 := fld w[2] 63 48, ty := fld w[2] 7 4,
    size := fld w[2] 3 0, es := es, s0 := strideOf w[3] 19 0 es, s1 := strideOf w[3] 39 20 es, s2 := strideOf w[3] 59 40 es,
    d0 := strideOf w[4] 19 0 es, d1 := strideOf w[4] 39 20 es, d2 := strideOf w[4] 59 40 es, arm := w[5].getLsbD 63,
    armAt := fldUp w[5] 51 32 4, armGen := fld w[5] 31 0, flag := w[6].getLsbD 37, flagAt := fldUp w[6] 62 42 3,
    flagScope := fld w[6] 41 38, cred := w[6].getLsbD 16, credAt := fldUp w[6] 36 17 4, cbpe := w[6].getLsbD 15,
    cb := BitVec.ofNat 5 (fld w[6] 14 10), n := fld w[6] 9 0, dv := w[7].getLsbD 47, sv := w[7].getLsbD 46, pfx := w[7].getLsbD 44,
    foOp := fld w[7] 43 42, foMd := BitVec.ofNat 4 (fld w[7] 41 38), fo := w[7].getLsbD 37, foCb := BitVec.ofNat 5 (fld w[7] 36 32),
    handle := fld w[7] 27 24, slot := fld w[7] 23 16, beat := BitVec.ofNat 16 (fld w[7] 15 0) }

/-- Elements of an entry (R187). -/
def Desc.count (d : Desc) : Nat := d.c0 * d.c1 * d.c2

/-- The offset of element n, in visiting order, for strides of the three dimensions. -/
def Desc.off (d : Desc) (a0 a1 a2 : Int) (n : Nat) : Int :=
  a0 * ((n % d.c0 : Nat) : Int) + a1 * ((n / d.c0 % d.c1 : Nat) : Int) + a2 * ((n / (d.c0 * d.c1) : Nat) : Int)

/-- Source and destination of source byte p in visiting order. -/
def Desc.srcAt (d : Desc) (p : Nat) : Nat := spMove d.src (d.off d.s0 d.s1 d.s2 (p / d.es)) + p % d.es
def Desc.dstAt (d : Desc) (p : Nat) : Nat := spMove d.dst (d.off d.d0 d.d1 d.d2 (p / d.es)) + p % d.es

/-- Destination of output byte p of a FOLD: R187 with i0 := 0. -/
def Desc.foldAt (d : Desc) (p : Nat) : Nat := spMove d.dst (d.off d.d0 d.d1 d.d2 (p / d.es * d.c0)) + p % d.es

/-- The lowest and the highest offset that strides reach. -/
def reachLow (c : Nat) (s : Int) : Int := min 0 (s * ((c : Int) - 1))
def reachHigh (c : Nat) (s : Int) : Int := max 0 (s * ((c : Int) - 1))

/-- The bytes that a local end reaches lie in the scratchpad. -/
def extentOk (S a es : Nat) (xs : List (Nat × Int)) : Bool :=
  let lo := xs.foldl (fun (t : Int) x => t + reachLow x.1 x.2) (a : Int)
  let hi := xs.foldl (fun (t : Int) x => t + reachHigh x.1 x.2) ((a + es : Nat) : Int)
  decide (0 ≤ lo) && decide (hi ≤ (S : Int))

/-- A buffer is configured (R176), and lies in the scratchpad. -/
def CircBuf.configured (b : CircBuf) : Bool := b.esize != 0 && b.count != 0
def CircBuf.inScratch (b : CircBuf) (S : Nat) : Bool := b.base + b.esize * b.count ≤ S

/-- The checks of R189 that every queue-form word makes. `ownCredit` is false where the credit word lies in a peer's pool. -/
def edCommon (c : Core) (w : Vector Word 8) (isFold isPut : Bool) : Bool :=
  let d := descOf w
  let S := c.scratch
  let b := c.rcb d.cb
  spClean d.src && spClean d.dst && d.c0 != 0 && d.c1 != 0 && d.c2 != 0 && d.size ≤ 3 &&
    fld w[2] 15 8 == 0 && fld w[5] 62 52 == 0 && fld w[6] 63 63 == 0 && fld w[7] 63 48 == 0 && fld w[7] 45 45 == 0 && fld w[7] 31 28 == 0 &&
    (space d.src != 0 || extentOk S d.src d.es [(d.c0, d.s0), (d.c1, d.s1), (d.c2, d.s2)]) &&
    (space d.dst != 0 || extentOk S d.dst d.es (if isFold then [(d.c1, d.d1), (d.c2, d.d2)] else [(d.c0, d.d0), (d.c1, d.d1), (d.c2, d.d2)])) &&
    (!d.arm || d.armAt + 16 ≤ S) && (!d.flag || (d.flagAt + 8 ≤ S && d.flagScope ≤ 11)) && (!d.cred || isPut || d.credAt + 16 ≤ S) &&
    (!d.cbpe || (b.configured && b.inScratch S))

/-- No follow-on, as every word but CPYM requires (R189, R227, R298, R322). -/
def noFollow (w : Vector Word 8) : Bool := fld w[7] 43 32 == 0

/-- CPY and CPYM: spaces 0x0–0x3, one end local; no verb, no slot; a beat only with an array-field end, and then an even one (R189).
The type field is not looked at (DESIGN CHOICE, log 117). -/
def copyOk (w : Vector Word 8) : Bool :=
  let d := descOf w
  let a := space d.src
  let b := space d.dst
  a ≤ 3 && b ≤ 3 && (a == 0 || a == 3 || b == 0 || b == 3) && d.handle == 0 && d.slot == 0 &&
    (if a == 3 || b == 3 then d.beat.toNat % 2 == 0 else d.beat == 0)

/-- The verb a queue-form word names is defined and fits the descriptor (R227, R235). -/
def verbFits (d : Desc) (v : Verb) : Bool := d.size == v.sizeCode && d.ty == v.typeCode

/-- ZIP, FOLD, SCAN (R227). -/
def verbOk (c : Core) (w : Vector Word 8) (h : BitVec 4) (isTree : Bool) : Bool :=
  let d := descOf w
  match c.rh h with
  | none => false
  | some v => d.handle == h.toNat && noFollow w && d.slot == 0 && d.beat == 0 && verbFits d v && space d.src ≤ 2 && space d.dst == 0 &&
      (!isTree || v.assoc)

/-- Size and type codes of a built-in reduction (R298). -/
def redCodes (op : RedOp) : Nat × Nat :=
  match op with
  | .addBf16 => (1, 3)
  | .addI32 | .maxI32 => (2, 2)
  | _ => (2, 5)

/-- RED (R298): k, n − 1 in w7. -/
def redOk (w : Vector Word 8) (op : RedOp) : Bool :=
  let d := descOf w
  space d.src ≤ 2 && space d.dst ≤ 2 && d.slot ≤ d.beat.toNat && d.beat.toNat / 256 == 0 && noFollow w && d.handle == 0 &&
    (d.size, d.ty) == redCodes op

/-- The round a core's PUT belongs to, running on its die (R301, R322). -/
def State.roundOf (s : State) (c : CoreId) : Option Round :=
  match (s.cores[c]).ctx.round with
  | none => none
  | some t => (s.dies[dieOf c]).rounds.find? fun r => r.ident = t.2 && r.cores.contains c.val

/-- PUT and PUTR (R300, R322). -/
def putOk (s : State) (c : CoreId) (q : BitVec 3) (w : Vector Word 8) : Bool :=
  let d := descOf w
  (space d.src == 0 || space d.src == 2) && space d.dst == 4 && d.dst % 128 == 0 && noFollow w && d.beat == 0 &&
    match s.roundOf c with
    | none => false
    | some r => match r.wins[d.slot]? with
      | none => false
      | some x => x.core == c.val % 24 && x.queue == q.toNat && x.len == d.count * d.es

-- entries

/-- An entry as a hand-off appends it. -/
def newEntry (kind : EKind) (w : Vector Word 8) (bundle : BitVec 14) (order seq : Nat) : Entry :=
  { kind := kind, ed := w, bundle := bundle, order := order, seq := seq, verb := none, follow := none, round := none, pubs := [],
    notBefore := 0, began := none, pages := [], ready := false, pos := 0, blk := 0, cur := none, want := [], out := [], slip := 0, wslip := 0, lagAt := 0,
    nextRead := 0, stopStep := none, got := [], dgot := [], evs := [], steps := 0, lastWrite := none, cbpDone := false, foDone := false, flagDue := none,
    flagDone := false, staged := [], stagedAt := none, sendEnd := none, lateTrap := false,
    armed := none }

def Entry.desc (e : Entry) : Desc := descOf e.ed

/-- Output bytes of an entry. -/
def Entry.total (e : Entry) : Nat :=
  let d := e.desc
  match e.kind with
  | .marker _ | .flag _ _ _ => 0
  | .fold _ => d.c1 * d.c2 * d.es
  | _ => d.count * d.es

/-- Destination engine address of an output byte (R187); PUT and PUTR write on from their w1 in visiting order, without strides (R322). -/
def Entry.outAt (e : Entry) (p : Nat) : Nat :=
  match e.kind with
  | .fold _ => e.desc.foldAt p
  | .put | .putr _ | .putrVerb => spMove e.desc.dst p
  | _ => e.desc.dstAt p

/-- The queue has a place (R188). -/
def Core.queueRoom (c : Core) (q : BitVec 3) : Bool := (c.rq q).entries.length < 32

/-- An entry goes into a queue. -/
def Core.push (c : Core) (q : BitVec 3) (e : Entry) : Core := c.onQueue q fun x => { x with entries := x.entries ++ [e] }

/-- The 64 KiB virtual pages that the bytes of an entry touch, sources and destinations (R365). -/
def Entry.needs (e : Entry) : List (Nat × Bool) :=
  let d := e.desc
  let page := fun (a : Nat) => a % 2 ^ 48 / 65536
  let ends := fun (f : Nat → Nat) (n : Nat) => (List.range n).flatMap fun i => [page (f (d.es * i)), page (f (d.es * i + d.es - 1))]
  match e.kind with
  | .marker _ => []
  | .flag a _ _ => if space a.toNat = 2 then [(page a.toNat, true)] else []
  | .fold _ => if space d.src = 2 then (ends d.srcAt d.count).eraseDups.map fun p => (p, false) else []
  | _ => (if space d.src = 2 then (ends d.srcAt d.count).eraseDups.map fun p => (p, false) else []) ++
      (if space d.dst = 2 then (ends d.dstAt d.count).eraseDups.map fun p => (p, true) else [])

/-- A walk asked for, once (R365). -/
def State.askWalk (s : State) (c : CoreId) (q page : Nat) : State :=
  if (s.dies[dieOf c]).walks.any fun w => w.1 = c.val && w.2.1 = q && w.2.2.1 = page then s
  else
    let d := s.draw
    d.2.updDie (dieOf c) fun x => { x with walks := x.walks ++ [(c.val, q, page, d.2.now + 1 + Config.freeDelay d.1)] }

/-- The translation of a page in a list of them. -/
def cacheGet (cache : List (Nat × Word)) (page : Nat) : Option Word := (cache.find? fun x => x.1 = page).map (·.2)

/-- Pages that the entry needs and has no translation of. -/
def Entry.missing (e : Entry) : List Nat := ((e.needs.filter fun p => (cacheGet e.pages p.1).isNone).map (·.1)).eraseDups

/-- The entry takes the translations that its core's copy engine has cached; what it has taken it keeps (R365). -/
def Entry.translate (e : Entry) (cache : List (Nat × Word)) : Entry :=
  { e with pages := e.pages ++ e.missing.filterMap fun p => (cacheGet cache p).map fun w => (p, w) }

/-- It asks for the others. -/
def State.askMissing (s : State) (c : CoreId) (q : BitVec 3) (e : Entry) : State := e.missing.foldl (fun s p => s.askWalk c q.toNat p) s

/-- A queue-form word hands its entry off, if its checks hold and its queue has a place (R188, R189). -/
def handOff (s : State) (q : BitVec 3) (ed : BitVec 4) (ok : Vector Word 8 → Bool) (mk : Entry → Entry) (kind : EKind) :
    Outcome State Fault Refusal :=
  let w := s.me.red ed
  if !ok w then .next s.illegal
  else if !s.me.queueRoom q then .next s
  else
    let b := s.myRec
    let e := mk { newEntry kind w b.pc s.me.orders b.seq with
      pubs := s.pubsOf s.cur.core .system, notBefore := (s.me.rq q).fenceAt }
    let e := if (descOf w).pfx then e.translate s.me.ceTlb else e
    let s := if (descOf w).pfx then s.askMissing s.cur.core q e else s
    .next (s.issue fun c => ({ c with orders := c.orders + 1 } : Core).push q e)

/-- CPY (R189). -/
def execCpy (q : BitVec 3) (ed : BitVec 4) (s : State) : Outcome State Fault Refusal :=
  handOff s q ed (fun w => edCommon s.me w false false && copyOk w && noFollow w) id .cpy

/-- PUT (R322). -/
def execPut (q : BitVec 3) (ed : BitVec 4) (s : State) : Outcome State Fault Refusal :=
  handOff s q ed (fun w => edCommon s.me w false true && putOk s s.cur.core q w && (descOf w).handle == 0 && (descOf w).ty == 0)
    (fun e => { e with round := s.me.ctx.round }) .put

/-- PUTR with a built-in op (R322). -/
def execPutr (q : BitVec 3) (ed : BitVec 4) (op : RedOp) (s : State) : Outcome State Fault Refusal :=
  handOff s q ed (fun w => edCommon s.me w false true && putOk s s.cur.core q w && (descOf w).handle == 0 &&
      ((descOf w).size, (descOf w).ty) == redCodes op)
    (fun e => { e with round := s.me.ctx.round }) (.putr op)

/-- PUTR with a verb (R235, R322). -/
def execPutrVerb (q : BitVec 3) (ed : BitVec 4) (s : State) : Outcome State Fault Refusal :=
  let verb := fun (w : Vector Word 8) => s.me.rh (BitVec.ofNat 4 (descOf w).handle)
  handOff s q ed (fun w => edCommon s.me w false true && putOk s s.cur.core q w &&
      match verb w with
      | none => false
      | some v => v.comm && verbFits (descOf w) v)
    (fun e => { e with round := s.me.ctx.round, verb := verb e.ed }) .putrVerb

/-- RED (R298). -/
def execRed (q : BitVec 3) (ed : BitVec 4) (op : RedOp) (s : State) : Outcome State Fault Refusal :=
  handOff s q ed (fun w => edCommon s.me w false false && redOk w op) id (.red op)

/-- ZIP (R227, R228). -/
def execZip (q : BitVec 3) (ed : BitVec 4) (h : BitVec 4) (s : State) : Outcome State Fault Refusal :=
  handOff s q ed (fun w => edCommon s.me w false false && verbOk s.me w h false) (fun e => { e with verb := s.me.rh h }) .zip

/-- FOLD (R227, R228). -/
def execFold (q : BitVec 3) (ed : BitVec 4) (h : BitVec 4) (isTree : Bool) (s : State) : Outcome State Fault Refusal :=
  handOff s q ed (fun w => edCommon s.me w true false && verbOk s.me w h isTree) (fun e => { e with verb := s.me.rh h }) (.fold isTree)

/-- SCAN (R227, R228). -/
def execScan (q : BitVec 3) (ed : BitVec 4) (h : BitVec 4) (isTree : Bool) (s : State) : Outcome State Fault Refusal :=
  handOff s q ed (fun w => edCommon s.me w false false && verbOk s.me w h isTree) (fun e => { e with verb := s.me.rh h }) (.scan isTree)

/-- VBDEF (R225, R223): the image as its words stand, checked word by word; the handle names it from this cycle's end. A fault of R223 in a word that
lies in the scratchpad is recorded before an image that runs past it (DESIGN CHOICE, log 122). -/
def execVbdef (h : BitVec 4) (as : BitVec 4) (s : State) : Outcome State Fault Refusal :=
  let a := streamAddr (s.me.ras as) s.myRec.tag 0 1
  let word := fun (i : Nat) => BitVec.ofNat 32 (leNat (s.me.pool.bytes (a.toNat + 4 * i) 4))
  let all : Verb := ⟨(List.range 35).map word, none⟩
  let head := s.me.inPool a 4 4
  if !head then .next (s.illegal (addrInfo a))
  else match all.fault with
    | some k =>
      if s.me.inPool a (4 * k + 4) 4 then
        .next (s.illegal (mkWord [(4 * k, 32)]))
      else .next (s.illegal (addrInfo a))
    | none =>
      if !s.me.inPool a (4 * all.size) 4 then .next (s.illegal (addrInfo a))
      else .next (s.issue fun c => c.onCtx fun x => { x with h := x.h.set h.toNat (some ⟨all.words.take all.size, none⟩) })

end Sys2Proof.Machine
end

