-- ==== Sys2Proof/Machine/Matrix.lean ====
section
/-!
DEFINITION. The matrix engine: the S5 words and CPYM (R200–R217, R234), what its operations read, compute and write, and when.
-/
namespace Sys2Proof.Machine

open Host

-- descriptors, tiles and checks (R203)

def mdM (w : Vector Word 8) : Nat := w[0].toNat
def mdN (w : Vector Word 8) : Nat := w[1].toNat
def mdK (w : Vector Word 8) : Nat := w[2].toNat
def mdP (w : Vector Word 8) : Nat := fld w[3] 7 4 + 1
def mdGroups (w : Vector Word 8) : Nat := (mdK w + 31) / 32

/-- Size and place of accumulator storage in the pool (R168, R169). -/
def accSize (pw : Word) : Nat := 262144 * fld pw 21 16
def accBase (pw : Word) : Nat := 2 ^ 24 - (if pw.getLsbD 0 then 4096 else 8192) - accSize pw

def bandCount (shape : BitVec 4) : Nat := popNat 4 shape.toNat

def mOk (w : Vector Word 8) : Bool := 1 ≤ mdM w && mdM w ≤ 1023
def nOk (w : Vector Word 8) : Bool := 1 ≤ mdN w && mdN w ≤ 256
def kOk (w : Vector Word 8) (shape : BitVec 4) : Bool := 1 ≤ mdK w && mdK w ≤ 256 && mdK w ≤ 64 * bandCount shape

/-- The tile's fields are within R203 and the tile lies in accumulator storage. -/
def tileOk (w : Vector Word 8) (pw : Word) : Bool :=
  let b := w[4].toNat
  let s := w[5].toNat
  b < 2 ^ 23 && b % 4 == 0 && s < 2 ^ 23 && s % 4 == 0 && (mdM w ≤ 1 || 4 * mdN w ≤ s) && b + (mdM w - 1) * s + 4 * mdN w ≤ accSize pw

def actOk (w : Vector Word 8) : Bool := w[3].toNat < 256 && fld w[3] 3 0 ≤ 11
def flagsOk (w : Vector Word 8) : Bool := w[7].toNat < 4

/-- The buffer is configured with entries of at least n bytes and lies in the scratchpad. -/
def CircBuf.holds (b : CircBuf) (n S : Nat) : Bool := b.configured && n ≤ b.esize && b.inScratch S

/-- The checks of MMA (R210). Of the descriptor they look at the fields that the card uses, not at out (the cards of R207 and R214 name their fields;
R203 can be read as meaning all; DEDUCED, log 92). -/
def mmaOk (c : Core) (w : Vector Word 8) (b : CircBuf) (shape : BitVec 4) : Bool :=
  mOk w && nOk w && kOk w shape && mdN w ≤ c.ctx.mxe.ln && mdK w ≤ c.ctx.mxe.lk && mdM w ≤ b.count && b.holds (128 * mdGroups w) c.scratch &&
    tileOk w c.ctx.spr.pw && actOk w && flagsOk w

/-- Bytes of a weight entry (R207). -/
def weightBytes (fmt : WFmt) (k n : Nat) : Nat :=
  match fmt with
  | .bf16 | .f16 => 2 * k * n
  | .mxe2m1 => 17 * ((k + 31) / 32) * n
  | _ => 33 * ((k + 31) / 32) * n

def Tile.ofMd (w : Vector Word 8) (batch : Nat) : Tile := ⟨batch, none, w[4].toNat, w[5].toNat, mdM w, mdN w⟩

/-- The byte ranges of a tile, lowest row first. -/
def Tile.rows (t : Tile) : List (Nat × Nat) := (List.range t.m).map fun i => (t.accb + i * t.accs, t.accb + i * t.accs + 4 * t.n)

/-- The lowest byte two tiles share. -/
def Tile.shared (a b : Tile) : Option Nat :=
  (a.rows.flatMap fun x => b.rows.filterMap fun y => if max x.1 y.1 < min x.2 y.2 then some (max x.1 y.1) else none).foldl
    (fun (m : Option Nat) x => some (match m with | none => x | some k => min k x)) none

/-- A tile names a byte. -/
def Tile.has (t : Tile) (a : Nat) : Bool := t.rows.any fun x => x.1 ≤ a && a < x.2

/-- A batch, or one committed before it, has an operation that has not completed: batches complete in the order of their commits
(R211), an empty one behind another too (DESIGN CHOICE, log 121). -/
def Mxe.busy (m : Mxe) (batch : Nat) : Bool := m.ops.any (fun o => o.batch ≤ batch) || m.running.any (fun o => o.batch ≤ batch)

/-- The tiles in flight (R213). -/
def Mxe.flying (m : Mxe) : List Tile := m.tiles.filter fun t => t.batch = m.openB || m.busy t.batch

/-- The record of the accumulator-busy trap, if a tile shares a byte with one in flight (R213). -/
def Mxe.accBusy (m : Mxe) (t : Tile) : Option Word :=
  let first := (m.flying.filterMap t.shared).foldl (fun (a : Option Nat) x => some (match a with | none => x | some k => min k x)) none
  first.map fun b =>
    let naming := m.flying.filter fun x => x.has b
    let last := naming.foldl (fun (a : Option Tile) x =>
      if x.batch = m.openB then a else match a with | none => some x | some y => if y.batch < x.batch then some x else a) none
    mkWord [(b, 16), (if naming.any (fun x => x.batch = m.openB) then 1 else 0, 7),
      (match last with | some x => (x.num.getD 0).toNat | none => 0, 4), (5, 0)]

/-- A received operation joins the open batch (R205). -/
def Core.receive (c : Core) (o : MOp) : Core :=
  c.onMxe fun m => { m with ops := m.ops ++ [{ o with batch := m.openB, rcvd := c.cyc }] }

/-- The tile goes into flight. -/
def Core.fliesTile (c : Core) (w : Vector Word 8) : Core := c.onMxe fun m => { m with tiles := m.flying ++ [Tile.ofMd w m.openB] }

def newOp (kind : MKind) (w : Vector Word 8) (cb : CircBuf) (cbn : BitVec 5) (shape : BitVec 4) (slot : Nat) (bundle : BitVec 14)
    (seq order : Nat) : MOp :=
  { kind := kind, md := w, cb := cb, cbn := cbn, shape := shape, slot := slot, bundle := bundle, seq := seq, order := order, batch := 0,
    rcvd := 0, begun := none, slip := 0, lat := Latched.none, rows := [], rowsEnd := none, tiles := 0, outs := [], wrote := 0, kinds := 0, evs := [],
    pois := false }

/-- Follow-ons held at their entries for want of a place (R205): their completion CBP has been applied. -/
def Core.heldFollows (c : Core) : Nat :=
  (c.ctx.queues.toList.filter fun q => match q.entries with | e :: _ => e.cbpDone && e.follow.isSome && !e.foDone | [] => false).length

/-- An MX word hands its operation off: the checks, the wait for its buffers, the wait for a place among sixteen that no held follow-on takes
(R205). The checks and the test for a tile in flight come before the waits (DESIGN CHOICE, log 118). -/
def mxOff (s : State) (ok ready : Bool) (busy : Option Word) (o : MOp) (f : Core → Core) : Outcome State Fault Refusal :=
  if !ok then .next s.illegal
  else match busy with
    | some i => .next (s.trapNow 0x04 i (s.myWord.zeroExtend 64))
    | none =>
      if !ready || 16 ≤ s.me.ctx.mxe.ops.length + s.me.heldFollows then .next s
      else .next (s.issue fun c => f (({ c with orders := c.orders + 1 } : Core).receive o))

/-- The operation of the issuing MX word. -/
def State.myOp (s : State) (kind : MKind) (w : Vector Word 8) (cb : CircBuf) (cbn : BitVec 5) : MOp :=
  newOp kind w cb cbn s.me.ctx.spr.shape 5 s.myRec.pc s.myRec.seq s.me.orders

/-- MDSET (R204). -/
def execMdset (md : BitVec 4) (field : BitVec 3) (sa : BitVec 6) (s : State) : Outcome State Fault Refusal :=
  .next (s.issue fun c => c.result .mx (.md md field) 64 (c.rs sa).toNat 1)

/-- MLOADW (R207): K and N count as latched from its hand-off. -/
def execMloadw (md : BitVec 4) (cb : BitVec 5) (fmt : WFmt) (s : State) : Outcome State Fault Refusal :=
  let w := s.me.rmd md
  let b := s.me.rcb cb
  mxOff s (nOk w && kOk w s.me.ctx.spr.shape && b.holds (weightBytes fmt (mdK w) (mdN w)) s.me.scratch) (1 ≤ b.f) none
    (s.myOp (.mloadw fmt) w b cb) fun c => c.onMxe fun m => { m with lk := mdK w, ln := mdN w }

/-- MMA (R210). -/
def execMma (md : BitVec 4) (cb : BitVec 5) (s : State) : Outcome State Fault Refusal :=
  let w := s.me.rmd md
  let b := s.me.rcb cb
  mxOff s (mmaOk s.me w b s.me.ctx.spr.shape) (mdM w ≤ b.f) none (s.myOp (.mma false) w b cb) fun c => c.fliesTile w
/-- MMAZ (R210). -/
def execMmaz (md : BitVec 4) (cb : BitVec 5) (s : State) : Outcome State Fault Refusal :=
  let w := s.me.rmd md
  let b := s.me.rcb cb
  mxOff s (mmaOk s.me w b s.me.ctx.spr.shape) (mdM w ≤ b.f) none (s.myOp (.mma true) w b cb) fun c => c.fliesTile w

/-- MOUTER (R234). -/
def execMouter (md : BitVec 4) (cba cbb : BitVec 5) (h : BitVec 4) (s : State) : Outcome State Fault Refusal :=
  let w := s.me.rmd md
  let a := s.me.rcb cba
  let b := s.me.rcb cbb
  match s.me.rh h with
  | none => .next s.illegal
  | some v =>
    mxOff s (v.kind == 0 && mOk w && nOk w && 1 ≤ bandCount s.me.ctx.spr.shape && a.holds (4 * mdM w) s.me.scratch &&
        b.holds (4 * mdN w) s.me.scratch && tileOk w s.me.ctx.spr.pw) (1 ≤ a.f && 1 ≤ b.f) none
      (s.myOp (.mouter b v) w a cba) fun c => c.fliesTile w

/-- MCOMMIT (R211). -/
def execMcommit (batch : BitVec 3) (s : State) : Outcome State Fault Refusal :=
  .next (s.issue fun c => c.onMxe fun m =>
    { m with numbers := m.numbers.set batch.toNat (some m.openB), openB := m.openB + 1,
             tiles := m.tiles.map fun t => if t.batch = m.openB then { t with num := some batch } else t })

/-- MWAITB (R212). -/
def execMwaitb (batch : BitVec 3) (s : State) : Outcome State Fault Refusal :=
  let m := s.me.ctx.mxe
  match m.numbers[batch.toNat] with
  | none => .next (s.issue fun c => c)
  | some b => if m.busy b then .next s else .next (s.issue fun c => c)

/-- The destination of MOUT as a conversion code. -/
def outCvt : OutFmt → Cvt
  | .i32 => .i32
  | .bf16 => .bf16
  | .f16 => .f16
  | .f32 => .f32
  | .e4m3 => .e4m3
  | .e5m2 => .e5m2

/-- Element bytes of a MOUT destination, and the output row stride (R203, R214). -/
def outZ (d : OutFmt) : Nat := (outCvt d).bits / 8
def outStride (w : Vector Word 8) (z : Nat) : Nat := if fld w[6] 23 0 = 0 then mdN w * z else fld w[6] 23 0

/-- MOUT (R214): one RQ entry where it rounds stochastically (R149). -/
def execMout (md : BitVec 4) (as : BitVec 4) (dst : OutFmt) (rnd : Rnd) (s : State) : Outcome State Fault Refusal :=
  let w := s.me.rmd md
  let a := streamAddr (s.me.ras as) s.myRec.tag 0 1
  let z := outZ dst
  let st := outStride w z
  let ok := mOk w && nOk w && tileOk w s.me.ctx.spr.pw && flagsOk w && fld w[6] 63 40 == 0 && fld w[6] 31 25 == 0 && st % z == 0 &&
    s.me.inPool a ((mdM w - 1) * st + mdN w * z) z
  let sr := rnd == .sr
  let e := s.me.takeRq .mx
  mxOff s ok (!sr || !s.me.ctx.rq.isEmpty) (s.me.ctx.mxe.accBusy (Tile.ofMd w 0)) (s.myOp (.mout dst rnd a.toNat (if sr then e.1 else 0)) w CircBuf.zero 0)
    fun c => if sr then (c.takeRq .mx).2 else c

/-- MZERO (R215). -/
def execMzero (md : BitVec 4) (s : State) : Outcome State Fault Refusal :=
  let w := s.me.rmd md
  mxOff s (mOk w && nOk w && tileOk w s.me.ctx.spr.pw) true (s.me.ctx.mxe.accBusy (Tile.ofMd w 0)) (s.myOp .mzero w CircBuf.zero 0)
    fun c => c.fliesTile w

/-- MSHAPE (R201): SHAPE takes the mask at the end of its hand-off cycle; another mask leaves no weights latched. -/
def execMshape (mask : BitVec 4) (s : State) : Outcome State Fault Refusal :=
  mxOff s true true none (s.myOp (.mshape mask) (Vector.replicate 8 0) CircBuf.zero 0) fun c =>
    let c := c.result .mx (.spr 0x00B) 4 mask.toNat 0
    if c.ctx.spr.shape = mask then c else c.onMxe fun m => { m with lk := 0, ln := 0 }

/-- CPYM (R216): a copy with a follow-on, which captures its descriptor, SHAPE, the latched K and N, and C. -/
def execCpym (q : BitVec 3) (ed : BitVec 4) (s : State) : Outcome State Fault Refusal :=
  let follow := fun (w : Vector Word 8) =>
    let d := descOf w
    ({ zero := d.foOp == 1, md := s.me.rmd d.foMd, cb := d.foCb, c := (s.me.rcb d.foCb).c, shape := s.me.ctx.spr.shape,
       lk := s.me.ctx.mxe.lk, ln := s.me.ctx.mxe.ln } : FollowOn)
  handOff s q ed (fun w => edCommon s.me w false false && copyOk w && (descOf w).fo && (descOf w).foOp ≤ 1 &&
      mmaOk s.me (follow w).md (s.me.rcb (descOf w).foCb) s.me.ctx.spr.shape)
    (fun e => { e with follow := some (follow e.ed) }) .cpym

-- weights (R207, R208)

/-- The conversion code of a weight format. -/
def wCvt : WFmt → Cvt
  | .mxint8 => .mxint8
  | .mxe4m3 => .e4m3
  | .mxe5m2 => .e5m2
  | .mxe3m2 => .e3m2
  | .mxe2m3 => .e2m3
  | .mxe2m1 => .e2m1
  | .bf16 => .bf16
  | .f16 => .f16

/-- The weights of K-group g of column n, and whether the block's scale is 0xFF. -/
def weightsOf (fmt : WFmt) (bytes : List Byte) (K N g n : Nat) : List Num × Bool :=
  let at_ := fun (i : Nat) => (bytes.getD i 0).toNat
  let G := (K + 31) / 32
  let rows := min 32 (K - 32 * g)
  match fmt with
  | .bf16 | .f16 => ((List.range rows).map fun k => (wCvt fmt).decode (at_ (2 * (K * n + 32 * g + k)) + 256 * at_ (2 * (K * n + 32 * g + k) + 1)), false)
  | .mxe2m1 =>
    let sc := at_ (16 * G * N + G * n + g)
    ((List.range rows).map fun k => ((wCvt fmt).decode (at_ (16 * (G * n + g) + k / 2) / 16 ^ (k % 2) % 16)).shift ((sc : Int) - 127), sc == 255)
  | _ =>
    let sc := at_ (32 * G * N + G * n + g)
    ((List.range rows).map fun k => ((wCvt fmt).decode (at_ (32 * (G * n + g) + k))).shift ((sc : Int) - 127), sc == 255)

/-- One group latched (R208): 16-bit integers and an exponent, or the NaN mark, with the events. -/
def latchGroup (x : List Num × Bool) : Option (Int × List Int) × Kinds :=
  if x.2 || x.1.any (fun v => v.isNan || v.isInf) then (none, kInvalid)
  else match maxLog x.1 with
    | none => (some (-127, x.1.map fun _ => 0), 0)
    | some e =>
      let ys := x.1.map fun v =>
        let y := match v with | .fin _ m e' => roundMag .rne false 0 m (e' + 14 - e) 0 | _ => (0, true)
        let m := min y.1 32767
        let cut := 32767 < y.1
        let q : Int := if v.neg then -(m : Int) else m
        (q, kIf cut kSaturation ||| kIf (!y.2 || cut) kInexact ||| kIf (!v.isZero && m = 0) kTruncation)
      (some (e - 14, ys.map (·.1)), ys.foldl (fun k y => k ||| y.2) 0)

/-- A weight matrix latched, column by column. -/
def latch (fmt : WFmt) (bytes : List Byte) (K N : Nat) : Latched × Kinds :=
  let cols := (List.range N).map fun n => (List.range ((K + 31) / 32)).map fun g => latchGroup (weightsOf fmt bytes K N g n)
  (⟨K, N, cols.map fun c => c.map (·.1)⟩, (cols.flatMap id).foldl (fun k x => k ||| x.2) 0)

-- products (R209, R210)

/-- A row of A: for each group its exponent byte and its integers. -/
def rowBlocks (P : Nat) (row : List Byte) (G : Nat) : List (Nat × List Int) :=
  (List.range G).map fun g =>
    let v : Vec := BitVec.ofNat 1024 (leNat ((row.drop (128 * g)).take 128))
    (mxScale v, planeInts P v)

/-- The exact sum S of one element; none where it is NaN. The weights are those latched as the operation began: where a follow-on finds fewer
columns or groups than at its CPYM's issue, the missing ones count as zero (DESIGN CHOICE, log 94). -/
def mmaSum (P K : Nat) (blocks : List (Nat × List Int)) (col : List (Option (Int × List Int))) : Option Num :=
  if blocks.any (fun b => b.1 = 255) || (col.take blocks.length).any (fun w => w.isNone) then none
  else some (sumExact ((blocks.zip col).zipIdx.map fun x =>
    match x.1.2 with
    | none => Num.zero false
    | some w =>
      let G := ((x.1.1.2.take (K - 32 * x.2)).zip w.2).foldl (fun (a : Int) y => a + y.1 * y.2) 0
      (Num.ofInt G).shift (((x.1.1.1 : Int) - 127 - ((P : Int) - 2)) + w.1)))

/-- tile[m][n] after one MMA. -/
def mmaElem (zero sub : Bool) (old : Nat) (S : Option Num) : Nat × Kinds :=
  match S with
  | none => (fmtF32.nan, kInvalid)
  | some v =>
    let acc := if zero then Num.zero false else fmtF32.decode old
    if acc.isNan then (fmtF32.nan, 0)
    else if acc.isInf then (old, 0)
    else if v.isZero then (if zero then 0 else old, 0)
    else fmtF32.roundTo .rne false 0 (sumExact [acc, if sub then v.flip else v])

/-- Element (i, n) of a tile: its address in the pool. -/
def tileAt (pw : Word) (w : Vector Word 8) (i n : Nat) : Nat := accBase pw + w[4].toNat + i * w[5].toNat + 4 * n

/-- The elements of a tile in row order. -/
def tileIx (w : Vector Word 8) : List (Nat × Nat) := (List.range (mdM w)).flatMap fun i => (List.range (mdN w)).map fun n => (i, n)

/-- One MOUT element (R214). -/
def moutElem (w : Vector Word 8) (dst : OutFmt) (rnd : Rnd) (rq : BitVec 256) (i n old : Nat) : Nat × Kinds :=
  let x := fmtF32.decode old
  let x := if w[7].getLsbD 1 && x.neg && !x.isZero && !x.isNan then Num.zero false else x
  (outCvt dst).round rnd (w[6].getLsbD 24) (rndByte rq (i * mdN w + n)) (x.shift (BitVec.ofNat 8 (fld w[6] 39 32)).toInt)

/-- The blocks a MOUT writes, in address order, and its events. -/
def moutBlocks (c : Core) (o : MOp) (dst : OutFmt) (rnd : Rnd) (addr : Nat) (rq : BitVec 256) : List (List (Nat × Byte)) × Kinds :=
  let z := outZ dst
  let xs := (tileIx o.md).map fun x =>
    let r := moutElem o.md dst rnd rq x.1 x.2 (leNat (c.pool.bytes (tileAt c.ctx.spr.pw o.md x.1 x.2) 4))
    (leBytes (addr + x.1 * outStride o.md z + x.2 * z) z r.1, r.2)
  let bytes := xs.flatMap (·.1)
  let lo := addr / 128
  let hi := (addr + (mdM o.md - 1) * outStride o.md z + mdN o.md * z) / 128
  (((List.range (hi + 1 - lo)).map fun k => bytes.filter fun b => b.1 / 128 = lo + k).filter fun b => !b.isEmpty,
   xs.foldl (fun k x => k ||| x.2) 0)

-- the schedule (R167, R206, R234)

/-- Cycles of a row of an MMA. -/
def rowCycles (w : Vector Word 8) : Nat := (mdP w + 3) / 4

/-- The pieces that an operation reads: the address, the length, and the cycle after its begin. -/
def MOp.reads (o : MOp) : List (Nat × Nat × Nat) :=
  match o.kind with
  | .mloadw fmt =>
    let B := weightBytes fmt (mdK o.md) (mdN o.md)
    (List.range (ceilDiv B 128)).map fun i => (o.cb.base + o.cb.esize * o.cb.c + 128 * i, min 128 (B - 128 * i), i)
  | .mma _ => (List.range (mdM o.md)).map fun m =>
      (o.cb.base + o.cb.esize * ((o.cb.c + m) % o.cb.count), 128 * mdGroups o.md, 24 + m * rowCycles o.md)
  | .mouter b _ =>
    let na := ceilDiv (4 * mdM o.md) 128
    ((List.range na).map fun i => (o.cb.base + o.cb.esize * o.cb.c + 128 * i, min 128 (4 * mdM o.md - 128 * i), i)) ++
    (List.range (ceilDiv (4 * mdN o.md) 128)).map fun i => (b.base + b.esize * b.c + 128 * i, min 128 (4 * mdN o.md - 128 * i), na + i)
  | _ => []

/-- The cycle after its begin in which an operation has read its last row. -/
def MOp.lastRow (o : MOp) : Nat :=
  match o.kind with
  | .mma _ => 23 + mdM o.md * rowCycles o.md
  | .mouter _ _ => ceilDiv (4 * mdM o.md) 128 + ceilDiv (4 * mdN o.md) 128
  | _ => 0

/-- The cycle after its begin at whose end an operation completes; a MOUT completes with its last block. -/
def MOp.length (o : MOp) : Nat :=
  match o.kind with
  | .mshape _ => 0
  | .mloadw fmt => 16 + ceilDiv (weightBytes fmt (mdK o.md) (mdN o.md)) 128
  | .mma _ => 24 + mdM o.md * rowCycles o.md + 16 * bandCount o.shape
  | .mouter _ v => 24 + mdM o.md * v.len
  | .mout _ _ _ _ => 7
  | .mzero => mdM o.md

/-- The cycle of an operation by its schedule, refused accesses counted. -/
def MOp.at_ (o : MOp) (k : Nat) : Nat := o.begun.getD 0 + k + o.slip

/-- It has read its last row before a cycle. -/
def MOp.rowsRead (o : MOp) (cyc : Nat) : Bool := match o.rowsEnd with | some r => r < cyc | none => false

/-- Filled entries of a buffer as the MXE sees them: this cycle's slot changes left out (R216). -/
def Core.liveF (c : Core) (cb : BitVec 5) : Int := ((c.rcb cb).f : Int) - (c.cbNew.filter fun x => x.1 = cb).foldl (fun (a : Int) x => a + x.2) 0

/-- The head operation waits for entries of its buffer, which may never come (R216). -/
def Core.mxeWaits (c : Core) : Bool :=
  match c.ctx.mxe.ops with
  | [] => false
  | o :: _ => o.slot = 7 && decide (o.rcvd ≤ c.cyc) && decide (c.liveF o.cbn < (mdM o.md : Int))

/-- The task has ended, or is to restart, and no copy is left that could satisfy the follow-on at the head: it holds the engine no longer
(R216; DESIGN CHOICE, log 124). -/
def Core.followLost (c : Core) : Bool :=
  (c.ended || c.run == .restarting) && c.ctx.queues.all (fun q => q.entries.isEmpty) && c.mxeWaits

def Core.dropFollow (c : Core) : Core := c.onMxe fun m => { m with ops := m.ops.drop 1 }

/-- The operation writes a tile. -/
def MOp.writesTile (o : MOp) : Bool := match o.kind with | .mma _ | .mouter _ _ | .mzero => true | _ => false

/-- The head operation is due to begin (R167, R206, R216). -/
def Core.mxeDue (c : Core) : Bool :=
  let m := c.ctx.mxe
  match m.ops with
  | [] => false
  | o :: _ =>
    o.rcvd ≤ c.cyc && m.running.all (fun r => r.begun != some c.cyc) &&
      (match o.kind with
       | .mout _ _ _ _ | .mzero => m.running.isEmpty
       | _ => m.running.all fun r => r.rowsRead c.cyc) &&
      (o.slot != 7 || decide ((mdM o.md : Int) ≤ c.liveF o.cbn))

/-- The MXE holds a place (R205). -/
def Core.mxeRoom (c : Core) : Bool := c.ctx.mxe.ops.length < 16

/-- Bands after a mask is performed: cleared ones off, newly set ones rising until a tick (R201, R202). -/
def bandsTo (bands : Vector Band 4) (mask : BitVec 4) (tick : Nat) : Vector Band 4 :=
  Vector.ofFn fun (i : Fin 4) =>
    if mask.getLsbD i.val then (if bands[i] = Band.off then Band.rising tick else bands[i]) else Band.off

/-- A band that an operation needs is not ready. -/
def Mxe.rises (m : Mxe) (o : MOp) : Bool :=
  (List.finRange 4).any fun i => o.shape.getLsbD i.val && (match m.bands[i] with | .rising _ => true | _ => false)

/-- An operation that is due to begin needs a band that is not ready: the core is frozen (R202). Where it was due in the cycle of its receipt, which a
freeze could no longer keep from running, the core is frozen from the next cycle on. -/
def Core.bandWait (c : Core) : Bool :=
  let m := c.ctx.mxe
  (c.mxeDue && (m.ops.head?.any fun o => m.rises o)) || m.running.any fun o => o.begun.map (· + 1) == some c.cyc && m.rises o

/-- The head operation begins. MSHAPE is performed, and complete when it begins; the next operation begins no earlier than the cycle after. -/
def beginOp (s : State) (c : CoreId) : State :=
  let x := s.cores[c]
  match x.ctx.mxe.ops with
  | [] => s
  | o :: rest =>
    let o := { o with begun := some x.cyc, lat := x.ctx.mxe.latched }
    match o.kind with
    | .mshape mask =>
      let d := s.draw
      d.2.updCore c fun x => x.onMxe fun m =>
        { m with ops := rest, running := m.running ++ [{ o with rowsEnd := some x.cyc }],
                 bands := bandsTo m.bands mask (s.gcnt.toNat + Config.freeDelay d.1 % 2001),
                 latched := if o.shape = mask then m.latched else Latched.none }
    | _ =>
      let o := match o.kind with
        | .mout dst rnd a rq => let r := moutBlocks x o dst rnd a rq
          { o with outs := r.1, kinds := r.2 }
        | _ => o
      s.updCore c fun x => x.onMxe fun m => { m with ops := rest, running := m.running ++ [o] }

-- engine ports (R173)

/-- The banks of a run of bytes in the swizzled view. -/
def runBanks (a n : Nat) : List Nat := ((List.range (ceilDiv (a % 128 + n) 128)).map fun i => bankOf true (a / 128 * 128 + 128 * i)).eraseDups

/-- Who asks an engine port for a bank: a queue's reads, ZIP reads, writes and credits; a receiving bank controller and its credits; the MXE; the
array field. -/
def queueReads (q : BitVec 3) : Nat := 4 * q.toNat
def queueZreads (q : BitVec 3) : Nat := 4 * q.toNat + 1
def queueWrites (q : BitVec 3) : Nat := 4 * q.toNat + 2
def queueCredits (q : BitVec 3) : Nat := 4 * q.toNat + 3
def receiver : Nat := 32
def recvCredits : Nat := 35
def mxePort : Nat := 36
def afPort : Nat := 40

/-- Banks that an engine may take in this cycle (R173). What one entry reads, writes and credits in a cycle does not meet, nor do the accesses of the
MXE: R167 gives their times while no other work shares the banks (log 28). -/
def Core.free (c : Core) (who : Nat) (banks : List Nat) : Bool :=
  banks.all fun b =>
    !c.grants.any (fun g => g.1 = b && (g.2 / 4 != who / 4 || (g.2 == who && who != mxePort))) && !c.portBusy.any (fun p => p.1 = b && c.cyc ≤ p.2)
def Core.claim (c : Core) (who : Nat) (banks : List Nat) : Core := { c with grants := banks.map (fun b => (b, who)) ++ c.grants }

-- accesses of an operation (R206)

/-- The values that a MOUTER gives a row of its tile, with their events by (element, op) (R232, R234). A parity error in its verb makes each the
canonical NaN, and is reported as poison with its op. -/
def mouterRow (o : MOp) (v : Verb) (i : Nat) : List (Nat × List (Nat × Nat × Kinds)) :=
  let na := ceilDiv (4 * mdM o.md) 128
  let a := (o.rows.take na).flatMap id
  let b := (o.rows.drop na).flatMap id
  let w4 := fun (xs : List Byte) (i : Nat) => leNat ((xs.drop (4 * i)).take 4)
  (List.range (mdN o.md)).map fun n =>
    match v.bad with
    | some k => (fmtF32.nan, [(i * mdN o.md + n, k, kPoison)])
    | none =>
      let r := v.eval (w4 a i, false) (w4 b n, false)
      (r.1.1, r.2.1.map fun e => (i * mdN o.md + n, e.1, e.2))

/-- A row of the tile as an operation leaves it, with its events. -/
def Core.tileRow (c : Core) (o : MOp) (i : Nat) : List (Nat × List (Nat × Nat × Kinds)) :=
  match o.kind with
  | .mma zero =>
    let P := mdP o.md
    let blocks := rowBlocks P (o.rows.getD i []) (mdGroups o.md)
    (List.range (mdN o.md)).map fun n =>
      let r := mmaElem zero (o.md[7].getLsbD 0) (leNat (c.pool.bytes (tileAt c.ctx.spr.pw o.md i n) 4)) (mmaSum P (mdK o.md) blocks (o.lat.cols.getD n []))
      (r.1, [(i * mdN o.md + n, 0, r.2)])
  | .mouter _ v => mouterRow o v i
  | _ => (List.range (mdN o.md)).map fun _ => (0, [])

/-- Pieces of the tile that an operation accesses, one a cycle, and the cycle after its begin of piece k. The spec gives none: rows are written as
R210, R234 and R215 come to them and the last at completion, those of a MOUTER once both its entries have been read, and a MOUT reads what a block
holds eight cycles before it writes it (DESIGN CHOICE, log 95). -/
def MOp.pieces (o : MOp) : Nat :=
  match o.kind with
  | .mma _ | .mouter _ _ | .mzero => mdM o.md
  | .mout _ _ _ _ => o.outs.length
  | _ => 0
def MOp.pieceAt (o : MOp) (k : Nat) : Nat :=
  match o.kind with
  | .mma _ => 24 + (k + 1) * rowCycles o.md + 16 * bandCount o.shape
  | .mouter _ v => 24 + (k + 1) * v.len
  | .mzero => k + 1
  | _ => k

/-- The banks of a piece of the tile. -/
def Core.pieceBanks (c : Core) (o : MOp) (k : Nat) : List Nat :=
  match o.kind with
  | .mout dst _ addr _ =>
    let z := outZ dst
    let blk := ((o.outs.getD k []).map (·.1)).headD 0 / 128
    (((tileIx o.md).filter fun x => (addr + x.1 * outStride o.md z + x.2 * z) / 128 = blk).flatMap fun x => runBanks (tileAt c.ctx.spr.pw o.md x.1 x.2) 4).eraseDups
  | _ => runBanks (tileAt c.ctx.spr.pw o.md k 0) (4 * mdN o.md)

/-- The operation may access its tile: every operation received before it that writes one has completed (R166, R205; that it waits for one that
completes later by R206's times is a DESIGN CHOICE, log 119). -/
def Mxe.turn (m : Mxe) (o : MOp) : Bool :=
  !o.writesTile || ((m.running.find? fun r => r.writesTile).map (·.order)) == some o.order

/-- An access that falls into this cycle: granted with its effect, or refused. -/
def Core.ask (c : Core) (o : MOp) (due : Bool) (banks : List Nat) (f : Core → MOp → Core × MOp) : Core × MOp × Bool :=
  if !due then (c, o, false) else if c.free mxePort banks then (let r := f (c.claim mxePort banks) o; (r.1, r.2, false)) else (c, o, true)

/-- The read of its next operand piece. -/
def Core.mxeRead (c : Core) (o : MOp) : Core × MOp × Bool :=
  match o.reads[o.rows.length]? with
  | none => (c, o, false)
  | some r => c.ask o (o.at_ r.2.2 ≤ c.cyc) (runBanks r.1 r.2.1) fun d o =>
      (d, { o with rows := o.rows ++ [c.pool.bytes r.1 r.2.1], pois := o.pois || c.pool.tainted r.1 r.2.1 })

/-- Piece k of its tile falls into this cycle: its schedule has come to it, and a MOUTER has read both its entries. -/
def Core.pieceDue (c : Core) (o : MOp) (k : Nat) : Bool :=
  decide (k < o.pieces) && decide (o.at_ (o.pieceAt k) ≤ c.cyc) && c.ctx.mxe.turn o &&
    (match o.kind with | .mouter _ _ => o.rows.length == o.reads.length | _ => true)

/-- Its access to the next piece of its tile, and to those after it that fall into the same cycle. -/
def Core.mxeTile (c : Core) : Nat → MOp → Core × MOp × Bool
  | 0, o => (c, o, false)
  | n + 1, o =>
    let k := o.tiles
    if !c.pieceDue o k then (c, o, false)
    else
      let r := c.ask o true (c.pieceBanks o k) fun d o =>
        if o.writesTile then
          let xs := c.tileRow o k
          (d.endWrite (xs.zipIdx.flatMap fun x => leBytes (tileAt c.ctx.spr.pw o.md k x.2) 4 x.1.1), { o with tiles := k + 1, evs := o.evs ++ xs.flatMap (·.2) })
        else (d, { o with tiles := k + 1 })
      if r.2.2 then r else r.1.mxeTile n r.2.1

/-- A MOUT's write of its next block. -/
def Core.mxeWrite (c : Core) (o : MOp) : Core × MOp × Bool :=
  match o.outs[o.wrote]? with
  | none => (c, o, false)
  | some b => c.ask o (o.wrote < o.tiles && o.at_ (8 + o.wrote) ≤ c.cyc) (runBanks ((b.map (·.1)).headD 0) 1) fun d o =>
      (d.endWrite b, { o with wrote := o.wrote + 1 })

/-- The accesses of one running operation that fall into this cycle; a cycle with a refused one delays it, every later one and the completion. -/
def Core.mxeAccess (c : Core) (o : MOp) : Core :=
  let a := c.mxeRead o
  let b := a.1.mxeTile o.pieces a.2.1
  let d := b.1.mxeWrite b.2.1
  let o' := { d.2.1 with slip := o.slip + (if a.2.2 || b.2.2 || d.2.2 then 1 else 0) }
  d.1.onMxe fun m => { m with running := m.running.map fun r => if r.order = o.order then o' else r }

/-- The MXE's port accesses of this cycle, oldest operation first, and the marks of last rows read. -/
def Core.mxeAccesses (c : Core) : Core :=
  let c := c.ctx.mxe.running.foldl (fun c o => c.mxeAccess o) c
  c.onMxe fun m => { m with running := m.running.map fun o =>
    match o.kind with
    | .mma _ | .mouter _ _ => if o.rowsEnd.isNone && o.rows.length = o.reads.length && o.at_ o.lastRow ≤ c.cyc then { o with rowsEnd := some c.cyc } else o
    | _ => o }

/-- An operation under way completes at the end of this cycle. -/
def Core.mxeDone (c : Core) (o : MOp) : Bool :=
  match o.kind with
  | .mshape _ => true
  | .mout _ _ _ _ => o.outs.length = o.wrote
  | _ => o.rows.length = o.reads.length && o.tiles = o.pieces && o.at_ o.length ≤ c.cyc

/-- The reports that an operation makes at its completion. -/
def MOp.reports (o : MOp) : List (Nat × Kinds) :=
  let pz : List (Nat × Kinds) := if o.pois then [(0, kPoison)] else []
  match o.kind with
  | .mloadw fmt => (0, (latch fmt (o.rows.flatMap id) (mdK o.md) (mdN o.md)).2) :: pz
  | .mout _ _ _ _ => [(0, o.kinds)]
  | .mshape _ | .mzero => []
  | _ => stepReports o.evs ++ pz

/-- An operation completes: its weights are latched, its events are reported (R205). -/
def Core.mxeFinish (c : Core) (o : MOp) : Core :=
  let c := o.reports.foldl (fun c x => c.report ⟨x.2, o.slot, o.bundle, x.1, .handoff o.order⟩) c
  c.onMxe fun m =>
    { m with running := m.running.filter (fun x => x.order != o.order),
             latched := (match o.kind with | .mloadw fmt => (latch fmt (o.rows.flatMap id) (mdK o.md) (mdN o.md)).1 | _ => m.latched) }

end Sys2Proof.Machine
end

