-- ==== Sys2Proof/Machine/Array.lean ====
section
/-!
DEFINITION. The array field: the S6 words (R241–R258), the schedule of their words and of engine blocks (R249–R251), what they read and
write (R245, R255–R259), and the arrival of engine blocks on beats (R238–R240).
-/
namespace Sys2Proof.Machine

open Host

-- regions (R243–R245)

/-- Limits of a descriptor in use (R243); ww is AMVM's alone. -/
def adOk (w : Vector Word 6) : Bool :=
  w[0].toNat ≤ 63 && w[1].toNat < 512 && 1 ≤ w[2].toNat && w[1].toNat + w[2].toNat ≤ 512 && w[3].toNat < 1024 && 1 ≤ w[4].toNat &&
    w[3].toNat + w[4].toNat ≤ 1024

def adArr (w : Vector Word 6) : Nat := w[0].toNat
def adRows (w : Vector Word 6) : Nat := w[2].toNat
def adCol (w : Vector Word 6) : Nat := w[3].toNat
def adCols (w : Vector Word 6) : Nat := w[4].toNat
/-- Bits of the region. -/
def adBits (w : Vector Word 6) : Nat := adRows w * adCols w
/-- Byte address of row i of the region's array (R185, R241). -/
def adRowAt (w : Vector Word 6) (i : Nat) : Nat := adArr w * 65536 + (w[1].toNat + i) * 128

/-- The bits of one row of a region, as a number. -/
def rowField (m : Mem) (w : Vector Word 6) (i : Nat) : Nat := leNat (m.bytes (adRowAt w i) 128) / 2 ^ adCol w % 2 ^ adCols w

/-- The columns of a row of a region that read as poisoned: bit c for column c of the region (R242). -/
def rowPoison (m : Mem) (w : Vector Word 6) (i : Nat) : Nat :=
  (List.range (adCols w)).foldl (fun a c => if m.poison.contains (adRowAt w i + (adCol w + c) / 8) then a + 2 ^ c else a) 0

/-- The residue groups of 32 columns that a write of columns lo … lo + n − 1 covers whole (R242). -/
def wholeGroups (lo n : Nat) : List Nat := (List.range 32).filter fun g => lo ≤ 32 * g && 32 * g + 32 ≤ lo + n

/-- Row bits written; a poisoned group stays so until one write covers it whole. `bad` lists groups written with their check in mismatch. -/
def writeRow (m : Mem) (base lo n v : Nat) (bad : List Nat) : Mem :=
  let old := leNat (m.bytes base 128)
  let new := old - old / 2 ^ lo % 2 ^ n * 2 ^ lo + v % 2 ^ n * 2 ^ lo
  let cells := (List.range 128).foldl (fun (m : Mem) i =>
    if lo / 8 ≤ i && i ≤ (lo + n - 1) / 8 then ⟨putCell (base + i) (BitVec.ofNat 8 (new / 256 ^ i)) m.cells, m.poison⟩ else m) m
  let mark := fun (m : Mem) (g : Nat) (on : Bool) =>
    (List.range 4).foldl (fun (m : Mem) i => (⟨m.cells, putNat on (base + 4 * g + i) m.poison⟩ : Mem)) m
  let m := (wholeGroups lo n).foldl (fun m g => mark m g false) cells
  bad.foldl (fun m g => mark m g true) m

/-- A region written from a bit stream (R245). -/
def writeRegion (m : Mem) (w : Vector Word 6) (bits : Nat) : Mem :=
  (List.range (adRows w)).foldl (fun m i => writeRow m (adRowAt w i) (adCol w) (adCols w) (bits / 2 ^ (i * adCols w)) []) m

/-- A region as a bit stream. -/
def streamOf (rows : List Nat) (nc : Nat) : Nat := packNat nc rows

-- hand-off (R247, R249)

/-- The beat a word names, or its mismatch or parity trap (R247). -/
def beatTrap (s : State) (b : BitVec 5) (inArray : Bool) : Option TrapReq :=
  let r := s.myRec
  let p := r.tag.beat.toNat
  let bad := fun (k : Nat) => some (⟨r.seq, 0x0A, mkWord [(p, 48), (b.toNat, 40), (k, 8), (6, 0)], s.myWord.zeroExtend 64⟩ : TrapReq)
  if b.toNat != 31 && b.toNat != p % 32 then bad 0
  else if (p % 2 == 1) != inArray then bad 1
  else none

/-- The array, or group, that a word occupies: arrays 0–63, then the groups (R249). -/
def ArWord.keys (w : ArWord) : List Nat :=
  match w.work with
  | .aacc _ acc _ _ => [64 + acc.toNat]
  | .amvm acc _ _ _ _ _ _ _ => [adArr w.ad, 64 + acc.toNat]
  | _ => [adArr w.ad]

/-- A word goes into the array field (R249). -/
def Core.pushAr (c : Core) (work : ArWork) (ad : Vector Word 6) (b : BundleRec) (kinds : Kinds := 0) : Core :=
  let w : ArWord :=
    { work := work, ad := ad, beat := b.tag.beat, bundle := b.pc, seq := b.seq, order := c.orders, issue := c.cyc, slip := 0, start := none,
      writes := none, got := [], kinds := kinds }
  ({ c with orders := c.orders + 1 } : Core).onAf fun a => { a with words := a.words ++ [w] }

/-- The checks of a word with a beat, its own and its beat; where both fail, R54 takes the illegal trap, the lower cause. Then it is handed off. -/
def arOff (s : State) (b : BitVec 5) (inArray ok : Bool) (info : Word) (f : Core → Core) : Outcome State Fault Refusal :=
  if !ok then .next (s.illegal info)
  else match beatTrap s b inArray with
    | some r => .next (s.issue fun c => c.reqTrap r)
    | none => .next (s.issue f)

/-- The address record of a failed array-field check (R253). -/
def arInfo (a : Word) : Word := mkWord [(fld a 31 0, 32)]

/-- ADSET (R244). -/
def execAdset (ad field : BitVec 3) (sa : BitVec 6) (s : State) : Outcome State Fault Refusal :=
  .next (s.issue fun c => c.result .ar (.ad ad field) 64 (c.rs sa).toNat 1)

/-- The pool checks of AST and ALD (R253). -/
def astOk (c : Core) (w : Vector Word 6) (a : Word) : Bool :=
  adOk w && adCols w % 8 == 0 && adBits w ≤ 1024 && c.inPool a (adBits w / 8) 1 && a.toNat % 128 + adBits w / 8 ≤ 128

/-- AST (R253): it reads its bytes in its hand-off cycle through the engine port, or, refused, in the first later cycle that grants them. -/
def execAst (b : BitVec 5) (ad : BitVec 3) (as : BitVec 4) (s : State) : Outcome State Fault Refusal :=
  let w := s.me.rad ad
  let a := streamAddr (s.me.ras as) s.myRec.tag 0 1
  arOff s b false (astOk s.me w a) (arInfo a) fun c => c.pushAr (.ast a.toNat (c.ras as).view none) w (c.wordRec .ar)

/-- ALD (R253). -/
def execAld (b : BitVec 5) (ad : BitVec 3) (as : BitVec 4) (s : State) : Outcome State Fault Refusal :=
  let w := s.me.rad ad
  let a := streamAddr (s.me.ras as) s.myRec.tag 0 1
  arOff s b false (astOk s.me w a) (arInfo a) fun c => c.pushAr (.ald a.toNat (c.ras as).view) w (c.wordRec .ar)

/-- ASTV (R254). -/
def execAstv (b : BitVec 5) (ad : BitVec 3) (va : BitVec 6) (s : State) : Outcome State Fault Refusal :=
  let w := s.me.rad ad
  arOff s b false (adOk w && adBits w ≤ 1024 && s.me.vregOk (.astv b ad va)) 0 fun c => c.pushAr (.astv (c.rv va)) w (c.wordRec .ar)

/-- ALDV (R254). -/
def execAldv (b : BitVec 5) (ad : BitVec 3) (vd : BitVec 6) (s : State) : Outcome State Fault Refusal :=
  let w := s.me.rad ad
  arOff s b false (adOk w && adBits w ≤ 1024 && s.me.vregOk (.aldv b ad vd)) 0 fun c => c.pushAr (.aldv vd) w (c.wordRec .ar)

/-- AMVM (R257): also a ninth array of its group is refused, counting the words before it. -/
def execAmvm (b : BitVec 5) (ad : BitVec 3) (as : BitVec 4) (acc : BitVec 3) (planes : BitVec 4) (zero : Bool) (s : State) :
    Outcome State Fault Refusal :=
  let w := s.me.rad ad
  let a := streamAddr (s.me.ras as) s.myRec.tag 0 1
  let ww := w[5].toNat
  let G := ceilDiv (adRows w) 32
  let members := s.me.ctx.af.words.foldl (fun (m : List Nat) x =>
    match x.work with
    | .amvm g z _ _ _ _ _ _ => if g = acc then (adArr x.ad :: (if z then [] else m)).eraseDups else m
    | _ => m) ((s.me.ctx.af.groups[acc.toNat]).arrays)
  let room := zero || members.contains (adArr w) || members.length < 8
  let ok := adOk w && (ww == 2 || ww == 4 || ww == 8) && adCols w % ww == 0 && adCols w / ww ≤ 128 && s.me.inPool a (128 * G) 128 && room
  arOff s b true ok (arInfo a) fun c =>
    c.pushAr (.amvm acc zero (planes.toNat + 1) a.toNat (c.ras as).view c.ctx.spr.arows.toNat [] false) w (c.wordRec .ar)

/-- Element width in bits (R255). -/
def arBits (w : ArWidth) : Nat := match w with | .b8 => 8 | .b16 => 16 | .b32 => 32

/-- AROP (R255). -/
def execArop (b : BitVec 5) (add : BitVec 3) (op : ArFn) (ads : BitVec 3) (ew : ArWidth) (sat : Bool) (imm : BitVec 5) (s : State) :
    Outcome State Fault Refusal :=
  let d := s.me.rad add
  let x := s.me.rad ads
  let same := op == .zero || (adOk x && adArr x == adArr d && adCol x == adCol d && adCols x == adCols d && adRows x == adRows d)
  arOff s b true (adOk d && adCols d % arBits ew == 0 && same) 0 fun c => c.pushAr (.arop op x ew sat imm.toNat) d (c.wordRec .ar)

/-- AACC (R258). -/
def execAacc (vd : BitVec 6) (acc : BitVec 3) (part : BitVec 2) (toI32 : Bool) (s : State) : Outcome State Fault Refusal :=
  if !s.me.vregOk (.aacc vd acc part toI32) then .next s.illegal
  else .next (s.issue fun c => c.pushAr (.aacc vd acc part toI32) (Vector.replicate 6 0) (c.wordRec .ar))

-- the schedule (R249)

/-- Plane blocks of a word that reads them. -/
def ArWord.blocks (w : ArWord) : Nat := match w.work with | .amvm _ _ _ _ _ _ _ _ => ceilDiv (adRows w.ad) 32 | _ => 1

/-- AF cycles that a word occupies. -/
def ArWord.u (w : ArWord) : Nat :=
  match w.work with
  | .arop _ _ _ _ _ => adRows w.ad
  | .amvm _ _ P _ _ arows _ _ =>
    P * ((List.range (ceilDiv (adRows w.ad) 32)).map fun g => ceilDiv (min 32 (adRows w.ad - 32 * g)) arows).foldl (· + ·) 0
  | _ => 1

/-- Cycles from its start to its landing. -/
def ArWord.lands (w : ArWord) : Nat :=
  match w.work with
  | .ast _ _ _ | .astv _ | .arop _ _ _ _ _ => 2 * w.u - 1
  | _ => 2 * w.u + 1

/-- The cycle in which a started word lands, by its schedule. -/
def ArWord.landAt (w : ArWord) : Nat := w.start.getD 0 + w.lands + w.slip

/-- The next plane block of an AMVM is read in this cycle, if its bank grants it (R249). -/
def Core.arRead (c : Core) (w : ArWord) : Core :=
  let put := fun (c : Core) (x : ArWord) => c.onAf fun a => { a with words := a.words.map fun y => if y.order = w.order then x else y }
  match w.work with
  | .amvm acc z P a view rows blocks pz =>
    if w.start.isSome || w.blocks ≤ blocks.length || c.cyc < w.issue + blocks.length + w.slip then c
    else
      let at_ := a + 128 * blocks.length
      let banks := [bankOf view at_]
      if c.free afPort banks then
        put (c.claim afPort banks) { w with work := .amvm acc z P a view rows (blocks ++ [c.pool.bytes at_ 128]) (pz || c.pool.tainted at_ 128) }
      else put c { w with slip := w.slip + 1 }
  | .ast a view none =>
    if c.cyc < w.issue + w.slip then c
    else
      let banks := [bankOf view a]
      let n := adBits w.ad / 8
      if c.free afPort banks then
        put (c.claim afPort banks) { w with work := .ast a view (some (c.pool.bytes a n)), kinds := w.kinds ||| kIf (c.pool.tainted a n) kPoison }
      else put c { w with slip := w.slip + 1 }
  | _ => c

/-- An array, or group, is occupied in this cycle. -/
def Core.afBusy (c : Core) (k : Nat) : Bool := c.ctx.af.busy.any fun b => b.1 = k && c.cyc ≤ b.2

/-- A word can start: its blocks are read, its time has come, no late block of the beat is still to be written (R239), nothing before it waits for
its array or group, and both are free. -/
def Core.arDue (c : Core) (w : ArWord) : Bool :=
  let ready := match w.work with
    | .amvm _ _ _ _ _ _ blocks _ => blocks.length = w.blocks && w.issue + w.blocks + w.slip ≤ c.cyc
    | .ast _ _ none => false
    | _ => w.issue + 1 + w.slip ≤ c.cyc
  let held := match w.work with | .aacc _ _ _ _ => false | _ => c.ctx.af.active.any (·.late)
  w.start.isNone && ready && !held && w.keys.all (fun k => !c.afBusy k) &&
    c.ctx.af.words.all (fun x => !(x.start.isNone && x.order < w.order && x.keys.any fun k => w.keys.contains k))

/-- A word starts: it takes what it needs of the rows, and their poison (R249, R259). From here on the cycle in which it writes a vector register is
fixed, and a collision with another slot's write is found (R61). -/
def Core.arStart (c : Core) (w : ArWord) : Core :=
  let src := match w.work with | .arop _ x _ _ _ => x | _ => w.ad
  let n := adRows w.ad
  let fields := match w.work with
    | .aacc _ _ _ _ | .ast _ _ _ | .astv _ => []
    | .arop _ _ _ _ _ => ((List.range n).map fun i => rowField c.rows src i) ++ ((List.range n).map fun i => rowPoison c.rows src i) ++
        (List.range n).map fun i => rowField c.rows w.ad i
    | _ => ((List.range n).map fun i => rowField c.rows src i) ++ (List.range n).map fun i => rowPoison c.rows src i
  let writes := match w.work with | .aldv vd => some (vd, c.cyc + w.lands) | .aacc vd _ _ _ => some (vd, c.cyc + w.lands) | _ => none
  let w' := { w with start := some c.cyc, slip := 0, writes := writes, got := fields }
  let c := match writes with
    | some r => c.collide { seq := w.seq, slot := .ar, bundle := w.bundle, reg := .v r.1, val := 0, mask := 0, due := r.2, kinds := 0, pend := false }
    | none => c
  c.onAf fun a =>
    { a with words := a.words.map (fun y => if y.order = w.order then w' else y),
             busy := (w.keys.map fun k => (k, c.cyc + 2 * w.u - 1)) ++ a.busy.filter fun b => c.cyc ≤ b.2 }

-- what words do (R255–R259)

/-- One AROP element: the value and whether it saturated. -/
def aropElem (op : ArFn) (bits : Nat) (sat : Bool) (imm a d : Nat) : Nat × Kinds :=
  let x := signed bits a
  let y := signed bits d
  let v : Int := match op with
    | .add => y + x
    | .sub => y - x
    | .shl => x * 2 ^ imm
    | .sar => x / 2 ^ imm
    | .max => max y x
    | .min => min y x
    | .copy => x
    | .zero => 0
  let hi : Int := 2 ^ (bits - 1) - 1
  if v < -hi - 1 ∨ hi < v then
    if sat then (intBits bits (if v < 0 then -hi - 1 else hi), kSaturation) else (intBits bits v, 0)
  else (intBits bits v, 0)

/-- The rows of an AROP: new contents and the destination groups that a poisoned source group feeds, through any element it lies in (R259). -/
def aropRows (w : ArWord) (op : ArFn) (bits : Nat) (sat : Bool) (imm : Nat) : List (Nat × List Nat) × Kinds :=
  let n := adRows w.ad
  let nc := adCols w.ad
  let ys := (List.range n).map fun i =>
    let s := w.got.getD i 0
    let pz := if op = .zero then 0 else w.got.getD (n + i) 0
    let d := w.got.getD (2 * n + i) 0
    let es := (List.range (nc / bits)).map fun m => aropElem op bits sat imm (s / 2 ^ (bits * m) % 2 ^ bits) (d / 2 ^ (bits * m) % 2 ^ bits)
    let hit := (List.range (nc / bits)).filter fun m => pz / 2 ^ (bits * m) % 2 ^ bits != 0
    let bad := hit.flatMap fun m => [(adCol w.ad + bits * m) / 32, (adCol w.ad + bits * m + bits - 1) / 32]
    ((packNat bits (es.map (·.1)), bad.eraseDups), es.foldl (fun k e => k ||| e.2) (kIf (!hit.isEmpty) kPoison))
  (ys.map (·.1), ys.foldl (fun k y => k ||| y.2) 0)

/-- A saturating 48-bit output. -/
def sat48 (v : Int) : Int × Kinds :=
  if v < -(2 ^ 47) then (-(2 ^ 47), kSaturation) else if 2 ^ 47 - 1 < v then (2 ^ 47 - 1, kSaturation) else (v, 0)

/-- A contribution added to a group (R256). -/
def AccGroup.contribute (g : AccGroup) (T : List Int) (e : Int) : AccGroup × Kinds :=
  if T.all (· = 0) then (g, 0)
  else
    let x0 := g.x.getD e
    let x := min x0 e
    let s := Vector.ofFn fun (i : Fin 128) => sat48 (g.s[i] * 2 ^ (x0 - x).toNat + T.getD i.val 0 * 2 ^ (e - x).toNat)
    ({ g with s := s.map (·.1), x := some x }, s.foldl (fun k y => k ||| y.2) 0)

/-- Bits 0 … n − 1 set. -/
def firstN (n : Nat) : BitVec 128 := BitVec.ofNat 128 (2 ^ n - 1)

/-- The signed weight (k, n) of the rows taken at the start. -/
def weightAt (w : ArWord) (ww k n : Nat) : Int := signed ww (w.got.getD k 0 / 2 ^ (n * ww) % 2 ^ ww)

/-- An AMVM's effect on its group (R257, R259). -/
def amvmGroup (w : ArWord) (g : AccGroup) (zero : Bool) (P : Nat) (blocks : List (List Byte)) (pz : Bool) : AccGroup × Kinds :=
  let ww := w.ad[5].toNat
  let N := adCols w.ad / ww
  let K := adRows w.ad
  let g0 := if zero then AccGroup.clear else g
  let g0 := { g0 with arrays := (adArr w.ad :: g0.arrays).eraseDups }
  let r := blocks.zipIdx.foldl (fun (a : AccGroup × Kinds) x =>
    let v : Vec := BitVec.ofNat 1024 (leNat x.1)
    let E := mxScale v
    if E = 255 then ({ a.1 with nan := a.1.nan ||| firstN N }, a.2 ||| kInvalid)
    else if E = 0 then a
    else
      let qs := planeInts P v
      let rows := min 32 (K - 32 * x.2)
      let T := (List.range N).map fun n =>
        (List.range rows).foldl (fun (t : Int) k => t + qs.getD k 0 * weightAt w ww (32 * x.2 + k) n) 0
      let y := a.1.contribute T ((E : Int) - 127 - ((P : Int) - 2))
      (y.1, a.2 ||| y.2)) (g0, 0)
  let hit := (List.range N).filter fun n => (List.range K).any fun k => w.got.getD (K + k) 0 / 2 ^ (n * ww) % 2 ^ ww != 0
  let mask := (if pz then firstN N else 0) ||| BitVec.ofNat 128 (hit.foldl (fun a n => a + 2 ^ n) 0)
  ({ r.1 with poison := r.1.poison ||| mask }, r.2 ||| kIf (mask != 0) kPoison)

/-- One element of AACC (R258). -/
def aaccElem (g : AccGroup) (toI32 : Bool) (m : Nat) : Nat × Kinds :=
  let bad := if toI32 then 0 else fmtF32.nan
  if g.poison.getLsbD m then (bad, kPoison)
  else if g.nan.getLsbD m then (bad, kInvalid)
  else match g.x with
    | none => (0, 0)
    | some x =>
      let v := (Num.ofInt (g.s.toArray.getD m 0)).shift x
      if toI32 then let r := roundInt 32 .rne true 0 v
        (intBits 32 r.1, r.2)
      else fmtF32.roundTo .rne false 0 v

/-- A landing of a word as a slot result of this cycle. -/
def arFlight (c : Core) (w : ArWord) (reg : Reg) (val : Nat) (mask : Payload) (kinds : Kinds) : Flight :=
  { seq := w.seq, slot := .ar, bundle := w.bundle, reg := reg, val := BitVec.ofNat 2048 val, mask := mask, due := c.cyc, kinds := kinds,
    pend := false }

/-- A word leaves the array field with a slot result. -/
def Core.arOut (c : Core) (w : ArWord) (f : Flight) : Core :=
  ({ c with flights := c.flights ++ [f] } : Core).onAf fun a => { a with words := a.words.filter fun y => y.order != w.order }

/-- A word lands (R249): rows, pool, register or group, and its events with slot 6. An ALD needs its bank. -/
def Core.arLand (c : Core) (w : ArWord) : Core :=
  let n := adRows w.ad
  let taint := fun (x : ArWord) => ((x.got.drop n).take n).any fun p => p != 0
  match w.work with
  | .ast _ _ bytes =>
    ({ c with rows := writeRegion c.rows w.ad (leNat (bytes.getD [])) } : Core).arOut w (arFlight c w (.s 0) 0 0 w.kinds)
  | .astv v => ({ c with rows := writeRegion c.rows w.ad v.toNat } : Core).arOut w (arFlight c w (.s 0) 0 0 w.kinds)
  | .ald addr view =>
    let banks := [bankOf view addr]
    if c.free afPort banks then
      let v := streamOf (w.got.take n) (adCols w.ad)
      let k := w.kinds ||| kIf (taint w) kPoison
      (((c.claim afPort banks).endWrite (leBytes addr (adBits w.ad / 8) v) (taint w)).arOut w (arFlight c w (.s 0) 0 0 k))
    else c.onAf fun a => { a with words := a.words.map fun y => if y.order = w.order then { w with slip := w.slip + 1 } else y }
  | .aldv vd =>
    c.arOut w (arFlight c w (.v vd) (streamOf (w.got.take n) (adCols w.ad)) (lowMask (adBits w.ad)) (w.kinds ||| kIf (taint w) kPoison))
  | .arop op _ ew sat imm =>
    let r := aropRows w op (arBits ew) sat imm
    let rows := r.1.zipIdx.foldl (fun m x => writeRow m (adRowAt w.ad x.2) (adCol w.ad) (adCols w.ad) x.1.1 x.1.2) c.rows
    ({ c with rows := rows } : Core).arOut w (arFlight c w (.s 0) 0 0 (w.kinds ||| r.2))
  | .amvm acc zero P _ _ _ blocks pz =>
    let r := amvmGroup w (c.ctx.af.groups[acc.toNat]) zero P blocks pz
    (c.onAf fun a => { a with groups := a.groups.set acc.toNat r.1 }).arOut w (arFlight c w (.s 0) 0 0 (w.kinds ||| r.2))
  | .aacc vd acc part toI32 =>
    let g := c.ctx.af.groups[acc.toNat]
    let xs := (List.range 32).map fun i => aaccElem g toI32 (32 * part.toNat + i)
    c.arOut w (arFlight c w (.v vd) (packNat 32 (xs.map (·.1))) (lowMask 1024) (w.kinds ||| unionKinds xs))

def ArWord.isAld (w : ArWord) : Bool := match w.work with | .ald _ _ => true | _ => false

/-- A started word lands in this cycle. -/
def Core.arLandDue (c : Core) (w : ArWord) : Bool := w.start.isSome && w.landAt ≤ c.cyc

-- engine blocks on beats (R238, R239, R250, R251)

/-- Beat b has been reached by beat o (R238, R181). -/
def beatReached (o b : BitVec 16) : Bool := (o - b).toNat < 2 ^ 15

/-- The fate of a block that arrives: admitted, waiting in the buffer, refused by a full buffer, or late. -/
inductive Fate where
  | enter | wait | refuse | late
  deriving DecidableEq, Repr

/-- A block for the open beat is admitted, in the cycle in which its close completes too (R238; the latter a DESIGN CHOICE, log 123); a later one waits
for its beat or is refused, an earlier one is late. -/
def Af.fate (a : Af) (beat : BitVec 16) : Fate :=
  if a.openBeat = beat then .enter
  else if !beatReached a.openBeat beat then (if a.pending.length < 8 then .wait else .refuse)
  else .late

/-- The task has ended or is to restart: no further beat opens, and blocks for later beats are let in
(R77, R360; DEDUCED, log 126). -/
def Core.lastBeat (c : Core) : Bool := c.ended || c.run == .restarting

/-- There a block for a later beat is admitted as it arrives; a late one meets its fate as ever (R239). -/
def Core.afFate (c : Core) (beat : BitVec 16) : Fate :=
  match c.ctx.af.fate beat with
  | .late => .late
  | f => if c.lastBeat then .enter else f

/-- An admitted block takes the next free AF cycle of its array (R250). -/
def Core.afTake (c : Core) (b : AfBlock) : Core :=
  c.onAf fun a =>
    { a with active := a.active.map (fun y => if y.id = b.id then { y with at_ := some (c.cyc + 1) } else y),
             busy := (b.addr / 65536, c.cyc + 1) :: a.busy.filter fun x => c.cyc ≤ x.2 }

/-- A block may take its AF cycle now. Late blocks take theirs one after another in the order of their arrival, and before any other access of the
beat (R239). -/
def Core.afCan (c : Core) (b : AfBlock) : Bool :=
  b.at_.isNone && !c.afBusy (b.addr / 65536) &&
    (match c.ctx.af.active.find? (·.late) with | some y => y.id = b.id | none => true)

/-- The block's AF cycle ends now. -/
def Core.afDue (c : Core) (b : AfBlock) : Bool := match b.at_ with | some t => t ≤ c.cyc | none => false

/-- Engine bytes written into a row: each byte's residue groups follow R242; poisoned bytes put their groups in mismatch. -/
def writeAfBytes (m : Mem) (bs : List (Nat × Byte)) (poison : Bool) : Mem :=
  let groups := (bs.map fun x => x.1 / 4).eraseDups
  let data := bs.foldl (fun (m : Mem) x => ⟨putCell x.1 x.2 m.cells, m.poison⟩) m
  groups.foldl (fun m g =>
    let whole := (List.range 4).all fun i => bs.any fun x => x.1 = 4 * g + i
    if poison then (List.range 4).foldl (fun (m : Mem) i => (⟨m.cells, putNat true (4 * g + i) m.poison⟩ : Mem)) m
    else if whole then (List.range 4).foldl (fun (m : Mem) i => (⟨m.cells, putNat false (4 * g + i) m.poison⟩ : Mem)) m
    else m) data

/-- The beat-late trap (R240). -/
def lateTrap (beat open_ : BitVec 16) (q : BitVec 3) (addr : Nat) : ImpTrap :=
  ⟨0x08, mkWord [(beat.toNat, 48), (open_.toNat, 32), (q.toNat, 8), (7, 0)], BitVec.ofNat 64 (3 * 2 ^ 60 + spOff addr), none, none⟩

/-- The next beat opens: held blocks are written first, in arrival order, where it is an access beat; waiting blocks of the beat are
admitted (R238, R239). -/
def Af.openNext (a : Af) : Af :=
  let b := a.openBeat + 1
  let access := b.toNat % 2 == 0
  let fit := a.pending.filter fun x => x.beat = b
  { a with openBeat := b, closing := none, active := a.active ++ (if access then a.held else []) ++ fit,
           held := if access then [] else a.held, pending := a.pending.filter fun x => x.beat != b }

end Sys2Proof.Machine
end

