-- ==== Sys2Proof/Machine/BitNet.lean ====
section
/-!
DEFINITION. The meanings of the S4 XN words: the bit network (R137–R139), the conversions (R151–R155) and XRNG (R156).
-/
namespace Sys2Proof.Machine

open Host

/-- One output byte of the network (R139): source, reverse, rotate, invert, zero, in this order. -/
def netByte (src : Nat) (e : BitVec 16) : Nat :=
  let x := src / 2 ^ (8 * fld e 7 0) % 256
  let x := if e.getLsbD 11 then packNat 1 ((List.range 8).map fun i => x / 2 ^ (7 - i) % 2) else x
  let r := fld e 10 8
  let x := (x * 2 ^ r + x / 2 ^ (8 - r)) % 256
  let x := if e.getLsbD 13 then 255 - x else x
  if e.getLsbD 12 then 0 else x

/-- XNET (R139): the pair va, va + 1 through pattern k. -/
def execXnet (k : BitVec 3) (vd va : BitVec 6) (s : State) : Outcome State Fault Refusal :=
  withV s [vd, va, va + 1] (
    let pair := (s.me.rv va).toNat + 2 ^ 1024 * (s.me.rv (va + 1)).toNat
    putVM s vd (lowMask 1024) (packNat 8 ((s.me.ctx.pat[k.toNat]).toList.map (netByte pair))) 3)

/-- XNLOAD (R138): 256 bytes into pattern k. -/
def execXnload (k : BitVec 3) (as : BitVec 4) (s : State) : Outcome State Fault Refusal :=
  let a := s.addr as 0 1
  if s.me.inPool a 256 256 then loadTo s (.pat k) as a 256 2048 3 5 (lowMask 2048) (.load (.pat k) 0 0 false [])
  else .next (s.illegal (addrInfo a))

/-- A conversion word: it takes an RQ entry where its rounding is stochastic (R149), then writes the bits of a mask. -/
def convWord (s : State) (vd : BitVec 6) (rnd : Rnd) (lat : Nat) (f : BitVec 256 → Payload × Nat × Kinds) : Outcome State Fault Refusal :=
  if rnd = .sr ∧ s.me.ctx.rq = [] then .next s
  else .next (s.issue fun c =>
    let e := if rnd = .sr then c.takeRq s.cur.slot else (0, c)
    let r := f e.1
    let b := s.myRec
    e.2.fly { seq := b.seq, slot := s.cur.slot, bundle := b.pc, reg := .v vd, val := BitVec.ofNat 2048 r.2.1, mask := r.1,
              due := c.cyc + lat, kinds := r.2.2, pend := false })

/-- XCVT and XCVTH (R151): N elements between a narrow part and the whole register; `high` takes the next narrow part. -/
def cvtVec (src dst : Cvt) (rnd : Rnd) (sat high : Bool) (v : Vec) (e : BitVec 256) : Payload × Nat × Kinds :=
  let bs := src.bits
  let bd := dst.bits
  let n := 1024 / max bs bd
  let lo := if high then n else 0
  let xs := (List.range n).map fun i => src.convert dst rnd sat (rndByte e i) (elem v bs (if bs < bd then lo + i else i))
  let val := packNat bd (xs.map (·.1))
  if bd < bs then (BitVec.ofNat 2048 ((2 ^ (n * bd) - 1) * 2 ^ (lo * bd)), val * 2 ^ (lo * bd), unionKinds xs)
  else (lowMask 1024, val, unionKinds xs)

def execXcvt (src dst : Cvt) (rnd : Rnd) (sat : Bool) (vd va : BitVec 6) (s : State) : Outcome State Fault Refusal :=
  withV s [vd, va] (convWord s vd rnd 4 (cvtVec src dst rnd sat false (s.me.rv va)))
def execXcvth (src dst : Cvt) (rnd : Rnd) (sat : Bool) (vd va : BitVec 6) (s : State) : Outcome State Fault Refusal :=
  withV s [vd, va] (convWord s vd rnd 4 (cvtVec src dst rnd sat true (s.me.rv va)))

/-- A word that writes all of vd. -/
def whole (r : Vec × Kinds) : Payload × Nat × Kinds := (lowMask 1024, r.1.toNat, r.2)

def execXmx (_src dst : Cvt) (rnd : Rnd) (sat : Bool) (vd va : BitVec 6) (s : State) : Outcome State Fault Refusal :=
  withV s [vd, va] (convWord s vd rnd 6 fun e => whole (xmxBlock dst rnd sat e (s.me.rv va)))
def execXmxd (src _dst : Cvt) (rnd : Rnd) (sat : Bool) (vd va : BitVec 6) (s : State) : Outcome State Fault Refusal :=
  withV s [vd, va] (convWord s vd rnd 4 fun e => whole (xmxdBlock src rnd sat e (s.me.rv va)))
def execXplane (t : Cvt) (planes : BitVec 4) (rnd : Rnd) (vd va : BitVec 6) (s : State) : Outcome State Fault Refusal :=
  withV s [vd, va] (convWord s vd rnd 6 fun e => whole (xplaneBlock t (planes.toNat + 1) rnd e (s.me.rv va)))
def execXunplane (t : Cvt) (planes : BitVec 4) (rnd : Rnd) (sat : Bool) (vd va : BitVec 6) (s : State) : Outcome State Fault Refusal :=
  withV s [vd, va] (convWord s vd rnd 6 fun e => whole (xunplaneBlock t (planes.toNat + 1) rnd sat e (s.me.rv va)))

/-- XRNG (R156): an RQ entry into bits 255:0, waiting while RQ is empty. -/
def execXrng (vd : BitVec 6) (s : State) : Outcome State Fault Refusal :=
  withV s [vd] (
    if s.me.ctx.rq = [] then .next s
    else .next (s.issue fun c =>
      let e := c.takeRq s.cur.slot
      e.2.result s.cur.slot (.v vd) 256 e.1.toNat 2))

end Sys2Proof.Machine
end

