-- ==== Sys2Proof/Machine/Translate.lean ====
section
/-!
DEFINITION. A partition's HBM space (R371, R372), its page tables (R363–R366), the places that engine addresses name, and the windows in
which a request is performed there (R285, R379, R399).
-/
namespace Sys2Proof.Machine

-- HBM space

/-- PAT entry fields (R371). -/
def patValid (w : Word) : Bool := w.getLsbD 63
def patDom (w : Word) : Nat := fld w 59 56
def patLim (w : Word) : Nat := fld w 44 32
def patBase (w : Word) : Nat := fld w 12 0

/-- The valid entries of a domain: stack, group, BASE, LIM, in ascending order (R372). -/
def State.slices (s : State) (dom : Nat) : List (Nat × Nat × Nat × Nat) :=
  (List.finRange 8).flatMap fun k => (List.finRange 128).filterMap fun i =>
    let w := (s.hbms[k]).pat[i]
    if patValid w && patDom w == dom then some (k.val, i.val / 8, patBase w, patLim w) else none

/-- Interleave granule of a partition in bytes (R373). -/
def Part.granule (p : Part) : Nat :=
  match fld p.hbmpart 17 16 with
  | 0 => 256
  | 1 => 1024
  | 2 => 4096
  | _ => 65536

/-- Read:write split of a partition: its read lanes (R370, R373). -/
def splitLanes (code : Nat) : Nat := 7 - code

/-- The address of a byte of a stack from its pseudo-channel, bank, row and column (R369). -/
def stackAddr (pc bank row col : Nat) : Nat := ((pc * 16 + bank) * 6144 + row) * 1024 + col

/-- Bytes of a partition's HBM space; 0 while its entries disagree (R372). -/
def State.hbmSize (s : State) (p : PartId) : Nat :=
  match s.slices p.val with
  | [] => 0
  | e :: r => if r.all fun x => x.2.2.2 - x.2.2.1 = e.2.2.2 - e.2.2.1 then 32 * (r.length + 1) * 16384 * (e.2.2.2 - e.2.2.1) else 0

/-- Where a physical address of a partition falls (R372). -/
def State.hbmPlace (s : State) (p : PartId) (pa : Nat) : Option (Nat × Nat) :=
  let es := s.slices p.val
  let n := 32 * es.length
  let G := (s.parts[p]).granule
  if s.hbmSize p ≤ pa then none
  else
    let gi := pa / G
    let ch := gi % n
    let off := gi / n * G + pa % G
    (es[ch / 32]?).map fun e => (e.1, stackAddr (32 * e.2.1 + ch % 32) (off / 1024 % 16) (e.2.2.1 + off / 16384) (off % 1024))

-- page tables

/-- A cached translation is a leaf of one 64 KiB page (R364): the entry with its frame moved to the page, and the level it came from in bits
1:0; a fault is a word with V clear: reason in bits 6:4, level in bits 1:0, and bit 7 where the leaf is of kind LE-table page (R191). -/
def faultWord (reason level : Nat) : Word := mkWord [(reason, 4), (level, 0)]

def leafOk (w : Word) : Bool := w.getLsbD 63
def leafKind (w : Word) : Nat := fld w 61 60
def leafW (w : Word) : Bool := w.getLsbD 59
def leafPin (w : Word) : Bool := w.getLsbD 58
def leafFrame (w : Word) : Nat := fldUp w 51 16 16
def leafDie (w : Word) : Nat := fld w 33 32
def leafPage (w : Word) : Nat := fld w 31 16
def leafLevel (w : Word) : Nat := fld w 1 0

/-- An 8-byte table entry, none where it is no HBM address of the partition; poisoned data is told apart. -/
def State.tableWord (s : State) (p : PartId) (pa : Nat) : Option (Word × Bool) :=
  (s.hbmPlace p pa).map fun x =>
    let m := (s.hbms[stackIx x.1]).bytes
    (m.word x.2, m.tainted x.2 8)

/-- The leaf a valid entry gives for a 64 KiB page, with its checks (R364, R366). -/
def State.leafOf (s : State) (p : PartId) (w : Word) (level va : Nat) : Word :=
  let low := match level with | 1 => 30 | 2 => 21 | _ => 16
  let kind := leafKind w
  if fld w 57 52 ≠ 0 ∨ fld w 15 0 ≠ 0 then faultWord 6 level ||| (if kind = 3 ∧ level = 3 then 128 else 0)
  else if 2 ≤ kind ∧ level ≠ 3 then faultWord 3 level
  else if kind ≤ 1 ∧ leafFrame w % 2 ^ low ≠ 0 then faultWord 6 level
  else if kind = 0 then
    let pa := leafFrame w + va % 2 ^ low / 65536 * 65536
    if s.hbmSize p < pa + 65536 then faultWord 6 level else setFld (setFld w 16 36 (pa / 65536)) 0 2 level
  else if kind = 1 then setFld (setFld w 16 36 (leafFrame w / 65536 + va % 2 ^ low / 65536)) 0 2 level
  else if kind = 2 then
    if leafPage w < 64 + min (2 ^ 30) (Config.overflowSize p.val) / 65536 then setFld w 0 2 level else faultWord 6 level
  else if leafPage w = 0 then setFld w 0 2 level else faultWord 6 level ||| 128

/-- One level of a walk, and the levels below it on fuel (R363). -/
def State.walkFrom (s : State) (p : PartId) (va : Nat) : Nat → Nat → Nat → Word
  | 0, level, _ => faultWord 6 level
  | fuel + 1, level, table =>
    let ix := match level with | 1 => va / 2 ^ 30 % 2 ^ 18 | 2 => va / 2 ^ 21 % 512 | _ => va / 65536 % 32
    match s.tableWord p (table + 8 * ix) with
    | none => faultWord 6 level
    | some (w, bad) =>
      if bad then faultWord 5 level
      else if !w.getLsbD 63 then faultWord 1 level
      else if w.getLsbD 62 then s.leafOf p w level va
      else if level = 3 ∨ fld w 57 52 ≠ 0 ∨ fld w 7 0 ≠ 0 then faultWord 6 level
      else s.walkFrom p va fuel (level + 1) (fldUp w 51 8 8)

/-- The places in HBM of the entries that such a walk reads, each on an activated row (R376). -/
def State.walkReads (s : State) (p : PartId) (va : Nat) : Nat → Nat → Nat → List (Nat × Nat)
  | 0, _, _ => []
  | fuel + 1, level, table =>
    let ix := match level with | 1 => va / 2 ^ 30 % 2 ^ 18 | 2 => va / 2 ^ 21 % 512 | _ => va / 65536 % 32
    let a := table + 8 * ix
    (s.hbmPlace p a).toList ++ (match s.tableWord p a with
      | some (w, bad) => if bad || !w.getLsbD 63 || w.getLsbD 62 || level == 3 then [] else s.walkReads p va fuel (level + 1) (fldUp w 51 8 8)
      | none => [])

/-- The translation of a 64 KiB page of a core's partition (R363). -/
def State.walk (s : State) (c : CoreId) (page : Nat) : Word :=
  match s.partOf c with
  | none => faultWord 1 1
  | some p => s.walkFrom p (page * 65536) 3 1 (s.parts[p]).ptroot.toNat

/-- A cache of translations takes an entry, the oldest going out (R365). -/
def cachePut (cap : Nat) (cache : List (Nat × Word)) (e : Nat × Word) : List (Nat × Word) :=
  let c := (cache.filter fun x => x.1 != e.1) ++ [e]
  c.drop (c.length - cap)

-- places

/-- A byte of an SYE page: of the die's SRAM, or of the partition's overflow area on the die, of at most 1 GiB (R283, R364; log 41). -/
def syePlace (p : Nat) (leaf : Word) (off : Nat) : Place :=
  if leafPage leaf < 64 then .sye (leafDie leaf) false (leafPage leaf * 65536 + off)
  else .sye (leafDie leaf) true (p * 2 ^ 30 + (leafPage leaf - 64) * 65536 + off)

/-- Where a byte of a translated page lies. -/
def State.leafPlace (s : State) (c : CoreId) (leaf : Word) (off : Nat) : Place :=
  match leafKind leaf with
  | 0 => match (s.partOf c).bind fun p => s.hbmPlace p (leafFrame leaf + off) with
    | some x => .hbm x.1 x.2
    | none => .hbm 0 0
  | 1 => .host (leafFrame leaf + off)
  | 2 => syePlace (match s.partOf c with | some p => p.val | none => 0) leaf off
  | _ => .letable (leafDie leaf) off

/-- The place an engine address of a core names, with the translations of its entry (R185). -/
def State.placeOf (s : State) (c : CoreId) (pages : List (Nat × Word)) (a : Nat) : Place :=
  match space a with
  | 0 => .pool c.val (spOff a)
  | 1 => .pool (spCore a) (spOff a)
  | 3 => .rows c.val (spOff a)
  | _ => s.leafPlace c ((cacheGet pages (spOff a / 65536)).getD 0) (spOff a % 65536)

/-- The memories of R266: requests of one agent to one of them are performed in the order they were sent. -/
def Place.memory : Place → Nat × Nat
  | .pool c _ => (0, c)
  | .rows c _ => (1, c)
  | .hbm k a => (2, k * 512 + a / (16 * 6144 * 1024))
  | .host a => (3, a / 64)
  | .sye d _ _ => (4, d)
  | .letable d _ => (5, d)
  | .peer p _ _ => (6, p)

/-- The unit that serves a memory: an MC serves the pseudo-channels of its stack (R296, R369). -/
def Place.slice : Place → Nat × Nat
  | .hbm k _ => (2, k)
  | p => p.memory

/-- Address within a place. -/
def Place.addr : Place → Nat
  | .pool _ a => a
  | .rows _ a => a
  | .hbm _ a => a
  | .host a => a
  | .sye _ _ a => a
  | .letable _ a => a
  | .peer _ _ t => t

/-- Whole cycles that cover num/den nanoseconds at a ceiling (R5). -/
def nsCycles (ceiling num den : Nat) : Nat := ceilDiv (num * (24 + ceiling)) (80 * den)

-- rows and lanes of a stack (R369, R370, R376, R377)

/-- The pseudo-channel, the bank and the row of a byte of a stack. -/
def hbmPc (a : Nat) : Nat := a / (16 * 6144 * 1024)
def hbmBank (a : Nat) : Nat := a / (6144 * 1024) % 16
def hbmRow (a : Nat) : Nat := a / 1024 % 6144

/-- The trust domain that holds a logical row, of a pseudo-channel. -/
def Stack.rowDom (k : Stack) (pc row : Nat) : Option Nat :=
  (((List.finRange 128).filter fun i => i.val / 8 = pc / 32 && patValid k.pat[i]).map (fun i => k.pat[i])).findSome? fun w =>
    if patBase w ≤ row ∧ row < patLim w then some (patDom w) else none

/-- The hot mode is in force at a pseudo-channel: each takes a change at its next refresh slot (R377). -/
def Stack.hotAt (k : Stack) (pc : Nat) : Bool := k.hot != k.hotNew.contains pc

/-- The row of a byte stands open in its bank: the bank's last activation opened it. An access to it needs no other: in hot mode the 768/1,024 of a
lane's capacity could not be reached with one activation for each block of 128 bytes (R377, R378; DEDUCED, log 107). -/
def Stack.rowOpen (k : Stack) (a : Nat) : Bool := k.acts.any fun o => o.1 == hbmPc a && o.2.1 == hbmBank a && o.2.2.1 == hbmRow a

/-- An access activates its row where it does not stand open: the MC counts the activation, and queues the row for a swap once its count exceeds the
threshold (R376). -/
def Stack.activate (k : Stack) (now a : Nat) : Stack :=
  if k.rowOpen a then k
  else
    let pc := hbmPc a
    let bank := hbmBank a
    let row := hbmRow a
    let k := { k with acts := (pc, bank, row, now) :: k.acts.filter fun o => (o.1, o.2.1) != (pc, bank) }
    if !k.hbmcfg.getLsbD 1 then k
    else
      let n := ((k.counts.find? fun x => (x.1, x.2.1, x.2.2.1) = (pc, bank, row)).map (·.2.2.2)).getD 0 + 1
      { k with counts := (pc, bank, row, n) :: k.counts.filter (fun x => (x.1, x.2.1, x.2.2.1) != (pc, bank, row)),
               swapq := if fld k.hbmcfg 15 4 < n && !k.swapq.contains (pc, bank, row) then k.swapq ++ [(pc, bank, row)] else k.swapq }

/-- The activation cap lets an access go: in hot mode one activation of a pseudo-channel in 45 ns, and of a bank in 90 ns (R377). -/
def Stack.capFree (k : Stack) (now a : Nat) : Bool :=
  !k.hotAt (hbmPc a) || k.rowOpen a ||
    k.acts.all fun o => o.1 != hbmPc a || (decide (o.2.2.2 + 45 ≤ now) && (o.2.1 != hbmBank a || decide (o.2.2.2 + 90 ≤ now)))

/-- The refresh slot of the pseudo-channel is not over (R376, R377). -/
def Stack.shutAt (k : Stack) (now a : Nat) : Bool := k.shut.any fun x => x.1 == hbmPc a && decide (now < x.2)

/-- Rows that a run of bytes touches are activated, each once. -/
def State.activateAll (s : State) (xs : List (Nat × Nat)) : State :=
  ((xs.map fun x => (x.1, x.2 / 1024 * 1024)).eraseDups).foldl (fun s x => s.updStack (stackIx x.1) fun k => k.activate s.gcnt.toNat x.2) s

/-- Time that bytes take on n lanes, in 1,260ths of a tick: at 1 byte per ns and lane, and in hot mode at 768/1,024 of that (R370, R378). -/
def laneTime (hot : Bool) (n bytes : Nat) : Nat := bytes * (if hot then 1680 else 1260) / n

/-- The time now in that unit, rounded down and up. -/
def State.lane0 (s : State) : Nat := s.gcnt.toNat * 1260 + s.frac * 1260 / (24 + s.ceiling)
def State.lane1 (s : State) : Nat := s.gcnt.toNat * 1260 + ceilDiv (s.frac * 1260) (24 + s.ceiling)

/-- The partition whose space holds a byte of a stack; 12 where it is no partition's. -/
def State.rowPart (s : State) (k : StackId) (a : Nat) : Nat := min 12 (((s.hbms[k]).rowDom (hbmPc a) (hbmRow a)).getD 12)

/-- Read lanes in force at a byte's pseudo-channel (R370); of a row that no partition holds, those of the reset split. -/
def State.lanesAt (s : State) (k : StackId) (a : Nat) : Nat :=
  let p := s.rowPart k a
  splitLanes ((((s.hbms[k]).splits.find? fun x => x.1 = hbmPc a).map (·.2)).getD (if p < 12 then fld (s.parts[partIx p]).hbmpart 9 8 else 1))

/-- SHARE of a partition (R373). -/
def shareOf (w : Word) : Nat := fld w 41 32
def State.shareNo (s : State) (p : Nat) : Nat := if p < 12 then shareOf (s.parts[partIx p]).hbmpart else 0

/-- The lanes that an access uses: its read lanes, its write lanes; a reduction both. -/
def Stack.laneFree (k : Stack) (now pc : Nat) (write : Bool) : Bool := k.lanes.all fun x => x.1 != pc || x.2.1 != write || decide (x.2.2 ≤ now)

/-- The service at which a transfer of a partition would begin: no less than that of the last one that has begun (R378; log 108). -/
def Stack.startTag (k : Stack) (pc : Nat) (write : Bool) (p : Nat) : Nat :=
  let at_ := fun (q : Nat) => ((k.served.find? fun x => x.1 = (pc, write, q)).map (·.2)).getD 0
  max (at_ 13) (at_ p)

/-- A transfer takes lanes: for its time, and of its partition's share. -/
def Stack.takeLane (k : Stack) (now dur pc : Nat) (write : Bool) (p cost : Nat) : Stack :=
  let tag := k.startTag pc write p
  { k with lanes := (pc, write, now + dur) :: k.lanes.filter (fun x => (x.1 != pc || x.2.1 != write) && decide (now < x.2.2)),
           served := ((pc, write, p), tag + cost) :: ((pc, write, 13), tag) :: k.served.filter fun x => x.1 != (pc, write, p) && x.1 != (pc, write, 13) }

/-- The time of a transfer of n bytes, longer while a checkpoint takes its 10/1,024 beside the shares of the stack's partitions (R378). -/
def State.laneDur (s : State) (k : StackId) (a : Nat) (write : Bool) (n : Nat) : Nat :=
  let r := s.lanesAt k a
  let d := laneTime ((s.hbms[k]).hotAt (hbmPc a)) (if write then 8 - r else r) n
  let ps := (List.range 12).filter fun p => (s.slices p).any fun e => e.1 == k.val && e.2.1 == hbmPc a / 32
  let total := max 1 (ps.foldl (fun t p => t + s.shareNo p) 0)
  let ctl := s.pmc.ckptctl
  if s.pmc.ckptbusy && ctl.getLsbD 62 == write && (ctl.getLsbD 61 || ps.any fun p => ctl.getLsbD p) then ceilDiv (d * (total + 10)) total else d

/-- Granules of a run of bytes in which an error is met: corrected ones count, and so do uncorrectable ones, once, which are poisoned from then on
(R380, R381). -/
def Stack.meetErrors (k : Stack) (a n : Nat) : Stack :=
  let hit := k.weak.filter fun w => decide (32 * w.1 < a + n) && decide (a < 32 * w.1 + 32)
  { k with ce := min 65535 (k.ce + (hit.filter fun w => !w.2).length), ue := min 255 (k.ue + (hit.filter (·.2)).length),
           weak := k.weak.filter fun w => !(w.2 && hit.contains w) }

/-- What a write covers wholly holds no error any more. -/
def Stack.heal (k : Stack) (a n : Nat) : Stack := { k with weak := k.weak.filter fun w => !(decide (a ≤ 32 * w.1) && decide (32 * w.1 + 32 ≤ a + n)) }

/-- An access of n bytes at an MC: its row, its lanes, the errors it meets. -/
def State.useHbm (s : State) (k : StackId) (a n : Nat) (read write : Bool) : State :=
  let p := s.rowPart k a
  let cost := n * 1048576 / (1024 * s.shareNo p + 1)
  s.updStack k fun x =>
    let x := x.activate s.gcnt.toNat a
    let x := if read then (x.takeLane s.lane1 (s.laneDur k a false n) (hbmPc a) false p cost).meetErrors a n else x
    if write then (x.takeLane s.lane1 (s.laneDur k a true n) (hbmPc a) true p cost).heal a n else x

/-- A partition's queue depth limit (R373). -/
def State.depthLimit (s : State) (p : Option PartId) : Nat :=
  match p with | some i => (if fld (s.parts[i]).hbmpart 25 21 = 0 then 32 else fld (s.parts[i]).hbmpart 25 21) | none => 8

/-- The bank of an address is parked: under a self-test, or retired (R382). -/
def Stack.parked (k : Stack) (a : Nat) : Bool :=
  (1 ≤ fld k.bist 62 60 && fld k.bist 62 60 ≤ 3 && fld k.bist 12 4 == hbmPc a && fld k.bist 3 0 == hbmBank a) ||
    k.retired.contains (hbmPc a, hbmBank a)

/-- The fill bound of R379 in cycles for B bytes over `lanes` lanes; a parked bank adds 100 ns. -/
def State.fillBound (s : State) (p : Option PartId) (k : StackId) (hot far parked : Bool) (B lanes : Nat) : Nat :=
  let q := s.depthLimit p
  let base := 48 + 5 * q + (if hot then 90 else 45) + (if (s.hbms[k]).hbmcfg.getLsbD 1 then 8 else 0) + (if hot then 120 else 60) +
    (if far then 40 else 0) + (if parked then 100 else 0)
  nsCycles s.ceiling (base * lanes + B) lanes

/-- The fill bound F of an overflow-area variable on a die, whose place in the firmware's rows the spec does not give: hot mode counts where some
pseudo-channel of the stack is in it (R285). -/
def State.overflowBound (s : State) (p : Option PartId) (d : Nat) : Nat :=
  let k := stackIx (2 * d)
  let lanes := splitLanes (match p with | some i => fld (s.parts[i]).hbmpart 9 8 | none => 1)
  s.fillBound p k ((s.hbms[k]).hot || !(s.hbms[k]).hotNew.isEmpty) false false 64 lanes

/-- Cycles that cover a transfer of n bytes. -/
def State.laneCycles (s : State) (k : StackId) (a : Nat) (write : Bool) (n : Nat) : Nat :=
  max 1 (nsCycles s.ceiling (s.laneDur k a write n) 1260)

/-- The window of a request: earliest and latest cycle after it is sent in which it is performed, earliest and latest cycle in which data is back;
none where no bound is given (R285, R379, R399). -/
def State.window (s : State) (c : CoreId) (at_ : Place) (write : Bool) (len : Nat) : Nat × Option (Nat × Nat × Nat) :=
  let near := at_.die = some (c.val / 24)
  let p := s.partOf c
  match at_ with
  | .hbm k a =>
    let st := s.hbms[stackIx k]
    let r := s.lanesAt (stackIx k) a
    let b := s.fillBound p (stackIx k) (st.hotAt (hbmPc a)) (!near) (st.parked a) len (if write then 8 - r else r)
    let x := s.laneCycles (stackIx k) a false len
    (1, some (if write then (b, 1, b + 1) else (max 1 (b - x), x, max (1 + x) b)))
  | .sye d ovf _ =>
    let t := if near then 18 else 42
    if ovf then
      let b := s.overflowBound p d
      (t, some (t + 30 + b, t, 2 * t + 30 + b))
    else (t, some (t, t, 2 * t))
  | .pool _ _ | .rows _ _ | .letable _ _ => if near then (1, some (48, 1, 96)) else (1, some (96, 1, 192))
  | _ => (1, none)

/-- The cycles that a request is timed by: an MC goes on in a handshake (R330), the other memories stand still with the cores. -/
def State.clockOf (s : State) (p : Place) : Nat := match p with | .hbm _ _ => s.mcNow | _ => s.now

/-- The cycles in which a request is performed and its data is back, drawn within its window from this cycle on. -/
def State.timed (s : State) (c : CoreId) (at_ : Place) (write : Bool) (len : Nat) : Nat × Nat × State :=
  let w := s.window c at_ write len
  let now := s.clockOf at_
  let d1 := s.draw
  let d2 := d1.2.draw
  match w.2 with
  | none =>
    let t := now + w.1 + Config.freeDelay d1.1
    (t, t + 1 + Config.freeDelay d2.1, d2.2)
  | some (hi, x, back) =>
    let t := w.1 + Config.freeDelay d1.1 % (hi - w.1 + 1)
    let r := match at_ with
      | .sye _ _ _ => t + w.1
      | _ => t + x + Config.freeDelay d2.1 % (back - (t + x) + 1)
    (now + t, now + r, d2.2)

-- what is written into a stack (R380, R382, R383)

/-- The part of a memory that lies in ranges, and a memory with that part put back (R354). -/
def inRanges (rs : List (Nat × Nat)) (a : Nat) : Bool := rs.any fun r => r.1 ≤ a && a < r.2
def Mem.part (m : Mem) (rs : List (Nat × Nat)) : Mem := ⟨m.cells.filter fun x => inRanges rs x.1, m.poison.filter (inRanges rs)⟩
def Mem.putBack (m : Mem) (rs : List (Nat × Nat)) (x : Mem) : Mem :=
  ⟨x.cells.foldl (fun l y => putCell y.1 y.2 l) (m.cells.filter fun y => !inRanges rs y.1),
   x.poison.foldl (fun l a => putNat true a l) (m.poison.filter fun a => !inRanges rs a)⟩

/-- A memory moved up by an offset, and down. -/
def Mem.up (m : Mem) (o : Nat) : Mem := ⟨m.cells.map fun x => (x.1 + o, x.2), m.poison.map fun a => a + o⟩
def Mem.down (m : Mem) (o : Nat) : Mem :=
  ⟨(m.cells.filter fun x => o ≤ x.1).map fun x => (x.1 - o, x.2), (m.poison.filter fun a => o ≤ a).map fun a => a - o⟩

/-- n bytes of one memory, with their poison, put into another. -/
def Mem.copyIn (m : Mem) (dst : Nat) (x : Mem) (src n : Nat) : Mem :=
  m.putBack [(dst, dst + n)] (((x.part [(src, src + n)]).down src).up dst)

def bistState (w : Word) : Nat := fld w 62 60

/-- The group and the first row of the park area: the lowest-numbered firmware entry of at least 12 rows (R382). -/
def Stack.parkBase (k : Stack) : Option (Nat × Nat) :=
  ((List.finRange 128).find? fun i => patValid k.pat[i] && patDom k.pat[i] == 12 && decide (12 ≤ patLim k.pat[i] - patBase k.pat[i])).map fun i =>
    (i.val / 8, patBase k.pat[i])

/-- The good rows of a bank are too few for its logical rows. -/
def Stack.tooFew (k : Stack) (pc bank : Nat) : Bool := decide (6208 < 6144 + (k.badRows.filter fun x => (x.1, x.2.1) = (pc, bank)).length)

/-- A row of the bank under test is in its park copy. -/
def Stack.rowParked (k : Stack) (pc bank row : Nat) : Bool :=
  k.park == some (pc, bank) &&
    (match bistState k.bist with
     | 1 => decide (row < k.copied)
     | 2 => true
     | 3 => k.tooFew pc bank || decide (k.copied ≤ row)
     | 6 => true
     | _ => false)

/-- Where the park area holds a byte of the bank: row r is row r / 512 of bank r / 32 mod 16 of pseudo-channel r mod 32 of its group (DESIGN CHOICE,
log 111). -/
def Stack.parkAddr (k : Stack) (a : Nat) : Option Nat :=
  let r := hbmRow a
  k.parkBase.map fun p => stackAddr (32 * p.1 + r % 32) (r / 32 % 16) (p.2 + r / 512) (a % 1024)

/-- Its row is being copied: a request for it waits. -/
def Stack.copying (k : Stack) (a : Nat) : Bool :=
  (bistState k.bist == 1 || bistState k.bist == 3) && k.park == some (hbmPc a, hbmBank a) && hbmRow a == k.copied

/-- Rows of the bank under test copied by a tick, one after another: into the park area, or back. -/
def Stack.copyRows (k : Stack) (now : Nat) : Stack :=
  let st := bistState k.bist
  match k.park with
  | some (pc, bank) =>
    if st != 1 && st != 3 then k
    else
      let n := max k.copied (min 6144 ((now - k.copyAt) / k.copyStep))
      let rows := if st = 1 then (List.range (n - k.copied)).map (· + k.copied) else []
      { k with copied := n, bytes := rows.foldl (fun (m : Mem) r =>
          match k.parkAddr (stackAddr pc bank r 0) with
          | some dst => m.copyIn dst m (stackAddr pc bank r 0) 1024
          | none => m) k.bytes }
  | none => k

/-- Bytes written into a stack (R380); what is written into a parked row reaches its park copy. -/
def Stack.write (k : Stack) (bs : List (Nat × Byte)) (poison : Bool) : Stack :=
  let parked := bs.filterMap fun b => if k.rowParked (hbmPc b.1) (hbmBank b.1) (hbmRow b.1) then (k.parkAddr b.1).map fun a => (a, b.2) else none
  let m := k.bytes.writeHbm bs poison
  { k with bytes := if parked.isEmpty then m else m.writeHbm parked poison }

-- the image of a checkpoint (R383)

def stackBytes : Nat := 512 * 16 * 6144 * 1024

/-- The partitions of PMASK in ascending order with the image addresses at which their spaces begin, and the image's size. -/
def State.ckptParts (s : State) (ctl : Word) : List (PartId × Nat) × Nat :=
  (List.finRange 12).foldl (fun (a : List (PartId × Nat) × Nat) p =>
    if ctl.getLsbD p.val then (a.1 ++ [(p, a.2)], a.2 + s.hbmSize p) else a) ([], 0)

def State.ckptSize (s : State) (ctl : Word) : Nat := if ctl.getLsbD 61 then 8 * stackBytes else (s.ckptParts ctl).2

/-- The physical address of a byte of a stack in a partition's space (the inverse of R372). -/
def State.paOf (s : State) (p : PartId) (k a : Nat) : Option Nat :=
  let pc := a / (16 * 6144 * 1024)
  let bank := a / (6144 * 1024) % 16
  let row := a / 1024 % 6144
  let es := s.slices p.val
  let G := (s.parts[p]).granule
  (es.zipIdx.find? fun e => e.1.1 = k && e.1.2.1 = pc / 32 && decide (e.1.2.2.1 ≤ row) && decide (row < e.1.2.2.2)).bind fun e =>
    if s.hbmSize p = 0 then none
    else
      let off := (row - e.1.2.2.1) * 16384 + bank * 1024 + a % 1024
      some (off / G * (32 * es.length * G) + (32 * e.2 + pc % 32) * G + off % G)

/-- Where a byte of a stack stands in the image. -/
def State.imageAt (s : State) (ctl : Word) (k a : Nat) : Option Nat :=
  if ctl.getLsbD 61 then some (k * stackBytes + a)
  else (s.ckptParts ctl).1.findSome? fun x => (s.paOf x.1 k a).map (· + x.2)

/-- Which byte of a stack an image address names. -/
def State.imageOf (s : State) (ctl : Word) (o : Nat) : Option (Nat × Nat) :=
  if ctl.getLsbD 61 then (if o < 8 * stackBytes then some (o / stackBytes, o % stackBytes) else none)
  else (s.ckptParts ctl).1.findSome? fun x => if x.2 ≤ o && decide (o < x.2 + s.hbmSize x.1) then s.hbmPlace x.1 (o - x.2) else none

/-- A line of 64 bytes that a running checkpoint to the safe tier has still to capture may be captured before it is written: as it stands now. -/
def State.capture (s : State) (l : Nat) : State :=
  match s.imageOf s.pmc.ckptctl (64 * l) with
  | none => s
  | some x =>
    let d := s.draw
    if Config.freeBool d.1 then d.2.updPmc fun p =>
      { p with ckptcap := l :: p.ckptcap, ckptimg := p.ckptimg.copyIn (64 * l) (s.hbms[stackIx x.1]).bytes x.2 64 }
    else d.2

/-- The lines of its image in which bytes of a stack lie, and which it has not captured. -/
def State.uncaptured (s : State) (k : Nat) (addrs : List Nat) : List Nat :=
  if s.pmc.ckptbusy && !s.pmc.ckptctl.getLsbD 62 then
    ((addrs.filterMap fun a => (s.imageAt s.pmc.ckptctl k a).map fun o => o / 64).eraseDups).filter fun l =>
      decide (1024 * s.pmc.ckptcnt.toNat ≤ l) && !s.pmc.ckptcap.contains l
  else []

/-- Bytes written into HBM. -/
def State.writeHbm (s : State) (k : StackId) (bs : List (Nat × Byte)) (poison : Bool) : State :=
  ((s.uncaptured k.val (bs.map (·.1))).foldl State.capture s).updStack k fun x => x.write bs poison

-- requests and their admission (R268, R373)

/-- Bytes from its address on that a request accesses. -/
def Req.span (r : Req) : Nat :=
  match r.kind with
  | .read n => n
  | .write bs _ _ _ | .red _ bs _ _ _ _ _ => (bs.foldl (fun m b => max m (b.1 + 1)) 0) - r.at_.addr
  | .credit _ => 16
  | .flag _ => 8

/-- Requests of one partition to one pseudo-channel. -/
def State.sameQueue (s : State) (r x : Req) : Bool :=
  match r.at_, x.at_ with
  | .hbm j a, .hbm k b => j == k && hbmPc a == hbmPc b && s.partOf (coreIx r.core) == s.partOf (coreIx x.core)
  | _, _ => false

/-- The MC admits a request while fewer than Q of its partition's are outstanding at its pseudo-channel, and in arrival order (R373). -/
def State.admits (s : State) (r : Req) : Bool :=
  match r.at_ with
  | .hbm _ _ =>
    let same := s.reqs.filter fun x => s.sameQueue r x && x.data.isNone
    decide ((same.filter (·.admitted)).length < s.depthLimit (s.partOf (coreIx r.core))) && same.all fun x => x.admitted || decide (r.id ≤ x.id)
  | _ => true

/-- A request is sent: it is timed from its admission. -/
def State.ask (s : State) (r : Req) : State :=
  if s.admits { r with id := s.reqNo } then
    let t := s.timed (coreIx r.core) r.at_ r.writes r.span
    t.2.2.send { r with admitted := true, due := t.1, back := t.2.1 }
  else s.send { r with admitted := false }

/-- Requests that wait at their requesters and now find a place at their pseudo-channel are admitted. -/
def State.admitAll (s : State) : State :=
  (s.reqs.filter fun r => !r.admitted).foldl (fun s r =>
    if s.admits r then
      let t := s.timed (coreIx r.core) r.at_ r.writes r.span
      { t.2.2 with reqs := t.2.2.reqs.map fun x => if x.id = r.id then { x with admitted := true, due := t.1, back := t.2.1 } else x }
    else s) s

end Sys2Proof.Machine
end

