-- ==== Sys2Proof/Machine/Memory.lean ====
section
/-!
DEFINITION. The other S7 words: descriptors, buffers, arrival words, queues, the software cache, fences, rounds and atomics (R175–R184,
R192–R199, R263, R264, R286–R295, R301, R302, R315).
-/
namespace Sys2Proof.Machine

open Host

/-- EDLD (R194). -/
def execEdld (ed : BitVec 4) (as : BitVec 4) (s : State) : Outcome State Fault Refusal :=
  let a := s.addr as 0 1
  if s.me.inPool a 64 64 then loadTo s (.ed ed) as a 64 512 3 5 (lowMask 512) (.load (.ed ed) 0 0 false [])
  else .next (s.illegal (addrInfo a))
/-- EDSET (R194). -/
def execEdset (ed : BitVec 4) (word : BitVec 3) (sa : BitVec 6) (s : State) : Outcome State Fault Refusal :=
  .next (s.issue fun c => c.result .ae (.edw ed word) 64 (c.rs sa).toNat 1)

-- circular buffers (R177, R178)

/-- The checks of CBSET (R177). -/
def cbsetOk (b : CircBuf) (field : BitVec 2) (v : Word) : Bool :=
  match field.toNat with
  | 0 => v.toNat < 2 ^ 24
  | 1 => 1 ≤ v.toNat && v.toNat ≤ 2 ^ 24
  | 2 => 1 ≤ v.toNat && v.toNat ≤ 1023
  | _ =>
    let p := fld v 9 0
    let c := fld v 25 16
    let f := fld v 41 32
    b.configured && fld v 15 10 == 0 && fld v 31 26 == 0 && fld v 63 42 == 0 && p < b.count && c < b.count && f ≤ b.count && p == (c + f) % b.count

/-- CBSET (R177). -/
def execCbset (cb : BitVec 5) (field : BitVec 2) (sa : BitVec 6) (s : State) : Outcome State Fault Refusal :=
  let v := s.me.rs sa
  if cbsetOk (s.me.rcb cb) field v then .next (s.issue fun c => c.result .ae (.cb cb field) 64 v.toNat 1) else .next s.illegal

/-- The buffer may be used (R176, R177). -/
def Core.cbOk (c : Core) (cb : BitVec 5) : Bool := (c.rcb cb).configured && (c.rcb cb).inScratch c.scratch

/-- F changed by the slot, and remembered for the cycle (R179, R216). -/
def Core.cbMove (c : Core) (cb : BitVec 5) (b : CircBuf) : Core :=
  { c.setCb cb b with cbNew := c.cbNew ++ [(cb, (b.f : Int) - ((c.rcb cb).f : Int))] }

/-- CBP (R178). -/
def execCbp (cb : BitVec 5) (n : BitVec 10) (s : State) : Outcome State Fault Refusal :=
  let b := s.me.rcb cb
  if s.me.cbOk cb && b.f + n.toNat ≤ b.count then
    .next (s.issue fun c => c.cbMove cb { b with f := b.f + n.toNat, p := (b.p + n.toNat) % b.count })
  else .next s.illegal
/-- CBC (R178). -/
def execCbc (cb : BitVec 5) (n : BitVec 10) (s : State) : Outcome State Fault Refusal :=
  let b := s.me.rcb cb
  if s.me.cbOk cb && n.toNat ≤ b.f then .next (s.issue fun c => c.cbMove cb { b with f := b.f - n.toNat, c := (b.c + n.toNat) % b.count })
  else .next s.illegal
/-- CBWF (R178, R184). -/
def execCbwf (cb : BitVec 5) (n : BitVec 10) (s : State) : Outcome State Fault Refusal :=
  let b := s.me.rcb cb
  if !(s.me.cbOk cb && n.toNat ≤ b.count) then .next s.illegal
  else if n.toNat ≤ b.f then .next (s.issue fun c => c) else .next s
/-- CBWE (R178, R184). -/
def execCbwe (cb : BitVec 5) (n : BitVec 10) (s : State) : Outcome State Fault Refusal :=
  let b := s.me.rcb cb
  if !(s.me.cbOk cb && n.toNat ≤ b.count) then .next s.illegal
  else if n.toNat ≤ b.count - b.f then .next (s.issue fun c => c) else .next s

-- arrival words (R180–R183)

/-- AWINIT (R182): target, and count, generation and status 0, at the end of its issue cycle. -/
def execAwinit (sa sb : BitVec 6) (s : State) : Outcome State Fault Refusal :=
  let a := s.me.rs sa
  let t := fld (s.me.rs sb) 31 0
  if s.me.inPool a 16 16 && t != 0 then .next (s.issue fun c => c.endWrite (leBytes a.toNat 16 t)) else .next (s.illegal (addrInfo a))

/-- Fields of an arrival word (R180). -/
def awTarget (m : Mem) (a : Nat) : Nat := leNat (m.bytes a 4)
def awCount (m : Mem) (a : Nat) : Nat := leNat (m.bytes (a + 4) 4)
def awGen (m : Mem) (a : Nat) : BitVec 32 := BitVec.ofNat 32 (leNat (m.bytes (a + 8) 4))
def awStatus (m : Mem) (a : Nat) : Nat := leNat (m.bytes (a + 12) 4)

/-- Generation g' has reached g (R181). -/
def genReached (g' g : BitVec 32) : Bool := (g' - g).toNat < 2 ^ 31

/-- One credit (R181). -/
def creditWord (m : Mem) (a n : Nat) (poison late : Bool) : Mem :=
  let t := awTarget m a
  let c := awCount m a + n
  let st := awStatus m a ||| (if poison then 1 else 0) ||| (if late then 2 else 0)
  let steps := if t = 0 then 0 else c / t
  let g := awGen m a + BitVec.ofNat 32 steps
  m.writeAll (leBytes (a + 4) 4 (c - steps * t) ++ leBytes (a + 8) 4 g.toNat ++ leBytes (a + 12) 4 st) false

/-- An AWAIT issues with its flag; poison is raised as it lands (R183). -/
def awaitIssue (s : State) (a : Word) (cf : BitVec 3) (ok : Bool) : State :=
  let k := kIf (ok && (awStatus s.me.pool a.toNat).testBit 0) kPoison
  s.issue fun c => c.result .ae (.cf cf) 1 (if ok then 1 else 0) 1 k true

/-- An AWAIT that met its hand-off condition in cycle a has run out of time in the present cycle (R183). -/
def awaitLate (c : Core) (t : BitVec 5) : Bool :=
  match c.waitFrom.toArray.getD 7 none with
  | some a => t.toNat != 31 && a + 2 ^ t.toNat ≤ c.cyc
  | none => false

/-- AWAIT (R183). -/
def execAwait (sa sb : BitVec 6) (cf : BitVec 3) (t : BitVec 5) (s : State) : Outcome State Fault Refusal :=
  let a := s.me.rs sa
  if !s.me.inPool a 16 16 then .next (s.illegal (addrInfo a))
  else if awaitLate s.me t then .next (awaitIssue s a cf false)
  else if genReached (awGen s.me.pool a.toNat) ((s.me.rs sb).truncate 32) then .next (awaitIssue s a cf true)
  else .next (s.updCore s.cur.core fun c => c.waitSince .ae)

-- queues (R192, R193, R263, R264, R293–R295)

/-- A queue holds nothing, or is halted (R192). -/
def Queue.quiet (q : Queue) : Bool := q.entries.isEmpty || q.halted

/-- QWAIT (R192). -/
def execQwait (q : BitVec 3) (s : State) : Outcome State Fault Refusal :=
  if (s.me.rq q).quiet then .next (s.issue fun c => c) else .next s

/-- QSTAT (R193). -/
def qstatWord (q : Queue) : Word :=
  mkWord [(fld q.done 31 0, 32), (if q.halted then 1 else 0, 16), (q.cause.toNat, 8), (q.entries.length, 0)]
def execQstat (sd : BitVec 6) (q : BitVec 3) (s : State) : Outcome State Fault Refusal :=
  .next (s.issue fun c => c.result .ae (.s sd) 64 (qstatWord (c.rq q)).toNat 4 0 true)

/-- The queues of a mask. -/
def maskQueues (mask : BitVec 8) : List (BitVec 3) := ((List.range 8).filter fun i => mask.getLsbD i).map fun i => BitVec.ofNat 3 i

/-- QFENCE (R294): a marker in each queue named; they share one number. -/
def execQfence (mask : BitVec 8) (s : State) : Outcome State Fault Refusal :=
  let qs := maskQueues mask
  if qs.all fun q => s.me.queueRoom q then
    let b := s.myRec
    .next (s.issue fun c =>
      let e := newEntry (.marker c.orders) (Vector.replicate 8 0) b.pc c.orders b.seq
      qs.foldl (fun c q => c.push q { e with notBefore := (c.rq q).fenceAt }) { c with orders := c.orders + 1 })
  else .next s

/-- FLAG (R264, R295). -/
def execFlag (q : BitVec 3) (sa sb : BitVec 6) (scope : Scope) (s : State) : Outcome State Fault Refusal :=
  let a := s.me.rs sa
  let sp := space a.toNat
  if !(sp ≤ 2 && spClean a.toNat && a.toNat % 8 == 0 && (sp != 0 || a.toNat + 8 ≤ s.me.scratch)) then .next s.illegal
  else if !s.me.queueRoom q then .next s
  else
    let b := s.myRec
    let e := { newEntry (.flag a (s.me.rs sb) scope) (Vector.replicate 8 0) b.pc s.me.orders b.seq with
      pubs := s.pubsOf s.cur.core .system, notBefore := (s.me.rq q).fenceAt }
    .next (s.issue fun c => ({ c with orders := c.orders + 1 } : Core).push q e)

/-- XFENCE (R263, R293). -/
def execXfence (mask : BitVec 8) (dir : Bool) (s : State) : Outcome State Fault Refusal :=
  let qs := maskQueues mask
  if dir then (if qs.all fun q => (s.me.rq q).quiet then .next (s.issue fun c => c) else .next s)
  else .next (s.issue fun c => qs.foldl (fun c q => c.onQueue q fun x => { x with fenceAt := c.cyc + 1 }) c)

/-- VJOIN (R175): the words after it see every earlier slot store in either view. -/
def execVjoin (s : State) : Outcome State Fault Refusal := .next (s.issue fun c => c.onCtx fun x => { x with viewLog := [] })

/-- The port that an entry's window names; none where its round does not run. -/
def State.putPort (s : State) (c : CoreId) (e : Entry) : Option Nat :=
  (((s.dies[dieOf c]).rounds.find? fun r => e.round = some (r.tag, r.ident)).bind fun r => r.wins[e.desc.slot]?).map fun w =>
    6 * (dieOf c).val + w.port

/-- The memory that a byte of an entry's destination lies in: by the translation fixed at its begin, or before that by the page tables as they
stand, which a FENCE is to wait by (DEDUCED, log 96). None where there is none yet. -/
def State.placeNow (s : State) (c : CoreId) (e : Entry) (a : Nat) : Option Place :=
  if space a = 4 then (s.putPort c e).map fun p => .peer p 0 0
  else if space a = 2 then
    let w := (cacheGet e.pages (spOff a / 65536)).getD (s.walk c (spOff a / 65536))
    if leafOk w then some (s.leafPlace c w (spOff a % 65536)) else none
  else some (s.placeOf c e.pages a)

/-- Destination bytes that an entry has still to write, or to send. -/
def Entry.unwritten (e : Entry) : List Nat :=
  match e.kind with
  | .marker _ => []
  | .flag a _ _ => if e.flagDone then [] else [a.toNat]
  | _ => (((if e.sendEnd.isNone then e.staged else []) ++ e.out ++ e.cur.toList).flatMap fun b => b.outs.map (·.1)) ++
      (List.range (e.total - e.pos)).map fun i => e.outAt (e.pos + i)

/-- An entry has a write inside a scope that it has not performed, its flag word and its follow-on's tile among them (R273). -/
def State.entryIn (s : State) (c : CoreId) (sc : Scope) (e : Entry) : Bool :=
  e.unwritten.any (fun a => (s.placeNow c e a).any fun p => s.inScope c sc p) ||
    (s.inScope c sc (.pool c.val 0) && ((e.desc.flag && !e.flagDone) || (e.follow.isSome && !e.foDone)))

/-- An operation of the MXE, or an AR word, that writes the pool or the array field. -/
def MOp.stores (o : MOp) : Bool := match o.kind with | .mshape _ | .mloadw _ => false | _ => true
def ArWord.stores (w : ArWord) : Bool :=
  match w.work with
  | .ast _ _ _ | .ald _ _ | .astv _ | .arop _ _ _ _ _ => true
  | .aldv _ | .amvm _ _ _ _ _ _ _ _ | .aacc _ _ _ _ => false

/-- Writes of the core's earlier bundles that a FENCE at a scope waits for (R273). -/
def State.unperformed (s : State) (c : CoreId) (seq : Nat) (sc : Scope) : Bool :=
  let x := s.cores[c]
  let own := s.inScope c sc (.pool c.val 0)
  x.ctx.queues.any (fun q => !q.halted && q.entries.any fun e => s.entryIn c sc e) ||
    (own && ((x.ctx.mxe.ops ++ x.ctx.mxe.running).any (fun o => o.stores && o.seq < seq) || x.ctx.af.words.any fun w => w.stores && w.seq < seq)) ||
    s.reqs.any (fun r => r.core = c.val && r.seq < seq && r.writes && s.inScope c sc r.at_) ||
    s.atoms.any fun a => a.core = c.val && a.resp.isNone && s.inScope c sc (.sye a.die a.ovf a.addr)

/-- FENCE (R273, R292). -/
def execFence (scope : Scope) (kind : FenceKind) (s : State) : Outcome State Fault Refusal :=
  if kind = .acquire ∨ !s.unperformed s.cur.core s.myRec.seq scope then .next (s.issue fun c => c) else .next s

-- the software cache (R196–R199)

def TagTable.en (t : TagTable) : Bool := t.conf.getLsbD 63
def TagTable.lb (t : TagTable) : Nat := fld t.conf 52 48
def TagTable.ways (t : TagTable) : Nat := if t.conf.getLsbD 44 then 8 else 4
def TagTable.sets (t : TagTable) : Nat := 2 ^ fld t.conf 35 32 / t.ways
def TagTable.base (t : TagTable) : Nat := fld t.conf 23 0

/-- The slot that holds a block. -/
def TagTable.hit (t : TagTable) (blk : Nat) : Option Nat :=
  let first := blk % t.sets * t.ways
  ((List.range t.ways).map fun w => first + w).find? fun k => match t.slots[k]? with | some x => x.valid && x.tag = blk | none => false

/-- The victim slot: the ways from the victim pointer on, pinned and pending ones skipped. -/
def TagTable.pick (t : TagTable) (blk : Nat) : Option Nat :=
  let set := blk % t.sets
  let v := t.victim.getD set 0
  ((List.range t.ways).map fun w => set * t.ways + (v + w) % t.ways).find? fun k =>
    match t.slots[k]? with | some x => !x.pin && !x.pending | none => false

def Core.rtag (c : Core) (k : BitVec 2) : TagTable := c.ctx.tags[k.toNat]
def Core.setTag (c : Core) (k : BitVec 2) (t : TagTable) : Core := c.onCtx fun x => { x with tags := x.tags.set k.toNat t }

/-- One slot of a table changed. -/
def TagTable.onSlot (t : TagTable) (k : Nat) (f : TagSlot → TagSlot) : TagTable := { t with slots := t.slots.modify k f }

/-- The fill of a missed block, an entry like any other (R197); it writes the pool in the linear view (DEDUCED, log 29). -/
def fillWords (t : TagTable) (blk slot : Nat) : Vector Word 8 :=
  let n := 2 ^ t.lb
  (((((Vector.replicate 8 (0 : Word)).set 0 (mkWord [(2, 60), (blk * n, 0)])).set 1 (BitVec.ofNat 64 (t.base + slot * n))).set 2
    (mkWord [(1, 48), (1, 32), (n, 16)])).set 3 1).set 4 1

/-- The result of PROBE: sd and cf (R197). -/
def probeResult (c : Core) (sd : BitVec 6) (cf : BitVec 3) (slot status : Nat) : Core :=
  (c.result .ae (.s sd) 64 (slot + status * 2 ^ 32) 6).result .ae (.cf cf) 1 (if status = 0 then 1 else 0) 6

/-- PROBE (R197). A miss that needs a place in a full q7 waits for it (R188). -/
def execProbe (sd sa : BitVec 6) (cf : BitVec 3) (table : BitVec 2) (s : State) : Outcome State Fault Refusal :=
  let a := s.me.rs sa
  let t := s.me.rtag table
  let blk := a.toNat / 2 ^ t.lb
  if !t.en || fld a 63 48 != 0 then .next s.illegal
  else match t.hit blk with
    | some k => .next (s.issue fun c => probeResult c sd cf k (if (t.slots[k]?).any (·.pending) then 1 else 0))
    | none => match t.pick blk with
      | none => .next (s.issue fun c => probeResult c sd cf 0xFFFFFFFF 3)
      | some k =>
        if !s.me.queueRoom 7 then .next s
        else
          let t' := { (t.onSlot k fun x => { x with tag := blk, valid := true, pending := true }) with
            victim := t.victim.set (blk % t.sets) ((k % t.ways + 1) % t.ways) }
          let b := s.myRec
          let e := { newEntry (.fill table k) (fillWords t blk k) b.pc s.me.orders b.seq with notBefore := (s.me.rq 7).fenceAt }
          .next (s.issue fun c => ((probeResult c sd cf k 2).setTag table t').push 7 e |> fun c => { c with orders := c.orders + 1 })

/-- A fill of a slot stands in q7 and q7 is not halted: the slot has still to receive its data. -/
def Core.filling (c : Core) (table : BitVec 2) (k : Nat) : Bool :=
  !(c.rq 7).halted && (c.rq 7).entries.any fun e => e.kind == .fill table k

/-- A slot invalidated: its valid and pin bits cleared, and its pending state where no fill will end that (R197, R198). -/
def Core.invalidate (c : Core) (table : BitVec 2) (k : Nat) (x : TagSlot) : TagSlot :=
  { x with valid := false, pin := false, pending := x.pending && c.filling table k }

/-- PINV (R198). -/
def execPinv (sa : BitVec 6) (table : BitVec 2) (mode : PinvMode) (s : State) : Outcome State Fault Refusal :=
  let a := s.me.rs sa
  let t := s.me.rtag table
  let clear := s.me.invalidate table
  match mode with
  | .addr => match (if t.en then t.hit (a.toNat / 2 ^ t.lb) else none) with
    | some k => .next (s.issue fun c => c.setTag table (t.onSlot k (clear k)))
    | none => .next (s.issue fun c => c)
  | .slot => if a.toNat < t.slots.length then .next (s.issue fun c => c.setTag table (t.onSlot a.toNat (clear a.toNat))) else .next s.illegal
  | .all => .next (s.issue fun c => c.setTag table { t with slots := t.slots.zipIdx.map fun x => clear x.2 x.1 })

/-- PPIN (R199). -/
def execPpin (sa : BitVec 6) (table : BitVec 2) (pin : Bool) (s : State) : Outcome State Fault Refusal :=
  let a := s.me.rs sa
  let t := s.me.rtag table
  if a.toNat < t.slots.length then .next (s.issue fun c => c.setTag table (t.onSlot a.toNat fun x => { x with pin := pin })) else .next s.illegal

-- rounds (R301, R302, R312, R315)

/-- A window of a table (R312), if its word is legal. -/
def windowOf (w : Word) : Option Window :=
  let n := fld w 31 12
  if w.getLsbD 0 && 1 ≤ n && n ≤ 262144 && fld w 11 9 ≤ 5 && fld w 5 1 ≤ 23 then
    some ⟨fld w 63 32, n, fld w 11 9, fld w 8 6, fld w 5 1⟩
  else none

/-- The ticks that a window keeps its port busy after its start. -/
def Window.span (w : Window) (slack : Nat) : Nat := slack + ceilDiv w.len 210

/-- A timetable of a die: its slack and windows, if it meets R312 and no two busy spans overlap on a port (R315). -/
def Die.timetable (d : Die) (tt : Nat) : Option (Nat × List Window) :=
  let h := d.tables.word (4096 * tt)
  let slack := fld h 47 32
  let n := fld h 8 0
  let ws := (List.range n).map fun k => windowOf (d.tables.word (4096 * tt + 8 + 8 * k))
  let ok := fld h 63 48 == 0 && slack ≤ 256 && fld h 31 9 == 0 && 1 ≤ n && n ≤ 256 && ws.all (·.isSome)
  let xs := ws.filterMap id
  let clash := xs.zipIdx.any fun a => xs.zipIdx.any fun b =>
    a.2 < b.2 && a.1.port == b.1.port && a.1.start < b.1.start + b.1.span slack && b.1.start < a.1.start + a.1.span slack
  if ok && !clash then some (slack, xs) else none

/-- The partition owns a Jexlink port (R387). -/
def Part.ownsPort (p : Part) (port : Nat) : Bool := p.pctl.getLsbD (12 + port)

/-- A round of a tag runs on the package. -/
def State.runsTag (s : State) (tag : BitVec 8) : Bool := s.dies.toList.any fun d => d.rounds.any fun r => r.tag = tag

/-- What peers have written under a tag belongs to no round that can still end badly (R303). -/
def State.forgetTag (s : State) (tag : BitVec 8) : State := { s with landed := s.landed.filter fun x => x.tag != tag }

/-- ROUND (R301, R315): it starts the round, or joins it. -/
def execRound (sa : BitVec 6) (tt : BitVec 3) (tag : BitVec 8) (s : State) : Outcome State Fault Refusal :=
  let c := s.cur.core
  let start := (s.me.rs sa).toNat
  let d := s.dies[dieOf c]
  let go := fun (ident : Nat) (s : State) => s.issue fun x => x.onCtx fun y => { y with round := some (tag, ident) }
  let clear := { s with aborted := s.aborted.filter (fun t => t != tag), noticed := s.noticed.filter (fun t => t != tag), spoiled := s.spoiled.filter fun t => t != tag }
  let fresh := if s.runsTag tag then clear else clear.forgetTag tag
  if start ≤ (s.coreGcnt c).toNat then .next s.illegal
  else match d.rounds.find? fun r => r.tag = tag with
    | some r =>
      if r.tt = tt.toNat ∧ r.start = start then
        .next (go r.ident (clear.updDie (dieOf c) fun x =>
          { x with rounds := x.rounds.map fun y => if y.tag = tag then { y with cores := (c.val :: y.cores).eraseDups } else y }))
      else .next s.illegal
    | none =>
      match d.timetable tt.toNat with
      | none => .next s.illegal
      | some (slack, ws) =>
        let p := s.partOf c
        let die := (dieOf c).val
        let owned := ws.all fun w =>
          ((d.ports.toArray.getD w.port Port.reset).state == 2) &&
            (match p with | some i => (s.parts[i]).ownsPort (6 * die + w.port) | none => false) &&
            s.partOf (coreIx (24 * die + w.core)) == p
        if d.rounds.any (fun r => r.tt = tt.toNat) || 8 ≤ d.rounds.length || !owned then .next s.illegal
        else .next (go s.roundNo (({ fresh with roundNo := s.roundNo + 1 } : State).updDie (dieOf c) fun x =>
          { x with rounds := x.rounds ++ [⟨tag, s.roundNo, tt.toNat, start, slack, ws, [], [], [c.val]⟩] }))

/-- Entries of a tag that have not begun leave a queue. -/
def Queue.dropTag (q : Queue) (tag : BitVec 8) : Queue :=
  { q with entries := q.entries.filter fun e => !(decide (e.round.map (·.1) = some tag) && e.began.isNone) }

/-- A tag is aborted on this package: its unbegun entries go, its rounds end, its blocks that arrive from then on are discarded (R302). -/
def State.abortTag (s : State) (tag : BitVec 8) : State :=
  { s with cores := s.cores.map fun c => c.onCtx fun x => { x with queues := x.queues.map fun q => q.dropTag tag },
           dies := s.dies.map fun d => { d with rounds := d.rounds.filter fun r => r.tag != tag },
           aborted := (tag :: s.aborted).eraseDups, landed := s.landed.filter fun x => x.tag != tag }

/-- RABORT (R302, R320): it acts at the end of its hand-off cycle. -/
def execRabort (tag : BitVec 8) (s : State) : Outcome State Fault Refusal :=
  .next (({ s with aborts := s.aborts ++ [tag] } : State).issue fun c => c)

-- destination buffers of rounds that ended badly (R303, R319)

/-- Bytes of a scratchpad written with free values. -/
def State.spoil (s : State) (c a n : Nat) : State :=
  let n := min n ((s.cores[coreIx c]).scratch - a)
  { s.updCore (coreIx c) fun x => { x with pool := x.pool.writeAll ((List.range n).map fun i => (a + i, Config.freeByte (s.draws + i))) false } with
      draws := s.draws + n }

/-- Rounds of these tags have ended badly: the destination of every transfer of theirs that has begun to arrive holds undefined values, and so do the
bytes that arrive for them from now on. -/
def State.spoilTags (s : State) (tags : List (BitVec 8)) : State :=
  let t := (s.landed.filter fun x => tags.contains x.tag).foldl (fun s x => s.spoil x.core x.base x.len) s
  { t with landed := s.landed.filter fun x => !tags.contains x.tag }

-- atomics (R286–R291)

/-- Operand width of an atomic in bytes. -/
def atomBytes (op : AtomOp) : Nat :=
  match op with
  | .addI64 | .and | .or | .xor | .swap64 => 8
  | _ => 4

/-- The record of an atomic's trap (R286). -/
def atomInfo (a : Word) : Word := mkWord [(fld a 47 0, 16), (7, 0)]

/-- The die-to-die link between two dies has failed (R362). -/
def State.linkBad (s : State) (a b : Nat) : Bool := s.badLinks.any fun l => (l.1 = a && l.2 = b) || (l.1 = b && l.2 = a)

/-- An atomic's hand-off: its checks, its translation, its request (R286). -/
def atomOff (s : State) (sd sa sb : BitVec 6) (ord : Bool) (n : Nat) (op : Option AtomOp) (cmp : Word) : Outcome State Fault Refusal :=
  let c := s.cur.core
  let a := s.me.rs sa
  let w := s.myWord.zeroExtend 64
  let page := a.toNat / 65536
  let trap := fun (cause : Nat) (s : State) => s.trapNow cause (atomInfo a) w
  if fld a 63 48 != 0 || a.toNat % n != 0 then .next (trap 0x01 s)
  else match cacheGet s.me.tlb page with
    | none => .next (s.askWalk c 8 page)
    | some leaf =>
      if !leafOk leaf then .next (trap 0x0B (s.updCore c fun x => { x with tlb := x.tlb.filter fun e => e.1 != page }))
      else if leafKind leaf != 2 then .next (trap 0x01 s)
      else if !leafW leaf then .next (trap 0x0B s)
      else
        match s.leafPlace c leaf (a.toNat % 65536) with
        | .sye d ovf at_ =>
          let near := d == c.val / 24
          let t := if near then 18 else 42
          let waits := if ord then s.pubsOf c (match s.me.ctx.spr.atscope.toNat with
            | 0 => Scope.queue | 1 => .slot | 2 => .core | 3 => .cluster | 4 => .half | 5 => .die | 6 => .package | 7 => .partition
            | 8 => .host | 9 => .peer | 10 => .group | _ => .system) else []
          let x : Atomic :=
            { core := c.val, sd := sd, op := op, wide := n == 8, cmp := cmp, operand := s.me.rs sb, die := d, ovf := ovf, addr := at_,
              bundle := s.myRec.pc, seq := s.myRec.seq, order := s.me.orders, ord := ord, reach := s.me.cyc + t, back := t, extra := 0, waits := waits, resp := none }
          let g := s.draw
          let F := s.overflowBound (s.partOf c) d
          let r := if s.linkBad d (c.val / 24) then
              (({ x with resp := some (s.me.cyc + 2 * t, 0, kPoison) }, s.updCore c fun y => y.reqImp ⟨0x0F, BitVec.ofNat 64 d, 0, none, none⟩) : Atomic × State)
            else if ovf then
              let n := Config.freeDelay g.1 % (31 + F)
              ({ x with reach := s.me.cyc + t + n, extra := n }, g.2)
            else (x, s)
          .next (({ r.2 with atoms := r.2.atoms ++ [r.1] } : State).issue fun y => { y with orders := y.orders + 1 })
        | _ => .next (trap 0x01 s)

/-- ATOM (R286, R287). -/
def execAtom (op : AtomOp) (sd sa sb : BitVec 6) (ord : Bool) (s : State) : Outcome State Fault Refusal :=
  atomOff s sd sa sb ord (atomBytes op) (some op) 0
/-- ATOMC (R286, R289). -/
def execAtomc (wide : Bool) (sd sa sb : BitVec 6) (ord : Bool) (s : State) : Outcome State Fault Refusal :=
  atomOff s sd sa sb ord (if wide then 8 else 4) none (s.me.rs sd)

/-- The new value of an ATOM and the kinds it raises, on the width's bits (R287, R288). -/
def atomNew (op : AtomOp) (old b : Nat) : Nat × Kinds :=
  let i := fun (x : Nat) => signed 32 x
  match op with
  | .addI32 => ((old + b) % 2 ^ 32, 0)
  | .addI64 => ((old + b) % 2 ^ 64, 0)
  | .and => (old &&& b, 0)
  | .or => (old ||| b, 0)
  | .xor => (old ^^^ b, 0)
  | .minI32 => (if i b < i old then b else old, 0)
  | .maxI32 => (if i old < i b then b else old, 0)
  | .minu => (min old b, 0)
  | .maxu => (max old b, 0)
  | .swap32 | .swap64 => (b, 0)
  | .faddF32 => fmtF32.add old b
  | .faddBf16x2 =>
    let l := fmtBF16.add (old % 2 ^ 16) (b % 2 ^ 16)
    let h := fmtBF16.add (old / 2 ^ 16) (b / 2 ^ 16)
    (l.1 + 2 ^ 16 * h.1, l.2 ||| h.2)
  | .fmaxF32 => fmtF32.minmax true old b
  | .fminF32 => fmtF32.minmax false old b

/-- What an atomic returns (R287, R289). -/
def atomRet (op : Option AtomOp) (old : Nat) : Word :=
  match op with
  | some .addI32 | some .minI32 | some .maxI32 => (BitVec.ofNat 32 old).signExtend 64
  | _ => BitVec.ofNat 64 old

end Sys2Proof.Machine
end

