-- ==== Sys2Proof/Machine/Pipeline.lean ====
section
/-!
DEFINITION. The core's pipeline: boundaries and dispatch (R63–R75), slot pool accesses (R108, R171, R172, R174), transfers' reads (R67, R71),
landings (R56, R162), retirement (R51, R52), trap entry (R53, R80, R353) and the timers of CTL, AE and the generator; the events of the
opcode table that name them. An event's own condition is its `…Due`; `exec` performs it only then.
-/
namespace Sys2Proof.Machine

open Host

/-- An event of the part: performed where its condition holds, no possible step elsewhere. -/
def event (name : String) (due : Bool) (s : State) (f : State → State) : Outcome State Fault Refusal :=
  if due then .next (f s) else .fault (.notDue name)

/-- The step of another core's or unit's happening in which nothing of a frozen core moves. -/
def Core.moves (c : Core) : Bool := !c.frozen

-- boundaries (R70, R72–R75)

def LoopLevel.has (l : LoopLevel) (t : BitVec 14) : Bool := l.start.toNat ≤ t.toNat && t.toNat ≤ l.stop.toNat

/-- The end tests at the boundary after a bundle (R74): the stack, and where control loops back to. -/
def endTests (here : BitVec 14) : List LoopLevel → List LoopLevel × Option (BitVec 14)
  | [] => ([], none)
  | l :: r =>
    if l.stop = here then
      (if l.index.toNat + 1 < l.count.toNat then ({ l with index := l.index + 1 } :: r, some l.start) else endTests here r)
    else (l :: r, none)

/-- The push or skip of a LOOP (R72): the stack, and the bundle whose following boundary is crossed. A body end past bundle 16,383 wraps modulo
2^14 (the spec states none; DESIGN CHOICE, log 88). -/
def loopEnter (loops : List LoopLevel) (pc : BitVec 14) (count : BitVec 32) (off : BitVec 12) : List LoopLevel × BitVec 14 :=
  if count = 0 then (loops, pc + off.zeroExtend 14)
  else if 6 ≤ loops.length then (loops, pc)
  else (⟨0, count, pc + 1, pc + off.zeroExtend 14⟩ :: loops, pc)

/-- The transfer whose third delay bundle has been dispatched and whose boundary has not been crossed. -/
def Core.landingXfer (c : Core) : Option Xfer := c.ctx.xfers.find? fun x => x.left = 0 && !x.done

/-- The boundary can be crossed: what it depends on is known (R65). -/
def Core.crossable (c : Core) : Bool :=
  match c.bound with
  | none => true
  | some b =>
    (match c.landingXfer with | some x => x.res.isSome | none => true) &&
      (match b.ctl with | .loopReg _ _ => b.count.isSome | _ => true)

/-- The boundary after the last dispatched bundle is crossed (R75). -/
def Core.cross (c : Core) : Core :=
  match c.bound with
  | none => c
  | some b =>
    let popped := match b.ctl with | .loopx n => c.ctx.loops.drop n.toNat | _ => c.ctx.loops
    let r : List LoopLevel × BitVec 14 := match b.ctl with
      | .loop n off => loopEnter popped b.pc (n.zeroExtend 32) off
      | .loopReg _ off => loopEnter popped b.pc (b.count.getD 0) off
      | _ => (popped, b.pc)
    let target : Option (BitVec 14) := match c.landingXfer with
      | some x => x.res.getD none
      | none => none
    let q : List LoopLevel × Option (BitVec 14) := match target with
      | some t => (r.1.filter fun l => l.has t, some t)
      | none => endTests r.2 r.1
    { (c.onCtx fun x =>
        { x with loops := q.1, pc := q.2.getD (r.2 + 1), xfers := x.xfers.map fun y => if y.left = 0 then { y with done := true } else y })
      with bound := none }

-- dispatch (R64–R66)

/-- The lowest sequence number that a slot has still to issue: m of R47. -/
def Core.oldestWord (c : Core) : Nat := c.next.foldl min (c.nextSeq .ctl)

/-- The tag of a bundle (R64). -/
def Core.tagNow (c : Core) : Tag :=
  { lidx := c.ctx.loops.reverse.map (·.index), lcnt := (c.ctx.loops.head?.map (·.count)).getD 0,
    first := (c.ctx.loops.head?.map fun l => decide (l.index = 0)).getD true,
    last := (c.ctx.loops.head?.map fun l => decide (l.index.toNat + 1 = l.count.toNat)).getD true, beat := c.ctx.beat }

def isTransfer : Instr → Bool
  | .br _ _ _ | .brAlways _ | .call _ | .ret => true
  | _ => false

/-- The hold that a bundle's CTL word puts on dispatch (R65). -/
def holdOf (seq : Nat) : Instr → Hold
  | .loopReg _ _ => .loopReg seq
  | .halt | .trap _ | .rett | .yield => .ctl seq
  | _ => .none

/-- The bundle's words in instruction memory (R22, R23). -/
def Core.fetch (c : Core) (pc : BitVec 14) : BitVec 256 := bundleOfBytes (c.imem.bytes (32 * pc.toNat) 32)

/-- A decoded bundle enters the pipeline. -/
def Core.enter (c : Core) (words : BitVec 256) : Core :=
  let pc := c.ctx.pc
  let k := c.seqNo
  let b : BundleRec :=
    { seq := k, pc := pc, words := words, tag := c.tagNow, loopsBefore := c.ctx.loops,
      xfersBefore := (c.ctx.xfers.filter fun x => !x.done).map fun x => (x.seq, x.left), beatBefore := c.ctx.beat, issued := 0, accEnd := 0 }
  let ctl := b.instr .ctl
  let older := c.ctx.xfers.map fun x => if x.done then x else { x with left := x.left - 1 }
  let own : List Xfer := if isTransfer ctl then [⟨k, pc, 3, none, none, none, none, none, false⟩] else []
  let beats := match ctl with | .abeat _ => 1 | _ => 0
  { (c.onCtx fun x => { x with xfers := older ++ own, beat := x.beat + beats }) with
      seqNo := k + 1, bundles := c.bundles ++ [b], bound := some ⟨k, pc, ctl, none⟩, hold := holdOf k ctl }

/-- The dispatch of a bundle meets an uncorrectable error: in the loop stack that it reads its tag from, or in the replay buffer just re-injected
(R362). -/
def Core.upsetMet (c : Core) : Bool := c.upsets.met || c.upsets.loops.any fun l => decide (l < c.ctx.loops.length)

/-- Loop levels entered since a bundle before are written anew. -/
def Upsets.entered (u : Upsets) (before after : Nat) : Upsets := { u with loops := u.loops.filter fun l => decide (l < min before after) }

/-- The next bundle in execution order, the only one of a debug STEP (R396), is dispatched, or its dispatch meets a trap: beyond the code region
(R65), a bundle that does not decode (R37, R43, R45), an uncorrectable error in instruction memory, the loop stack or the replay buffer (R362). -/
def Core.dispatch (c0 : Core) : Core :=
  let c := { c0.cross with haltReq := c0.stepReq, upsets := c0.upsets.entered c0.ctx.loops.length c0.cross.ctx.loops.length }
  let pc := c.ctx.pc
  let words := c.fetch pc
  if !inRegion c.ctx.spr.taskinfo pc.toNat then c.reqTrap ⟨c.seqNo, 0x01, 0, 0⟩
  else if c.imem.tainted (32 * pc.toNat) 32 then c.reqTrap ⟨c.seqNo, 0x0F, 0, 0⟩
  else if c.upsetMet then { c.reqTrap ⟨c.seqNo, 0x0F, 0, 0⟩ with upsets := { c.upsets with met := false } }
  else match bundleReject words with
    | some (sl, why) =>
      c.reqTrap ⟨c.seqNo, 0x01, mkWord [(if why = .lanes then 1 else 0, 3), (sl.num, 0)], (slotWord words sl).zeroExtend 64⟩
    | none => c.enter words

/-- A queued task of higher priority waits (R349). -/
def Core.outranked (c : Core) : Bool := c.queue.any fun t => c.prio < t.prio

/-- The running task is to give way at the next bundle boundary (R349, R350, R78). -/
def Core.leaving (c : Core) : Bool := c.preempt || c.expired || c.outranked

/-- A bundle may be dispatched. -/
def Core.dispatchDue (c : Core) : Bool :=
  c.moves && c.run == .running && c.switch.isNone && !c.halted && !c.haltReq && c.hold == .none && c.ptrap.isNone && c.itraps.isEmpty && !c.leaving &&
    c.seqNo ≤ c.oldestWord + 16 && c.crossable

/-- BUNDLE_DISPATCH (R65). -/
def execBundleDispatch (c : CoreId) (s : State) : Outcome State Fault Refusal :=
  event "BUNDLE_DISPATCH" (s.cores[c]).dispatchDue s fun s => s.updCore c Core.dispatch

-- slot pool accesses in their cycle (R171, R172, R174)

/-- The banks that a run of bytes uses in a view. -/
def viewBanks (view : Bool) (a n : Nat) : List Nat :=
  ((List.range (ceilDiv (a % 128 + n) 128)).map fun i => bankOf view (a / 128 * 128 + 128 * i)).eraseDups

/-- Two accesses of different instructions meet at a bank. -/
def Access.clash (a b : Access) : Option Nat :=
  if a.seq = b.seq ∧ a.slot = b.slot then none
  else (viewBanks a.view a.addr a.len).find? fun k => (viewBanks b.view b.addr b.len).contains k

/-- The bank-conflict trap of two accesses (R171, R55): of one bundle, the lower slot's is recorded as the trapped one. -/
def clashTrap (a b : Access) (bank : Nat) : TrapReq :=
  let mine := if b.seq < a.seq ∨ (a.seq = b.seq ∧ Slot.num b.slot < Slot.num a.slot) then b else a
  let other := if mine = a then b else a
  ⟨mine.seq, 0x03,
   mkWord [(mine.addr, 40), (other.addr, 16), (Slot.num other.slot, 12), (Slot.num mine.slot, 8), (bank, 0)],
   mkWord [(other.bundle.toNat, 32), (mine.bundle.toNat, 0)]⟩

/-- The traps of the accesses of a cycle. -/
def clashes : List Access → List TrapReq
  | [] => []
  | a :: r => (r.filterMap fun b => (a.clash b).map fun k => clashTrap a b k) ++ clashes r

/-- A store takes its place among those waiting for retirement: in the order in which bundles retire, and within one as they met the pool. -/
def addStore (p : PendStore) : List PendStore → List PendStore
  | [] => [p]
  | q :: r => if p.seq < q.seq then p :: q :: r else q :: addStore p r

/-- The value a slot load takes of a byte, with its poison: the pool with the stores of this core that have met their access cycle, of several
to one byte the one that retires last, which the pool keeps (R172, R269; DEDUCED, log 89); where the last slot store was made in the other view, a choice
of that value or the one before it (R174). -/
def Core.slotByte (c : Core) (view : Bool) (a : Nat) (pick : Bool) : Byte × Bool :=
  let hits := (c.stores.filter fun p => p.time < c.cyc).filterMap fun p => (p.bytes.find? fun b => b.1 = a).map fun b => (p.view, b.2)
  let base := c.pool.read a
  let poison := c.pool.poison.contains a
  match hits.getLast? with
  | some (v, b) =>
    if v = view ∨ pick then (b, false)
    else match hits.dropLast.getLast? with
      | some x => (x.2, false)
      | none => (base, poison)
  | none =>
    match c.ctx.viewLog.find? fun x => x.1 = a with
    | some (_, v, old) => if v = view ∨ pick then (base, poison) else (old, false)
    | none => (base, poison)

/-- Sign extension of n bytes to 64 bits. -/
def sext64 (n v : Nat) : Nat := (((BitVec.ofNat 64 v) <<< (64 - 8 * n)).sshiftRight (64 - 8 * n)).toNat

/-- One access meets the pool. -/
def Core.meet (c : Core) (picks : Nat → Bool) (x : Access) : Core :=
  match x.op with
  | .store bytes =>
    let bs := bytes.zipIdx.filterMap fun b => b.1.map fun v => (x.addr + b.2, v)
    { c with stores := addStore ⟨x.seq, x.slot, c.cyc, x.view, bs⟩ c.stores }
  | .load reg shift _ sx _ =>
    let bs := (List.range x.len).map fun i => c.slotByte x.view (x.addr + i) (picks (x.addr + i))
    let v := leNat (bs.map (·.1))
    let v := if sx then sext64 x.len v else v
    let k := kIf (bs.any (·.2)) kPoison
    { c with flights := c.flights.map fun f =>
        if f.seq = x.seq ∧ f.slot = x.slot ∧ f.reg = reg then
          { f with val := f.val ||| (BitVec.ofNat 2048 v <<< shift), kinds := f.kinds ||| k }
        else f }

/-- The slot accesses of the present cycle of a core. -/
def accessCycle (s : State) (c : CoreId) : State :=
  let x := s.cores[c]
  let now := x.access.filter fun a => a.due ≤ x.cyc
  if now = [] then s
  else
    let d := s.draw
    let picks := fun (a : Nat) => Config.freeBool (d.1 * 2 ^ 24 + a)
    d.2.updCore c fun x =>
      let x := { x with access := x.access.filter fun a => x.cyc < a.due }
      let x := (clashes now).foldl (fun x t => x.reqTrap t) x
      now.foldl (fun x a => x.meet picks a) x

-- transfers' reads (R67, R71, R83)

/-- A write of a register by another slot is in flight (R58), or the register is pending (R60). -/
def Core.inFlight (c : Core) (sl : Slot) (r : Reg) : Option Flight :=
  c.flights.find? fun f => Reg.same f.reg r && (f.pend || f.slot != sl)

/-- The sd of an outstanding atomic is pending (R60, R286). -/
def State.atomPending (s : State) (c : CoreId) (r : Reg) : Bool :=
  match r with
  | .s i => i != 0 && s.atoms.any fun a => a.core = c.val && a.sd = i
  | _ => false

/-- The target value of a transfer, and whether it passes R71. -/
def Xfer.target (x : Xfer) : Reg := match x.bt with | some b => .bt b | none => .s 63
def Core.targetOf (c : Core) (x : Xfer) : Word := match x.bt with | some b => c.rbt b | none => c.rs 63
def Core.targetOk (c : Core) (x : Xfer) : Bool :=
  let v := c.targetOf x
  v.toNat < 2 ^ 14 && inRegion c.ctx.spr.taskinfo v.toNat

/-- A write in flight that a transfer's read meets: of a word that issues in the same cycle, as `new` says, or of an earlier one; none of its own
slot. Whether the register is pending goes with it (R58, R60). -/
def State.xferMeets (s : State) (c : CoreId) (new : Reg → Option (Slot × BitVec 14 × Bool)) (r : Reg) : Option (Slot × BitVec 14 × Bool) :=
  if s.atomPending c r then some (.ae, 0, true)
  else match (s.cores[c]).inFlight .ctl r with
    | some f => some (f.slot, f.bundle, f.pend)
    | none => new r

/-- A transfer reads its target, checks it, and reads its condition, each once no other slot's write of the register is in flight. Such a write in
issue + 1, the cycle of the read, is the scoreboard trap under SBMODE 1 (R58, R67, R71; log 16). -/
def State.readXfer (s : State) (c : CoreId) (new : Reg → Option (Slot × BitVec 14 × Bool)) (x : Xfer) : Xfer × Option TrapReq :=
  let k := s.cores[c]
  match x.readAt with
  | none => (x, none)
  | some t =>
    if x.res.isSome || k.cyc < t then (x, none)
    else
      let meet := fun (r : Reg) => (s.xferMeets c new r).map fun w =>
        if k.ctx.spr.sbmode && !w.2.2 && k.cyc = t then
          (let i := clashInfo r .ctl w.1 x.pc w.2.1; some (⟨x.seq, 0x05, i.1, i.2⟩ : TrapReq)) else none
      let y : Xfer × Option TrapReq :=
        if x.tgt.isSome then (x, none)
        else match meet x.target with
          | some tr => (x, tr)
          | none =>
            if k.targetOk x then ({ x with tgt := some ((k.targetOf x).truncate 14) }, none)
            else (x, some ⟨x.seq, 0x01, 0, (((k.recs.find? fun b => b.seq = x.seq).getD emptyRec).word .ctl).zeroExtend 64⟩)
      match y.1.tgt, y.2, x.cond with
      | some g, none, none => ({ y.1 with res := some (some g) }, none)
      | some g, none, some (cf, sense) =>
        match meet (.cf cf) with
        | some tr => (y.1, tr)
        | none => ({ y.1 with res := some (if k.rcf cf == sense then some g else none) }, none)
      | _, _, _ => y

/-- The transfers of a core whose reads fall into this cycle, and the traps they find. -/
def State.readXfers (s : State) (c : CoreId) (new : Reg → Option (Slot × BitVec 14 × Bool)) : State × List TrapReq :=
  let ys := (s.cores[c]).ctx.xfers.map fun x => s.readXfer c new x
  (s.updCore c fun k => (k.onCtx fun y => { y with xfers := ys.map (·.1) }).forget, ys.filterMap (·.2))

-- retirement (R51, R52)

def retireDue (s : State) (c : CoreId) : Bool :=
  let x := s.cores[c]
  match x.bundles with
  | [] => false
  | b :: _ => x.moves && b.issued = 0xFF && b.accEnd ≤ x.cyc && (match x.ptrap with | some t => b.seq < t.seq | none => true)

/-- A store is performed at its bundle's retirement; the view log keeps what each byte held (R172, R174). -/
def Core.performStore (c : Core) (p : PendStore) : Core :=
  let log := p.bytes.map fun b => (b.1, p.view, c.pool.read b.1)
  { (c.onCtx fun x => { x with viewLog := log ++ x.viewLog.filter fun e => !(p.bytes.any fun b => b.1 = e.1) }) with
      pool := c.pool.writeAll p.bytes false }

/-- A retired bundle, with what taking it back needs. -/
def Core.goneOf (c : Core) (b : BundleRec) : Gone :=
  ⟨b, (c.stores.filter fun p => p.seq = b.seq).flatMap fun p => p.bytes.map fun x => (x.1, c.pool.read x.1, c.pool.poison.contains x.1), c.ctx.viewLog⟩

/-- The oldest bundle retires: its stores are performed, later bundles' of the same byte after them. -/
def Core.retire (c : Core) : Core :=
  match c.bundles with
  | [] => c
  | b :: rest =>
    let d := (c.stores.filter fun p => p.seq = b.seq).foldl (fun c p => c.performStore p) { c with stores := c.stores.filter fun p => p.seq != b.seq }
    ({ d with bundles := rest, gone := c.gone ++ [c.goneOf b] } : Core).forget

/-- BUNDLE_RETIREMENT (R51). -/
def execBundleRetirement (c : CoreId) (s : State) : Outcome State Fault Refusal :=
  event "BUNDLE_RETIREMENT" (retireDue s c) s fun s => s.updCore c Core.retire

-- landings (R9, R56, R162)

def Core.landingDue (c : Core) : Bool := c.moves && (c.flights.any (fun f => f.due ≤ c.cyc) || !c.reports.isEmpty)

/-- The results of this cycle's end land, and its events are raised; a landing MOVRS to FELMASK comes before the events (DESIGN CHOICE, log 116). -/
def Core.landAll (c : Core) : Core :=
  let fs := c.flights.filter fun f => f.due ≤ c.cyc
  let rs := c.reports
  let c := { c with flights := c.flights.filter (fun f => c.cyc < f.due), reports := [] }
  (fs.foldl (fun c f => c.land f) c).raise fs rs

/-- RESULT_LANDING (R9, R56). -/
def execResultLanding (c : CoreId) (s : State) : Outcome State Fault Refusal :=
  event "RESULT_LANDING" (s.cores[c]).landingDue s fun s => s.updCore c Core.landAll

-- trap entry (R53, R80, R353)

/-- Before a trap or a switch at bundle k is taken: outstanding atomics have landed (R290), older transfers are resolved, and a RETT whose bundle has
retired has taken effect, unless it has trapped. -/
def State.settled (s : State) (c : CoreId) : Bool :=
  let x := s.cores[c]
  let k := match x.ptrap with
    | some t => t.seq
    | none => (x.bundles.head?.map (·.seq)).getD x.seqNo
  !(s.atoms.any fun a => a.core = c.val) && (x.ctx.xfers.all fun y => k ≤ y.seq || y.res.isSome) &&
    (x.ptrap.isSome || match x.ret with | some q => x.alive q | none => true) && (!x.bundles.isEmpty || x.ptrap.isSome || x.crossable)

/-- The core at the boundary at which a trap or a switch is taken, and its TEPC; a bundle that has retired and that the trap names is taken back. -/
def Core.cut (c : Core) : Core × Word :=
  let c := match c.ptrap with
    | some t => c.reopen t.seq
    | none => if c.bundles = [] then c.cross else c
  let k := (c.bundles.head?.map (·.seq)).getD c.seqNo
  let r := c.rollback
  ({ r.1 with run := if c.run = .halting then .running else c.run, preempt := false,
              itraps := r.1.itraps.filter fun t => match t.after with | some q => decide (q < k) | none => true }, r.2)

def preciseDue (s : State) (c : CoreId) : Bool :=
  let x := s.cores[c]
  match x.ptrap with
  | none => false
  | some t => x.moves && !x.halted && (match x.bundles with | [] => true | b :: _ => t.seq ≤ b.seq) && s.settled c

/-- The precise trap is entered. -/
def enterPrecise (s : State) (c : CoreId) : State :=
  match (s.cores[c]).ptrap with
  | none => s
  | some t =>
    let r := (s.cores[c]).cut
    takeTrap (s.updCore c fun _ => r.1) c t.cause t.info0 t.info1 r.2 none

/-- PRECISE_TRAP_ENTRY (R53, R54, R80). -/
def execPreciseTrapEntry (c : CoreId) (s : State) : Outcome State Fault Refusal :=
  event "PRECISE_TRAP_ENTRY" (preciseDue s c) s fun s => enterPrecise s c

/-- The trap, not precise, that can be taken; the software trap waits for its bundle's retirement (R79). -/
def Core.nextTrap (c : Core) : Option ImpTrap := c.itraps.find? fun t => match t.after with | some k => !c.alive k | none => true

/-- The first of equal traps leaves a list. -/
def dropTrap (t : ImpTrap) : List ImpTrap → List ImpTrap
  | [] => []
  | x :: r => if x = t then r else x :: dropTrap t r

def impreciseDue (s : State) (c : CoreId) : Bool :=
  let x := s.cores[c]
  x.moves && x.run == .running && !x.halted && x.nextTrap.isSome && s.settled c

/-- A trap that is not precise is entered at the oldest bundle not retired (R353). -/
def enterImprecise (s : State) (c : CoreId) : State :=
  match (s.cores[c]).nextTrap with
  | none => s
  | some t =>
    let r := ({ s.cores[c] with itraps := dropTrap t (s.cores[c]).itraps } : Core).cut
    takeTrap (s.updCore c fun _ => r.1) c t.cause t.info0 t.info1 r.2 t.queue

/-- IMPRECISE_TRAP_ENTRY (R353, R80). -/
def execImpreciseTrapEntry (c : CoreId) (s : State) : Outcome State Fault Refusal :=
  event "IMPRECISE_TRAP_ENTRY" (impreciseDue s c) s fun s => enterImprecise s c

-- timers of CTL and AE

def Core.waitcDue (c : Core) : Bool := c.moves && c.ctlHold != 0 && c.ctlHold ≤ c.cyc

/-- WAITC_EXPIRY (R91). -/
def execWaitcExpiry (c : CoreId) (s : State) : Outcome State Fault Refusal :=
  event "WAITC_EXPIRY" (s.cores[c]).waitcDue s fun s => s.updCore c fun x => { x with ctlHold := 0 }

/-- The instruction of a slot's next word; a NOP where its bundle is not dispatched. -/
def Core.nextInstr (c : Core) (sl : Slot) : Instr := if c.alive (c.nextSeq sl) then (c.wordRec sl).instr sl else .nop

/-- A waiting AWAIT has run out of time. -/
def Core.awaitDue (c : Core) : Bool :=
  c.moves && (match c.nextInstr .ae with
    | .await sa _ _ t => awaitLate c t && c.inPool (c.rs sa) 16 16
    | _ => false)

/-- AWAIT_TIMEOUT (R183): the AWAIT issues with cf 0. -/
def execAwaitTimeout (c : CoreId) (s : State) : Outcome State Fault Refusal :=
  event "AWAIT_TIMEOUT" (s.cores[c]).awaitDue s fun s =>
    match (s.cores[c]).nextInstr .ae with
    | .await sa _ cf _ => awaitIssue { s with cur := ⟨c, .ae⟩ } ((s.cores[c]).rs sa) cf false
    | _ => s

/-- A waiting WAITG's time has come (R311). -/
def waitgDue (s : State) (c : CoreId) : Bool :=
  (s.cores[c]).moves && ((s.cores[c]).waitFrom.toArray.getD 0 none).isSome && (match (s.cores[c]).nextInstr .ctl with
    | .waitg sa => ((s.cores[c]).rs sa).toNat ≤ (s.coreGcnt c).toNat
    | _ => false)

/-- WAITG_EXPIRY (R311). -/
def execWaitgExpiry (c : CoreId) (s : State) : Outcome State Fault Refusal :=
  event "WAITG_EXPIRY" (waitgDue s c) s fun s => ({ s with cur := ⟨c, .ctl⟩ } : State).issue fun c => c

/-- The deadline of the ABEAT that waits, if one has passed (R92). -/
def Core.overrun (c : Core) : Option Nat :=
  match c.nextInstr .ctl, c.waitFrom.toArray.getD 0 none with
  | .abeat n, some a =>
    let D := if n = 0 then c.ctx.spr.astretch.toNat else n.toNat
    if a + D < c.cyc then some D else none
  | _, _ => none

def Core.overrunDue (c : Core) : Bool :=
  c.moves && c.overrun.isSome && (match c.ptrap with | some t => c.nextSeq .ctl < t.seq | none => true)

/-- The record of a beat overrun (R248). -/
def Core.overrunTrap (c : Core) (D : Nat) : TrapReq :=
  let a := c.ctx.af
  ⟨c.nextSeq .ctl, 0x09, mkWord [(a.openBeat.toNat, 48), (min 255 a.active.length, 32), (if a.words.isEmpty then 0 else 1, 8)], BitVec.ofNat 64 D⟩

/-- BEAT_OVERRUN (R92, R248). -/
def execBeatOverrun (c : CoreId) (s : State) : Outcome State Fault Refusal :=
  event "BEAT_OVERRUN" (s.cores[c]).overrunDue s fun s => s.updCore c fun x => x.reqTrap (x.overrunTrap (x.overrun.getD 0))

/-- The generator has room, and a task (R150). -/
def Core.rngDue (c : Core) : Bool :=
  c.moves && c.run != .idle && c.ctx.rq.length < 32 && !(c.flights.any fun f => f.due ≤ c.cyc && rngWrite f.reg)

/-- RNG_REFILL (R150). -/
def execRngRefill (c : CoreId) (s : State) : Outcome State Fault Refusal :=
  event "RNG_REFILL" (s.cores[c]).rngDue s fun s => s.updCore c fun x => x.onCtx fun y =>
    { y with rq := y.rq ++ [rngEntry y.spr.rngkey y.spr.rngctr], spr := { y.spr with rngctr := y.spr.rngctr + 1 } }

end Sys2Proof.Machine
end

