-- ==== Sys2Proof/Machine/Engine.lean ====
section
/-!
DEFINITION. The copy engine at work: the life of a queue entry from its begin to its completion (R162, R187–R191, R230–R233, R262–R264,
R294, R295), its blocks at the array field (R238–R240, R250, R251), and the events of the matrix engine and the array field.
-/
namespace Sys2Proof.Machine

open Host

def qix (q : QueueId) : BitVec 3 := BitVec.ofNat 3 q.val

/-- The entry at the head of a queue. -/
def Core.head (c : Core) (q : BitVec 3) : Option Entry := (c.rq q).entries.head?

/-- The head changed. -/
def Core.onHead (c : Core) (q : BitVec 3) (f : Entry → Entry) : Core :=
  c.onQueue q fun x => { x with entries := match x.entries with | e :: r => f e :: r | [] => [] }

/-- The head leaves its queue (R190). -/
def Core.leave (c : Core) (q : BitVec 3) : Core := c.onQueue q fun x => { x with entries := x.entries.drop 1, done := x.done + 1 }

/-- A queue halts at its head, and the core is to take the trap (R191). For a failed link TINFO0 holds the die's number in bits 1:0 (R362), and what
R191 says above them (DEDUCED, log 109). A task that has ended takes no trap: the halted queue's entries are discarded (R361). -/
def Core.haltQueue (c : Core) (q : BitVec 3) (cause tcause low : Nat) (i1 : Word) : Core :=
  let n := fld (c.rq q).done 31 0
  if c.ended then c.onQueue q fun x => { x with entries := [] }
  else if tcause = 0x0F then
    (c.onQueue q fun x => { x with halted := true, cause := BitVec.ofNat 8 cause }).reqImp
      ⟨0x0F, mkWord [(n, 32), (q.toNat, 8), (1, 2), (fld i1 1 0, 0)], 0, some q, none⟩
  else
  (c.onQueue q fun x => { x with halted := true, cause := BitVec.ofNat 8 cause }).reqImp
    ⟨BitVec.ofNat 8 tcause, mkWord [(n, 32), (low, 0), (q.toNat, 8), (7, 0)], i1, some q, none⟩

-- what an entry moves

def Entry.isVerb (e : Entry) : Bool := match e.kind with | .zip | .fold _ | .scan _ => true | _ => false
def Entry.isRed (e : Entry) : Bool := match e.kind with | .red _ => true | _ => false
def Entry.isPut (e : Entry) : Bool := match e.kind with | .put | .putr _ | .putrVerb => true | _ => false
def Entry.isFlag (e : Entry) : Bool := match e.kind with | .flag _ _ _ => true | _ => false
def Entry.isMarker (e : Entry) : Bool := match e.kind with | .marker _ => true | _ => false

/-- What a destination block takes whole: an element of a verb entry, a byte elsewhere. -/
def Entry.unit (e : Entry) : Nat := if e.isVerb then e.desc.es else 1

/-- The end of the run of output bytes from p on that lies in one aligned block. -/
def runEnd (f : Nat → Nat) (unit total blk : Nat) : Nat → Nat → Nat
  | 0, p => p
  | n + 1, p => if p < total ∧ f p / 128 = blk then runEnd f unit total blk n (p + unit) else p

/-- The end of the destination block that starts at output byte p. -/
def Entry.blockEnd (e : Entry) (p : Nat) : Nat := runEnd e.outAt e.unit e.total (e.outAt p / 128) (128 / e.unit) p

/-- Destination blocks from output byte p on, on fuel. -/
def Entry.blocksFrom (e : Entry) : Nat → Nat → Nat
  | 0, _ => 0
  | n + 1, p => if p < e.total then 1 + e.blocksFrom n (e.blockEnd p) else 0

/-- Source bytes, by number in visiting order, that output bytes p0 … p1 − 1 draw (R187, R228). -/
def Entry.drawn (e : Entry) (p0 p1 : Nat) : List Nat :=
  let d := e.desc
  match e.kind with
  | .fold _ => (List.range ((p1 - p0) / d.es)).flatMap fun r => (List.range (d.c0 * d.es)).map fun i => (p0 / d.es + r) * d.c0 * d.es + i
  | _ => (List.range (p1 - p0)).map fun i => p0 + i

/-- Source elements that each output element draws. -/
def Entry.perOut (e : Entry) : Nat := match e.kind with | .fold _ => e.desc.c0 | _ => 1

/-- The source element that the entry's next read is for. -/
def Entry.nextElem (e : Entry) : Nat :=
  match e.cur with
  | some b => (((b.ins.filter fun x => e.want.contains (x.1 / 128)).map fun x => x.2 / e.desc.es).min?).getD (e.pos / e.desc.es * e.perOut)
  | none => e.pos / e.desc.es * e.perOut

/-- The step in which a verb entry stands (R231): that of the last source element it has read or asked for. -/
def Entry.stepNow (e : Entry) : Nat := (e.nextElem - 1) / 256

/-- It stands at the end of the step with which it stops while its context is saved (R231). -/
def Entry.atStop (e : Entry) : Bool := e.isVerb && (match e.stopStep with | some S => decide (256 * (S + 1) ≤ e.nextElem) | none => false)

/-- The destination block that starts at the entry's next output byte; in a ZIP or SCAN that is to stop, it ends with the step. -/
def Entry.form (e : Entry) : OutBlock :=
  let p1 := match e.stopStep with
    | some S => if e.perOut = 1 && e.isVerb then min (e.blockEnd e.pos) (256 * (S + 1) * e.desc.es) else e.blockEnd e.pos
    | none => e.blockEnd e.pos
  { j := e.blk, outs := (List.range (p1 - e.pos)).map (fun i => (e.outAt (e.pos + i), e.pos + i)),
    ins := (e.drawn e.pos p1).map (fun b => (e.desc.srcAt b, b)), ready := 0, await := [], zread := none, late := false, inAf := false }

/-- The aligned source blocks that a destination block draws from, in the order of the first byte drawn (R262). -/
def OutBlock.sources (b : OutBlock) : List Nat := (b.ins.map fun x => x.1 / 128).eraseDups

/-- The block's first output byte, and the one after its last. -/
def OutBlock.first (b : OutBlock) : Nat := (b.outs.head?.map (·.2)).getD 0
def OutBlock.stop (b : OutBlock) : Nat := b.first + b.outs.length
def OutBlock.dst (b : OutBlock) : Nat := (b.outs.head?.map (·.1)).getD 0

-- a byte or an element taken so far

def byteOf (got : List (Nat × Byte × Bool)) (n : Nat) : Option (Byte × Bool) := (got.find? fun x => x.1 = n).map (·.2)

def elemOf (got : List (Nat × Byte × Bool)) (es i : Nat) : Word × Bool :=
  let bs := (List.range es).map fun k => (byteOf got (es * i + k)).getD (0, false)
  (BitVec.ofNat 64 (leNat (bs.map (·.1))), bs.any (·.2))

-- when a block is written (R167, R230, R262)

def Entry.verbLen (e : Entry) : Nat := (e.verb.map (·.len)).getD 1
def Entry.lanes (e : Entry) : Nat := if (e.verb.map (·.isPair)).getD false then 16 else 32

/-- The earliest cycle of a block whose last source read is in cycle r, and the cycle in which a ZIP reads its destination. A refused read has
delayed r, and the last write of a verb entry; a refused write delays its block and every later one (R173, R230, R262). A verb entry keeps R230's
table, but that nothing is written before the read that feeds it and its evaluation (DEDUCED, log 110). -/
def Entry.timing (e : Entry) (r : Nat) (B : OutBlock) : Nat × Option Nat :=
  let d := e.desc
  let b := e.began.getD 0
  let n := e.verbLen
  let own := if space d.src = 0 then r + 16 else 0
  if e.isPut && space d.src != 0 then (0, none) else
  let last := fun (scan t : Bool) => b + 16 + foldCycles n d.c0 (d.c1 * d.c2) e.lanes scan t + e.slip + e.wslip + B.j + 1 - e.blocksFrom e.total 0
  let fed := fun (k : Nat) => if space d.src = 0 then r + k else 0
  match e.kind with
  | .zip =>
    let k := n * ceilDiv ((B.outs.length / d.es) * (32 / e.lanes)) 32
    let w := max (b + 16 + n * ceilDiv (B.stop / d.es) e.lanes + e.slip + e.wslip) (fed k)
    (w, some (w - k))
  | .fold t => (max (last false t) (fed (if 1 < d.c0 then n else 0)), none)
  | .scan t => (max (last true t) (fed n), none)
  | _ => (max (b + 16 + B.j) own + e.wslip, none)

-- begin (R188, R191, R263)

def Entry.armReached (e : Entry) (c : Core) : Bool :=
  let d := e.desc
  !d.arm || genReached (awGen c.pool d.armAt) (BitVec.ofNat 32 d.armGen)

/-- The head of the queue may begin in this cycle, its translations apart. -/
def Core.mayBegin (c : Core) (q : BitVec 3) : Bool :=
  match c.head q with
  | none => false
  | some e => c.moves && !c.saving && !(c.rq q).halted && e.began.isNone && e.notBefore ≤ c.cyc && e.armReached c

def State.walkAsked (s : State) (c : CoreId) (q : BitVec 3) (page : Nat) : Bool :=
  (s.dies[dieOf c]).walks.any fun w => w.1 = c.val && w.2.1 = q.toNat && w.2.2.1 = page

def beginDue (s : State) (c : CoreId) (q : BitVec 3) : Bool :=
  let x := s.cores[c]
  x.mayBegin q && (match x.head q with
    | none => false
    | some e => let m := (e.translate x.ceTlb).missing
      m.isEmpty || m.any fun p => !s.walkAsked c q p)

/-- The first virtual address of the entry in a page. -/
def Entry.firstIn (e : Entry) (page : Nat) (dst : Bool) : Nat :=
  let d := e.desc
  let f := fun (i : Nat) => match e.kind with
    | .flag a _ _ => a.toNat % 2 ^ 48
    | _ => (if dst then e.outAt (d.es * i) else d.srcAt (d.es * i)) % 2 ^ 48
  (((List.range d.count).map f).find? fun a => a / 65536 = page).getD (page * 65536)

/-- Why an entry may not begin: queue cause, TCAUSE, further TINFO0 bits, TINFO1, and the page whose fault is now reported. -/
abbrev Halt := Nat × Nat × Nat × Word × Option Nat

/-- TINFO1 of a translation fault (R366). -/
def faultInfo (reason : Nat) (write : Bool) (level addr : Nat) : Word :=
  mkWord [(reason, 51), (if write then 1 else 0, 50), (level, 48), (addr % 2 ^ 48, 0)]

/-- The timetable bits of TINFO0 (R319). -/
def ttBits (kind tag window : Nat) : Nat := tag * 2 ^ 24 + window * 2 ^ 16 + kind * 2 ^ 12

def Entry.tagNo (e : Entry) : Nat := (e.round.map (·.1.toNat)).getD 0

/-- What is wrong with one page of an entry. -/
def pageHalt (s : State) (c : CoreId) (e : Entry) (p : Nat × Bool) : Option Halt :=
  let w := (cacheGet e.pages p.1).getD 0
  let va := e.firstIn p.1 p.2
  let tt := fun (kind win : Nat) (page : Option Nat) => some ((3, 0x0D, ttBits kind e.tagNo win, s.coreGcnt c, page) : Halt)
  let slot := if e.isPut then e.desc.slot else 0xFF
  if !leafOk w then
    (if e.isPut || (p.2 && w.getLsbD 7) then tt 1 slot (some p.1)
     else some (1, 0x0B, 0, faultInfo (fld w 6 4) p.2 (leafLevel w) va, some p.1))
  else if p.2 && !leafW w then
    (if leafKind w = 3 then tt 1 slot none else some (1, 0x0B, 0, faultInfo 2 true (leafLevel w) va, none))
  else if e.isPut && !leafPin w then tt 1 slot none
  else if p.2 && (e.isRed || e.isFlag) && leafKind w = 3 then tt 1 slot none
  else if p.2 && (e.isRed || e.isFlag) && leafKind w = 1 then some (2, 0x01, 0, 0, none)
  else match (s.leafPlace c w (va % 65536)).die with
    | some d => if s.linkBad d (c.val / 24) then some (2, 0x0F, 0, BitVec.ofNat 64 d, none) else none
    | none => none

/-- What is wrong with an end in another core's pool (R185). -/
def remoteHalt (s : State) (c : CoreId) (a es : Nat) (xs : List (Nat × Int)) : Option Halt :=
  if space a != 1 then none
  else if 96 ≤ spCore a then some (2, 0x01, 0, 0, none)
  else
    let t := coreIx (spCore a)
    if s.partOf t != s.partOf c || !extentOk (s.cores[t]).scratch (spOff a) es xs then some (2, 0x01, 0, 0, none)
    else if s.linkBad (t.val / 24) (c.val / 24) then some (2, 0x0F, 0, BitVec.ofNat 64 (t.val / 24), none)
    else none

/-- The first thing that halts an entry before it writes (R191). -/
def entryHalt (s : State) (c : CoreId) (e : Entry) : Option Halt :=
  let d := e.desc
  let dims := [(d.c0, d.d0), (d.c1, d.d1), (d.c2, d.d2)]
  let far := match e.kind with
    | .marker _ => none
    | .flag a _ _ => remoteHalt s c a.toNat 8 []
    | _ => (remoteHalt s c d.src d.es [(d.c0, d.s0), (d.c1, d.s1), (d.c2, d.s2)]).or
        (remoteHalt s c d.dst d.es (match e.kind with | .fold _ => dims.drop 1 | _ => dims))
  (e.needs.findSome? fun p => pageHalt s c e p).or far

/-- The memory that a flag write goes to, and its address there. -/
def State.flagPlace (s : State) (c : CoreId) (e : Entry) : Place :=
  match e.kind with
  | .flag a _ _ => s.placeOf c e.pages a.toNat
  | _ => .pool c.val e.desc.flagAt

/-- Everything that a flag write at a scope publishes has been performed (R271). -/
def State.published (s : State) (c : CoreId) (q : BitVec 3) (e : Entry) (sc : Scope) : Bool :=
  !(s.reqs.any fun r => r.writes && s.inScope c sc r.at_ && (e.pubs.contains r.id || (r.core = c.val && r.queue = q.toNat && r.order ≤ e.order)))

/-- The writes in transit that a flag write at a scope publishes. -/
def State.publishes (s : State) (c : CoreId) (q : BitVec 3) (e : Entry) (sc : Scope) : List Nat :=
  (s.reqs.filter fun r => r.writes && s.inScope c sc r.at_ &&
    (e.pubs.contains r.id || (r.core = c.val && r.queue = q.toNat && decide (r.order ≤ e.order)))).map (·.id)

/-- An entry begins: its translations are fixed; a FLAG's write goes on its way, as a request where it leaves the core (R268, R271). -/
def beginEntry (s : State) (c : CoreId) (q : BitVec 3) (e : Entry) : State :=
  let x := s.cores[c]
  let e1 := { e with began := some x.cyc, nextRead := x.cyc, ready := true,
                     armed := if e.desc.arm then x.reached.find? fun r => r.word = e.desc.armAt && r.cyc + 1 = x.cyc else none }
  let on := s.updCore c fun x => x.onHead q fun _ => e1
  let place := s.flagPlace c e1
  match e.kind with
  | .flag _ data sc =>
    if place.core = some c.val then s.updCore c fun x => x.onHead q fun _ => { e1 with flagDue := some (x.cyc + 16) }
    else on.ask
      { id := 0, core := c.val, queue := q.toNat, order := e.order, bundle := e.bundle, seq := e.seq, at_ := place, kind := .flag data, admitted := true,
        after := s.publishes c q e1 sc, sent := 0, due := 0, back := 0, data := none, held := false }
  | _ => on

/-- The head asks for its missing translations, halts its queue, or begins. -/
def beginHead (s : State) (c : CoreId) (q : BitVec 3) : State :=
  match (s.cores[c]).head q with
  | none => s
  | some e0 =>
    let e := e0.translate (s.cores[c]).ceTlb
    if !e.missing.isEmpty then (s.askMissing c q e).updCore c fun x => x.onHead q fun _ => e
    else match entryHalt s c e with
      | some h =>
        s.updCore c fun x =>
          let x := match h.2.2.2.2 with
            | some p => { x with ceTlb := x.ceTlb.filter fun t => t.1 != p }
            | none => x
          x.haltQueue q h.1 h.2.1 h.2.2.1 h.2.2.2.1
      | none => beginEntry s c q e

/-- QUEUE_ENTRY_BEGIN (R188, R191). -/
def execQueueEntryBegin (c : CoreId) (q : QueueId) (s : State) : Outcome State Fault Refusal :=
  event "QUEUE_ENTRY_BEGIN" (beginDue s c (qix q)) s fun s => beginHead s c (qix q)

-- source reads (R262, R250)

/-- The entry has reads to make. -/
def Entry.reading (e : Entry) : Bool := (e.cur.isSome && !e.want.isEmpty) || (e.cur.isNone && e.pos < e.total)

def Core.readDue (c : Core) (q : BitVec 3) : Bool :=
  match c.head q with
  | none => false
  | some e => c.moves && !(c.rq q).halted && e.began.isSome && e.ready && e.nextRead ≤ c.cyc && e.reading && !(c.saving && e.atStop)

/-- The next destination block is taken up, if none is. -/
def Entry.take (e : Entry) : Entry :=
  match e.cur with
  | some _ => e
  | none =>
    let b := e.form
    { e with cur := some b, want := b.sources, pos := b.stop, blk := e.blk + 1 }

/-- The block whose reads are all made goes on to be written. -/
def Entry.placed (e : Entry) (cyc : Nat) : Entry :=
  match e.cur, e.want with
  | some b, [] =>
    let t := e.timing cyc b
    { e with cur := none, out := e.out ++ [{ b with ready := max t.1 b.ready, zread := t.2 }] }
  | _, _ => e

/-- The bytes that the block in hand draws from a run of n source bytes, with what the memory holds. -/
def OutBlock.fill (b : OutBlock) (first n : Nat) (get : Nat → Byte × Bool) : List (Nat × Byte × Bool) :=
  (b.ins.filter fun x => first ≤ x.1 && decide (x.1 < first + n)).map fun x => (x.2, get x.1)

/-- Consecutive bytes that one request carries: a line of 64 bytes of host memory, a block of 128 elsewhere (R266, R296). -/
def Place.line : Place → Nat
  | .host _ => 64
  | _ => 128

/-- The entry has taken its read of this cycle. -/
def Entry.readDone (e : Entry) (cyc : Nat) (got : List (Nat × Byte × Bool)) (await : List (Nat × Nat)) (late : Bool) : Entry :=
  let cur := e.cur.map fun b => { b with await := b.await ++ await, late := b.late || late }
  { e with want := e.want.drop 1, nextRead := cyc + 1, got := e.got ++ got, cur := cur }.placed cyc

/-- Late work under ALATE 0: counted, and reported with slot 7 (R239). -/
def Core.lateDrop (c : Core) (e : Entry) : Core :=
  ({ c.onSpr (fun x => { x with alatecnt := x.alatecnt + 1 }) with dropsNow := c.dropsNow + 1 } : Core).report ⟨kLateBeat, 7, e.bundle, 0, .handoff e.order⟩

/-- The beat-late trap, once per entry (R239, R240); a task that has ended or restarts takes none. -/
def Core.lateFault (c : Core) (q : BitVec 3) (e : Entry) (addr : Nat) : Core :=
  if e.lateTrap || c.lastBeat then c
  else (c.onHead q fun e => { e with lateTrap := true }).reqImp (lateTrap e.desc.beat c.ctx.af.openBeat q addr)

/-- A write of the entry has been refused in this cycle. -/
def Entry.lagged (e : Entry) (cyc : Nat) : Bool := e.lagAt == cyc + 1

/-- A refused read retries in the next cycle and delays every later read (R262), and the last write of a verb entry, once for the cycle (R230). -/
def Entry.readRefused (e : Entry) (cyc : Nat) : Entry := { e with slip := if e.lagged cyc then e.slip else e.slip + 1, nextRead := cyc + 1 }

/-- A cycle of the entry with a refused write, whatever else it refuses. -/
def Entry.lag (e : Entry) (cyc : Nat) : Entry := { e with wslip := if e.lagged cyc then e.wslip else e.wslip + 1, lagAt := cyc + 1 }

/-- A block that is not written in this cycle, nor in the one that it would have been written in. -/
def OutBlock.later (y : OutBlock) (cyc : Nat) (lagged : Bool) : OutBlock :=
  let go := fun (t : Nat) => if lagged then max t (cyc + 1) else max t cyc + 1
  match y.zread with
  | some z => { y with zread := some (go z), ready := y.ready + (go z - z) }
  | none => { y with ready := go y.ready }

/-- A refused write of block j, or a ZIP's refused read of its destination, delays it and every later block by one cycle (R173). -/
def Entry.writeRefused (e : Entry) (cyc j : Nat) : Entry :=
  { e.lag cyc with out := e.out.map fun y => if y.inAf || decide (y.j < j) then y else y.later cyc (e.lagged cyc) }

/-- A block is refused by the admit buffer or by its slice's hold buffer: the whole entry stops until it is taken (R251, R297). -/
def Entry.stopped (e : Entry) (cyc : Nat) : Entry :=
  { e.lag cyc with nextRead := max e.nextRead (cyc + 1), out := e.out.map fun y => if y.inAf then y else y.later cyc (e.lagged cyc) }

/-- A block of the entry at the array field: admitted, waiting or held; the beat-late fates are the caller's. -/
def Core.putAf (c : Core) (fate : Fate) (b : AfBlock) : Core :=
  c.onAf fun a => match fate with
    | .enter => { a with active := a.active ++ [b] }
    | .wait => { a with pending := a.pending ++ [b] }
    | _ => if c.lastBeat then { a with active := a.active ++ [{ b with late := true }] } else { a with held := a.held ++ [{ b with late := true }] }

/-- An array-field source block is read: its request arrives at the field (R250). -/
def readRows (s : State) (c : CoreId) (q : BitVec 3) (e : Entry) (blk : Nat) : State :=
  let x := s.cores[c]
  let d := e.desc
  let a : AfBlock :=
    { id := s.reqNo, queue := q, order := e.order, j := e.blk - 1, beat := d.beat, addr := spOff (128 * blk), bytes := none, len := 128,
      credit := none, poison := false, bundle := e.bundle, late := false, at_ := none }
  let s1 := { s with reqNo := s.reqNo + 1 }
  let fate := x.afFate d.beat
  let take := fun (e : Entry) => e.readDone x.cyc [] [(a.id, 128 * blk)] false
  match fate with
  | .refuse => s.updCore c fun x => x.onHead q fun _ => e.stopped x.cyc
  | .late =>
    if x.ctx.spr.alate = 2 then s1.updCore c fun x => (x.onHead q fun _ => (e.readDone x.cyc [] [(a.id, 128 * blk)] true)).putAf .late a
    else
      let skip := e.readDone x.cyc [] [] false
      s.updCore c fun x =>
        let x := x.onHead q fun _ => skip
        if x.ctx.spr.alate = 1 then x.lateFault q e (128 * blk) else x.lateDrop e
  | f => s1.updCore c fun x => (x.onHead q fun _ => take e).putAf f a

/-- The source read of this cycle (R262): granted and taken, refused, or sent to another memory. -/
def readHead (s : State) (c : CoreId) (q : BitVec 3) : State :=
  match (s.cores[c]).head q with
  | none => s
  | some e0 =>
    let e := e0.take
    let x := s.cores[c]
    match e.cur, e.want with
    | some b, blk :: _ =>
      let d := e.desc
      match space d.src with
      | 0 =>
        let banks := [bankOf d.sv (128 * blk)]
        if x.free (queueReads q) banks then
          let got := b.fill (128 * blk) 128 fun a => (x.pool.read a, x.pool.poison.contains a)
          s.updCore c fun x => ({ x.claim (queueReads q) banks with weight := x.weight + 3 } : Core).onHead q fun _ => e.readDone x.cyc got [] false
        else s.updCore c fun x => x.onHead q fun _ => e.readRefused x.cyc
      | 3 => readRows s c q e blk
      | _ =>
        let line := (s.placeOf c e.pages (128 * blk)).line
        let firsts := if line = 64 then [128 * blk, 128 * blk + 64] else [128 * blk]
        let sent := firsts.foldl (fun (r : State × List (Nat × Nat)) a =>
          (r.1.ask
            { id := 0, core := c.val, queue := q.toNat, order := e.order, bundle := e.bundle, seq := e.seq, at_ := r.1.placeOf c e.pages a,
              kind := .read line, admitted := true, after := [], sent := 0, due := 0, back := 0, data := none, held := false },
           r.2 ++ [(r.1.reqNo, a)])) (s, [])
        sent.1.updCore c fun x => x.onHead q fun _ => e.readDone x.cyc [] sent.2 false
    | _, _ => s

/-- ENGINE_SOURCE_READ (R262). -/
def execEngineSourceRead (c : CoreId) (q : QueueId) (s : State) : Outcome State Fault Refusal :=
  event "ENGINE_SOURCE_READ" ((s.cores[c]).readDue (qix q)) s fun s => readHead s c (qix q)

-- what is written (R187, R228, R229, R233)

/-- Values of the output elements of a verb block, with the raisings of a ZIP or SCAN by (element, op). -/
def Entry.verbValues (e : Entry) (v : Verb) (b : OutBlock) : List (Nat × Bool) × List (Nat × Nat × Kinds) :=
  let d := e.desc
  let es := d.es
  let src := fun (i : Nat) => elemOf e.got es i
  let ixs := (List.range (b.outs.length / es)).map fun k => b.first / es + k
  let val := fun (i : Nat) => srcVal (src i, i)
  let xs := ixs.map fun i =>
    match e.kind with
    | .zip =>
      let x := elemOf (e.dgot.filterMap fun (g : Nat × Byte × Bool) => (b.outs.find? fun (o : Nat × Nat) => o.1 = g.1 && o.2 / es = i).map fun (o : Nat × Nat) =>
        (o.2, g.2)) es i
      let y := src i
      let r := v.eval (x.1.toNat, x.2) (y.1.toNat, y.2)
      (r.1, (r.2.1.map fun (k : Nat × Kinds) => (i, k.1, k.2)) ++ (match r.2.2 with | some o => [(i, o, kPoison)] | none => []))
    | .scan t =>
      let row := i / d.c0 * d.c0
      let r := ((v.scan t ((List.range (i + 1 - row)).map fun k => val (row + k))).getLast?).getD ⟨0, false, 0, []⟩
      ((r.bits, r.pz), if t then r.evs.map (fun (k : Nat × Nat × Kinds) => (i, k.2)) else r.evs.filter fun (k : Nat × Nat × Kinds) => k.1 = i)
    | .fold t =>
      let r := v.fold t ((List.range d.c0).map fun k => val (i * d.c0 + k))
      ((r.bits, r.pz), [])
    | _ => ((0, false), [])
  (xs.map (·.1), xs.flatMap (·.2))

/-- The bytes that a block writes, with poison; bytes of a dropped late read are not written (R250). -/
def Entry.bytesOf (e : Entry) (b : OutBlock) : List (Nat × Byte × Bool) :=
  match e.isVerb, e.verb with
  | true, some v =>
    let es := e.desc.es
    let vs := (e.verbValues v b).1
    b.outs.zipIdx.map fun o =>
      let x := vs.getD (o.2 / es) (0, false)
      (o.1.1, BitVec.ofNat 8 (x.1 / 256 ^ (o.2 % es)), x.2)
  | _, _ =>
    let bs := b.outs.filterMap fun o => (byteOf e.got o.2).map fun x => (o.1, x)
    let poison := bs.any fun x => x.2.2
    bs.map fun x => (x.1, x.2.1, poison)

-- reports by step (R231, R232)

/-- Source elements of an entry, and the step's last one. -/
def Entry.elems (e : Entry) : Nat := e.desc.count
def Entry.stepLast (e : Entry) (S : Nat) : Nat := min (256 * (S + 1)) e.elems - 1

/-- The output element whose write is the step's last: in a FOLD, of the last fold that ends in the step, or else of the fold that holds its
last element. -/
def Entry.stepOut (e : Entry) (S : Nat) : Nat :=
  match e.kind with
  | .fold _ =>
    let c0 := e.desc.c0
    let last := e.stepLast S
    let ended := (last + 1) / c0
    if 0 < ended ∧ 256 * S ≤ ended * c0 - 1 then ended - 1 else last / c0
  | _ => e.stepLast S

/-- The raisings of a step of a FOLD. -/
def Entry.foldEvents (e : Entry) (v : Verb) (t : Bool) (S : Nat) : List (Nat × Nat × Kinds) :=
  let c0 := e.desc.c0
  let first := 256 * S / c0
  let last := e.stepLast S / c0
  ((List.range (last + 1 - first)).flatMap fun k =>
    (v.fold t ((List.range c0).map fun i => srcVal (elemOf e.got e.desc.es ((first + k) * c0 + i), (first + k) * c0 + i))).evs).filter
      fun x => x.1 / 256 = S

/-- The reports of the steps whose last write has been made, once their elements are read. -/
def Core.reportSteps (c : Core) (q : BitVec 3) : Nat → Core
  | 0 => c
  | n + 1 =>
    match c.head q with
    | none => c
    | some e =>
      match e.verb, e.isVerb with
      | some v, true =>
        let S := e.steps
        let written := (match e.out with | b :: _ => b.first | [] => (match e.cur with | some b => b.first | none => e.pos)) / e.desc.es
        if 256 * S < e.elems ∧ e.stepOut S < written ∧ (byteOf e.got (e.desc.es * e.stepLast S)).isSome = true then
          let evs := match e.kind with | .fold t => e.foldEvents v t S | _ => e.evs.filter fun x => x.1 / 256 = S
          let c := (stepReports evs).foldl (fun c r => c.report ⟨r.2, 7, e.bundle, r.1, .handoff e.order⟩) c
          (c.onHead q fun e => { e with steps := S + 1, evs := e.evs.filter fun x => x.1 / 256 != S }).reportSteps q n
        else c
      | _, _ => c

-- block writes

/-- The data of the requests that a block waits for has arrived: in an earlier cycle (R262), or, for a block to be staged, in this one (R316). -/
def State.arrived (s : State) (e : Entry) (b : OutBlock) : Bool :=
  b.await.all fun w => s.reqs.any fun r => r.id = w.1 && r.data.isSome && r.back + (if e.isPut then 0 else 1) ≤ s.clockOf r.at_

/-- The bytes those requests brought, and their poison. -/
def State.harvest (s : State) (b : OutBlock) : List (Nat × Byte × Bool) :=
  b.await.flatMap fun w => match s.reqs.find? fun r => r.id = w.1 with
    | some r => match r.data with
      | some (bs, pz) => b.fill w.2 bs.length fun a => (bs.getD (a - w.2) 0, pz)
      | none => []
    | none => []

/-- The next block to write of an entry in this cycle: the first whose cycle has come, its destination read in a ZIP, and its data there. Blocks of
data from other memories are written as it arrives, several in one cycle where they are (R262). -/
def State.nextBlock (s : State) (cyc : Nat) (e : Entry) : Option OutBlock :=
  e.out.find? fun b => !b.inAf && b.ready ≤ cyc && b.zread.isNone && s.arrived e b

def blockDue (s : State) (c : CoreId) (q : BitVec 3) (toRows : Bool) : Bool :=
  let x := s.cores[c]
  match x.head q with
  | none => false
  | some e => x.moves && !(x.rq q).halted && (space e.desc.dst == 3) == toRows && (s.nextBlock x.cyc e).isSome

/-- A block of a ZIP whose destination is to be read in this cycle, its source having been read (R230). -/
def State.nextZread (s : State) (cyc : Nat) (e : Entry) : Option OutBlock :=
  e.out.find? fun b => (match b.zread with | some t => decide (t ≤ cyc) | none => false) && s.arrived e b

def zreadDue (s : State) (c : CoreId) (q : BitVec 3) : Bool :=
  let x := s.cores[c]
  match x.head q with
  | none => false
  | some e => x.moves && !(x.rq q).halted && (s.nextZread x.cyc e).isSome

/-- The destination read of a ZIP: of the bytes it has not read before (R228). The block is written as many cycles later as its evaluation takes. -/
def zreadHead (s : State) (c : CoreId) (q : BitVec 3) : State :=
  let x := s.cores[c]
  match x.head q with
  | none => s
  | some e =>
    match s.nextZread x.cyc e with
    | none => s
    | some b =>
      let new := (b.outs.map (·.1)).filter fun a => !(e.dgot.any fun g => g.1 = a)
      let banks := (new.map fun a => bankOf e.desc.dv a).eraseDups
      if x.free (queueZreads q) banks then
        let got := new.map fun a => (a, x.pool.read a, x.pool.poison.contains a)
        s.updCore c fun x => ({ x.claim (queueZreads q) banks with weight := x.weight + 3 * banks.length } : Core).onHead q fun e =>
          { e with dgot := e.dgot ++ got,
                   out := e.out.map fun y => if y.j = b.j then { y with zread := none, ready := x.cyc + (y.ready - b.zread.getD 0) } else y }
      else s.updCore c fun x => x.onHead q fun e => e.writeRefused x.cyc b.j

/-- The block has been written: it is gone, what it used is gone, and the entry may have made its last write. -/
def Entry.wrote (e : Entry) (b : OutBlock) (cyc : Nat) : Entry :=
  let out := e.out.filter fun y => y.j != b.j
  let done := out.isEmpty && e.cur.isNone && e.total ≤ e.pos && !e.isPut
  let keep := e.isVerb || e.isPut
  { e with out := out, lastWrite := if done then some cyc else e.lastWrite,
           got := if keep then e.got else e.got.filter fun g => !(b.outs.any fun o => o.2 = g.1) }

/-- The credit of bytes to the entry's arrival word (R181). -/
def Core.creditBlock (c : Core) (e : Entry) (n : Nat) (poison late : Bool) : Core :=
  if e.desc.cred && n != 0 then { c with credits := c.credits ++ [(e.desc.credAt, n, poison, late)] } else c

/-- The engine port of its arrival word's bank is granted to the entry in this cycle, if it credits one (R173, R181). -/
def Core.credited (c : Core) (q : BitVec 3) (e : Entry) : Bool := !e.desc.cred || c.grants.contains (bankOf false e.desc.credAt, queueCredits q)

/-- The clearing of the slot that a fill serves, with its last write (R197), unless a later fill of it stands behind. -/
def Core.fillDone (c : Core) (e : Entry) : Core :=
  match e.kind with
  | .fill t k => c.setTag t ((c.rtag t).onSlot k fun x => { x with pending := ((c.rq 7).entries.drop 1).any fun y => y.kind == .fill t k })
  | _ => c

/-- A block goes out to another memory as requests (R268, R298). -/
def sendBlock (s : State) (c : CoreId) (q : BitVec 3) (e : Entry) (bs : List (Nat × Byte × Bool)) (late : Bool) : State :=
  let at_ := fun (a : Nat) => s.placeOf c e.pages a
  let line := match bs with | x :: _ => (at_ x.1).line | [] => 128
  let groups := ((bs.map fun x => x.1 / line).eraseDups).map fun g => bs.filter fun x => x.1 / line = g
  groups.foldl (fun s g =>
    match g with
    | [] => s
    | x :: _ =>
      let data := g.map fun y => ((at_ y.1).addr, y.2.1)
      let poison := g.any fun y => y.2.2
      let credit := if e.desc.cred then some (Place.pool c.val e.desc.credAt) else none
      let kind := match e.kind with
        | .red op => ReqKind.red op data poison e.desc.slot (e.desc.beat.toNat + 1) (e.desc.dst % e.desc.es) credit
        | _ => ReqKind.write data poison late credit
      s.ask { id := 0, core := c.val, queue := q.toNat, order := e.order, bundle := e.bundle, seq := e.seq, at_ := at_ x.1, kind := kind,
              admitted := true, after := [], sent := 0, due := 0, back := 0, data := none, held := false }) s

/-- The block comes back to a destination block that the entry has left, or names an element twice (R298). -/
def Entry.returns (e : Entry) (b : OutBlock) : Bool :=
  let es := e.desc.es
  e.isRed && ((List.range (b.first / es)).any (fun i => e.outAt (es * i) / 128 = b.dst / 128) || !decide (b.outs.map (·.1)).Nodup)

/-- The source element whose evaluation is the first that a block of a verb entry needs, if it needs one (R229, R233). -/
def Entry.firstEval (e : Entry) (b : OutBlock) : Option Nat :=
  let d := e.desc
  let i := b.first / d.es
  let n := b.outs.length / d.es
  let ident := (e.verb.bind Verb.ident).isSome
  match e.kind with
  | .fold t => if ident && !t then some (i * d.c0) else if 1 < d.c0 then some (i * d.c0 + 1) else none
  | .scan t => if ident && !t then some i else ((List.range n).map fun k => i + k).find? fun k => k % d.c0 != 0
  | _ => some i

/-- The op at which the entry's captured verb meets a parity error, with the element of the evaluation that meets it (R233). -/
def Entry.parity (e : Entry) (b : OutBlock) : Option (Nat × Nat) :=
  if e.isVerb then (match e.verb.bind (·.bad), e.firstEval b with | some k, some i => some (i, k) | _, _ => none) else none

/-- The table that a place lies in is used by a running round of its die (R313). -/
def State.tableUsed (s : State) (p : Place) : Bool :=
  match p with
  | .letable d a => (s.dies[dieIx d]).rounds.any fun r => r.tt = a / 4096
  | _ => false

/-- A write of the entry meets a table in use: at its first block any table that it writes, so that no byte of it is written; at a later block the
block's own (R191, R313). -/
def State.tableMet (s : State) (c : CoreId) (e : Entry) (b : OutBlock) : Bool :=
  let at_ := fun (a : Nat) => s.tableUsed (s.placeOf c e.pages a)
  !e.isPut && (at_ b.dst || (decide (e.blk = (if e.cur.isSome then 1 else 0) + e.out.length) && (List.range e.total).any fun p => at_ (e.outAt p)))

/-- Poisoned data in a block of an entry that captured no verb: reported as the block leaves the engine (R161, R191). -/
def Core.reportPoison (c : Core) (e : Entry) (poison : Bool) : Core :=
  if poison && !e.isVerb then c.report ⟨kPoison, 7, e.bundle, 0, .handoff e.order⟩ else c

/-- The LE's count at the end of the present cycle, by which an entry's last block is staged: of an entry that began in the cycle after the arrival it
was armed on, as R325 counts from that arrival's tick. -/
def State.endTick (s : State) (c : CoreId) (e : Entry) : Nat :=
  let den := 24 + s.ceiling
  match e.armed with
  | some r => r.tick + 1 + ceilDiv ((s.gcnt.toNat - r.gcnt) * den * r.den + (s.frac + 80) * r.den - r.frac * den) (den * r.den)
  | none => (((s.gcnt.toNat + ceilDiv (s.frac + 80) den : Nat) : Int) + (s.dies[dieOf c]).lskew).toNat

/-- All blocks of a PUT are in the send buffer. -/
def Entry.allStaged (e : Entry) : Bool := e.total ≤ e.pos && e.cur.isNone && e.out.isEmpty

/-- A block goes into the send buffer; the last one completes the staging (R316). -/
def Entry.stage (e : Entry) (b : OutBlock) (cyc tick : Nat) : Entry :=
  let e := { e.wrote b cyc with staged := e.staged ++ [b] }
  if e.allStaged then { e with stagedAt := some tick } else e

/-- One block write of the head (R187–R191, R262, R268). -/
def writeHead (s : State) (c : CoreId) (q : BitVec 3) : State :=
  let x := s.cores[c]
  match x.head q with
  | none => s
  | some e0 =>
    match s.nextBlock x.cyc e0 with
    | none => s
    | some b =>
      let d := e0.desc
      let e := { e0 with got := e0.got ++ s.harvest b }
      let s1 := { s with reqs := s.reqs.filter fun r => !(b.await.any fun w => w.1 = r.id) }
      match e.parity b with
      | some p => s.updCore c fun x => x.haltQueue q 5 0x12 0 (mkWord [(p.1, 32), (p.2, 4), (d.handle, 0)])
      | none =>
      if e.returns b then s.updCore c fun x => x.haltQueue q 6 0x01 0 0
      else if s.tableMet c e b then s.updCore c fun x => x.haltQueue q 3 0x0D (ttBits 2 0 0xFF) (s.coreGcnt c)
      else
        let bs := e.bytesOf b
        let evs := match e.isVerb, e.verb with
          | true, some v => (e.verbValues v b).2
          | _, _ => []
        let poison := bs.any fun y => y.2.2
        let fin := fun (e : Entry) => { e.wrote b x.cyc with evs := e.evs ++ evs }
        if e.isPut then
          s1.updCore c fun x => (x.onHead q fun _ => e.stage b x.cyc (s.endTick c e)).reportPoison e poison
        else if space d.dst = 0 && !e.isRed then
          let banks := ((bs.map fun y => bankOf d.dv y.1)).eraseDups
          if x.free (queueWrites q) banks && x.credited q e then
            s1.updCore c fun x =>
              let x := { x.claim (queueWrites q) banks with weight := x.weight + 3, endWrites := x.endWrites ++ bs }
              let x := (((x.creditBlock e bs.length poison b.late).onHead q fun _ => fin e).reportPoison e poison).reportSteps q (e.elems / 256 + 1)
              if (fin e).lastWrite.isSome then x.fillDone e else x
          else s.updCore c fun x => x.onHead q fun _ => e0.writeRefused x.cyc b.j
        else (sendBlock s1 c q e bs b.late).updCore c fun x => (x.onHead q fun _ => fin e).reportPoison e poison

/-- ENGINE_BLOCK_WRITE (R167, R187, R230, R262): the block's write, or a ZIP's read of a destination block. -/
def execEngineBlockWrite (c : CoreId) (q : QueueId) (s : State) : Outcome State Fault Refusal :=
  event "ENGINE_BLOCK_WRITE" (blockDue s c (qix q) false || zreadDue s c (qix q)) s fun s =>
    if blockDue s c (qix q) false then writeHead s c (qix q) else zreadHead s c (qix q)

-- array-field ends (R238–R240, R250, R251)

/-- A block for the array field arrives (R238, R239, R251). -/
def arriveHead (s : State) (c : CoreId) (q : BitVec 3) : State :=
  let x := s.cores[c]
  match x.head q with
  | none => s
  | some e0 =>
    match s.nextBlock x.cyc e0 with
    | none => s
    | some b =>
      let d := e0.desc
      let e := { e0 with got := e0.got ++ s.harvest b }
      let s1 := { s with reqs := s.reqs.filter fun r => !(b.await.any fun w => w.1 = r.id), reqNo := s.reqNo + 1 }
      let bs := e.bytesOf b
      let a : AfBlock :=
        { id := s.reqNo, queue := q, order := e.order, j := b.j, beat := d.beat, addr := spOff b.dst,
          bytes := some (bs.map fun y => (spOff y.1, y.2.1)), len := bs.length, credit := if d.cred then some d.credAt else none,
          poison := bs.any fun y => y.2.2, bundle := e.bundle, late := b.late, at_ := none }
      let wait := fun (e : Entry) => { e with out := e.out.map fun y => if y.j = b.j then { y with inAf := true } else y }
      match x.afFate d.beat with
      | .refuse => s.updCore c fun x => x.onHead q fun _ => e0.stopped x.cyc
      | .late =>
        if x.ctx.spr.alate = 2 then s1.updCore c fun x => ((x.onHead q fun _ => wait e).putAf .late a).reportPoison e a.poison
        else s1.updCore c fun x =>
          let x := (x.onHead q fun _ => e.wrote b x.cyc).reportPoison e a.poison
          if x.ctx.spr.alate = 1 then x.lateFault q e b.dst else x.lateDrop e
      | f => s1.updCore c fun x => ((x.onHead q fun _ => wait e).putAf f a).reportPoison e a.poison

/-- AF_BLOCK_ARRIVAL (R238, R239, R251). -/
def execAfBlockArrival (c : CoreId) (q : QueueId) (s : State) : Outcome State Fault Refusal :=
  event "AF_BLOCK_ARRIVAL" (blockDue s c (qix q) true) s fun s => arriveHead s c (qix q)

/-- An admitted block of an array that can take its AF cycle, or whose AF cycle ends. -/
def Core.afNext (c : Core) (array : Nat) : Option AfBlock :=
  if !c.moves then none
  else c.ctx.af.active.find? fun b => b.addr / 65536 = array && (c.afDue b || c.afCan b)

/-- The entry that an engine block belongs to, changed. -/
def Core.onOwner (c : Core) (a : AfBlock) (f : Entry → Entry) : Core :=
  c.onQueue a.queue fun x => { x with entries := x.entries.map fun e => if e.order = a.order then f e else e }

/-- An AF cycle of an engine block ends: written whole with its credit, or read (R250). -/
def Core.afFinish (c : Core) (b : AfBlock) : Core :=
  let c := c.onAf fun a => { a with active := a.active.filter fun y => y.id != b.id }
  match b.bytes with
  | some bs =>
    let c := { c with rows := writeAfBytes c.rows bs b.poison }
    let c := match b.credit with
      | some w => if bs.isEmpty then c else { c with credits := c.credits ++ [(w, bs.length, b.poison, b.late)] }
      | none => c
    c.onOwner b fun e => match e.out.find? fun y => y.j = b.j with
      | some y => e.wrote y c.cyc
      | none => e
  | none =>
    let get := fun (a : Nat) => (c.rows.read (spOff a), c.rows.poison.contains (spOff a))
    let fill := fun (y : OutBlock) => match y.await.find? fun w => w.1 = b.id with
      | some w => y.fill w.2 128 get
      | none => []
    c.onOwner b fun e =>
      let blocks := e.out ++ (match e.cur with | some y => [y] | none => [])
      let free := fun (y : OutBlock) => if y.await.any fun w => w.1 = b.id then
          { y with await := y.await.filter (fun w => w.1 != b.id), ready := max y.ready (c.cyc + 1), late := y.late || b.late } else y
      { e with got := e.got ++ blocks.flatMap fill, out := e.out.map free, cur := e.cur.map free }

/-- AF_BLOCK_PERFORM (R250). -/
def execAfBlockPerform (c : CoreId) (array : Nat) (s : State) : Outcome State Fault Refusal :=
  event "AF_BLOCK_PERFORM" ((s.cores[c]).afNext array).isSome s fun s => s.updCore c fun x =>
    match x.afNext array with
    | some b => if x.afDue b then x.afFinish b else { x.afTake b with weight := x.weight + 1 }
    | none => x

-- completion (R179, R190, R216, R264)

/-- A write of the entry to a timetable store is on its way: the entry completes once it has been performed, so that a QWAIT makes the table seen
(R313; DEDUCED, log 97). -/
def State.tablePending (s : State) (c : CoreId) (q : BitVec 3) (e : Entry) : Bool :=
  s.reqs.any fun r => r.core = c.val && r.queue = q.toNat && r.order = e.order && r.writes && (match r.at_ with | .letable _ _ => true | _ => false)

/-- The head has made its last write, in an earlier cycle; a PUT has been sent. -/
def finishedHead (s : State) (c : CoreId) (q : BitVec 3) : Option Entry :=
  let x := s.cores[c]
  match x.head q with
  | none => none
  | some e =>
    if x.moves && !(x.rq q).halted && !s.tablePending c q e &&
        (match e.lastWrite with
         | some t => decide (t < x.cyc)
         | none => (match e.sendEnd with | some T => decide (T ≤ (s.coreGcnt c).toNat) | none => false)) then some e else none

def completionDue (s : State) (c : CoreId) (q : BitVec 3) : Bool :=
  match finishedHead s c q with
  | none => false
  | some e => !e.cbpDone || ((e.follow.isNone || e.foDone) && (!e.desc.flag || e.flagDone || e.flagDue.isNone)) ||
      (e.follow.isSome && !e.foDone && (s.cores[c]).mxeRoom)

/-- The completion CBP (R179). -/
def Core.completionCbp (c : Core) (q : BitVec 3) (e : Entry) : Core :=
  let d := e.desc
  if !d.cbpe then c.onHead q fun e => { e with cbpDone := true }
  else
    let b := c.rcb d.cb
    if b.count < b.f + d.n then c.haltQueue q 4 0x01 0 0
    else (c.setCb d.cb { b with f := b.f + d.n, p := (b.p + d.n) % b.count }).onHead q fun e => { e with cbpDone := true }

/-- The MXE receives the follow-on of a completed entry (R165, R216): it captured C at its CPYM's issue; base, esize and count of its buffer are
read at receipt, which the spec leaves open (DESIGN CHOICE, log 93). -/
def Core.followOn (c : Core) (q : BitVec 3) (e : Entry) : Core :=
  match e.follow with
  | none => c
  | some f =>
    let b := { c.rcb f.cb with c := f.c }
    let o := newOp (.mma f.zero) f.md b f.cb f.shape 7 e.bundle e.seq e.order
    ((c.receive o).fliesTile f.md).onHead q fun e => { e with foDone := true }

/-- Completion of the head, as far as it goes in this cycle (R190). -/
def completeHead (s : State) (c : CoreId) (q : BitVec 3) : State :=
  match finishedHead s c q with
  | none => s
  | some e =>
    s.updCore c fun x =>
      let x := if e.cbpDone then x else x.completionCbp q e
      if (x.rq q).halted then x
      else
        let x := if e.follow.isSome && !e.foDone && x.mxeRoom then x.followOn q e else x
        match x.head q with
        | none => x
        | some e =>
          if e.follow.isSome && !e.foDone then x
          else if e.desc.flag && !e.flagDone then
            (if e.flagDue.isNone then x.onHead q fun e => { e with flagDue := some x.cyc } else x)
          else x.leave q

/-- ENTRY_COMPLETION (R190). -/
def execEntryCompletion (c : CoreId) (q : QueueId) (s : State) : Outcome State Fault Refusal :=
  event "ENTRY_COMPLETION" (completionDue s c (qix q)) s fun s => completeHead s c (qix q)

/-- A held follow-on has a place (R216). -/
def followDue (s : State) (c : CoreId) (q : BitVec 3) : Bool :=
  match finishedHead s c q with
  | none => false
  | some e => e.cbpDone && e.follow.isSome && !e.foDone && (s.cores[c]).mxeRoom

/-- FOLLOW_ON_RECEIPT (R165, R205, R216). -/
def execFollowOnReceipt (c : CoreId) (q : QueueId) (s : State) : Outcome State Fault Refusal :=
  event "FOLLOW_ON_RECEIPT" (followDue s c (qix q)) s fun s => completeHead s c (qix q)

-- flag writes (R190, R264, R271, R295)

-- targets (R173, R269, R285)

/-- The banks of an SYE that a run of n bytes lies in (R285). -/
def syeBank (a : Nat) : Nat := a / 64 % 16
def syeBanks (a n : Nat) : List Nat := ((List.range (ceilDiv (a % 64 + n) 64)).map fun i => syeBank (a + 64 * i)).eraseDups

/-- A location as R269 has it at an MC, a host line and a timetable store. -/
def Place.location (p : Place) : (Nat × Nat) × Nat := (p.slice, p.addr / 128)

/-- The target can take an access of n bytes in this cycle: a core that is not frozen with its bank free, SYE banks that are free, a location that
nothing has written in it (R173, R269, R285, R318). The SYEs stand still with the cores in a handshake (R330). -/
def State.targetFree (s : State) (p : Place) (n : Nat) : Bool :=
  match p with
  | .pool k a => (s.cores[coreIx k]).moves && (s.cores[coreIx k]).free receiver [bankOf false a]
  | .rows k _ => (s.cores[coreIx k]).moves
  | .sye d _ a => s.shake.isNone && (syeBanks a n).all fun b => !((s.dies[dieIx d]).banks.contains b)
  | .peer _ _ t => t < s.gcnt.toNat
  | p => !s.touched.contains p.location

/-- The target has taken it: a read, a write, or both in one. -/
def State.takeTarget (s : State) (p : Place) (n : Nat) (read write : Bool) : State :=
  let t := if write then (match p with | .hbm _ _ | .host _ | .letable _ _ => { s with touched := p.location :: s.touched } | _ => s) else s
  match p with
  | .pool k a => t.updCore (coreIx k) fun x => x.claim receiver [bankOf false a]
  | .sye d _ a => t.updDie (dieIx d) fun x => { x with banks := syeBanks a n ++ x.banks }
  | .hbm k a => t.useHbm (stackIx k) a n read write
  | _ => t

-- lines of HBM that a host agent holds (R282)

/-- A run of n bytes meets a line that a host agent holds in its caches. -/
def State.hostHolds (s : State) (p : Place) (n : Nat) : Bool :=
  match p with
  | .hbm k a => s.hostLines.any fun l => l.1 == k && decide (a / 64 ≤ l.2) && decide (l.2 ≤ (a + n - 1) / 64)
  | _ => false

/-- The MC begins to take them back; a device write waits until that is done, a time that the spec leaves open. -/
def State.takeBack (s : State) (p : Place) (n : Nat) : Nat × State :=
  let d := s.draw
  (s.clockOf p + 1 + Config.freeDelay d.1, { d.2 with hostLines := s.hostLines.filter fun l => !(({ s with hostLines := [l] } : State).hostHolds p n) })

/-- The flag write under way at the head: its data and its scope. -/
def Entry.flagWrite (e : Entry) (done : BitVec 64) : Word × Scope :=
  match e.kind with
  | .flag _ data sc => (data, sc)
  | _ => (done + 1, (Scope.ofCode (BitVec.ofNat 4 e.desc.flagScope)).getD .system)

/-- A flag write into the own pool may be performed: its cycle has come, what it publishes and what its queue sent to the pool before it have been
performed (R264, R268, R271), and its bank grants it. -/
def ownFlagDue (s : State) (c : CoreId) (q : BitVec 3) : Bool :=
  let x := s.cores[c]
  match x.head q with
  | none => false
  | some e =>
    let w := e.flagWrite (x.rq q).done
    let p := s.flagPlace c e
    x.moves && !(x.rq q).halted && !e.flagDone && s.published c q e w.2 && p.core == some c.val &&
      !(s.reqs.any fun r => r.core = c.val && r.queue = q.toNat && r.data.isNone && r.at_.memory = p.memory) &&
      (match e.flagDue with | some t => decide (t ≤ x.cyc) && x.free (queueWrites q) [bankOf false p.addr] | none => false)

/-- Bytes written into a memory. -/
def State.putPlace (s : State) (p : Place) (bs : List (Nat × Byte)) (poison : Bool) : State :=
  match p with
  | .pool k _ => s.updCore (coreIx k) fun x => x.endWrite bs poison
  | .rows k _ => s.updCore (coreIx k) fun x => { x with rows := writeAfBytes x.rows bs poison }
  | .hbm k _ => s.writeHbm (stackIx k) bs poison
  | .host _ => { s with host := s.host.writeAll bs poison }
  | .sye d ovf _ => s.updDie (dieIx d) fun x => if ovf then { x with ovf := x.ovf.writeAll bs poison } else { x with sram := x.sram.writeAll bs poison }
  | .letable d _ => if s.tableUsed p then s
      else s.updDie (dieIx d) fun x => { x with tables := x.tables.writeAll (bs.filter fun b => b.1 < 32768) poison }
  | .peer _ _ _ => s

/-- Bytes written into a memory, each with its own poison. -/
def State.putBytes (s : State) (p : Place) (bs : List (Nat × Byte × Bool)) : State :=
  let part := fun (z : Bool) => (bs.filter fun b => b.2.2 == z).map fun b => (b.1, b.2.1)
  let t := if (part false).isEmpty then s else s.putPlace p (part false) false
  if (part true).isEmpty then t else t.putPlace p (part true) true

/-- The flag of an entry has been written. -/
def Entry.flagged (e : Entry) (cyc : Nat) : Entry :=
  { e with flagDone := true, lastWrite := match e.kind with | .flag _ _ _ => some cyc | _ => e.lastWrite }

/-- A flag write into the own pool is performed. -/
def performOwnFlag (s : State) (c : CoreId) (q : BitVec 3) : State :=
  let x := s.cores[c]
  match x.head q with
  | none => s
  | some e =>
    let p := s.flagPlace c e
    let s := s.updCore c fun y => y.claim (queueWrites q) [bankOf false p.addr]
    (s.putPlace p (leBytes p.addr 8 (e.flagWrite (x.rq q).done).1.toNat) false).updCore c fun x => x.onHead q fun e => e.flagged x.cyc

-- markers (R294)

def Queue.markerId (x : Queue) : Option Nat := match x.entries with | e :: _ => (match e.kind with | .marker i => some i | _ => none) | [] => none

/-- Every marker of the QFENCE has begun, in an earlier cycle. -/
def Core.markerDue (c : Core) (q : BitVec 3) : Bool :=
  match (c.rq q).markerId with
  | none => false
  | some i => c.moves && !(c.rq q).halted && c.ctx.queues.all fun x => x.entries.all fun e =>
      match e.kind with
      | .marker k => k != i || (match e.began with | some t => decide (t < c.cyc) | none => false)
      | _ => true

-- credits (R173, R181)

/-- The engine port of an arrival word's bank can take a credit: it has been granted to nothing but credits of the word's own block (R173, R181). -/
def Core.creditFree (c : Core) (w : Nat) : Bool :=
  let b := bankOf false w
  !c.portBusy.any (fun p => p.1 = b && c.cyc ≤ p.2) && !c.grants.any (fun g => g.1 = b && g.2 % 4 != 3) &&
    c.credits.all fun x => bankOf false x.1 != b || x.1 / 128 == w / 128

/-- A credit of the word holds its port. -/
def Core.reserve (c : Core) (q : BitVec 3) (w : Nat) : Core :=
  { c.claim (queueCredits q) [bankOf false w] with credits := c.credits ++ [(w, 0, false, false)] }

/-- A block of the array field whose AF cycle ends: the port of its arrival word. One that is refused takes a cycle more. -/
def Core.rowCredit (c : Core) (b : AfBlock) : Core :=
  match b.credit with
  | none => c
  | some w =>
    if !c.afDue b then c
    else if c.creditFree w then c.reserve b.queue w
    else c.onAf fun a =>
      { a with active := a.active.map (fun y => if y.id = b.id then { y with at_ := some (c.cyc + 1) } else y),
               busy := (b.addr / 65536, c.cyc + 1) :: a.busy.filter fun x => c.cyc ≤ x.2 }

/-- What a queue will be granted in this cycle: the write of its next block, with the port of its arrival word, and a source read. -/
def State.queueGrants (s : State) (c : Core) (q : BitVec 3) : Core :=
  match c.head q with
  | none => c
  | some e =>
    let d := e.desc
    let c := match s.nextBlock c.cyc e with
      | none => c
      | some b =>
        let banks := (b.outs.map fun o => bankOf d.dv o.1).eraseDups
        if (c.rq q).halted || space d.dst != 0 || e.isRed || e.isPut || !c.free (queueWrites q) banks || (d.cred && !c.creditFree d.credAt) then c
        else if d.cred then (c.claim (queueWrites q) banks).reserve q d.credAt else c.claim (queueWrites q) banks
    if space d.src != 0 || !c.readDue q then c
    else match e.take.want with
      | blk :: _ => if c.free (queueReads q) [bankOf d.sv (128 * blk)] then c.claim (queueReads q) [bankOf d.sv (128 * blk)] else c
      | [] => c

def isFill (e : Entry) : Bool := match e.kind with | .fill _ _ => true | _ => false

/-- The queues in the order of R173: q7 first while it serves a fill. -/
def Core.queueOrder (c : Core) : List (BitVec 3) :=
  if (c.head 7).any isFill then 7 :: (List.range 7).map (BitVec.ofNat 3) else (List.range 8).map (BitVec.ofNat 3)

/-- The ports that this cycle's credits take, before any block is granted one: of a block write, where both will be granted; the ports that the MXE
and the array field ask for count as theirs, though a credit may bar them (R173, R181; DEDUCED, log 28). -/
def State.creditClaims (s : State) (c : CoreId) : List (Nat × Nat) :=
  let x := s.cores[c]
  let y := x.ctx.af.words.foldl (fun y w => y.arRead w) x.mxeAccesses
  let z := x.queueOrder.foldl s.queueGrants y
  z.grants.filter fun g => g.2 % 4 == 3 && !x.grants.contains g

/-- The engine ports of this cycle's credits, and then the MXE's accesses (R173, R206). -/
def State.portsTaken (s : State) (c : CoreId) : State :=
  let credits := (s.cores[c]).credits
  let s := s.updCore c fun x => x.ctx.af.active.foldl Core.rowCredit x
  s.updCore c fun x => ({ x with grants := s.creditClaims c ++ x.grants, credits := credits } : Core).mxeAccesses

/-- QFENCE_MARKER_COMPLETE (R294). -/
def execQfenceMarkerComplete (c : CoreId) (q : QueueId) (s : State) : Outcome State Fault Refusal :=
  event "QFENCE_MARKER_COMPLETE" ((s.cores[c]).markerDue (qix q)) s fun s => s.updCore c fun x => x.leave (qix q)

-- the matrix engine (R200–R217)

/-- MXE_OP_BEGIN (R167, R206). -/
def execMxeOpBegin (c : CoreId) (s : State) : Outcome State Fault Refusal :=
  event "MXE_OP_BEGIN" ((s.cores[c]).moves && (s.cores[c]).mxeDue) s fun s => beginOp s c

/-- The operation that completes at the end of this cycle, oldest first. -/
def Core.mxeReady (c : Core) : Option MOp := if c.moves then c.ctx.mxe.running.find? fun o => c.mxeDone o else none

/-- MXE_OP_COMPLETE (R205, R206). -/
def execMxeOpComplete (c : CoreId) (s : State) : Outcome State Fault Refusal :=
  event "MXE_OP_COMPLETE" (s.cores[c]).mxeReady.isSome s fun s => s.updCore c fun x =>
    match x.mxeReady with | some o => x.mxeFinish o | none => x

/-- A band in its rise whose tick has come (R202). -/
def bandRisen (s : State) (c : CoreId) (b : Band) : Bool := match b with | .rising t => t ≤ (s.coreGcnt c).toNat | _ => false

/-- BAND_READY (R202). -/
def execBandReady (c : CoreId) (s : State) : Outcome State Fault Refusal :=
  event "BAND_READY" ((s.cores[c]).ctx.mxe.bands.any fun b => bandRisen s c b) s fun s => s.updCore c fun x => x.onMxe fun m =>
    { m with bands := m.bands.map fun b => if bandRisen s c b then Band.on else b }

-- the array field (R238, R249)

/-- The word of a hand-off number starts or lands in this cycle. -/
def Core.arNext (c : Core) (n : Nat) : Option ArWord :=
  if c.moves then c.ctx.af.words.find? fun w => w.order = n && (c.arDue w || c.arLandDue w) else none

/-- AR_WORD_PERFORM (R249). -/
def execArWordPerform (c : CoreId) (n : Nat) (s : State) : Outcome State Fault Refusal :=
  event "AR_WORD_PERFORM" ((s.cores[c]).arNext n).isSome s fun s => s.updCore c fun x =>
    match x.arNext n with
    | some w => if x.arLandDue w then x.arLand w else x.arStart w
    | none => x

/-- BEAT_OPEN (R238). -/
def execBeatOpen (c : CoreId) (s : State) : Outcome State Fault Refusal :=
  event "BEAT_OPEN" (match (s.cores[c]).ctx.af.closing with | some t => (s.cores[c]).moves && t < (s.cores[c]).cyc | none => false) s fun s =>
    s.updCore c fun x => x.onAf Af.openNext

end Sys2Proof.Machine
end

