-- ==== Sys2Proof/Machine/Remote.lean ====
section
/-!
DEFINITION. Accesses performed away from their core: requests (R266–R268, R399), reductions at memory (R296–R299), atomics at the SYE (R280,
R284–R291), walks (R363, R365), and blocks from peer packages (R235, R318, R323).
-/
namespace Sys2Proof.Machine

open Host

-- requests

/-- Bytes of a memory with their poison. -/
def State.getPlace (s : State) (p : Place) (a n : Nat) : List Byte × Bool :=
  let m := match p with
    | .pool k _ => (s.cores[coreIx k]).pool
    | .rows k _ => (s.cores[coreIx k]).rows
    | .hbm k _ => (s.hbms[stackIx k]).bytes
    | .host _ => s.host
    | .sye d ovf _ => if ovf then (s.dies[dieIx d]).ovf else (s.dies[dieIx d]).sram
    | .letable d _ => (s.dies[dieIx d]).tables
    | .peer _ _ _ => Mem.empty
  (m.bytes a n, m.tainted a n)

/-- An earlier request of the same agent to the same memory has not been performed (R268). -/
def State.behind (s : State) (r : Req) (past : Req → Bool) : Bool :=
  s.reqs.any fun x => x.id < r.id && x.core = r.core && x.queue = r.queue && x.at_.memory = r.at_.memory && x.data.isNone && !past x

/-- A request has reached its memory: it has been admitted there, it is the next of its agent, what it follows has been performed, and its time has
come (R268, R271, R373). -/
def State.came (s : State) (r : Req) : Bool :=
  r.data.isNone && r.admitted && decide (r.due ≤ s.clockOf r.at_) && (s.pending r.after).isEmpty && !s.behind r fun _ => false

def isRedReq (r : Req) : Bool := match r.kind with | .red _ _ _ _ _ _ _ => true | _ => false
def isFlagReq (r : Req) : Bool := match r.kind with | .flag _ => true | _ => false

-- the order of contributions (R297)

/-- The slot, the count and the block of a contribution. -/
def Req.slotOf (r : Req) : Nat × Nat := match r.kind with | .red _ _ _ k n _ _ => (k, n) | _ => (0, 0)
/-- The 128-byte block at its home slice that a contribution is for (R296); overflow-area blocks of an SYE are told from those of its SRAM. -/
def Place.home (p : Place) : (Nat × Nat) × Nat :=
  (p.slice, 2 * (p.addr / 128) + (match p with | .sye _ true _ => 1 | _ => 0))
def Req.block (r : Req) : (Nat × Nat) × Nat := r.at_.home

/-- The order state of a block (R297). -/
def State.ordOf (s : State) (r : Req) : Option OrdState := s.ords.find? fun o => o.home.home = r.block

/-- What a slice does with a contribution that reaches it. -/
inductive RedFate where
  | apply | discard | hold | refuse
  deriving DecidableEq, Repr

def redFate (s : State) (r : Req) : RedFate :=
  let k := r.slotOf.1
  let n := r.slotOf.2
  let states := (s.ords.filter fun o => o.home.slice = r.at_.slice).length
  let held := (s.reqs.filter fun x => x.held && x.data.isNone && x.at_.slice = r.at_.slice).length
  match s.ordOf r with
  | some o => if o.n ≠ n then .discard else if o.next = k then .apply else if held < 16 then .hold else .refuse
  | none =>
    if k = 0 then (if states < 64 then .apply else .refuse)
    else if held < 16 then .hold else .refuse

/-- A request that asks for its memory in this cycle: one that has come, a contribution where its slice does not hold or refuse it. -/
def State.asks (s : State) (r : Req) : Bool := s.came r && (!isRedReq r || redFate s r == .apply || redFate s r == .discard)

-- the banks of an SYE (R285)

/-- An atomic has reached its bank: no earlier one of its core at that SYE is before it (R268, R285). -/
def State.atomCame (s : State) (a : Atomic) : Bool :=
  a.resp.isNone && a.waits.isEmpty && (s.cores[coreIx a.core]).moves && a.reach ≤ (s.cores[coreIx a.core]).cyc &&
    !(s.atoms.any fun x => x.core = a.core && x.die = a.die && x.order < a.order && x.resp.isNone && x.waits.isEmpty)

/-- Cycles it has waited there. -/
def State.atomWait (s : State) (a : Atomic) : Nat := (s.cores[coreIx a.core]).cyc - a.reach

/-- Of the atomics waiting at a bank, the one that has waited longest: they are served in arrival order, and in one fixed order where they arrive
together (DESIGN CHOICE, log 98). -/
def State.atomFirst (s : State) (d bank : Nat) : Option Atomic :=
  s.atoms.foldl (fun (b : Option Atomic) a =>
    if a.die = d && syeBank a.addr = bank && s.atomCame a then (match b with
      | some y => if s.atomWait y < s.atomWait a then some a else b
      | none => some a) else b) none

/-- A request is the first in arrival order at every SYE bank that it needs. -/
def State.firstAtBanks (s : State) (r : Req) : Bool :=
  match r.at_ with
  | .sye d _ a =>
    let bs := syeBanks a r.span
    bs.all (fun b => match s.atomFirst d b with | some x => decide (s.atomWait x ≤ s.now - r.due) | none => true) &&
      !(s.reqs.any fun x => x.due < r.due && (match x.at_ with | .sye d' _ a' => d' = d && (syeBanks a' x.span).any bs.contains | _ => false) && s.asks x)
  | _ => true

-- the pseudo-channels of a stack (R370, R376–R378)

/-- The directions of a request's transfer: read lanes and write lanes. -/
def Req.lanes (r : Req) : List Bool := if isRedReq r then [false, true] else [r.writes]

/-- The pseudo-channel of a stack can serve a request: no refresh slot, the activation cap, its lanes (R370, R376, R377). -/
def State.laneOpen (s : State) (r : Req) : Bool :=
  match r.at_ with
  | .hbm k a =>
    let x := s.hbms[stackIx k]
    let now := s.gcnt.toNat
    !x.shutAt now a && !x.copying a && x.capFree now a && r.lanes.all fun w => x.laneFree s.lane0 (hbmPc a) w
  | _ => true

/-- The service at which a request would begin: the one with the least goes first at its pseudo-channel, so that partitions that keep requests waiting
share the lanes by their SHAREs (R378; DESIGN CHOICE, log 108). -/
def State.tagOf (s : State) (r : Req) : Nat :=
  match r.at_ with
  | .hbm k a => r.lanes.foldl (fun t w => max t ((s.hbms[stackIx k]).startTag (hbmPc a) w (s.rowPart (stackIx k) a))) 0
  | _ => 0

/-- No other request that could be served there is before it. -/
def State.shareTurn (s : State) (r : Req) : Bool :=
  match r.at_ with
  | .hbm k a => !(s.reqs.any fun x =>
      (match x.at_ with | .hbm k' a' => k' == k && hbmPc a' == hbmPc a | _ => false) && x.lanes.any r.lanes.contains &&
        decide (s.tagOf x < s.tagOf r) && s.asks x && s.laneOpen x && s.targetFree x.at_ x.span)
  | _ => true

/-- The arrival word that a request credits when it is performed (R181, R268). -/
def Req.word (r : Req) : Option Place :=
  match r.kind with
  | .write _ _ _ c | .red _ _ _ _ _ _ c => c
  | .credit _ => some r.at_
  | _ => none

/-- The port of that word's bank takes the credit; the word's core is not frozen. -/
def State.wordOpen (s : State) (r : Req) : Bool :=
  match r.word with
  | some (.pool k a) => (s.cores[coreIx k]).moves && (s.cores[coreIx k]).creditFree a
  | _ => true

/-- A request can be performed in this cycle. A credit alone needs no more than its word's port. -/
def State.reqReady (s : State) (r : Req) : Bool :=
  s.came r && (match r.kind with | .credit _ => true | _ => s.targetFree r.at_ r.span) && s.firstAtBanks r && s.laneOpen r && s.shareTurn r && s.wordOpen r

/-- The request of a number. -/
def State.reqOf (s : State) (n : Nat) : Option Req := s.reqs.find? fun r => r.id = n

def remoteDue (s : State) (n : Nat) : Bool := match s.reqOf n with | some r => s.reqReady r && !isRedReq r && !isFlagReq r | none => false

/-- The FLAG write of a queue that can be performed at another memory (R268, R295). -/
def State.flagReq (s : State) (c : CoreId) (q : BitVec 3) : Option Req :=
  s.reqs.find? fun r => isFlagReq r && r.core == c.val && r.queue == q.toNat && s.reqReady r

def flagDue (s : State) (c : CoreId) (q : BitVec 3) : Bool := ownFlagDue s c q || (s.flagReq c q).isSome

/-- A credit reaches its word's core, through the engine port of the word's bank (R173, R181, R268). -/
def State.creditAt (s : State) (p : Place) (n : Nat) (poison late : Bool) : State :=
  match p with
  | .pool k a => s.updCore (coreIx k) fun x =>
      { x.claim recvCredits [bankOf false a] with credits := x.credits ++ [(a, n, poison, late)] }
  | _ => s

/-- A request that nothing awaits leaves; one that writes stands as performed until the cycle's end, so that what follows it comes in a later
cycle (R271). -/
def State.dropReq (s : State) (n : Nat) : State := { s with reqs := s.reqs.filter fun r => r.id != n }
def State.doneReq (s : State) (n : Nat) : State :=
  { s with reqs := s.reqs.map fun r => if r.id = n then { r with data := some ([], false) } else r }

/-- A write found a table in use: it is discarded, and its queue halts at its entry, with kind 2 (R313). -/
def tableHalt (s : State) (r : Req) : State :=
  let q := BitVec.ofNat 3 r.queue
  (s.dropReq r.id).updCore (coreIx r.core) fun x =>
    match x.head q with
    | some e => if e.order = r.order && !(x.rq q).halted then x.haltQueue q 3 0x0D (ttBits 2 0 0xFF) (s.coreGcnt (coreIx r.core)) else x
    | none => x

/-- The flag of the entry of a hand-off number has been written, in the context that stands in the core or in a saved one. -/
def TaskCtx.flagged (x : TaskCtx) (order cyc : Nat) : TaskCtx :=
  { x with queues := x.queues.map fun q => { q with entries := q.entries.map fun e => if e.order = order then e.flagged cyc else e } }
def Core.flagged (c : Core) (order : Nat) : Core :=
  { (c.onCtx fun x => x.flagged order c.cyc) with queue := c.queue.map fun t => { t with saved := t.saved.map fun x => x.flagged order c.cyc } }

/-- The data of a read is back: when its time was drawn for, and not before its bytes have crossed the lanes (R370). -/
def Req.backAt (r : Req) (s : State) (len : Nat) : Nat :=
  match r.at_ with
  | .sye _ _ _ => r.back + (s.now - r.due)
  | .hbm k a => max r.back (s.mcNow + s.laneCycles (stackIx k) a false len)
  | _ => max r.back s.now

/-- A request is performed at its memory (R267, R268, R295). -/
def performReq (s0 : State) (r : Req) : State :=
  let s := match r.kind with | .credit _ => s0 | _ => s0.takeTarget r.at_ r.span (!r.writes) r.writes
  match r.kind with
  | .read len =>
    if (s.cores[coreIx r.core]).entryFed r.queue r.order then s.dropReq r.id
    else
      let d := s.getPlace r.at_ r.at_.addr len
      let back := r.backAt s0 len
      { s with reqs := s.reqs.map fun x => if x.id = r.id then { x with data := some d, back := back } else x }
  | .write bytes poison late credit =>
    if r.at_.die.isNone && r.at_.memory.1 = 6 then s.dropReq r.id
    else if s.tableUsed r.at_ then tableHalt s r
    else
      let s := (s.putPlace r.at_ bytes poison).doneReq r.id
      match credit with
      | some p => s.creditAt p bytes.length poison late
      | none => s
  | .credit L => ((s.creditAt r.at_ 1 false false).doneReq r.id).updCore (coreIx r.core) fun x =>
      x.onCtx fun y => { y with domIn := setAt y.domIn L (getAt y.spr.dom L) }
  | .flag data => ((s.putPlace r.at_ (leBytes r.at_.addr 8 data.toNat) false).doneReq r.id).updCore (coreIx r.core) fun x => x.flagged r.order
  | .red _ _ _ _ _ _ _ => s

/-- A write meets lines that a host agent holds: it is performed once they have been taken back (R282). -/
def State.holdWrite (s : State) (r : Req) : State :=
  let t := s.takeBack r.at_ r.span
  { t.2 with reqs := s.reqs.map fun x => if x.id = r.id then { x with due := t.1 } else x }

def State.serve (s : State) (r : Req) : State := if r.writes && s.hostHolds r.at_ r.span then s.holdWrite r else performReq s r

/-- REMOTE_ACCESS_PERFORM (R267, R268, R282, R399). -/
def execRemoteAccessPerform (n : Nat) (s : State) : Outcome State Fault Refusal :=
  event "REMOTE_ACCESS_PERFORM" (remoteDue s n) s fun s => match s.reqOf n with
    | some r => s.serve r
    | none => s

/-- FLAG_WRITE_PERFORMED (R190, R264, R271, R295): at another memory, or in the own pool. -/
def execFlagWritePerformed (c : CoreId) (q : QueueId) (s : State) : Outcome State Fault Refusal :=
  event "FLAG_WRITE_PERFORMED" (flagDue s c (qix q)) s fun s => match s.flagReq c (qix q) with
    | some r => s.serve r
    | none => performOwnFlag s c (qix q)

-- walks (R363, R365)

/-- A walk among the eight that run is done. -/
def walkReady (s : State) (d : DieId) : Option (Nat × Nat × Nat × Nat) := ((s.dies[d]).walks.take 8).find? fun w => w.2.2.2 ≤ s.now

/-- The entries of a queue that wait for a page's translation take it (R365). -/
def Core.translated (c : Core) (q page : Nat) (leaf : Word) : Core :=
  c.onQueue (BitVec.ofNat 3 q) fun x => { x with entries := x.entries.zipIdx.map fun e =>
    if e.1.began.isNone && (e.2 == 0 || e.1.desc.pfx) then e.1.translate [(page, leaf)] else e.1 }

/-- TRANSLATION_WALK (R363, R365): its translation, or its fault, reaches the core; the rows of the tables that it read have been activated (R376). -/
def execTranslationWalk (d : DieId) (s : State) : Outcome State Fault Refusal :=
  event "TRANSLATION_WALK" (walkReady s d).isSome s fun s =>
    match walkReady s d with
    | none => s
    | some w =>
      let c := coreIx w.1
      let leaf := s.walk c w.2.2.1
      let s := match s.partOf c with
        | some p => s.activateAll (s.walkReads p (w.2.2.1 * 65536) 3 1 (s.parts[p]).ptroot.toNat)
        | none => s
      (s.updDie d fun x => { x with walks := x.walks.filter fun y => y != w }).updCore c fun x =>
        if w.2.1 = 8 then { x with tlb := cachePut 1024 x.tlb (w.2.2.1, leaf) }
        else ({ x with ceTlb := cachePut 4096 x.ceTlb (w.2.2.1, leaf) } : Core).translated w.2.1 w.2.2.1 leaf

-- reductions at memory (R297–R299)

/-- One element of a built-in reduction (R288, R298, R119). -/
def redElem (op : RedOp) (d x : Nat) : Nat × Kinds :=
  match op with
  | .addF32 => fmtF32.add d x
  | .addBf16 => fmtBF16.add d x
  | .addI32 => ((d + x) % 2 ^ 32, 0)
  | .maxF32 => fmtF32.minmax true d x
  | .minF32 => fmtF32.minmax false d x
  | .maxI32 => (if signed 32 d < signed 32 x then x else d, 0)

/-- Elements combined into what stands at their destinations, each with its address and its events. An element whose destination holds poison is
written poisoned, and raises poison: the spec gives it no other fate. Elements begin at addresses that are `phase` modulo their size; of one that lies
in two blocks, and so in two contributions, the spec states no result: each part gets free values (DESIGN CHOICE, log 99). -/
def redBytes (op : RedOp) (phase : Nat) (free : Nat → Byte) (old : Nat → List Byte × Bool) (bs : List (Nat × Byte)) :
    List (Nat × Byte × Bool) × List (Nat × Kinds) :=
  let es := 2 ^ (redCodes op).1
  let start := fun (a : Nat) => a - (a + es - phase % es) % es
  let xs := ((bs.map fun b => start b.1).eraseDups).map fun a =>
    let part := bs.filter fun b => start b.1 = a
    if a % es = phase % es ∧ part.length = es then
      let d := old a
      let r := redElem op (leNat d.1) (leNat (part.map (·.2)))
      ((leBytes a es r.1).map fun b => (b.1, b.2, d.2), a, if d.2 then kPoison else r.2)
    else (part.map fun b => (b.1, free b.1, false), a, 0)
  (xs.flatMap (·.1), xs.map (·.2))

/-- A contribution reaches its slice, or is held there and comes due; held ones come first (R297). One that is only to be held may come behind others
that are. -/
def redDue (s : State) (n : Nat) : Bool :=
  match s.reqOf n with
  | none => false
  | some r => isRedReq r && r.data.isNone && (match redFate s r with
      | .apply => s.reqReady r && (r.held || !(s.reqs.any fun x => x.held && x.data.isNone && x.block = r.block && redFate s x = .apply))
      | .discard => s.reqReady r
      | .hold => !r.held && r.admitted && decide (r.due ≤ s.clockOf r.at_) && !s.behind r Req.held
      | .refuse => false)

/-- The order states after slot k of n has been applied. -/
def ordNext (s : State) (r : Req) : List OrdState :=
  let rest := s.ords.filter fun o => o.home.home != r.block
  if r.slotOf.1 + 1 = r.slotOf.2 then rest else rest ++ [⟨r.at_, r.at_.addr / 128, r.slotOf.2, r.slotOf.1 + 1, r.core⟩]

/-- A contribution is applied: one read, op and write of its block, its credit, and its events on their way home (R296, R299). -/
def applyRed (s : State) (r : Req) : State :=
  match r.kind with
  | .red op bytes poison _ _ phase credit =>
    let es := 2 ^ (redCodes op).1
    let y := redBytes op phase (fun a => Config.freeByte (s.draws + a % 128)) (fun a => s.getPlace r.at_ a es) bytes
    let kinds := if poison then kPoison else y.2.foldl (fun k x => k ||| x.2) 0
    let s := { (s.takeTarget r.at_ r.span true true) with ords := ordNext s r, draws := s.draws + 128 }
    let s := if poison then s else s.putBytes r.at_ y.1
    let s := match credit with | some p => s.creditAt p bytes.length poison false | none => s
    let d := s.draw
    let back := d.2.now + 1 + Config.freeDelay d.1
    let s := d.2.doneReq r.id
    if kinds = 0 then s
    else s.updCore (coreIx r.core) fun x => { x with ev := x.ev ++ [(back, ⟨kinds, 7, r.bundle, 0, .handoff r.order⟩)] }
  | _ => s

/-- A contribution with another n is discarded; its queue halts at its entry, where that still is, with cause 6 (R297). -/
def discardRed (s : State) (r : Req) : State :=
  let q := BitVec.ofNat 3 r.queue
  (s.dropReq r.id).updCore (coreIx r.core) fun x =>
    match x.head q with
    | some e => if e.order = r.order then x.haltQueue q 6 0x01 0 0
        else x.reqImp ⟨0x01, mkWord [(fld (x.rq q).done 31 0, 32), (r.queue, 8), (7, 0)], 0, none, none⟩
    | none => x.reqImp ⟨0x01, mkWord [(fld (x.rq q).done 31 0, 32), (r.queue, 8), (7, 0)], 0, none, none⟩

/-- REDUCTION_CONTRIBUTION (R296, R297). -/
def execReductionContribution (n : Nat) (s : State) : Outcome State Fault Refusal :=
  event "REDUCTION_CONTRIBUTION" (redDue s n) s fun s =>
    match s.reqOf n with
    | none => s
    | some r =>
      match redFate s r with
      | .apply => if s.hostHolds r.at_ r.span then s.holdWrite r else applyRed s r
      | .discard => discardRed s r
      | .hold => { s with reqs := s.reqs.map fun x => if x.id = n then { x with held := true } else x }
      | .refuse => s

def returnDue (s : State) (c : CoreId) : Bool := (s.cores[c]).moves && (s.cores[c]).ev.any fun e => e.1 ≤ s.now

/-- REDUCTION_EVENT_RETURN (R299). -/
def execReductionEventReturn (c : CoreId) (s : State) : Outcome State Fault Refusal :=
  event "REDUCTION_EVENT_RETURN" (returnDue s c) s fun s => s.updCore c fun x =>
    let now := (x.ev.filter fun e => e.1 ≤ s.now).map (·.2)
    now.foldl (fun x r => x.report r) { x with ev := x.ev.filter fun e => s.now < e.1 }

-- atomics (R280, R284–R291)

/-- The atomic that a bank performs in this cycle. -/
def atomReady (s : State) (d : DieId) (bank : Nat) : Option Atomic :=
  if s.shake.isSome || (s.dies[d]).banks.contains bank then none else s.atomFirst d.val bank

/-- The location's value, the value an atomic leaves there, what it returns and raises (R287–R289, R291). -/
def atomEffect (a : Atomic) (old : Nat) (bad : Bool) : Nat × Word × Kinds :=
  if bad then (old, BitVec.ofNat 64 old, kPoison)
  else
    let w : Nat := if a.wide then 64 else 32
    match a.op with
    | some op => let r := atomNew op old (a.operand.toNat % 2 ^ w); (r.1, atomRet (some op) old, r.2)
    | none => (if old = a.cmp.toNat % 2 ^ w then a.operand.toNat % 2 ^ w else old, atomRet none old, 0)

/-- An atomic is performed: one read and write of its location, the aligned 8-byte word (R284, R287); poison anywhere in it is poison (R291). -/
def performAtom (s : State) (a : Atomic) : State :=
  let n := if a.wide then 8 else 4
  let p := Place.sye a.die a.ovf a.addr
  let bad := (s.getPlace p (a.addr / 8 * 8) 8).2
  let r := atomEffect a (leNat (s.getPlace p a.addr n).1) bad
  let s := if bad then s.takeTarget p n true true else (s.takeTarget p n true true).putPlace p (leBytes a.addr n r.1) false
  let t := (s.cores[coreIx a.core]).cyc + a.back
  { s with atoms := s.atoms.map fun x => if x = a then { x with resp := some (t, r.2.1, r.2.2) } else x }

/-- ATOMIC_PERFORM (R285, R287). -/
def execAtomicPerform (d : DieId) (bank : Nat) (s : State) : Outcome State Fault Refusal :=
  event "ATOMIC_PERFORM" (atomReady s d bank).isSome s fun s => match atomReady s d bank with | some a => performAtom s a | none => s

/-- A response of the core that lands at the end of this cycle. -/
def responseReady (s : State) (c : CoreId) : Option (Atomic × Word × Kinds) :=
  if (s.cores[c]).moves then
    s.atoms.findSome? fun a => if a.core = c.val then (match a.resp with
      | some (t, v, k) => if t ≤ (s.cores[c]).cyc then some (a, v, k) else none
      | none => none) else none
  else none

/-- ATOMIC_RESPONSE (R285, R290): sd lands with this cycle's results, and the event kinds are an engine report of slot 7. -/
def execAtomicResponse (c : CoreId) (s : State) : Outcome State Fault Refusal :=
  event "ATOMIC_RESPONSE" (responseReady s c).isSome s fun s =>
    match responseReady s c with
    | none => s
    | some (a, v, k) =>
      ({ s with atoms := s.atoms.filter fun x => x != a } : State).updCore c fun x =>
        let f : Flight :=
          { seq := x.seqNo + 2 ^ 32, slot := .ae, bundle := a.bundle, reg := .s a.sd, val := v.zeroExtend 2048, mask := lowMask 64,
            due := x.cyc, kinds := 0, pend := true }
        ({ x with flights := x.flights ++ [f] } : Core).report ⟨k, 7, a.bundle, 0, .handoff a.order⟩

/-- Ordered atomics whose writes have all been performed leave for the SYE in the cycle after (R271, R272). -/
def State.releaseAtoms (s : State) : State :=
  { s with atoms := s.atoms.map fun a =>
      if !a.waits.isEmpty && (s.pending a.waits).isEmpty then { a with waits := [], reach := (s.cores[coreIx a.core]).cyc + 1 + a.back + a.extra }
      else a }

/-- What a cycle's end takes from the requests: those that have written; what it opens again: the locations written. -/
def State.endReqs (s : State) : State := { s with reqs := s.reqs.filter (fun r => !(r.writes && r.data.isSome)), touched := [] }

-- blocks of peers (R235, R318, R323)

def portDie (p : PortId) : DieId := dieIx (p.val / 6)
def portNo (p : PortId) : Fin 6 := Fin.ofNat 6 p.val
def State.port (s : State) (p : PortId) : Port := (s.dies[portDie p]).ports[portNo p]
def State.updPort (s : State) (p : PortId) (f : Port → Port) : State :=
  s.updDie (portDie p) fun d => { d with ports := d.ports.set (portNo p) (f d.ports[portNo p]) }

/-- The check of R323. -/
def blockOk (s : State) (p : PortId) (b : PeerBlock) : Bool :=
  b.core < 96 && (match s.partOf (coreIx b.core) with | some i => (s.parts[i]).ownsPort p.val | none => false) &&
    b.addr + b.bytes.length ≤ (s.cores[coreIx b.core]).scratch

/-- The block is discarded when it arrives: its tag is aborted, or it fails its check (R302, R323). -/
def blockLost (s : State) (p : PortId) (b : PeerBlock) : Bool := s.aborted.contains (BitVec.ofNat 8 b.tag) || !blockOk s p b

/-- A block whose tick has come, to discard or to perform where its bank grants it (R318). -/
def blockReady (s : State) (p : PortId) (b : PeerBlock) : Bool :=
  b.arrival ≤ (s.coreGcnt (coreIx b.core)).toNat && (blockLost s p b || s.targetFree (.pool b.core b.addr) b.bytes.length)

/-- The first in arrival order, then in flit order, of a port's blocks that are ready (R278, R324). -/
def recvReady (s : State) (p : PortId) : Option PeerBlock :=
  (s.port p).recv.foldl (fun (x : Option PeerBlock) b =>
    if blockReady s p b then (match x with
      | some y => if b.arrival < y.arrival then some b else x
      | none => some b) else x) none

/-- The port whose block is next: ascending arrival tick, then ascending port (R278, R324). -/
def State.recvPort (s : State) : Option PortId :=
  ((List.finRange 24).foldl (fun (x : Option (PortId × Nat)) p =>
    match recvReady s p, x with
    | some b, some y => if b.arrival < y.2 then some (p, b.arrival) else x
    | some b, none => some (p, b.arrival)
    | none, _ => x) none).map (·.1)

/-- The first of equal blocks leaves a list. -/
def dropBlock (b : PeerBlock) : List PeerBlock → List PeerBlock
  | [] => []
  | x :: r => if x = b then r else x :: dropBlock b r

/-- The destination bytes of a verb block, and its events by (address, op) (R233, R235). -/
def verbBlock (v : Verb) (old : Nat → List Byte × Bool) (b : PeerBlock) : List (Nat × Byte × Bool) × List (Nat × Nat × Kinds) :=
  let es := v.bytes
  let xs := (List.range (b.bytes.length / es)).map fun i =>
    let a := b.addr + es * i
    let r := v.eval (leNat (old a).1, (old a).2) (leNat ((b.bytes.drop (es * i)).take es), false)
    ((leBytes a es r.1.1).map fun (x : Nat × Byte) => (x.1, x.2, r.1.2),
     (r.2.1.map fun (k : Nat × Kinds) => (a, k.1, k.2)) ++ (match r.2.2 with | some o => [(a, o, kPoison)] | none => []))
  (xs.flatMap (·.1), xs.flatMap (·.2))

/-- What applying a block does: bytes with poison, events by (address, op), and the cycles of its grant. A poisoned block of a PUTR, or a parity
error in its verb, leaves the destination as it is and raises poison (R235, R323). -/
def peerEffect (free : Nat → Byte) (m : Mem) (b : PeerBlock) : List (Nat × Byte × Bool) × List (Nat × Nat × Kinds) × Nat :=
  let old := fun (n a : Nat) => (m.bytes a n, m.tainted a n)
  let data := b.bytes.zipIdx.map fun y => (b.addr + y.2, y.1)
  match b.op, b.verb with
  | some op, _ =>
    let es := 2 ^ (redCodes op).1
    let n := ceilDiv (b.bytes.length / es) 32
    if b.poison then ([], [(b.addr, 0, kPoison)], n)
    else
      let r := redBytes op b.addr free (old es) data
      (r.1, r.2.map fun k => (k.1, 0, k.2), n)
  | none, [] => (data.map fun y => (y.1, y.2, b.poison), if b.poison then [(b.addr, 0, kPoison)] else [], 1)
  | none, ws =>
    let v : Verb := ⟨ws, b.bad⟩
    let n := v.len * ceilDiv (b.bytes.length / v.bytes * (if v.isPair then 2 else 1)) 32
    if b.poison then ([], [(b.addr, 0, kPoison)], n)
    else match b.bad with
      | some o => ([], [(b.addr, o, kPoison)], n)
      | none =>
        let r := verbBlock v (old v.bytes) b
        (r.1, r.2, n)

/-- The block counts as poisoned to its credit. -/
def peerPoison (b : PeerBlock) : Bool := b.poison || (b.op.isNone && !b.verb.isEmpty && b.bad.isSome)

/-- A checked block is performed at the receiving core (R318, R323). Its grant holds the bank, and its events rank behind the core's own (R162). -/
def applyPeer (s : State) (port : PortId) (b : PeerBlock) : State :=
  let c := coreIx b.core
  let y := peerEffect (fun a => Config.freeByte (s.draws + a % 128)) (s.cores[c]).pool b
  let bank := bankOf false b.addr
  let tag := BitVec.ofNat 8 b.tag
  let y := if s.spoiled.contains tag then (y.1.zipIdx.map (fun x => (x.1.1, Config.freeByte (s.draws + x.2), false)), y.2) else y
  let l : Landed := ⟨tag, port, b.core, b.whole.1, b.whole.2⟩
  let s := { s with draws := s.draws + 128, landed := if s.landed.contains l then s.landed else l :: s.landed }
  let s := s.updCore c fun x =>
    let n := x.reports.length
    let x := { x.claim receiver [bank] with
      endWrites := x.endWrites ++ y.1, portBusy := (bank, x.cyc + y.2.2 - 1) :: x.portBusy.filter fun p => x.cyc ≤ p.2 }
    y.2.1.foldl (fun x e => x.report ⟨e.2.2, 7, 0x3FFF, e.2.1, .peer n e.1⟩) x
  match b.credit with
  | some w =>
    let now := (s.coreGcnt c).toNat
    let r : Reached := ⟨w, if now < b.arrival + ceilDiv 80 (24 + s.ceiling) then b.arrival else now, (s.cores[c]).cyc, s.gcnt.toNat, s.frac, 24 + s.ceiling⟩
    (s.creditAt (.pool b.core w) b.bytes.length (peerPoison b) false).updCore c fun x => { x with reached := r :: x.reached }
  | none => s

/-- RECEIVE_BLOCK_APPLY (R302, R318, R323). -/
def execReceiveBlockApply (port : PortId) (s : State) : Outcome State Fault Refusal :=
  event "RECEIVE_BLOCK_APPLY" (recvReady s port).isSome s fun s =>
    match recvReady s port with
    | none => s
    | some b =>
      let s1 := s.updPort port fun p => { p with recv := dropBlock b p.recv }
      if s.aborted.contains (BitVec.ofNat 8 b.tag) then s1
      else if !blockOk s port b then s1.updPort port fun p => { p with baddst := if p.baddst = 0xFF then 0xFF else p.baddst + 1 }
      else applyPeer s1 port b

end Sys2Proof.Machine
end

