-- ==== Sys2Proof/Machine/Group.lean ====
section
/-!
DEFINITION. The group as this package knows it (R326–R335): CFLCFG's values, effect ticks, loss ticks, what the next raise window does, and the changes
of the ceiling that lie ahead.
-/
namespace Sys2Proof.Machine

open Host

-- CFLCFG (R328)

def clamp (lo hi x : Nat) : Nat := max lo (min hi x)

def Pmc.tsil (p : Pmc) : Nat := fld p.cflcfg 55 42
def Pmc.leadTicks (p : Pmc) : Nat := 1000 * fld p.cflcfg 41 32
def Pmc.cap (p : Pmc) : Nat := fld p.cflcfg 31 25
def Pmc.floor (p : Pmc) : Nat := min 72 (fld p.cflcfg 24 18)

def isDetached (g : Confl) : Bool := g.state == 0
def isJoining (g : Confl) : Bool := g.state == 1
def isMember (g : Confl) : Bool := g.state == 2 || g.state == 3

/-- A write of CFLCFG's values: out of range becomes the nearest bound; TSIL and LEAD only while DETACHED; FLOOR stays (R328). -/
def Pmc.writeCflcfg (p : Pmc) (v : Word) : Pmc :=
  let free := isDetached p.cfl
  { p with cflcfg := mkWord [(fld v 63 56, 56), (if free then clamp 20 10000 (fld v 55 42) else p.tsil, 42),
      (if free then clamp 50 1000 (fld v 41 32) else fld p.cflcfg 41 32, 32), (min 72 (fld v 31 25), 25), (p.floor, 18)] }

-- counts (R309)

/-- The count of a die's LE (R309). -/
def State.leGcnt (s : State) (d : DieId) : Nat := ((s.gcnt.toNat : Int) + (s.dies[d]).lskew).toNat

/-- Every LE of the package has been aligned in this epoch (R309). -/
def State.allAligned (s : State) : Bool := s.dies.toList.all fun d => d.aligned

-- loss (R334)

/-- The tick at which a member's silence declares it lost. -/
def lossTick (p : Pmc) (m : Nat × Post) : Nat := m.2.tick + 1000 * p.tsil

/-- The first tick, of those that the package's count has reached, at which members' silence declares them lost
(when it acts is a DESIGN CHOICE, log 125). -/
def lossReached (s : State) : Option Nat := ((s.pmc.cfl.members.map (lossTick s.pmc)).filter (· ≤ s.gcnt.toNat)).min?

/-- The first tick at which members are lost, once every LE counts it too. -/
def firstLoss (s : State) : Option Nat := (lossReached s).filter fun T => (List.finRange 4).all fun d => decide (T ≤ s.leGcnt d)

-- raise windows (R331, R335)

/-- The joiners that a member admits at W (R335). -/
def Confl.admits (g : Confl) (lead W : Nat) : List Joiner := g.joiners.filter fun j => j.ready && decide (j.tick + lead < W)

def State.admitted (s : State) (W : Nat) : List Joiner :=
  if isMember s.pmc.cfl && s.pmc.cfl.state != 3 then s.pmc.cfl.admits s.pmc.leadTicks W else []

/-- This package is admitted at W. -/
def State.joins (s : State) (W : Nat) : Bool :=
  let g := s.pmc.cfl
  isJoining g && g.said && s.allAligned && (match g.granted with | some t => decide (t + s.pmc.leadTicks < W) | none => false)

/-- A joiner's limit at W: the one it has posted, lowered by its notices that have taken effect. -/
def Joiner.limitAt (j : Joiner) (W : Nat) : Nat := (j.notices.filter fun n => n.2 ≤ W).foldl (fun m n => min m n.1) j.limit

/-- The group after W: leavers go; granted and aligned joiners become members, with the posts and the notices that they have sent under their numbers.
One that leaves is a group of its own, in its old epoch (R335). -/
def State.regroup (s : State) (W : Nat) : Confl :=
  let g := s.pmc.cfl
  let new := s.admitted W
  let mine := s.joins W
  if g.state = 3 then
    { g with leavers := [], joiners := [], members := [], state := 0, notices := g.own, posts := g.posts.filter fun p => p.member = g.self }
  else if g.leavers.isEmpty && !mine && new.isEmpty then g
  else
    { g with leavers := [], joiners := g.joiners.filter (fun j => !new.any fun y => y.number = j.number),
             members := (g.members.filter fun m => !g.leavers.contains m.1) ++
               new.map fun j => (j.number, ⟨j.number, (g.epoch + 1).toNat, j.limitAt W, W, none, none, false⟩),
             posts := (g.posts.filter fun p => !g.leavers.contains p.member) ++ new.flatMap (·.posts),
             notices := g.notices ++ (new.flatMap (·.notices)).filter (fun n => W < n.2),
             epoch := g.epoch + 1, state := if mine then 2 else g.state, granted := if mine then none else g.granted,
             said := if mine then false else g.said, joinAt := if mine then none else g.joinAt }

/-- The code that a raise window W gives: the least limit of every live member's latest post of its interval (R331). -/
def raiseCode (g : Confl) (W : Nat) : Option Nat :=
  let latest := fun (m : Nat) =>
    (g.posts.filter fun p => p.member = m && W < p.tick + 1000000 && p.tick + 100000 ≤ W).foldl
      (fun (a : Option Post) p => match a with | none => some p | some q => if q.tick < p.tick then some p else a) none
  if isJoining g then none
  else (g.self :: g.members.map (·.1)).foldl (fun (a : Option Nat) m => match a, latest m with | some c, some p => some (min c p.limit) | _, _ => none) (some 72)

/-- The code that the window W changes C to: a limit that an admission brings in lowers it; else it rises, where no notice is pending (R331, R335). -/
def State.windowCode (s : State) (W : Nat) : Option Nat :=
  let g := s.regroup W
  let low := (s.admitted W).foldl (fun m j => min m (j.limitAt W)) (if s.joins W then s.pmc.cfl.limit else 72)
  let under := match s.shake with | some x => x.2 | none => 72
  if low < min s.ceiling under then some low
  else match raiseCode g W with
    | some c => if s.ceiling < min c low && !(g.notices.any fun n => decide (W < n.2 + 2048)) && s.shake.isNone then some (min c low) else none
    | none => none

-- what lies ahead of a window of a timetable (R303, R317)

/-- The tick of the next raise window. -/
def State.nextWin (s : State) : Nat := (s.pmc.cfl.lastWin + 1) * 1000000

/-- A change of the ceiling that has not come takes effect by tick t. -/
def State.changeBy (s : State) (t : Nat) : Bool :=
  let code := match s.shake with | some x => x.2 | none => s.ceiling
  (s.pmc.cfl.notices.any fun n => decide (n.1 < code) && decide (s.pmc.cfl.lastEff < n.2) && decide (n.2 ≤ t)) ||
    (decide (s.nextWin ≤ t) && (s.windowCode s.nextWin).isSome)

/-- A window that starts at t, with slack σ, is held: a change of the clock that moves it lies ahead, or its start is not before the tick at which
members that are still silent are lost. -/
def State.heldBack (s : State) (t slack : Nat) : Bool :=
  s.changeBy (t + slack) || s.pmc.cfl.members.any fun m => decide (lossTick s.pmc m ≤ t)

end Sys2Proof.Machine
end

