-- ==== Sys2Proof/Machine/Links.lean ====
section
/-!
DEFINITION. The link engines: windows of running rounds, rounds that end, notices, ports and the group counter's stamps (R301–R321).
-/
namespace Sys2Proof.Machine

open Host

-- rounds that end badly (R302, R319)

/-- TINFO0 of a timetable violation of kinds 3–6 (R319). -/
def roundInfo (kind window queue : Nat) (tag : BitVec 8) : Word :=
  mkWord [(tag.toNat, 24), (window, 16), (kind, 12), (queue, 8), (7, 0)]

/-- The cores of the package that handed off a ROUND of a tag that runs. -/
def State.roundCores (s : State) (tag : BitVec 8) : List Nat :=
  ((s.dies.toList.flatMap fun d => d.rounds.filter fun r => r.tag = tag).flatMap fun r => r.cores).eraseDups

/-- The ports that the package's windows of a tag use. -/
def State.roundPorts (s : State) (tag : BitVec 8) : List Nat :=
  ((s.dies.toList.zipIdx.flatMap fun d => (d.1.rounds.filter fun r => r.tag = tag).flatMap fun r => r.wins.map fun w => 6 * d.2 + w.port)).eraseDups

/-- The transfers whose blocks wait in the ports' buffers, as if they had been written. -/
def State.waiting (s : State) : List Landed :=
  (List.finRange 24).flatMap fun p => ((s.port p).recv.filter fun b => blockOk s p b).map fun b => ⟨BitVec.ofNat 8 b.tag, p, b.core, b.whole.1, b.whole.2⟩

/-- Rounds of these tags end badly: the destinations of their transfers hold undefined values, those whose blocks still wait among them (R303, R319). -/
def State.spoilRounds (s : State) (tags : List (BitVec 8)) : State := { s with landed := (s.landed ++ s.waiting).eraseDups }.spoilTags tags

/-- A round ends on this package with a violation: the effect of RABORT of its tag, the trap, and a notice, once per tag (R319). -/
def State.endRound (s : State) (tag : BitVec 8) (kind window queue : Nat) : State :=
  let cores := s.roundCores tag
  let ports := s.roundPorts tag
  let first := !s.noticed.contains tag
  let s := cores.foldl (fun s c => s.updCore (coreIx c) fun x =>
    x.reqImp ⟨0x0D, roundInfo kind window queue tag, s.coreGcnt (coreIx c), none, none⟩) s
  let s := (s.spoilRounds [tag]).abortTag tag
  if first then { s with noticed := tag :: s.noticed, notices := s.notices ++ ports.map fun p => (p, tag) } else s

-- windows (R301, R316, R321)

/-- The start tick of a window of a running round. -/
def Round.opens (r : Round) (k : Nat) : Nat := r.start + ((r.wins[k]?).map (·.start)).getD 0

/-- The entry that a window would send: the head of the queue it names, begun, of this round and slot. -/
def State.windowEntry (s : State) (d : DieId) (r : Round) (k : Nat) : Option (CoreId × BitVec 3 × Entry) :=
  match r.wins[k]? with
  | none => none
  | some w =>
    let c := coreIx (24 * d.val + w.core)
    let q := BitVec.ofNat 3 w.queue
    match (s.cores[c]).head q with
    | none => none
    | some e => if e.isPut && e.began.isSome && !((s.cores[c]).rq q).halted && e.round = some (r.tag, r.ident) && e.desc.slot = k && e.sendEnd.isNone then some (c, q, e) else none

/-- A window and its round, numbered 256 × the round's place among those running + the window. -/
def State.windowAt (s : State) (d : DieId) (n : Nat) : Option (Round × Nat) :=
  match (s.dies[d]).rounds[n / 256]? with
  | some r => if n % 256 < r.wins.length && !r.opened.contains (n % 256) then some (r, n % 256) else none
  | none => none

/-- The window opens, or its staging deadline passes; for an entry whose staging R325 counts from an arrival's tick, the cycle may end up to 4 ticks
later than that count. -/
def windowDue (s : State) (d : DieId) (n : Nat) : Bool :=
  match s.windowAt d n with
  | none => false
  | some (r, k) =>
    let t := r.opens k
    t ≤ s.leGcnt d && !s.heldBack t r.slack && (match s.windowEntry d r k with
      | none => true
      | some (_, _, e) => e.stagedAt.isSome || t + r.slack + (if e.armed.isSome then 4 else 0) < s.leGcnt d)

def updRound (s : State) (d : DieId) (ident : Nat) (f : Round → Round) : State :=
  s.updDie d fun x => { x with rounds := x.rounds.map fun r => if r.ident = ident then f r else r }

/-- A staged block as it travels (R300, R321). -/
def peerBlockOf (e : Entry) (b : OutBlock) (arrival latest : Nat) : PeerBlock :=
  let d := e.desc
  let bs := e.bytesOf b
  { core := spCore b.dst, addr := b.dst % 2 ^ 24, bytes := bs.map (fun x => x.2.1), tag := e.tagNo, arrival := arrival, latest := latest,
    op := (match e.kind with | .putr op => some op | _ => none),
    verb := (match e.kind, e.verb with | .putrVerb, some v => v.words | _, _ => []),
    bad := (match e.kind, e.verb with | .putrVerb, some v => v.bad | _, _ => none),
    credit := if d.cred then some d.credAt else none, poison := bs.any fun x => x.2.2, whole := (spOff d.dst, e.total) }

/-- The window's entry is sent: its blocks with their arrival ticks, and the tick its last byte leaves (R316, R321). -/
def sendWindow (s : State) (d : DieId) (r : Round) (k : Nat) (c : CoreId) (q : BitVec 3) (e : Entry) : State :=
  let w := (r.wins[k]?).getD ⟨0, 0, 0, 0, 0⟩
  let t := r.opens k
  let port := 6 * d.val + w.port
  let lat := ((s.dies[d]).ports.toArray.getD w.port Port.reset).linklat.toNat
  let blocks : List (OutBlock × PeerBlock) := e.staged.map fun b => (b, peerBlockOf e b (t + r.slack + lat + ceilDiv b.stop 210) (t + r.slack))
  let L := ceilDiv w.len 210
  let lo := min (max t (s.leGcnt d)) (t + r.slack) + L
  let g := s.draw
  let stop := lo + Config.freeDelay g.1 % (t + r.slack + L - lo + 1)
  let s := { g.2 with sent := g.2.sent ++ blocks.map fun (b : OutBlock × PeerBlock) => (port, b.2) }
  let s := blocks.foldl (fun s b => s.send
    { id := 0, core := c.val, queue := q.toNat, order := e.order, bundle := e.bundle, seq := e.seq, admitted := true, at_ := .peer port b.2.latest b.2.arrival, kind := .write [] false false none,
      after := [], sent := 0, due := 0, back := 0, data := none, held := false }) s
  let s := s.updCore c fun x => x.onHead q fun e => { e with sendEnd := some stop }
  updRound s d r.ident fun r => { r with opened := k :: r.opened, sends := (k, stop) :: r.sends }

/-- A window opens: it sends, is missed, or ends its round (R316). -/
def openWindow (s : State) (d : DieId) (n : Nat) : State :=
  match s.windowAt d n with
  | none => s
  | some (r, k) =>
    match s.windowEntry d r k with
    | none => updRound s d r.ident fun r => { r with opened := k :: r.opened }
    | some (c, q, e) => if (match e.stagedAt with | some T => decide (T ≤ r.opens k + r.slack) | none => false) then sendWindow s d r k c q e else s.endRound r.tag 3 k q.toNat

/-- TIMETABLE_WINDOW_OPEN (R301, R316). -/
def execTimetableWindowOpen (d : DieId) (n : Nat) (s : State) : Outcome State Fault Refusal :=
  event "TIMETABLE_WINDOW_OPEN" (windowDue s d n) s fun s => openWindow s d n

def roundEndDue (s : State) (d : DieId) (n : Nat) : Bool :=
  match (s.dies[d]).rounds[n]? with
  | none => false
  | some r => (List.range r.wins.length).all (fun k => r.opened.contains k) && r.sends.all fun x => decide (x.2 ≤ s.leGcnt d)

/-- ROUND_END (R315): normal. -/
def execRoundEnd (d : DieId) (n : Nat) (s : State) : Outcome State Fault Refusal :=
  event "ROUND_END" (roundEndDue s d n) s fun s => 
    let t := s.updDie d fun x => { x with rounds := x.rounds.eraseIdx n }
    match (s.dies[d]).rounds[n]? with
    | some r => if t.runsTag r.tag then t else t.forgetTag r.tag
    | none => t

-- clock changes (R317)

/-- The windows of a running round that a clock change at T moves, with their busy spans and staging deadlines; one that was missed at its old start
opens at its new one. -/
def Round.shift (r : Round) (T : Nat) : Round :=
  let late := fun (k : Nat) => decide (T ≤ r.opens k + r.slack)
  { r with wins := r.wins.zipIdx.map (fun w => if late w.2 then { w.1 with start := w.1.start + 2048 } else w.1),
           opened := r.opened.filter (fun k => !late k || r.sends.any fun x => x.1 = k),
           sends := r.sends.map fun x => if late x.1 then (x.1, x.2 + 2048) else x }

/-- A block's arrival tick moves with its window. -/
def shiftBlock (T : Nat) (b : PeerBlock) : PeerBlock := if T ≤ b.latest then { b with arrival := b.arrival + 2048, latest := b.latest + 2048 } else b

/-- The send of a core's entry moves with its window. -/
def Round.shiftSend (r : Round) (T : Nat) (e : Entry) : Entry :=
  if e.round = some (r.tag, r.ident) && decide (T ≤ r.opens e.desc.slot + r.slack) then { e with sendEnd := e.sendEnd.map (· + 2048) } else e

/-- A clock change at T moves every window of the running rounds that may start at T or later, and its arrival ticks at both ends of a link: the
blocks on their way, and those that wait in a receive buffer. -/
def State.shiftRounds (s : State) (T : Nat) : State :=
  let rounds := s.dies.toList.flatMap (·.rounds)
  { s with
      dies := s.dies.map (fun d =>
        { d with rounds := d.rounds.map (fun r => r.shift T), ports := d.ports.map fun p => { p with recv := p.recv.map (shiftBlock T) } }),
      cores := s.cores.map (fun c => c.onCtx fun x =>
        { x with queues := x.queues.map fun q => { q with entries := q.entries.map fun e => rounds.foldl (fun e r => r.shiftSend T e) e } }),
      reqs := s.reqs.map (fun r => match r.at_ with
        | .peer p l t => if T ≤ l then { r with at_ := .peer p (l + 2048) (t + 2048) } else r
        | _ => r),
      sent := s.sent.map fun b => (b.1, shiftBlock T b.2) }

-- ports

/-- Flits counted by a port (R307). -/
def Port.count (p : Port) (fecc unc : Nat) : Port :=
  { p with fecc := BitVec.ofNat 16 (min 65535 (p.fecc.toNat + fecc)), unc := BitVec.ofNat 8 (min 255 (p.unc.toNat + unc)) }

/-- PEER_BLOCK_ARRIVAL (R306, R318): the far end's block in this port's receive buffer, or a full buffer. A flit delivered poisoned poisons it. -/
def execPeerBlockArrival (port : PortId) (x : BlockArrival) (s : State) : Outcome State Fault Refusal :=
  event "PEER_BLOCK_ARRIVAL" ((s.port port).state == 2) s fun s =>
    let b : PeerBlock := { x.block with poison := x.block.poison || x.unc != 0 }
    let s := s.updPort port fun p => p.count x.fecc x.unc
    let used : Nat := (s.port port).recv.foldl (fun n x => n + x.bytes.length) 0
    if 524288 < used + b.bytes.length then s.endRound (BitVec.ofNat 8 b.tag) 6 0xFF 0
    else s.updPort port fun p => { p with recv := p.recv ++ [b] }

/-- ROUND_ABORT_NOTICE (R319): received on a port. -/
def execRoundAbortNotice (port : PortId) (tag : BitVec 8) (s : State) : Outcome State Fault Refusal :=
  event "ROUND_ABORT_NOTICE" ((s.port port).state == 2) s fun s => s.endRound tag 4 0xFF 0

/-- The running rounds whose windows use a port. -/
def State.tagsOn (s : State) (port : PortId) : List (BitVec 8) :=
  ((s.dies[portDie port]).rounds.filter fun r => r.wins.any fun w => w.port = (portNo port).val).map (·.tag)

/-- The tags under which transfers have come in over a port. -/
def State.tagsFrom (s : State) (port : PortId) : List (BitVec 8) := ((s.landed ++ s.waiting).filter fun x => x.port = port).map (·.tag)

/-- A port fails (R308, R319): the running rounds that use it end, those whose windows send on it and those that the far end sends over it, as far as
blocks have come in, or of these tags. -/
def State.failPort (s : State) (port : PortId) (tags : List (BitVec 8)) : State :=
  ((s.tagsOn port ++ (s.tagsFrom port ++ tags).filter s.runsTag).eraseDups).foldl (fun s t => s.endRound t 5 0xFF 0)
    (s.updPort port fun p => { p with state := 3, aln := false })

/-- PORT_FAILURE (R308, R319): a port loses lock. -/
def execPortFailure (x : PortLoss) (s : State) : Outcome State Fault Refusal :=
  event "PORT_FAILURE" ((s.port x.port).state == 1 || (s.port x.port).state == 2) s fun s => s.failPort x.port x.tags

/-- PORT_RETRAINING (R307, R308, R397): trained at bring-up, or back in service, perhaps with another latency; training tells what the far end is. -/
def execPortRetraining (port : PortId) (x : Training) (s : State) : Outcome State Fault Refusal :=
  event "PORT_RETRAINING" ((s.port port).state == 1 || (s.port port).state == 3) s fun s =>
    s.updPort port fun p => { p with state := 2, aln := true, linklat := x.lat, peerid := some x.id, peermem := x.member, peerport := x.far }

/-- PORT_STATUS_READ (R307): the counters clear. -/
def execPortStatusRead (port : PortId) (s : State) : Outcome State Fault Refusal :=
  .next (s.updPort port fun p => { p with fecc := 0, unc := 0, baddst := 0 })

/-- What a read of the port status register returns (R307). -/
def Port.status (p : Port) : Word :=
  mkWord [(p.fecc.toNat, 48), (p.unc.toNat, 40), (p.baddst.toNat, 32), (p.peermem.toNat, 24), (p.peerport.toNat, 19), (p.state.toNat, 17),
    (if p.aln then 1 else 0, 16), (p.linklat.toNat, 0)]

-- stamps (R308–R310)

/-- The LE, aligned in this epoch, aligns a core of its die that has handed off an ALIGN 0 (R310). -/
def alignDue (s : State) (c : CoreId) : Bool := (s.cores[c]).alignAsk && !(s.cores[c]).aligned && (s.dies[dieOf c]).aligned

/-- A stamp reaches an LE over a port that is up, in a package that is in a group or has its GRANT; or the LE's own count reaches a core. -/
def stampDue (s : State) (c : CoreId) (x : CountStamp) : Bool :=
  match x.port with
  | some p => ((s.dies[dieOf c]).ports[p]).state == 2 && (isMember s.pmc.cfl || s.pmc.cfl.granted.isSome)
  | none => alignDue s c && x.count == BitVec.ofNat 64 (s.leGcnt (dieOf c))

/-- A core's count goes k ticks forward, or is held for at most 2 (R309). -/
def Core.correct (c : Core) (k : Int) : Core := if 0 ≤ k then { c with gskew := c.gskew + k } else { c with ghold := min (-k).toNat 2 }

/-- An LE's count goes k ticks forward, or is held for at most 2; it is aligned. -/
def Die.correct (d : Die) (k : Int) : Die :=
  if 0 ≤ k then { d with lskew := d.lskew + k, aligned := true } else { d with lhold := min (-k).toNat 2, aligned := true }

/-- A die whose LE follows a stamp that die d gets: d, and the dies that no stamp can reach, none of their ports being up. -/
def State.follows (s : State) (d e : DieId) : Bool := e == d || (s.dies[e]).ports.toList.all fun p => p.state != 2

/-- The group's count reaches the LE of a die: its LE, those that follow it, and every core of their dies count as the group does. -/
def State.stamped (s : State) (d : DieId) (n : Nat) : State :=
  { s with groupSkew := (n : Int) - s.gcnt.toNat,
           dies := Vector.ofFn fun e => if s.follows d e then (s.dies[e]).correct ((n : Int) - s.leGcnt e) else s.dies[e],
           cores := Vector.ofFn fun c => if s.follows d (dieOf c) then (s.cores[c]).correct ((n : Int) - (s.coreGcnt c).toNat) else s.cores[c] }

/-- COUNTER_STAMP (R308–R310): a stamp more than 2 ticks from the LE's count takes its port out of service; any other corrects the LE and the cores of
its die. An LE's own count corrects one core. -/
def execCounterStamp (c : CoreId) (x : CountStamp) (s : State) : Outcome State Fault Refusal :=
  event "COUNTER_STAMP" (stampDue s c x) s fun s =>
    let n := x.count.toNat
    match x.port with
    | none => s.updCore c fun y => { y.correct ((n : Int) - (s.coreGcnt c).toNat) with aligned := true, alignAsk := false }
    | some p =>
      let d := dieOf c
      let port : PortId := Fin.ofNat 24 (6 * d.val + p.val)
      if n ≤ s.leGcnt d + 2 && s.leGcnt d ≤ n + 2 then (s.updPort port fun y => { y with aln := true }).stamped d n
      else s.failPort port []

end Sys2Proof.Machine
end

