-- ==== Sys2Proof/Machine/Confluence.lean ====
section
/-!
DEFINITION. Confluence and power (R303, R326–R339): posts, changes of the ceiling and their handshake, loss, joining and leaving, the sensors and
the local limit.
-/
namespace Sys2Proof.Machine

open Host

-- posts (R327, R329)

/-- The effect tick of a notice sent at s (R329). -/
def effectTick (s lead : Nat) : Nat := (s + lead + 4095) / 4096 * 4096

/-- This member's post now. -/
def State.ownPost (s : State) (notice : Option (Nat × Nat)) (join : Option Join) (leave : Bool) : Post :=
  let g := s.pmc.cfl
  { member := g.self, epoch := g.epoch.toNat, limit := g.limit, tick := s.gcnt.toNat, notice := notice, join := join, leave := leave }

/-- Posts kept for raise windows: those of the last million ticks. -/
def keepPosts (now : Nat) (ps : List Post) : List Post := ps.filter fun p => now < p.tick + 1000000

/-- Some port is trained: a post leaves. -/
def State.linked (s : State) : Bool := s.dies.toList.any fun d => d.ports.toList.any fun p => p.state == 2

/-- A post goes out on every trained port, and is this member's own latest; a JOIN is none of a member's posts. -/
def State.post (s : State) (p : Post) : State :=
  let s := if s.linked then { s with posted := s.posted ++ [p] } else s
  if p.join.isSome then s
  else s.updConfl fun g =>
    { g with posts := keepPosts s.gcnt.toNat g.posts ++ [p],
             notices := p.notice.toList ++ g.notices, own := p.notice.toList ++ g.own }

/-- The last tick, up to t, at which member m posts: a multiple of 10,000 plus 10·m (R327). -/
def postSlot (m t : Nat) : Nat := if t < 10 * m then 0 else (t - 10 * m) / 10000 * 10000 + 10 * m

/-- The joiner is to post under its new number: it has its GRANT and is aligned. The spec does not say how the members come to know both; here they
know by this post (DESIGN CHOICE, log 100). -/
def readyDue (s : State) : Bool := isJoining s.pmc.cfl && s.pmc.cfl.granted.isSome && !s.pmc.cfl.said && s.allAligned

/-- A periodic post is due (R327); a package in no group posts as the one member of its own (R326). -/
def postDue (s : State) : Bool :=
  let g := s.pmc.cfl
  readyDue s || (!isJoining g && decide (g.lastPost < postSlot g.self s.gcnt.toNat))

/-- CONFLUENCE_POST (R327). -/
def execConfluencePost (s : State) : Outcome State Fault Refusal :=
  event "CONFLUENCE_POST" (postDue s) s fun s =>
    if isJoining s.pmc.cfl then (s.post (s.ownPost none none false)).updConfl fun g => { g with said := true }
    else
      let t := postSlot s.pmc.cfl.self s.gcnt.toNat
      (s.post { s.ownPost none none false with tick := t }).updConfl fun g => { g with lastPost := t }

/-- Least number that no live member and no other joiner has (R326). -/
def Confl.freeNumber (g : Confl) (id : Nat) : Option Nat :=
  let used := g.self :: g.members.map (·.1) ++ ((g.joiners.filter fun j => j.join.joiner != id).map (·.number))
  (List.range 64).find? fun n => !used.contains n

/-- A JOIN at a live member: refused where its values differ from the group's or there is no number; else remembered, with its GRANT where this is
the lowest-numbered live member linked to the joiner (R328, R335). -/
def takeJoin (s : State) (p : Post) (j : Join) : State :=
  let g := s.pmc.cfl
  let live := g.self :: g.members.map (·.1)
  match g.freeNumber j.joiner with
  | none => s
  | some n =>
    if isMember g && j.group == fld s.pmc.cflcfg 63 56 && j.tsil == s.pmc.tsil && 1000 * j.lead == s.pmc.leadTicks then
      let old := g.joiners.find? fun x => x.join.joiner = j.joiner
      let number := (old.map (·.number)).getD n
      let x : Joiner := ⟨j, p.limit, s.gcnt.toNat, number, false, [], []⟩
      let s := s.updConfl fun g => { g with joiners := (g.joiners.filter fun y => y.join.joiner != j.joiner) ++ [x] }
      if (j.linked.filter live.contains).min? = some g.self then
        { s with grants := s.grants ++ [⟨j.joiner, s.ceiling, g.epoch.toNat, number, s.gcnt.toNat⟩] }
      else s
    else s

/-- A post of a joiner under its number: its limit, and what counts once it is admitted. -/
def Joiner.takes (j : Joiner) (now : Nat) (p : Post) : Joiner :=
  { j with ready := true, limit := p.limit, posts := keepPosts now j.posts ++ [p], notices := p.notice.toList ++ j.notices }

/-- A post of a live member of this epoch or of one in which it was a member already, or of a joiner under its number (R334, R335); others, such as
those of members declared lost, count for nothing. -/
def takePost (s : State) (p : Post) : State :=
  let t := s.gcnt.toNat
  s.updConfl fun g =>
    match g.members.find? fun m => m.1 = p.member with
    | some (_, q) =>
      if q.epoch ≤ p.epoch || p.epoch + 32768 < q.epoch then
        { g with posts := keepPosts t g.posts ++ [p], notices := p.notice.toList ++ g.notices,
                 leavers := if p.leave then (p.member :: g.leavers).eraseDups else g.leavers,
                 members := if q.tick < p.tick then g.members.map (fun m => if m.1 = p.member then (m.1, p) else m) else g.members }
      else g
    | none => { g with joiners := g.joiners.map fun j => if j.number = p.member then j.takes t p else j }

/-- POST_RECEIVED (R327, R329, R334, R335): the sender's latest post, its notice, JOIN or LEAVE; forwarded over the other ports. -/
def execPostReceived (p : Post) (s : State) : Outcome State Fault Refusal :=
  event "POST_RECEIVED" (p.member != s.pmc.cfl.self || p.join.isSome) s fun s =>
    if s.posted.contains p then s
    else
      let s := { s with posted := s.posted ++ [p] }
      match p.join with
      | some j => takeJoin s p j
      | none => if isMember s.pmc.cfl || s.pmc.cfl.granted.isSome then takePost s p else s

-- changes of the ceiling (R329–R331)

/-- Lowering notices whose effect tick has come and has not been acted on. -/
def Confl.ripe (g : Confl) (t : Nat) : List (Nat × Nat) := g.notices.filter fun n => n.2 ≤ t && decide (g.lastEff < n.2)

/-- No handshake is under way, and a notice has reached its effect tick. -/
def clockDue (s : State) : Bool := s.shake.isNone && !(s.pmc.cfl.ripe s.gcnt.toNat).isEmpty

/-- A handshake begins: until T + 2,048, then code c (R330). The windows that it meets move (R317). -/
def State.beginShake (s : State) (T c : Nat) : State := { s.shiftRounds T with shake := some (T + 2048, c) }

/-- Equal effect ticks make one change, to the least code and C; this member's own notices of that tick set its posted limit. A notice stays pending
until 2,048 ticks after (R329). -/
def applyNotices (s : State) : State :=
  let t := s.gcnt.toNat
  let ripe := s.pmc.cfl.ripe t
  let T := ripe.foldl (fun m n => min m n.2) ((ripe.headD (0, t)).2)
  let code := (ripe.filter fun n => n.2 = T).foldl (fun m n => min m n.1) s.ceiling
  let s := s.updConfl fun g =>
    { g with notices := g.notices.filter (fun n => t < n.2 + 2048), lastEff := T,
             limit := (g.own.filter fun n => n.2 ≤ T).foldl (fun m n => min m n.1) g.limit,
             own := g.own.filter (fun n => T < n.2),
             emerg := match g.emerg with | some e => if e.2.1 ≤ T then none else g.emerg | none => none }
  if code < s.ceiling then s.beginShake T code else s

/-- CLOCK_CHANGE_EFFECT (R329, R330, R317). -/
def execClockChangeEffect (s : State) : Outcome State Fault Refusal :=
  event "CLOCK_CHANGE_EFFECT" (clockDue s) s fun s => applyNotices s

def shakeEndDue (s : State) : Bool := match s.shake with | some (t, _) => t ≤ s.gcnt.toNat | none => false

/-- The handshake ends: the new code, and the cycles that it took of CCNT and FRZCNT (R330). The part of a tick that has passed stands in units of
the new clock, rounded down (log 81). -/
def endShake (s : State) : State :=
  match s.shake with
  | none => s
  | some (_, c) =>
    let n := 2048 * (2400 + 100 * s.ceiling) / 8000
    { s with shake := none, ceiling := c, frac := s.frac * (24 + c) / (24 + s.ceiling),
             cores := s.cores.map fun x =>
               let x := { x with ccnt := x.ccnt + BitVec.ofNat 64 n }
               if x.run = .idle then x else x.onSpr fun y => { y with frzcnt := y.frzcnt + BitVec.ofNat 64 n } }

/-- HANDSHAKE_END (R330). -/
def execHandshakeEnd (s : State) : Outcome State Fault Refusal := event "HANDSHAKE_END" (shakeEndDue s) s endShake

/-- A raise window is reached (R331, R335). -/
def raiseDue (s : State) : Bool := decide (s.pmc.cfl.lastWin < s.gcnt.toNat / 1000000)

/-- Counts have to be aligned anew (R309). -/
def State.newEpoch (s : State) : State :=
  { s with dies := s.dies.map (fun d => { d with aligned := false }), cores := s.cores.map fun c => { c with aligned := false } }

/-- Every port of the package changes. -/
def State.mapPorts (s : State) (f : Port → Port) : State := { s with dies := s.dies.map fun d => { d with ports := d.ports.map f } }

/-- These members are no members any more: PEERMEM of the ports that lead to them (R307). -/
def State.unlink (s : State) (ms : List Nat) : State := s.mapPorts fun p => if ms.contains p.peermem.toNat then { p with peermem := 0xFF } else p

/-- The tags of running rounds that use a port that leads to one of these members: with a window on it, or with blocks that have come in over it. -/
def State.roundsTo (s : State) (ms : List Nat) : List (BitVec 8) :=
  (((List.finRange 24).filter fun p => ms.contains (s.port p).peermem.toNat).flatMap fun p => s.tagsOn p ++ (s.tagsFrom p).filter s.runsTag).eraseDups

/-- A leaver's rounds: a notice goes out on the ports of each, once per tag (R319, R335). -/
def State.leaveRounds (s : State) : State :=
  ((s.dies.toList.flatMap fun d => d.rounds.map (·.tag)).eraseDups).foldl (fun s t =>
    if s.noticed.contains t then s else { s with noticed := t :: s.noticed, notices := s.notices ++ (s.roundPorts t).map fun p => (p, t) }) s

/-- The membership changes at W. The rounds of leavers end at the others with kind 4; PEERMEM follows (R307, R335). -/
def changeMembers (s : State) (W : Nat) : State :=
  let leaves := s.pmc.cfl.state == 3
  let gone := if leaves then [] else s.pmc.cfl.leavers
  let new := s.admitted W
  let t := s.updConfl fun _ => s.regroup W
  let t := if t.pmc.cfl.epoch != s.pmc.cfl.epoch then t.newEpoch else t
  let t := if leaves then t.leaveRounds else (s.roundsTo gone).foldl (fun t x => t.endRound x 4 0xFF 0) t
  new.foldl (fun (t : State) j => t.mapPorts fun p => if p.peerid = some j.join.joiner then { p with peermem := BitVec.ofNat 8 j.number } else p) (t.unlink gone)

/-- At a raise window the membership changes, an admitted joiner's limit lowers C, and C may rise where no notice is pending (R331, R335). -/
def raiseWindow (s : State) : State :=
  let W := s.gcnt.toNat / 1000000 * 1000000
  let t := (changeMembers s W).updConfl fun g => { g with lastWin := W / 1000000 }
  match s.windowCode W with
  | some c => t.beginShake W c
  | none => t

/-- RAISE_WINDOW (R331, R335). -/
def execRaiseWindow (s : State) : Outcome State Fault Refusal := event "RAISE_WINDOW" (raiseDue s) s raiseWindow

-- loss (R303, R334)

/-- Tags under which blocks have come in though no round of them runs here. Whether the far end's round was still running is not to be seen here: a free
choice for each (log 60). -/
def State.farTags (s : State) : List (BitVec 8) :=
  ((((s.landed ++ s.waiting).map (·.tag)).eraseDups.filter fun t => !s.runsTag t && !s.aborted.contains t).zipIdx.filter fun x =>
    Config.freeBool (s.draws + x.2)).map (·.1)

/-- Members are lost at tick T: they leave the group, no window of any round opens from T on, the destination buffers of the ended rounds hold
undefined values, and every core that runs a task of a member takes the one trap. One that has lost all others goes on as a group of one (R303,
R334, R335). -/
def loseMembers (s : State) (T : Nat) : State :=
  let g := s.pmc.cfl
  let lost := (g.members.filter fun m => lossTick s.pmc m = T).map (·.1)
  let left := g.members.filter fun m => lossTick s.pmc m != T
  let bits := lost.foldl (fun (w : Word) m => w ||| BitVec.ofNat 64 (2 ^ m)) 0
  let tags := (s.dies.toList.flatMap fun d => d.rounds.map (·.tag)).eraseDups ++ s.farTags
  let s := (s.updConfl fun g =>
    { g with members := left, epoch := g.epoch + 1, lostCnt := g.lostCnt + lost.length, state := if left.isEmpty then 2 else g.state,
             posts := g.posts.filter (fun p => !lost.contains p.member), leavers := g.leavers.filter fun m => !lost.contains m }).newEpoch
  let s := (({ s with draws := s.draws + 256 } : State).spoilRounds tags).unlink lost
  { s with dies := s.dies.map (fun d => { d with rounds := [] }), spoiled := (tags ++ s.spoiled).eraseDups,
           cores := s.cores.map fun x => if x.run = .idle || !isMember g then x else x.reqImp ⟨0x0E, BitVec.ofNat 64 T, bits, none, none⟩ }

/-- MEMBER_LOST (R303, R334, R335). -/
def execMemberLost (s : State) : Outcome State Fault Refusal :=
  event "MEMBER_LOST" (firstLoss s).isSome s fun s => match firstLoss s with | some T => loseMembers s T | none => s

-- joining and leaving (R335)

/-- The members that this package's trained ports lead to (R307). -/
def State.peers (s : State) : List Nat :=
  (((List.finRange 24).filter fun p => (s.port p).state == 2 && decide ((s.port p).peermem.toNat < 64)).map fun p => (s.port p).peermem.toNat).eraseDups

/-- A JOIN goes out, with the local limit. -/
def State.postJoin (s : State) (n : Nat) : State :=
  let j : Join := ⟨fld s.pmc.cflcfg 63 56, s.pmc.tsil, fld s.pmc.cflcfg 41 32, Config.packageId, s.peers⟩
  (s.post { s.ownPost none (some j) false with limit := s.pmc.cfl.found }).updConfl fun g => { g with state := 1, joinAt := some s.gcnt.toNat, joinTry := n, granted := none, said := false }

/-- A host write of CFLCFG: its values, then JOIN where DETACHED, LEAVE where MEMBER (R328, R335). -/
def State.writeCflcfg (s : State) (v : Word) : State :=
  let s := s.updPmc fun p => p.writeCflcfg v
  if v.getLsbD 0 && isDetached s.pmc.cfl then s.postJoin 1
  else if v.getLsbD 1 && s.pmc.cfl.state == 2 then (s.post (s.ownPost none none true)).updConfl fun g => { g with state := 3 }
  else s

/-- CFLCFG_JOIN: a host write of CFLCFG with JOIN set. -/
def execCflcfgJoin (v : BitVec 64) (s : State) : Outcome State Fault Refusal :=
  event "CFLCFG_JOIN" (v.getLsbD 0) s fun s => s.writeCflcfg v

/-- CFLCFG_LEAVE: a host write of CFLCFG with LEAVE set. -/
def execCflcfgLeave (v : BitVec 64) (s : State) : Outcome State Fault Refusal :=
  event "CFLCFG_LEAVE" (v.getLsbD 1) s fun s => s.writeCflcfg v

/-- GRANT_RECEIVED (R335): the clock by a local handshake, the group's count, the member number. -/
def execGrantReceived (code : Nat) (epoch : Nat) (member : Nat) (stamp : BitVec 64) (members : List Post) (s : State) :
    Outcome State Fault Refusal :=
  event "GRANT_RECEIVED" (s.pmc.cfl.state == 1) s fun s =>
    let now := if s.gcnt.toNat < stamp.toNat then stamp else s.gcnt
    let s := { s with gcnt := now, groupSkew := (stamp.toNat : Int) - now.toNat }
    let s := (s.updConfl fun g =>
      { g with granted := some s.gcnt.toNat, said := false, epoch := BitVec.ofNat 16 epoch, self := member % 64,
               members := members.map fun p => (p.member, p), lastWin := s.gcnt.toNat / 1000000,
               posts := members, notices := g.notices ++ members.filterMap (·.notice), joinAt := none }).newEpoch
    s.beginShake s.gcnt.toNat (min code s.pmc.cfl.limit)

def joinLate (s : State) : Bool := s.pmc.cfl.state == 1 && (match s.pmc.cfl.joinAt with | some t => t + 1000000 ≤ s.gcnt.toNat | none => false)

/-- An event to every enabled partition (R368). -/
def postAll (s : State) (ty : Nat) (data : List Word) : State :=
  (List.finRange 12).foldl (fun s p => if (s.parts[p]).en then postEvent s p ty 0 data else s) s

/-- JOIN_TIMEOUT (R335): tried again, or given up after the third. -/
def execJoinTimeout (s : State) : Outcome State Fault Refusal :=
  event "JOIN_TIMEOUT" (joinLate s) s fun s =>
    if s.pmc.cfl.joinTry < 3 then s.postJoin (s.pmc.cfl.joinTry + 1)
    else postAll (s.updConfl fun g => { g with state := 0, joinAt := none, joinTry := 0 }) 6 []

-- sensors (R337–R339): readings of the last eight samples, newest first

/-- Reading i of a die: 0–15 thermal in °C, 16–21 current in mA. -/
def senseAt (x : Sensors) (die i : Nat) : Int :=
  if i < 16 then (x.thermal.getD die []).getD i 0 else (((x.current.getD die []).getD (i - 16) 0 : Nat) : Int)
def senseLim (x : Sensors) (die i : Nat) : Int := (((x.limits.getD die []).getD (i - 16) 0 : Nat) : Int)

/-- The neighbours of a sensor (R338). -/
def neighbours (i : Nat) : List Nat :=
  if i < 16 then
    (if 4 ≤ i then [i - 4] else []) ++ (if i % 4 != 0 then [i - 1] else []) ++ (if i % 4 != 3 then [i + 1] else []) ++ (if i < 12 then [i + 4] else [])
  else if i < 20 then [16, 17, 18, 19].filter fun k => k != i
  else []

def insertInt (x : Int) : List Int → List Int
  | [] => [x]
  | y :: r => if x ≤ y then x :: y :: r else y :: insertInt x r
def sortInts (xs : List Int) : List Int := xs.foldr insertInt []

/-- Twice the median (R338). -/
def median2 (xs : List Int) : Int :=
  let s := sortInts xs
  let n := s.length
  if n % 2 = 1 then 2 * s.getD (n / 2) 0 else s.getD (n / 2 - 1) 0 + s.getD (n / 2) 0

def Int.abs' (x : Int) : Int := if x < 0 then -x else x

/-- A sensor fails a test of R338 on its last samples; `healthy` are its neighbours not now suspect. -/
def sensorFails (xs : List Sensors) (die i : Nat) (healthy : List Nat) : Bool :=
  let mine := xs.map fun x => senseAt x die i
  let hot := i < 16
  let moved := fun (k : Nat) =>
    let ys := xs.map fun x => senseAt x die k
    let lo := ys.foldl min (ys.headD 0)
    let hi := ys.foldl max (ys.headD 0)
    if hot then decide (1 ≤ hi - lo) else decide (lo * 2 ≤ (hi - lo) * 100 ∧ lo < hi)
  let stuck := decide (8 ≤ xs.length) && mine.all (fun v => v == mine.headD 0) && healthy.any moved
  let out := xs.any fun x =>
    let v := senseAt x die i
    if hot then decide (v < -40 ∨ 150 < v) else decide (v < 0 ∨ 3 * senseLim x die i < 2 * v)
  let far := decide (8 ≤ xs.length) && !healthy.isEmpty && xs.all fun x =>
    let m := median2 (healthy.map fun k => senseAt x die k)
    let d := Int.abs' (2 * senseAt x die i - m)
    if hot then decide (20 < d) else decide (15 * m < 100 * d)
  stuck || out || far

/-- The value used for a sensor, times 20; none where it is suspect without a healthy neighbour (R338). -/
def sensorValue (x : Sensors) (suspect : List (Nat × Nat)) (die i : Nat) : Option Int :=
  if suspect.contains (die, i) then
    match (neighbours i).filter fun k => !suspect.contains (die, k) with
    | [] => none
    | ys => let m := (ys.map fun k => senseAt x die k).foldl max (senseAt x die (ys.headD 0))
      some (if i < 16 then 20 * (m + 5) else 21 * m)
  else some (20 * senseAt x die i)

/-- The largest code whose current or power, scaled from the present one, stays within a limit (R337); 0 if none. -/
def largestCode (now value lim : Int) : Nat :=
  ((List.range 73).filter fun (c : Nat) => decide (value * (24 + (c : Int)) ≤ lim * (24 + now))).foldl max 0

/-- The code of one sensor. -/
def sensorCode (floor ceiling : Nat) (x : Sensors) (suspect : List (Nat × Nat)) (die i : Nat) : Nat :=
  match sensorValue x suspect die i with
  | none => floor
  | some v =>
    if i < 16 then (if v ≤ 1900 then 72 else 72 - (4 * ((v - 1900 + 19) / 20)).toNat)
    else largestCode ceiling v (20 * senseLim x die i)

/-- The power budget of the package: 2,600 W, or what firmware lowers it to (R337). -/
def powerLimit (x : Sensors) : Nat := min 2600000 x.budget

/-- The local limit of a sample (R337). -/
def localLimit (p : Pmc) (ceiling : Nat) (x : Sensors) (suspect : List (Nat × Nat)) : Nat :=
  let all := (List.range 4).flatMap fun d => (List.range 22).map fun i => sensorCode p.floor ceiling x suspect d i
  let c := min (all.foldl min p.cap) (largestCode ceiling x.power (powerLimit x))
  max p.floor c

/-- An emergency threshold is reached (R337). -/
def emergency (x : Sensors) (suspect : List (Nat × Nat)) : Bool :=
  decide (11 * powerLimit x < 10 * x.power) || (List.range 4).any fun d => (List.range 22).any fun i =>
    match sensorValue x suspect d i with
    | none => false
    | some v => if i < 16 then decide (2100 ≤ v) else decide (11 * (20 * senseLim x d i) < 10 * v)

/-- The suspects after a sample, and the passes in a row of those that recover after 64 (R338). -/
def newSuspects (p : Pmc) (xs : List Sensors) : List (Nat × Nat) × List (Nat × Nat × Nat) :=
  let ids := (List.range 4).flatMap fun d => (List.range 22).map fun i => (d, i)
  let r := ids.map fun (k : Nat × Nat) =>
    let healthy := (neighbours k.2).filter fun j => !p.suspect.contains (k.1, j)
    let bad := sensorFails xs k.1 k.2 healthy
    let was := p.suspect.contains k
    let n := ((p.good.find? fun g => (g.1, g.2.1) = k).map (·.2.2)).getD 0
    let n' := if bad then 0 else n + 1
    (k, bad || (was && n' < 64), n')
  ((r.filter (·.2.1)).map (·.1), (r.filter fun x => x.2.1 && x.2.2 != 0).map fun x => (x.1.1, x.1.2, x.2.2))

/-- The code a member has posted or is bound for by its own pending notices. -/
def Confl.bound (g : Confl) : Nat := g.own.foldl (fun m n => min m n.1) g.limit

/-- Emergency duty follows this member's lowest pending notice until its effect tick, from the cycle after the one that detected the condition; a
second emergency goes on from the first (R332). -/
def Confl.duty (g : Confl) (now : Nat) : Confl :=
  match g.own.find? fun n => n.1 = g.bound with
  | some n => { g with emerg := some (n.1, n.2, match g.emerg with | some e => e.2.2 | none => now) }
  | none => g

/-- SPLIT for the next sample, from the cycles that the limiter froze in this one (R343). -/
def Core.adjustSplit (c : Core) : Core :=
  let low := if 20 * c.limFrz < c.limCyc then c.limLow + 1 else 0
  let next : BitVec 2 :=
    if c.limCyc < 4 * c.limFrz && c.splitTo != 2 then c.splitTo + 1
    else if 8 ≤ low && c.splitTo != 0 then c.splitTo - 1 else c.splitTo
  { c with limFrz := 0, limCyc := 0, limLow := if 8 ≤ low then 0 else low, splitTo := next }

/-- The posts of a sample: a notice where the local limit has fallen, a raise after eight samples, and one for any other change (R327, R337, R339). -/
def postSample (s : State) (L : Nat) (rise : Nat) (changed : Bool) : State :=
  let g := s.pmc.cfl
  if L < g.bound then s.post (s.ownPost (some (L, effectTick s.gcnt.toNat s.pmc.leadTicks)) none false)
  else if 8 ≤ rise then
    let s := s.updConfl fun g => { g with limit := L }
    s.post (s.ownPost none none false)
  else if changed then s.post (s.ownPost none none false)
  else s

/-- SENSOR_SAMPLE (R332, R337–R339, R343): every change of a sensor or of the local limit is an event of its own. -/
def execSensorSample (x : Sensors) (s : State) : Outcome State Fault Refusal :=
  event "SENSOR_SAMPLE" (s.pmc.nextSample ≤ s.gcnt.toNat) s fun s =>
    let p := s.pmc
    let xs := (x :: p.samples).take 8
    let r := newSuspects p xs
    let L := localLimit p s.ceiling x r.1
    let changes := (r.1.filter fun k => !p.suspect.contains k).length + (p.suspect.filter fun k => !r.1.contains k).length +
      (if L = p.cfl.found then 0 else 1)
    let rise := if p.cfl.limit + 2 ≤ L then p.cfl.rise + 1 else 0
    let s := s.updPmc fun p =>
      { p with samples := xs, suspect := r.1, good := r.2, nextSample := (s.gcnt.toNat / 10000 + 1) * 10000,
               cfl := { p.cfl with rise := if 8 ≤ rise then 0 else rise, found := L } }
    let s := { s with cores := s.cores.map Core.adjustSplit }
    let s := postSample s L rise (changes != 0)
    let s := if emergency x r.1 then s.updConfl fun g => g.duty s.now else s
    (List.range changes).foldl (fun s _ => postAll s 5 []) s

/-- A cycle is frozen under emergency duty: cycle i of a group of 64, until the effect tick (R332). -/
def State.emergFreeze (s : State) (ccnt : Word) : Bool :=
  match s.pmc.cfl.emerg with
  | none => false
  | some (new, T, from_) =>
    let k := 64 - 64 * (24 + new) / (24 + s.ceiling)
    let i := ccnt.toNat % 64
    decide (from_ < s.now) && decide (s.gcnt.toNat < T) && decide (i * k / 64 < (i + 1) * k / 64)

end Sys2Proof.Machine
end

