-- ==== Sys2Proof/Machine/TaskEvents.lean ====
section
/-!
DEFINITION. Launch, start, preload, pre-emption, resumption and end of tasks (R77, R344–R356, R360), a failed die-to-die link (R362), and
the host message queues (R365, R367, R368).
-/
namespace Sys2Proof.Machine

open Host

-- a partition's memory as its page tables map it (R345, R346, R363)

/-- The place of a virtual address of a partition. -/
def State.virtPlace (s : State) (p : PartId) (va : Nat) : Option Place :=
  let w := s.walkFrom p (va / 65536 * 65536) 3 1 (s.parts[p]).ptroot.toNat
  if !leafOk w then none
  else match leafKind w with
    | 0 => (s.hbmPlace p (leafFrame w + va % 65536)).map fun x => .hbm x.1 x.2
    | 1 => some (.host (leafFrame w + va % 65536))
    | 2 => some (syePlace p.val w (va % 65536))
    | _ => some (.letable (leafDie w) (va % 65536))

/-- n bytes at a virtual address; one that cannot be read comes as a poisoned zero (log 40). -/
def State.virtBytes (s : State) (p : PartId) (va n : Nat) : List (Byte × Bool) :=
  (List.range n).map fun i =>
    match s.virtPlace p ((va + i) % 2 ^ 48) with
    | some l => let d := s.getPlace l l.addr 1; (d.1.headD 0, d.2)
    | none => (0, true)

/-- Rows of HBM that such a read activates: those of the tables, and those of the bytes (R376). -/
def State.virtRows (s : State) (p : PartId) (va n : Nat) : List (Nat × Nat) :=
  ((((List.range n).map fun i => (va + i) % 2 ^ 48 / 65536).eraseDups).flatMap fun page => s.walkReads p (page * 65536) 3 1 (s.parts[p]).ptroot.toNat) ++
    (List.range n).filterMap fun i => match s.virtPlace p ((va + i) % 2 ^ 48) with | some (.hbm k a) => some (k, a) | _ => none

def State.virtRead (s : State) (p : PartId) (va n : Nat) : State := s.activateAll (s.virtRows p va n)

-- launch (R344, R345)

/-- One entry of a start-vector table: skipped, refused with an event, or queued. -/
def launchEntry (p : PartId) (table : Nat) (s : State) (c : CoreId) : State :=
  let bs := s.virtBytes p (table + 256 * c.val) 256
  let s := s.virtRead p (table + 256 * c.val) 256
  let ws := (List.range 32).map fun i => BitVec.ofNat 64 (leNat (((bs.drop (8 * i)).take 8).map (·.1)))
  if bs.any (·.2) || !(ws.getD 0 0).getLsbD 62 then s
  else match refusal ws (s.partOf c == some p) ((s.parts[p]).pctl.getLsbD 62) (s.cores[c]).queueFull with
    | some r => postEvent s p 1 c.val [BitVec.ofNat 64 r]
    | none => enqueue s c ws []

/-- LAUNCH (R345): the whole table is read at once; ignored while the partition resets (R389) or does not exist. -/
def execLaunch (p : PartId) (v : BitVec 64) (s : State) : Outcome State Fault Refusal :=
  let x := s.parts[p]
  if !x.en || x.resetEnd.isSome then .next s
  else
    let s := s.updPart p fun x => { x with launch := v &&& 0xFFFFFFFFFFFFFF00 }
    .next (if v.getLsbD 0 then (List.finRange 96).foldl (launchEntry p (fldUp v 63 8 8)) s else s)

-- a task's start (R22, R95, R150, R344, R346)

/-- RNGKEY at a task's start (R93, R150). -/
def startKey (s : State) (c : CoreId) : Word :=
  mix (BitVec.ofNat 64 (0x4A58000000000000 + 256 * (match s.partOf c with | some p => p.val | none => 0) + c.val))

/-- The core's rank in its partition (R346). -/
def State.rank (s : State) (c : CoreId) : Nat :=
  match s.partOf c with | some p => ((s.coresOf p).filter fun x => decide (x.val < c.val)).length | none => 0

/-- A tag table with its slots as a task that starts finds them (R196). -/
def freshTags (w : Word) : TagTable := ⟨w, List.replicate (2 ^ fld w 35 32) ⟨0, false, false, false⟩, List.replicate (TagTable.sets ⟨w, [], []⟩) 0⟩

/-- A tag table as a start vector configures it (R196); the tags of a table that the task does not have stay in place (R354). -/
def startTags (standing : TagTable) (w : Word) : TagTable := if w.getLsbD 63 then freshTags w else { standing with conf := w }

/-- A tag table of a resumed task whose tags were not saved: those that stand in the core, as far as its configuration reads them (R354). -/
def TagTable.inPlace (standing own : TagTable) : TagTable :=
  if standing.slots.length = own.slots.length ∧ standing.victim.length = own.victim.length then { standing with conf := own.conf }
  else if own.conf.getLsbD 63 then freshTags own.conf else own

/-- The registers of a task that starts (R95, R346). -/
def startRegs (s : State) (c : CoreId) (ws : List Word) : File 6 Word :=
  Vector.ofFn fun (i : Fin (2 ^ 6)) =>
    if 1 ≤ i.val ∧ i.val ≤ 8 then ws.getD (7 + i.val) 0
    else if i.val = 9 then BitVec.ofNat 64 c.val
    else if i.val = 10 then BitVec.ofNat 64 (s.rank c)
    else 0

/-- TBUDGET as a turn starts with it (R346, R350). -/
def startBudget (ws : List Word) : Word := if ws.getD 1 0 = 0 then BitVec.allOnes 64 else ws.getD 1 0

def startDoms (ws : List Word) : Vector Word 6 := Vector.ofFn fun (i : Fin 6) => ws.getD (20 + i.val) 0

/-- The special registers of a task that starts (R93, R346). -/
def startSprs (s : State) (c : CoreId) (ws : List Word) : Sprs :=
  { Sprs.initial with
    rngkey := startKey s c, taskinfo := ws.getD 0 0 &&& 0x800000003FFFFFFF, tbudget := startBudget ws, pw := ws.getD 2 0,
    policy := BitVec.ofNat 12 (lw ws 4 11 0), dom := startDoms ws }

def claimsAf (ws : List Word) : Bool := lw ws 3 63 63 = 1
def claimsMxe (ws : List Word) : Bool := lw ws 3 62 62 = 1

/-- The tag tables that a start vector claims. -/
def claimedTags (ws : List Word) : List Nat := (List.range 4).filter fun i => lw ws 3 61 58 / 2 ^ i % 2 = 1

/-- The matrix engine of a task that starts: no operation, no batch; the weights of one that does not claim it stay in place (R354). -/
def startMxe (m : Mxe) (ws : List Word) : Mxe :=
  { Mxe.empty with latched := if claimsMxe ws then Latched.none else m.latched,
                   bands := m.bands.map fun b => match b with | .rising t => Band.rising t | _ => Band.on }

/-- The context in which a task first starts (R346 steps 2 and 3). -/
def startCtx (s : State) (c : CoreId) (ws : List Word) : TaskCtx :=
  let x := (s.cores[c]).ctx
  { TaskCtx.initial with
    s := startRegs s c ws, spr := startSprs s c ws, domIn := startDoms ws, pc := BitVec.ofNat 14 (lw ws 0 61 48), mxe := startMxe x.mxe ws,
    tags := Vector.ofFn fun (i : Fin (2 ^ 2)) => startTags x.tags[i] (ws.getD (16 + i.val) 0), lostBase := s.pmc.cfl.lostCnt, launch := ws }

/-- Bytes with poison written one after another. -/
def Mem.writeMarked (m : Mem) (a : Nat) (bs : List (Byte × Bool)) : Mem :=
  bs.zipIdx.foldl (fun (m : Mem) x => m.write (a + x.2) x.1.1 x.1.2) m

/-- Two code regions share a bundle. -/
def overlaps (a b : List Word) : Bool :=
  decide (lw a 0 13 0 < lw b 0 13 0 + lw b 0 27 14) && decide (lw b 0 13 0 < lw a 0 13 0 + lw a 0 27 14)

/-- Code loaded into a region: preloads in it are discarded, suspended tasks in it need theirs again (R348, R351). -/
def QTask.displaced (ws : List Word) (t : QTask) : QTask :=
  if overlaps ws t.launch then { t.unload with stale := t.stopped } else t

/-- A task's code written to its region (R346 step 1). -/
def loadCode (s : State) (c : CoreId) (ws : List Word) : State :=
  let p := (s.partOf c).getD 0
  let bs := s.virtBytes p (lw ws 5 63 0) (32 * lw ws 0 27 14)
  (s.virtRead p (lw ws 5 63 0) (32 * lw ws 0 27 14)).updCore c fun x => { x with imem := x.imem.writeMarked (32 * lw ws 0 13 0) bs, queue := x.queue.map (QTask.displaced ws) }

/-- A task's data image (R344), and the state once it has been read. -/
def dataImage (s : State) (c : CoreId) (ws : List Word) : List (Byte × Bool) :=
  s.virtBytes ((s.partOf c).getD 0) (lw ws 6 63 0) (lw ws 7 47 24)
def imageRead (s : State) (c : CoreId) (ws : List Word) : State :=
  s.virtRead ((s.partOf c).getD 0) (lw ws 6 63 0) (lw ws 7 47 24)

/-- The task begins (R346 steps 1 to 4, the code apart): its data image, zeros in accumulator storage (R203), whatever
MXC is (DESIGN CHOICE, log 120), its context. -/
def beginTask (s : State) (c : CoreId) (ws : List Word) (image : List (Byte × Bool)) (ctx : TaskCtx) : State :=
  let acc := accBase (ws.getD 2 0)
  s.updCore c fun x =>
    { x.flush with
        ctx := ctx, splitTo := ctx.spr.split, upsets := Upsets.none, run := .running, switch := none, moved := 0, preempt := false, expired := false, itraps := [], reports := [],
        next := Vector.replicate 8 x.seqNo,
        pool := ((x.pool.putBack [(acc, acc + accSize (ws.getD 2 0))] Mem.empty).writeMarked (lw ws 7 23 0) image) }

-- what is saved when another task comes in (R354)

/-- The pool ranges saved: the outgoing claim where the incoming one overlaps it, and the outgoing task's accumulator storage (R217). -/
def savedRanges (out inc : List Word) : List (Nat × Nat) :=
  let a := max (lw out 3 23 0) (lw inc 3 23 0)
  let b := min (lw out 3 47 24) (lw inc 3 47 24)
  let acc := accBase (out.getD 2 0)
  (if a < b then [(a, b)] else []) ++ (if claimsMxe inc then [(acc, acc + accSize (out.getD 2 0))] else [])

/-- Bytes saved for an incoming task (R355). -/
def savedBytes (out inc : List Word) : Nat :=
  32768 + (if claimsAf inc then 4194304 else 0) + (savedRanges out inc).foldl (fun n r => n + (r.2 - r.1)) 0

/-- Bytes restored of a suspended task. -/
def restoredBytes (t : QTask) : Nat :=
  if t.stopped then 32768 + (if t.savedRows.isSome then 4194304 else 0) +
    (match t.savedPool with | some x => x.1.foldl (fun n r => n + (r.2 - r.1)) 0 | none => 0)
  else 0

/-- What of a range lies outside another, and what of ranges lies outside others. -/
def cutRange (r x : Nat × Nat) : List (Nat × Nat) := [(x.1, min x.2 r.1), (max x.1 r.2, x.2)].filter fun y => decide (y.1 < y.2)
def rangesOutside (rs xs : List (Nat × Nat)) : List (Nat × Nat) := rs.foldl (fun xs r => xs.flatMap (cutRange r)) xs

/-- The pool ranges that a suspended task left in place and the incoming one claims. -/
def QTask.moreRanges (t : QTask) (inc : List Word) : List (Nat × Nat) :=
  if t.saved.isNone then [] else rangesOutside ((t.savedPool.map (·.1)).getD []) (savedRanges t.launch inc)

/-- What a task that was saved before left in place, and the incoming one claims, is saved too (R217, R354). -/
def QTask.saveMore (t : QTask) (c : Core) (inc : List Word) : QTask :=
  match t.saved with
  | none => t
  | some x =>
    let rs := t.moreRanges inc
    let old := t.savedPool.getD ([], Mem.empty)
    let tags := Vector.ofFn fun (i : Fin (2 ^ 2)) =>
      if (claimedTags inc).contains i.val && !t.savedTags.contains i.val then (c.ctx.tags[i]).inPlace x.tags[i] else x.tags[i]
    let mxe := if claimsMxe inc && !t.savedMxe then { x.mxe with latched := c.ctx.mxe.latched } else x.mxe
    { t with saved := some { x with tags := tags, mxe := mxe },
             savedPool := if rs.isEmpty then t.savedPool else some (old.1 ++ rs, old.2.putBack rs (c.pool.part rs)),
             savedRows := if claimsAf inc && t.savedRows.isNone then some c.rows else t.savedRows,
             savedMxe := t.savedMxe || claimsMxe inc, savedTags := (t.savedTags ++ claimedTags inc).eraseDups }

/-- The context that still stands in the core is saved into its place in the queue. -/
def Core.saveStanding (c : Core) (inc : List Word) : Core :=
  if !c.saving then c
  else
    let rs := savedRanges c.ctx.launch inc
    { c with queue := c.queue.map fun t => if t.state = .suspended ∧ t.saved.isNone then
        { t with saved := some { c.ctx with traps := c.itraps }, savedPool := if rs.isEmpty then none else some (rs, c.pool.part rs),
                 savedRows := if claimsAf inc then some c.rows else none, savedMxe := claimsMxe inc, savedTags := claimedTags inc } else t,
             itraps := [] }

/-- Room is made for an incoming task: what stands in the core and it claims is saved, with the context that stands there (R354). -/
def Core.saveOut (c : Core) (inc : List Word) : Core :=
  ({ c with queue := c.queue.map fun t => t.saveMore c inc } : Core).saveStanding inc

-- when the next task may start (R77, R348, R354, R356)

/-- The engine work of a task that has ended is done (R77). -/
def Core.workDone (c : Core) : Bool :=
  c.ctx.queues.all (fun q => q.entries.isEmpty) && c.ctx.mxe.ops.isEmpty && c.ctx.mxe.running.isEmpty &&
    c.ctx.af.words.isEmpty && c.ctx.af.active.isEmpty && c.ctx.af.pending.isEmpty && c.ctx.af.held.isEmpty

/-- An end of the entry is the array field. -/
def Entry.touchesAf (e : Entry) : Bool := space e.desc.src = 3 || space e.desc.dst = 3

/-- A queue's head may be saved: it has not begun, or has nothing under way (R231, R353, R354). -/
def State.headStill (s : State) (q : Queue) : Bool :=
  match q.entries with
  | [] => true
  | e :: _ =>
    q.halted || e.began.isNone || e.isFlag || e.isMarker ||
      (let waits := (e.out ++ (match e.cur with | some b => [b] | none => [])).any fun b => b.await.any fun w => s.reqs.any fun r => r.id = w.1
       let made := e.out.isEmpty && (e.cur.isNone || e.atStop)
       !waits && (e.touchesAf || (made && (e.total ≤ e.pos || e.atStop))))

/-- A copy that is under way stops where it is, the data on its way coming in later: its progress is saved with its queue (R354). A verb entry goes on to
the end of its step (R231). -/
def Queue.cutShort (q : Queue) : Bool := match q.entries with | [] => true | e :: _ => !e.isVerb

/-- The context that stands in the core can be saved: operations and AR words are complete (R217, R260); copies have come to a place where they can be
saved, or the time of R355 is up. -/
def State.still (s : State) (c : CoreId) : Bool :=
  let x := s.cores[c]
  x.ctx.queues.all (fun q => s.headStill q || (x.cutLeft == 0 && q.cutShort)) && x.ctx.mxe.running.isEmpty && (x.ctx.mxe.ops.isEmpty || x.mxeWaits) &&
    x.ctx.af.words.isEmpty

/-- The credit of a PHASE of the core is on its way: the DOM that it puts into force is its task's (R357). -/
def State.phasing (s : State) (c : CoreId) : Bool :=
  s.reqs.any fun r => r.core = c.val && (match r.kind with | .credit _ => r.data.isNone | _ => false)

/-- The core can take in its next task. -/
def State.coreClear (s : State) (c : CoreId) : Bool :=
  let x := s.cores[c]
  x.moves && x.run == .idle && x.power == .a0 && !x.halted && !(s.atoms.any fun a => a.core = c.val) && !s.phasing c &&
    x.switch.getD 0 == 0 && (if x.saving then s.still c else x.workDone)

/-- The next task of the core, with its place. -/
def Core.nextOf (c : Core) : Option (Nat × QTask) := c.nextTask.bind fun i => (c.queue[i]?).map fun t => (i, t)

/-- Cycles that the move of a task's staged data image takes, at 8 KiB a cycle (R351). -/
def QTask.moveTime (t : QTask) : Nat := match t.image with | some b => ceilDiv b.length 8192 | none => 0

/-- The staged image of the next task is still being moved. -/
def Core.moving (c : Core) : Bool := match c.nextOf with | some x => decide (c.moved < x.2.moveTime) | none => false

/-- A cycle of that move. -/
def State.moveImage (s : State) (c : CoreId) : State :=
  if s.coreClear c && (s.cores[c]).moving then s.updCore c fun x => { x with moved := x.moved + 1 } else s

def taskStartDue (s : State) (c : CoreId) : Bool :=
  s.coreClear c && !(s.cores[c]).moving && (match (s.cores[c]).nextOf with
    | some x => !x.2.stopped && (s.pending x.2.pubs).isEmpty
    | none => false)

/-- A queued task starts: the old context is saved, its code loaded where no preload has, and it begins. -/
def startNext (s : State) (c : CoreId) : State :=
  match (s.cores[c]).nextOf with
  | none => s
  | some (i, t) =>
    let s := s.updCore c fun x => { (x.saveOut t.launch) with queue := (x.saveOut t.launch).queue.eraseIdx i }
    let s := if t.state = .ready then s else loadCode s c t.launch
    match t.image with
    | some image => beginTask s c t.launch image (startCtx s c t.launch)
    | none => beginTask (imageRead s c t.launch) c t.launch (dataImage s c t.launch) (startCtx s c t.launch)

/-- TASK_START (R346, R348). -/
def execTaskStart (c : CoreId) (s : State) : Outcome State Fault Refusal :=
  event "TASK_START" (taskStartDue s c) s fun s => startNext s c

-- preload (R348, R351)

/-- The data image of a task that starts is to be staged: the running task's reservation holds it. -/
def stages (c : Core) (t : QTask) : Bool := !t.stopped && t.image.isNone && decide (lw t.launch 7 47 24 ≤ 262144 * fld c.ctx.spr.pw 39 32)

/-- The task's code cannot be written while the running task's stands in its region. -/
def codeBarred (c : Core) (t : QTask) : Bool := overlaps t.launch c.ctx.launch && !(t.stopped && !t.stale)

def preloadDue (s : State) (c : CoreId) : Bool :=
  let x := s.cores[c]
  x.run != .idle && (match x.nextOf with
    | some y => y.2.state = .loading && (!codeBarred x y.2 || stages x y.2) && (s.pending y.2.pubs).isEmpty
    | none => false)

/-- The next task's data image where the reservation holds it, and its code, unless its region overlaps the running task's: then it stays LOADING. Of a
suspended task, whose saved context needs no place of the running task's, its code, where another task's has taken its region. -/
def preload (s : State) (c : CoreId) : State :=
  match (s.cores[c]).nextOf with
  | none => s
  | some (i, t) =>
    let x := s.cores[c]
    let image := if stages x t then some (dataImage s c t.launch) else t.image
    let s := if stages x t then imageRead s c t.launch else s
    if codeBarred x t then s.updCore c fun x => { x with queue := x.queue.modify i fun _ => { t with image := image } }
    else
      let s := if t.stopped && !t.stale then s else loadCode s c t.launch
      s.updCore c fun x => { x with queue := x.queue.modify i fun _ => { t with state := .ready, image := image, stale := false } }

/-- PRELOAD_COMPLETE (R351). -/
def execPreloadComplete (c : CoreId) (s : State) : Outcome State Fault Refusal :=
  event "PRELOAD_COMPLETE" (preloadDue s c) s fun s => preload s c

-- pre-emption and resumption (R349–R355)

/-- A YIELD has issued and its bundle has not retired (R78). -/
def Core.yieldWaits (c : Core) : Bool :=
  match c.hold with | .ctl k => c.alive k && decide (k < c.nextSeq .ctl) | _ => false

def preemptDue (s : State) (c : CoreId) : Bool :=
  let x := s.cores[c]
  x.moves && x.run == .running && !x.halted && x.nextTrap.isNone && s.settled c &&
    (match x.ptrap, x.bundles with | some t, b :: _ => decide (b.seq < t.seq) | some _, [] => false | none, _ => true) &&
    (x.outranked || x.expired || (x.preempt && !x.yieldWaits))

/-- Ticks that a switch may take: 2 µs and the time of its bytes at 256 GB/s (R355). -/
def switchBound (s : State) (c : CoreId) : Nat :=
  let x := s.cores[c]
  let n := match x.nextOf with
    | some y => savedBytes x.ctx.launch y.2.launch + restoredBytes y.2 +
        x.queue.foldl (fun n t => n + (t.moreRanges y.2.launch).foldl (fun n r => n + (r.2 - r.1)) 0) 0
    | none => 32768
  2000 + n / 256

/-- Ticks of it that the model leaves to the move of the incoming task's image and to its first bundle: no cycle is longer than 4 ticks. -/
def switchTail (s : State) (c : CoreId) : Nat := 16 + 4 * (match (s.cores[c]).nextOf with | some y => y.2.moveTime | none => 0)

/-- The verb entries that have begun stop at the end of their step while the context is saved (R231). -/
def Core.stopVerbs (c : Core) : Core :=
  c.onCtx fun x => { x with queues := x.queues.map fun q => { q with entries := q.entries.map fun e =>
    if e.isVerb && e.began.isSome then { e with stopStep := some e.stepNow } else e } }

/-- They go on with the next step. -/
def Core.goVerbs (c : Core) : Core :=
  c.onCtx fun x => { x with queues := x.queues.map fun q => { q with entries := q.entries.map fun e => { e with stopStep := none } } }

/-- The running task is stopped at the oldest bundle not retired, which TEPC then holds, and re-enters the queue (R347, R353; DEDUCED, log 101); its budget is
reloaded where that had run out (R350). -/
def preempt (s : State) (c : CoreId) : State :=
  let d := s.draw
  let r := (s.cores[c]).cut
  let x := (r.1.position r.2).stopVerbs
  let x := x.onSpr fun y => { y with tepc := r.2, tbudget := if x.expired then startBudget x.ctx.launch else y.tbudget }
  let t := Config.freeDelay d.1 % (switchBound s c - switchTail s c + 1)
  d.2.updCore c fun _ =>
    { x with run := .idle, preempt := false, expired := false, switch := some t, cutLeft := switchBound s c - switchTail s c, moved := 0,
             queue := x.queue ++ [QTask.enters .suspended x.ctx.launch []] }

/-- PREEMPTION (R349, R350, R353). -/
def execPreemption (c : CoreId) (s : State) : Outcome State Fault Refusal :=
  event "PREEMPTION" (preemptDue s c) s fun s => preempt s c

def taskResumeDue (s : State) (c : CoreId) : Bool :=
  s.coreClear c && (match (s.cores[c]).nextOf with | some x => x.2.stopped | none => false)

/-- A context put back into the core (R354), and the task issues again (R81 step 4). -/
def Core.restore (c : Core) (t : QTask) : Core :=
  let c := match t.saved with
    | none => c
    | some x =>
      let tags := Vector.ofFn fun (i : Fin (2 ^ 2)) => if t.savedTags.contains i.val then x.tags[i] else (c.ctx.tags[i]).inPlace x.tags[i]
      let mxe := { x.mxe with latched := if t.savedMxe then x.mxe.latched else c.ctx.mxe.latched }
      { c.flush with
        ctx := { x with traps := [], tags := tags, mxe := mxe }, itraps := x.traps, portBusy := [], splitTo := x.spr.split, upsets := Upsets.none,
        pool := (match t.savedPool with | some r => c.pool.putBack r.1 r.2 | none => c.pool), rows := t.savedRows.getD c.rows }
  { c.reinject.goVerbs with run := .running, switch := none, moved := 0, preempt := false, expired := false, next := Vector.replicate 8 c.seqNo }

def resumeNext (s : State) (c : CoreId) : State :=
  match (s.cores[c]).nextOf with
  | none => s
  | some (i, t) =>
    let s := s.updCore c fun x =>
      let x := if t.saved.isNone then x else x.saveOut t.launch
      { x with queue := x.queue.eraseIdx i }
    let s := if t.stale then loadCode s c t.launch else s
    s.updCore c fun x => x.restore t

/-- TASK_RESUME (R348, R354). -/
def execTaskResume (c : CoreId) (s : State) : Outcome State Fault Refusal :=
  event "TASK_RESUME" (taskResumeDue s c) s fun s => resumeNext s c

/-- BUDGET_EXPIRY (R350): an equal priority that waits pre-empts; else the budget-overrun trap. -/
def execBudgetExpiry (c : CoreId) (s : State) : Outcome State Fault Refusal :=
  event "BUDGET_EXPIRY" ((s.cores[c]).moves && (s.cores[c]).run == .running && !(s.cores[c]).expired && (s.cores[c]).ctx.spr.tbudget == 0) s fun s =>
    s.updCore c fun x =>
      if x.queue.any fun t => t.prio = x.prio then { x with expired := true }
      else (x.onSpr fun y => { y with tbudget := startBudget x.ctx.launch }).reqImp ⟨0x11, 0, 0, none, none⟩

-- ends and restarts (R77, R360)

def taskEndDue (s : State) (c : CoreId) : Bool :=
  let x := s.cores[c]
  x.moves && x.run == .halting && x.bundles.isEmpty && x.flights.isEmpty && x.arWrites.isEmpty && !(s.atoms.any fun a => a.core = c.val)

/-- Halted queues lose their entries with their task (R361). -/
def Core.dropHalted (c : Core) : Core :=
  c.onCtx fun x => { x with queues := x.queues.map fun q => if q.halted then { q with entries := [], halted := false, cause := 0, inTrap := false } else q }

/-- TASK_END (R77): TASKEND is posted. -/
def execTaskEnd (c : CoreId) (s : State) : Outcome State Fault Refusal :=
  event "TASK_END" (taskEndDue s c) s fun s => (postCore s c 4 []).updCore c fun x => x.dropHalted.endTask

def taskRestartDue (s : State) (c : CoreId) : Bool :=
  let x := s.cores[c]
  x.moves && x.run == .restarting && x.workDone && !(s.atoms.any fun a => a.core = c.val) && !s.phasing c

/-- TASK_RESTART (R346, R360): from step 1 again, as a first start but for the retry count. -/
def execTaskRestart (c : CoreId) (s : State) : Outcome State Fault Refusal :=
  event "TASK_RESTART" (taskRestartDue s c) s fun s =>
    let x := (s.cores[c]).ctx
    let s := loadCode s c x.launch
    beginTask (imageRead s c x.launch) c x.launch (dataImage s c x.launch) { startCtx s c x.launch with retry := x.retry }

-- a failed die-to-die link (R362)

/-- The die of the pair that a core does not lie on, if it lies on one. -/
def farDie (a b core : Nat) : Option Nat := if core / 24 = a then some b else if core / 24 = b then some a else none

/-- A request of the core has to cross the link. -/
def crosses (a b core : Nat) (p : Place) : Bool :=
  match farDie a b core with | some d => p.die = some d | none => false

/-- The queue of a lost request halts at its entry, where that still is. -/
def loseReq (a b : Nat) (s : State) (r : Req) : State :=
  let d := (farDie a b r.core).getD 0
  (s.dropReq r.id).updCore (coreIx r.core) fun x =>
    let q := BitVec.ofNat 3 r.queue
    let trap : ImpTrap := ⟨0x0F, BitVec.ofNat 64 d, 0, none, none⟩
    match x.head q with
    | some e => if e.order = r.order && r.queue < 8 then (if (x.rq q).halted then x else x.haltQueue q 2 0x0F 0 (BitVec.ofNat 64 d)) else x.reqImp trap
    | none => x.reqImp trap

/-- An atomic over the link comes back with poison and 0, its location not performed. -/
def loseAtom (a b : Nat) (s : State) (m : Atomic) : State :=
  if m.resp.isSome || !crosses a b m.core (.sye m.die m.ovf m.addr) then s
  else
    ({ s with atoms := s.atoms.map fun x => if x = m then { x with waits := [], resp := some ((s.cores[coreIx m.core]).cyc, 0, kPoison) } else x } : State).updCore
      (coreIx m.core) fun x => x.reqImp ⟨0x0F, BitVec.ofNat 64 ((farDie a b m.core).getD 0), 0, none, none⟩

/-- D2D_LINK_FAILURE (R362). -/
def execD2dLinkFailure (a b : DieId) (s : State) : Outcome State Fault Refusal :=
  let s := { s with badLinks := s.badLinks ++ [(a.val, b.val)] }
  let s := (s.reqs.filter fun r => r.data.isNone && crosses a.val b.val r.core r.at_).foldl (loseReq a.val b.val) s
  .next (s.atoms.foldl (loseAtom a.val b.val) s)

-- host message queues (R367, R368)

/-- The command entry at the device's read index: word i of its 64 bytes in host memory. -/
def State.cqWord (s : State) (p : PartId) (i : Nat) : Word :=
  let x := s.parts[p]
  s.host.word (x.cqbase.toNat + 64 * (x.cqdri.toNat % 2 ^ x.cqn.toNat) + 8 * i)

/-- A command waits and the device consumes. -/
def State.cqReady (s : State) (p : PartId) : Bool := !(s.parts[p]).cqover && (s.parts[p]).cqdri != (s.parts[p]).cqhwi

/-- The command has been consumed. -/
def Part.consumed (x : Part) : Part := { x with cqdri := x.cqdri + 1, cqlast := x.cqdri }

/-- The device stops consuming when the ring has been overrun: by a new write index, or by a smaller ring (R368). -/
def Part.checkOver (x : Part) : Part := if 2 ^ x.cqn.toNat < (x.cqhwi - x.cqdri).toNat then { x with cqover := true } else x

/-- CQHWI_WRITE (R367, R368). -/
def execCqhwiWrite (p : PartId) (v : BitVec 32) (s : State) : Outcome State Fault Refusal :=
  .next (s.updPart p fun x => ({ x with cqhwi := v } : Part).checkOver)

/-- CQ_NOP (R368): command 0, and the codes without a command, which are discarded. -/
def execCqNop (p : PartId) (s : State) : Outcome State Fault Refusal :=
  let code := fld (s.cqWord p 0) 15 0
  event "CQ_NOP" (s.cqReady p && (code == 0 || 3 ≤ code)) s fun s => s.updPart p Part.consumed

/-- The cores of the partition that the masks of an ENDCORES name. -/
def endMask (s : State) (p : PartId) : List CoreId :=
  (s.coresOf p).filter fun c => if c.val < 64 then (s.cqWord p 1).getLsbD c.val else (s.cqWord p 2).getLsbD (c.val - 64)

/-- ENDCORES (R368). -/
def execEndcores (p : PartId) (s : State) : Outcome State Fault Refusal :=
  event "ENDCORES" (s.cqReady p && fld (s.cqWord p 0) 15 0 == 1) s fun s =>
    ((endMask s p).foldl (fun s c => removeQueued (killTask s c none) c) s).updPart p Part.consumed

/-- ECHO (R368): an event with the tag. -/
def execEcho (p : PartId) (s : State) : Outcome State Fault Refusal :=
  event "ECHO" (s.cqReady p && fld (s.cqWord p 0) 15 0 == 2) s fun s =>
    (postEvent s p 9 0 [BitVec.ofNat 64 (fld (s.cqWord p 0) 31 16)]).updPart p Part.consumed

/-- EQHRI_WRITE (R367, R368): space frees, and drops are reported. -/
def execEqhriWrite (p : PartId) (v : BitVec 32) (s : State) : Outcome State Fault Refusal :=
  .next (flushDropped (s.updPart p fun x => { x with eqhri := v }) p)

/-- CQ_RESET (R367). -/
def execCqReset (p : PartId) (s : State) : Outcome State Fault Refusal :=
  .next (s.updPart p fun x => { x with cqhwi := 0, cqdri := 0, cqover := false, cqlast := 0 })

/-- EQ_RESET (R367). -/
def execEqReset (p : PartId) (s : State) : Outcome State Fault Refusal :=
  .next (s.updPart p fun x => { x with eqdwi := 0, eqhri := 0, dropped := 0, dropRep := 0 })

/-- EQSTAT_READ (R367): the count is cleared by the read. -/
def execEqstatRead (p : PartId) (s : State) : Outcome State Fault Refusal :=
  .next (s.updPart p fun x => { x with dropped := 0 })

/-- Every cached translation of a partition's cores removed (R365). -/
def State.dropTranslations (s : State) (p : PartId) : State :=
  (s.coresOf p).foldl (fun s c => s.updCore c fun x => { x with tlb := [], ceTlb := [] }) s

/-- TLBINV (R365). -/
def execTlbinv (p : PartId) (s : State) : Outcome State Fault Refusal := .next (s.dropTranslations p)

end Sys2Proof.Machine
end

