-- ==== Sys2Proof/Machine/Hbm.lean ====
section
/-!
DEFINITION. The HBM stacks (R369–R384): allocation registers, row swaps and refresh, temperature, self-test, checkpoint, and the host's own
accesses.
-/
namespace Sys2Proof.Machine

open Host

-- allocation (R371–R375)

/-- A core of a partition holds a task, running or queued. -/
def State.holdsTask (s : State) (p : PartId) : Bool :=
  (s.coresOf p).any fun c => (s.cores[c]).run != .idle || !(s.cores[c]).queue.isEmpty

/-- A trust domain is a partition that holds a task. -/
def State.domBusy (s : State) (dom : Nat) : Bool := decide (dom < 12) && s.holdsTask (partIx dom)

/-- A PAT entry as stored: the bits marked zero are not. -/
def patMask (v : Word) : Word := v &&& 0x8F001FFF00001FFF

/-- The valid entries of a group but for one of the stack. -/
def Stack.groupOf (k : Stack) (g skip : Nat) : List Word :=
  ((List.finRange 128).filter fun i => i.val / 8 = g && i.val != skip && patValid k.pat[i]).map fun i => k.pat[i]

def rowsMeet (a b : Word) : Bool := decide (patBase a < patLim b) && decide (patBase b < patLim a)

/-- Two entries of different domains keep two rows between them (R375). -/
def guarded (a b : Word) : Bool :=
  patDom a == patDom b || decide (patLim a + 2 ≤ patBase b) || decide (patLim b + 2 ≤ patBase a)

/-- A PAT write that is refused (R371): the first of its bullets holds for any write, the others, but for the last task's, for one that is to be valid
(log 70). -/
def patRefused (s : State) (k : StackId) (i : Nat) (v : Word) : Bool :=
  let st := s.hbms[k]
  let old := st.pat.toArray.getD i 0
  let rest := st.groupOf (i / 8) i
  decide (13 ≤ patDom v ∨ patLim v ≤ patBase v ∨ 6144 < patLim v) || (patValid old && s.domBusy (patDom old)) ||
    (patValid v &&
      (rest.any (rowsMeet v) ||
        (decide (patDom v < 12) && rest.any fun w => patDom w == patDom v) || s.domBusy (patDom v) ||
        (st.hbmcfg.getLsbD 0 && !rest.all (guarded v))))

/-- A refused request is recorded (R381). -/
def State.patErr (s : State) (k : StackId) : State := s.updStack k fun x => { x with paterr := true }

/-- PAT_ENTRY_WRITE (R371). -/
def execPatEntryWrite (k : StackId) (i : BitVec 7) (v : BitVec 64) (s : State) : Outcome State Fault Refusal :=
  .next (if patRefused s k i.toNat (patMask v) then s.patErr k
    else s.updStack k fun x => { x with pat := x.pat.setIfInBounds i.toNat (patMask v) })

/-- Groups of all stacks in which a domain has a valid entry. -/
def State.groupsOf (s : State) (dom : Nat) : List (Nat × Nat) := (s.slices dom).map fun x => (x.1, x.2.1)

/-- Partitions other than p with an entry in a group. -/
def State.sharers (s : State) (p : PartId) (g : Nat × Nat) : List PartId :=
  (List.finRange 12).filter fun q => q != p && (s.groupsOf q.val).contains g

/-- An HBMPART write that is refused (R373). -/
def hbmpartRefused (s : State) (p : PartId) (v : Word) : Bool :=
  let old := (s.parts[p]).hbmpart
  (fld old 17 16 != fld v 17 16 && s.holdsTask p) ||
    (s.groupsOf p.val).any fun g =>
      decide (1014 < (s.sharers p g).foldl (fun n q => n + shareOf (s.parts[q]).hbmpart) (shareOf v)) ||
        (s.sharers p g).any fun q => fld (s.parts[q]).hbmpart 9 8 != fld v 9 8

/-- The new split of a partition waits at each of its pseudo-channels for the next refresh slot (R370). -/
def State.newSplit (s : State) (p : PartId) (old : Nat) : State :=
  (s.groupsOf p.val).foldl (fun s g => s.updStack (stackIx g.1) fun k =>
    { k with splits := k.splits ++ (((List.range 32).map fun j => 32 * g.2 + j).filter fun pc => !(k.splits.any fun x => x.1 = pc)).map fun pc => (pc, old) }) s

def hbmpartMask (v : Word) : Word := v &&& 0x3FF03E30300

/-- A refused HBMPART write shows in the stacks where the partition has entries, and in every stack where it has none (R381; DESIGN CHOICE, log 71). -/
def State.hbmpartErr (s : State) (p : PartId) : State :=
  let ks := ((s.groupsOf p.val).map (·.1)).eraseDups
  (if ks.isEmpty then List.range 8 else ks).foldl (fun s k => s.patErr (stackIx k)) s

/-- HBMPART_WRITE (R373). -/
def execHbmpartWrite (p : PartId) (v : BitVec 64) (s : State) : Outcome State Fault Refusal :=
  let v := hbmpartMask v
  let old := fld (s.parts[p]).hbmpart 9 8
  .next (if hbmpartRefused s p v then s.hbmpartErr p
    else (if old = fld v 9 8 then s else s.newSplit p old).updPart p fun x => { x with hbmpart := v })

/-- The PAT of a stack keeps R375. -/
def Stack.patGuarded (k : Stack) : Bool :=
  (List.finRange 128).all fun i => !patValid k.pat[i] || (k.groupOf (i.val / 8) i.val).all (guarded k.pat[i])

/-- HBMCFG_WRITE (R374). -/
def execHbmcfgWrite (k : StackId) (v : BitVec 64) (s : State) : Outcome State Fault Refusal :=
  let w := v &&& 0xFFF3
  let w := if fld w 15 4 < 512 then setFld w 4 12 512 else w
  .next (if w.getLsbD 0 && !(s.hbms[k]).patGuarded then s.patErr k else s.updStack k fun x => { x with hbmcfg := w })

/-- What a read of HBMSTAT returns (R381). -/
def Stack.status (k : Stack) : Word :=
  mkWord [((min 255 (max 0 k.temp)).toNat, 56), (if k.hot then 1 else 0, 55), (if k.paterr then 1 else 0, 54), (min 65535 k.swaps, 32),
    (min 65535 k.ce, 16), (min 255 k.ue, 8), (min 255 k.bankfail, 0)]

/-- HBMSTAT_READ (R381). -/
def execHbmstatRead (k : StackId) (s : State) : Outcome State Fault Refusal :=
  .next (s.updStack k fun x => { x with paterr := false, swaps := 0, ce := 0, ue := 0 })

-- physical rows, swaps and refresh (R376, R377)

/-- The physical row of a logical row of a bank. -/
def Stack.phys (k : Stack) (pc bank row : Nat) : Nat :=
  ((k.indir.find? fun x => (x.1, x.2.1, x.2.2.1) = (pc, bank, row)).map (·.2.2.2)).getD row

/-- The logical row that lies in a physical row of a bank. -/
def Stack.holder (k : Stack) (pc bank phys : Nat) : Option Nat :=
  match k.indir.find? fun x => (x.1, x.2.1, x.2.2.2) = (pc, bank, phys) with
  | some x => some x.2.2.1
  | none => if phys < 6144 && !(k.indir.any fun x => (x.1, x.2.1, x.2.2.1) = (pc, bank, phys)) then some phys else none

/-- A logical row moved to a physical one. -/
def Stack.mapRow (k : Stack) (pc bank row phys : Nat) : Stack :=
  let rest := k.indir.filter fun x => (x.1, x.2.1, x.2.2.1) != (pc, bank, row)
  { k with indir := if row = phys then rest else rest ++ [(pc, bank, row, phys)] }

/-- Physical rows of a bank that are free and good. -/
def Stack.freeRows (k : Stack) (pc bank : Nat) : List Nat :=
  (List.range 6208).filter fun f => (k.holder pc bank f).isNone && !k.badRows.contains (pc, bank, f)

/-- A physical row next to a target is free, or holds a row of the same domain (R376). -/
def Stack.neighbourOk (k : Stack) (pc bank row f : Nat) : Bool :=
  match k.holder pc bank f with
  | none => true
  | some r => r == row || k.rowDom pc r == k.rowDom pc row

/-- The rows that a swap may choose. -/
def Stack.targets (k : Stack) (pc bank row : Nat) : List Nat :=
  (k.freeRows pc bank).filter fun f => !k.hbmcfg.getLsbD 0 ||
    ((f = 0 || k.neighbourOk pc bank row (f - 1)) && (f + 1 = 6208 || k.neighbourOk pc bank row (f + 1)))

/-- A swap in its slot; with no target it waits for the next. -/
def Stack.swap (k : Stack) (pick pc bank row : Nat) : Stack :=
  let ts := k.targets pc bank row
  match ts[Config.freeRow pick % ts.length]? with
  | none => k
  | some f =>
    let k := k.mapRow pc bank row f
    { k with swapq := k.swapq.filter (fun x => x != (pc, bank, row)), swaps := min 65535 (k.swaps + 1),
             counts := k.counts.filter fun x => (x.1, x.2.1, x.2.2.1) != (pc, bank, row) }

/-- The first swap queued for each bank of a pseudo-channel. -/
def Stack.swapsNow (k : Stack) (pc : Nat) : List (Nat × Nat × Nat) :=
  (List.range 16).filterMap fun b => k.swapq.find? fun x => x.1 = pc && x.2.1 = b

/-- Ticks between a pseudo-channel's refresh slots, by the mode in force there (R377). -/
def Stack.refresh (k : Stack) (pc : Nat) : Nat := if k.hotAt pc then 1950 else 3900

/-- The next slot of the stack: its tick and its pseudo-channel. -/
def Stack.slotTick (k : Stack) : Nat := (k.slots.headD (0, 512)).1
def Stack.slotPc (k : Stack) : Nat := (k.slots.headD (0, 512)).2

/-- A slot put in its place among those to come. -/
def putSlot (x : Nat × Nat) : List (Nat × Nat) → List (Nat × Nat)
  | [] => [x]
  | y :: r => if y.1 < x.1 ∨ y.1 = x.1 ∧ y.2 < x.2 then y :: putSlot x r else x :: y :: r

/-- The row of a pseudo-channel, of its 98,304, that the patrol scrub has come to: each once in 24 hours (R380; its order is a DESIGN CHOICE,
log 112). -/
def scrubRow (tick : Nat) : Nat := tick * 98304 / 86400000000000

/-- The scrub reads a row: an error that can be corrected is, and is gone; an uncorrectable granule keeps the poison code (R380). -/
def Stack.scrub (k : Stack) (a : Nat) : Stack :=
  let k := k.meetErrors a 1024
  { k with weak := k.weak.filter fun w => !(decide (a ≤ 32 * w.1) && decide (32 * w.1 < a + 1024)) }

/-- The refresh slot of a pseudo-channel at its tick: its swaps, or a refresh, the scrub, and the changes that waited for it. It lasts at most 60 ns,
and leaves no row open (R370, R376, R377, R380). -/
def refreshSlot (s : State) (i : StackId) (pc : Nat) : State :=
  let d := s.draw
  d.2.updStack i fun k =>
    let tick := k.slotTick
    let k := ((k.swapsNow pc).zipIdx).foldl (fun k x => k.swap (16 * d.1 + x.2) x.1.1 x.1.2.1 x.1.2.2) k
    let r := scrubRow tick
    let k := if scrubRow (tick - k.refresh pc) = r then k else k.scrub (stackAddr pc (r / 6144 % 16) (r % 6144) 0)
    let k := { k with hotNew := k.hotNew.filter (fun x => x != pc), splits := k.splits.filter (fun x => x.1 != pc) }
    { k with slots := putSlot (tick + k.refresh pc, pc) (k.slots.drop 1),
             shut := (pc, tick + 1 + Config.freeDelay d.1 % 60) :: k.shut.filter (fun x => decide (tick < x.2) && x.1 != pc),
             acts := k.acts.map fun o => if o.1 = pc then (o.1, o.2.1, 6144, o.2.2.2) else o }

/-- The stacks work from the end of their training on (R397), but for their self-refresh in A3 (R394). -/
def State.hbmUp (s : State) (k : StackId) : Bool := (s.hbms[k]).present && !s.pmc.a3 && 6 ≤ s.pmc.stage.toNat && s.pmc.stage.toNat ≤ 8

/-- HBM_REFRESH_SLOT (R370, R376, R377). -/
def execHbmRefreshSlot (k : StackId) (pc : BitVec 9) (s : State) : Outcome State Fault Refusal :=
  event "HBM_REFRESH_SLOT" (s.hbmUp k && (s.hbms[k]).slotPc == pc.toNat && decide ((s.hbms[k]).slotTick ≤ s.gcnt.toNat)) s fun s =>
    refreshSlot s k pc.toNat

/-- REFRESH_WINDOW_END (R376). -/
def execRefreshWindowEnd (k : StackId) (s : State) : Outcome State Fault Refusal :=
  event "REFRESH_WINDOW_END" (s.hbmUp k && decide ((s.hbms[k]).winEnd ≤ s.gcnt.toNat)) s fun s =>
    s.updStack k fun x => { x with counts := [], winEnd := x.winEnd + (if x.hot then 16000000 else 32000000) }

-- temperature (R338, R377, R378)

/-- A sensor of a stack fails a test of R338; the other three are its neighbours. -/
def stackSensorFails (hist : List (List Int)) (i : Nat) (healthy : List Nat) : Bool :=
  let at_ := fun (k : Nat) => hist.map fun x => x.getD k 0
  let mine := at_ i
  let moved := fun (k : Nat) => decide ((at_ k).foldl min ((at_ k).headD 0) + 1 ≤ (at_ k).foldl max ((at_ k).headD 0))
  let stuck := decide (8 ≤ hist.length) && mine.all (fun v => v == mine.headD 0) && healthy.any moved
  let out := mine.any fun v => decide (v < -40 ∨ 150 < v)
  let far := decide (8 ≤ hist.length) && !healthy.isEmpty && hist.all fun x =>
    decide (20 < Int.abs' (2 * x.getD i 0 - median2 (healthy.map fun k => x.getD k 0)))
  stuck || out || far

/-- The stack after a sample: suspects, temperature (R338, R377). A suspect reads as the hottest healthy one plus 5. -/
def Stack.sample (k : Stack) (t : List Int) : Stack :=
  let hist := (t :: k.samples).take 8
  let r := (List.range 4).map fun i =>
    let healthy := ([0, 1, 2, 3] : List Nat).filter fun j => j != i && !k.suspect.contains j
    let bad := stackSensorFails hist i healthy
    let n := if bad then 0 else ((k.good.find? fun g => g.1 = i).map (·.2)).getD 0 + 1
    (i, bad || (k.suspect.contains i && decide (n < 64)), n)
  let suspect := (r.filter (·.2.1)).map (·.1)
  let fine := ([0, 1, 2, 3] : List Nat).filter fun j => !suspect.contains j
  let top := (fine.map fun j => t.getD j 0).foldl max (t.getD (fine.headD 0) 0)
  let temp := match fine with | [] => 255 | _ => if suspect.isEmpty then top else top + 5
  { k with samples := hist, suspect := suspect, good := r.map fun x => (x.1, x.2.2), temp := temp }

/-- Hot mode after a sample (R377). -/
def Stack.heat (k : Stack) : Stack :=
  let cool := if k.temp ≤ 80 then k.cool + 1 else 0
  let hot := if k.hot then decide (cool < 8) else decide (85 ≤ k.temp)
  { k with cool := if hot = k.hot then cool else 0, hot := hot, hotNew := if hot = k.hot then k.hotNew else List.range 512 }

/-- SHORTFALL to every partition with an entry in the stack, for each of its groups (R378). -/
def shortfall (s : State) (i : StackId) (rho : Nat) : State :=
  (List.finRange 12).foldl (fun s p =>
    if (s.parts[p]).en then
      (s.groupsOf p.val).foldl (fun s g => if g.1 = i.val then postEvent s p 7 0 [mkWord [(i.val, 16), (g.2, 8), (rho, 32)]] else s) s
    else s) s

/-- Errors that have arisen in granules of a stack since the last sample. Nothing has met them yet: a read or the scrub counts them, and corrects those
that can be; the others are delivered poisoned by any read (R380, R381). -/
def Stack.errors (k : Stack) (soft hard : List Nat) : Stack :=
  let gs := fun (xs : List Nat) => ((xs.filter fun a => decide (a < stackBytes)).map fun a => a / 32).eraseDups
  { k with weak := (gs hard).map (fun g => (g, true)) ++ ((gs soft).filter fun g => !(gs hard).contains g).map (fun g => (g, false)) ++
             k.weak.filter fun w => !(gs hard).contains w.1 && !(gs soft).contains w.1,
           bytes := (gs hard).foldl (fun (m : Mem) g => ⟨m.cells, (List.range 32).foldl (fun l i => putNat true (32 * g + i) l) m.poison⟩) k.bytes }

/-- STACK_TEMP_SAMPLE (R377, R378, R380): with the errors that have arisen since the last. -/
def execStackTempSample (i : StackId) (x : StackSample) (s : State) : Outcome State Fault Refusal :=
  event "STACK_TEMP_SAMPLE" (s.hbmUp i && decide ((s.hbms[i]).nextTemp ≤ s.gcnt.toNat)) s fun s =>
    let was := (s.hbms[i]).hot
    let s := s.updStack i fun k => ({ (k.sample x.temps).heat with nextTemp := (s.gcnt.toNat / 10000 + 1) * 10000 } : Stack).errors x.soft x.hard
    let now := (s.hbms[i]).hot
    let s := if now then s.updPmc fun p => { p with ckpthot := p.ckpthot ||| BitVec.ofNat 8 (2 ^ i.val) } else s
    if now = was then s else shortfall s i (if now then 768 else 1024)

-- self-test (R382)

/-- A test is running. -/
def Stack.testing (k : Stack) : Bool := decide (1 ≤ bistState k.bist) && decide (bistState k.bist ≤ 3)

/-- PATT, PC and BANK as firmware writes them. -/
def bistFields (v : Word) : Word := v &&& 0x100000000001FFF

/-- HBMBIST_GO (R382): the write of HBMBIST. Without GO it sets PATT, PC and BANK; those of a running test stay (DESIGN CHOICE, log 111). -/
def execHbmbistGo (k : StackId) (v : BitVec 64) (s : State) : Outcome State Fault Refusal :=
  let x := s.hbms[k]
  if !v.getLsbD 63 then
    .next (if x.testing then s else s.updStack k fun x => { x with bist := (x.bist &&& 0x70001FFFFF000000) ||| bistFields v })
  else if x.testing || x.parkBase.isNone then .next (s.patErr k)
  else
    let d := s.draw
    .next (d.2.updStack k fun x =>
      { x with bist := bistFields v ||| mkWord [(1, 60)], bistAt := s.gcnt.toNat, park := some (fld v 12 4, fld v 3 0), copied := 0,
               copyAt := s.gcnt.toNat, copyStep := 1 + Config.freeDelay d.1 % 10000 })

/-- Physical rows found bad leave the free set; each logical row in one gets a good free row while there is one (R382 step 3). -/
def Stack.repair (k : Stack) (pick pc bank : Nat) (fails : List Nat) : Stack :=
  let k := { k with badRows := k.badRows ++ (fails.filter fun f => !k.badRows.contains (pc, bank, f)).map fun f => (pc, bank, f) }
  (fails.zipIdx).foldl (fun k x =>
    match k.holder pc bank x.1 with
    | none => k
    | some r =>
      let fs := k.freeRows pc bank
      match fs[Config.freeRow (6208 * pick + x.2) % fs.length]? with
      | some f => k.mapRow pc bank r f
      | none => k) k

/-- The least logical row that lies in one of the physical rows. -/
def Stack.firstBad (k : Stack) (pc bank : Nat) (fails : List Nat) : Nat :=
  let rs := fails.filterMap fun f => k.holder pc bank f
  rs.foldl min (rs.headD 0)

/-- The next phase of a test begins; restoring has nothing to copy where the good rows are too few. -/
def Stack.phase (k : Stack) (st now : Nat) : Stack :=
  { k with bist := setFld k.bist 60 3 st, copied := if st = 3 && k.tooFew (fld k.bist 12 4) (fld k.bist 3 0) then 6144 else 0, copyAt := now }

/-- One phase of a self-test ends (R382). -/
def bistPhase (s : State) (i : StackId) (fails : List Nat) : State :=
  let k := s.hbms[i]
  let pc := fld k.bist 12 4
  let bank := fld k.bist 3 0
  let now := s.gcnt.toNat
  let fails := (fails.filter fun f => decide (f < 6208)).eraseDups
  match bistState k.bist with
  | 1 => s.updStack i fun k => k.phase 2 now
  | 2 =>
    let d := s.draw
    let first := k.firstBad pc bank fails
    d.2.updStack i fun k =>
      let k := (k.repair d.1 pc bank fails).phase 3 now
      { k with bist := setFld (setFld k.bist 32 13 first) 24 8 (min 255 fails.length) }
  | 3 =>
    if k.tooFew pc bank then
      s.updStack i fun k => { k.phase 6 now with bankfail := min 255 (k.bankfail + 1), retired := k.retired ++ [(pc, bank)] }
    else s.updStack i fun k => k.phase (if fld k.bist 31 24 = 0 then 4 else 5) now
  | _ => s

/-- A phase can end: its rows have all been copied; the pattern has been run. -/
def Stack.phaseDone (k : Stack) : Bool := bistState k.bist == 2 || (k.testing && k.copied == 6144)

/-- BIST_PHASE_COMPLETE (R382): with the failing physical rows that the test found. -/
def execBistPhaseComplete (i : StackId) (fails : List Nat) (s : State) : Outcome State Fault Refusal :=
  event "BIST_PHASE_COMPLETE" (s.hbms[i]).phaseDone s fun s => bistPhase s i fails

/-- A phase ends of itself: a copying one with its last row, the pattern so early that the restoring keeps the test within its 250 ms, less the ticks
of a cycle (R382). -/
def Stack.bistLate (k : Stack) (now : Nat) : Bool :=
  k.phaseDone && (bistState k.bist != 2 || decide (k.bistAt + 249999990 ≤ now + 6144 * k.copyStep))

-- checkpoint (R383, R384)

def ckptMask (v : Word) : Word := v &&& 0x6000000000000FFF

/-- Bytes of an image that lie in a stack. -/
def State.ckptIn (s : State) (ctl : Word) (k : Nat) : Nat :=
  if ctl.getLsbD 61 then stackBytes
  else (s.ckptParts ctl).1.foldl (fun n x => if s.hbmSize x.1 = 0 then n else
    (s.slices x.1.val).foldl (fun n e => if e.1 = k then n + 32 * 16384 * (e.2.2.2 - e.2.2.1) else n) n) 0

/-- Ticks within which a checkpoint completes: 0.05 s and its bytes at 240 GB/s, at 180 GB/s in a stack that has been hot while it ran, over the
link as it is (R384, R385). -/
def State.ckptBound (s : State) : Nat :=
  let n := (List.range 8).foldl (fun n k => n + (if s.pmc.ckpthot.getLsbD k then 4 else 3) * s.ckptIn s.pmc.ckptctl k) 0
  50000000 + 2 ^ (Config.linkLoss % 4) * n / 720

/-- A running checkpoint completes: at a free tick within its bound, less the ticks of a cycle. -/
def State.ckptDue (s : State) : Bool :=
  s.pmc.ckptbusy && decide (s.pmc.ckptat + s.pmc.ckptdraw % (s.ckptBound - 4) ≤ s.gcnt.toNat)

/-- CHECKPOINT_GO (R383): firmware's write of CKPTDST, and the write of CKPTCTL, which with GO starts a checkpoint; refused while one runs. -/
def execCheckpointGo (v dst : BitVec 64) (s : State) : Outcome State Fault Refusal :=
  if s.pmc.ckptbusy then .next s
  else
    let s := s.updPmc fun p => { p with ckptctl := ckptMask v, ckptdst := dst &&& 0xFFFFFFFFFFFF0000 }
    if !v.getLsbD 63 then .next s
    else
      let d := s.draw
      let hot := (List.finRange 8).foldl (fun n k => if (s.hbms[k]).hot then n + 2 ^ k.val else n) 0
      .next (d.2.updPmc fun p =>
        { p with ckptbusy := true, ckptdone := false, ckpterr := false, ckptcnt := 0, ckptimg := Mem.empty, ckptcap := [], ckptat := s.gcnt.toNat,
                 ckptdraw := Config.freeDelay d.1, ckpthot := BitVec.ofNat 8 hot })

/-- One line of the image goes to the safe tier: as it was captured, or as it stands (R383). -/
def saveLine (s : State) (l : Nat) : State :=
  let dst := s.pmc.ckptdst.toNat + 64 * l
  if s.pmc.ckptcap.contains l then { s with host := s.host.copyIn dst s.pmc.ckptimg (64 * l) 64 }
  else match s.imageOf s.pmc.ckptctl (64 * l) with
    | some x => { s with host := s.host.copyIn dst (s.hbms[stackIx x.1]).bytes x.2 64 }
    | none => s

/-- One line comes back; a granule marked as poisoned gets the poison code (R383). -/
def loadLine (s : State) (l : Nat) : State :=
  let src := s.pmc.ckptdst.toNat + 64 * l
  match s.imageOf s.pmc.ckptctl (64 * l) with
  | none => s
  | some x => [0, 32].foldl (fun s i =>
      s.writeHbm (stackIx x.1) ((s.host.bytes (src + i) 32).zipIdx.map fun b => (x.2 + i + b.2, b.1)) (s.host.tainted (src + i) 32)) s

/-- The next unit of 64 KiB is done, each of its lines in one access at its pseudo-channel, which activates its row (R376, R383). -/
def State.ckptUnit (s : State) : State :=
  let ls := (List.range 1024).map fun i => 1024 * s.pmc.ckptcnt.toNat + i
  let s := s.activateAll (ls.filterMap fun l => s.imageOf s.pmc.ckptctl (64 * l))
  let s := ls.foldl (if s.pmc.ckptctl.getLsbD 62 then loadLine else saveLine) s
  s.updPmc fun p => { p with ckptcnt := p.ckptcnt + 1 }

/-- Units that a running checkpoint has still to do. -/
def State.ckptLeft (s : State) : Nat := s.ckptSize s.pmc.ckptctl / 65536 - s.pmc.ckptcnt.toNat

/-- In a cycle it may complete its next unit, at a time that the spec leaves open. -/
def State.ckptStep (s : State) : State :=
  if !s.pmc.ckptbusy || s.ckptLeft == 0 then s
  else
    let d := s.draw
    if Config.freeBool d.1 then d.2.ckptUnit else d.2

/-- Units done one after another. -/
def State.ckptUnits : Nat → State → State
  | 0, s => s
  | n + 1, s => State.ckptUnits n s.ckptUnit

/-- The checkpoint ends: complete, every unit done, or stopped by an error after those it has done (R383, R384). -/
def endCheckpoint (s : State) (err : Bool) : State :=
  (if err then s else s.ckptUnits s.ckptLeft).updPmc fun p =>
    { p with ckptbusy := false, ckptdone := !err, ckpterr := err, ckptimg := Mem.empty, ckptcap := [] }

/-- CHECKPOINT_DONE (R383, R384): complete, at its tick; or stopped by an error, at any. -/
def execCheckpointDone (err : Bool) (s : State) : Outcome State Fault Refusal :=
  event "CHECKPOINT_DONE" (if err then s.pmc.ckptbusy else s.ckptDue) s fun s => endCheckpoint s err

/-- What a read of CKPTSTAT returns (R383). -/
def Pmc.ckptstat (p : Pmc) : Word :=
  mkWord [(if p.ckptbusy then 1 else 0, 63), (if p.ckptdone then 1 else 0, 62), (if p.ckpterr then 1 else 0, 61), (p.ckptcnt.toNat, 0)]

/-- CKPTSTAT_READ (R383). -/
def execCkptstatRead (s : State) : Outcome State Fault Refusal :=
  .next (s.updPmc fun p => { p with ckptdone := false, ckpterr := false })

-- the host's accesses to HBM (R282, R372, R388)

/-- The physical address that a decoder gives an address of its window, if it lies in the range. -/
def Part.hostPa (x : Part) (addr len : Nat) : Option Nat :=
  if x.en && x.hmrange.getLsbD 63 && decide (addr + len ≤ fld x.hmrange 47 24 * 65536) then some (fld x.hmrange 23 0 * 65536 + addr) else none

/-- The places in HBM of n bytes of a partition's space. -/
def State.paPlaces (s : State) (p : PartId) (pa n : Nat) : List (Nat × Nat) := (List.range n).filterMap fun i => s.hbmPlace p (pa + i)

/-- Bytes of a partition's space written one by one. -/
def writePa (s : State) (p : PartId) (pa : Nat) (bs : List Byte) : State :=
  let gs := bs.zipIdx.filterMap fun x => (s.hbmPlace p (pa + x.2)).map fun y => (y.1, y.2, x.1)
  ((gs.map (·.1)).eraseDups).foldl (fun s k => s.writeHbm (stackIx k) ((gs.filter fun x => x.1 = k).map (·.2)) false) s

/-- The lines of HBM that an access covers, where they lie. -/
def linesAt (s : State) (p : PartId) (pa n : Nat) : List (Nat × Nat) :=
  ((List.range n).filterMap fun i => (s.hbmPlace p (pa + i)).map fun x => (x.1, x.2 / 64)).eraseDups

/-- An access of a host agent to HBM: a write is performed; a read changes nothing; the rows touched are activated, and the lines may stay in its
caches (R282, R376). -/
def hostHbm (s : State) (p : PartId) (pa n : Nat) (write : Option (List Byte)) (keeps : Bool) : State :=
  let s0 := s.activateAll (s.paPlaces p pa n)
  let s1 := match write with
    | some bs => writePa s0 p pa bs
    | none => s0
  if keeps then { s1 with hostLines := s.hostLines ++ (linesAt s p pa n).filter fun l => !s.hostLines.contains l } else s1

/-- HOST_MEM_ACCESS (R282, R391): a host agent's access to HBM, its store to host memory, or its store to the window BAR2. What a host agent stores
to a line that it holds is stored at once (DESIGN CHOICE, log 104). -/
def execHostMemAccess (p : PartId) (addr : Nat) (op : HostOp) (len : Nat) (s : State) : Outcome State Fault Refusal :=
  let n := match op.write with | some bs => bs.length | none => len
  let bytes := (op.write.getD []).zipIdx.map fun x => (addr + x.2, x.1)
  match op.way with
  | .own => .next { s with host := s.host.writeAll bytes false }
  | .bar2 => event "HOST_MEM_ACCESS" (decide (addr + n ≤ 16777216) && !s.pmc.off) s fun s => s.updPmc fun x => { x with bar2 := x.bar2.writeAll bytes false }
  | .hbm keeps => event "HOST_MEM_ACCESS" ((s.parts[p]).hostPa addr n).isSome s fun s =>
      hostHbm s p (((s.parts[p]).hostPa addr n).getD 0) n op.write keeps

end Sys2Proof.Machine
end

