-- ==== Sys2Proof/Machine/Security.lean ====
section
/-!
DEFINITION. Host registers and the mailbox (R386–R389, R398), the firmware image (R390, R391), identity and attestation (R392, R393), power states
(R394), security states and debug (R395, R396), reset and bring-up (R397).
-/
namespace Sys2Proof.Machine

open Host

-- the mailbox (R398)

/-- The mailbox accepts a command: READY, none running (R397, R398). -/
def Pmc.accepts (p : Pmc) : Bool := p.stage == 8 && !p.busy && !p.off

/-- A mailbox command: ignored where none is accepted; refused with ERR 9, leaving what `refused` says; else performed, with a result that the spec does
not state. -/
def mbox (s : State) (f : State → Option State) (refused : State → State := id) : Outcome State Fault Refusal :=
  if !s.pmc.accepts then .next s
  else
    let d := s.draw
    let s := d.2.updPmc fun p => { p with err := 0, res := Config.freeWord d.1 }
    match f s with
    | some s' => .next s'
    | none => .next ((refused s).updPmc fun p => { p with err := 9 })

def State.arg (s : State) (i : Nat) : Word := s.pmc.args.toArray.getD i 0

-- partition reset (R389)

/-- Step 1: every task and queued task ends, and every queue entry that has not begun goes. -/
def endTasks (s : State) (p : PartId) : State :=
  (s.coresOf p).foldl (fun s c => (removeQueued (killTask s c none) c).updCore c Core.dropEntries) s

/-- Step 2: order states and held blocks, and rounds (R297, R302). -/
def endOrders (s : State) (p : PartId) : State :=
  let cs := (s.coresOf p).map (·.val)
  let tags := ((s.dies.toList.flatMap fun d => d.rounds.filter fun r => r.cores.any cs.contains).map (·.tag)).eraseDups
  let s := tags.foldl State.abortTag s
  { s with ords := s.ords.filter fun o => !cs.contains o.core, reqs := s.reqs.filter fun r => !(r.held && cs.contains r.core) }

/-- The leaves of level 3 in a table of the partition and those below it (R363). -/
def State.leavesIn (s : State) (p : PartId) : Nat → Nat → Nat → List Word
  | 0, _, _ => []
  | fuel + 1, level, table =>
    (List.range (match level with | 1 => 2 ^ 18 | 2 => 512 | _ => 32)).flatMap fun ix =>
      match s.tableWord p (table + 8 * ix) with
      | some (w, false) =>
        if !w.getLsbD 63 then [] else if w.getLsbD 62 then (if level = 3 then [w] else []) else s.leavesIn p fuel (level + 1) (fldUp w 51 8 8)
      | _ => []

/-- The SYE pages of SRAM that a translation names. -/
def syeLeaf (w : Word) : Option (Nat × Nat) :=
  if leafOk w && leafKind w == 2 && decide (leafPage w < 64) then some (leafDie w, leafPage w) else none

/-- The partition's SYE pages of SRAM, die and page: those that its page tables map, and those of its cached translations. -/
def State.syePages (s : State) (p : PartId) : List (Nat × Nat) :=
  let cached := ((s.coresOf p).flatMap fun c => (s.cores[c]).tlb ++ (s.cores[c]).ceTlb).map (·.2)
  let mapped := if s.hbmSize p = 0 then [] else s.leavesIn p 3 1 (s.parts[p]).ptroot.toNat
  ((cached ++ mapped).filterMap syeLeaf).eraseDups

/-- A core's memories written with zeros (R241, R389 step 3); it belongs to no domain any more. -/
def Core.wipe (c : Core) : Core := { c.onCtx (fun x => { x with domIn := Vector.replicate 6 0 }) with pool := Mem.empty, rows := Mem.empty, tlb := [], ceTlb := [] }

/-- Step 3: zeros, and no cached translation. -/
def wipePart (s : State) (p : PartId) : State :=
  let pages := s.syePages p
  let s := pages.foldl (fun s g => s.updDie (dieIx g.1) fun d =>
    { d with sram := d.sram.putBack [(65536 * g.2, 65536 * g.2 + 65536)] Mem.empty }) s
  (s.coresOf p).foldl (fun s c => s.updCore c Core.wipe) s

/-- Step 4: the message queues. -/
def Part.cleared (x : Part) : Part :=
  { x with cqhwi := 0, cqdri := 0, cqover := false, cqlast := 0, eqdwi := 0, eqhri := 0, dropped := 0, dropRep := 0 }

/-- A reset begins: steps 1 and 2; begun work goes on. LAUNCH is closed until the reset is complete, within 5 ms. -/
def beginReset (s : State) (p : PartId) (set : Option PartSet) : State :=
  let d := s.draw
  let now := s.gcnt.toNat
  ((endOrders (endTasks d.2 p) p).updPart p fun x =>
    { x with resetEnd := some (now + Config.freeDelay d.1 % 4999996), resetBy := now + 4999996, resetTo := set }).updPmc fun x => { x with busy := true }

/-- PARTRESET (R389). -/
def execPartreset (s : State) : Outcome State Fault Refusal :=
  mbox s fun s => if 12 ≤ (s.arg 0).toNat then none else some (beginReset s (partIx (s.arg 0).toNat) none)

/-- Begun work of the partition's cores is complete, but for reductions held for their order. -/
def State.partDone (s : State) (p : PartId) : Bool :=
  (s.coresOf p).all fun c => (s.cores[c]).workDone && !(s.atoms.any fun a => a.core = c.val) && !(s.reqs.any fun r => r.core = c.val && !r.held)

/-- A reset is complete: its tick has come and begun work is done, or its time is up (DESIGN CHOICE, log 102). -/
def State.resetDone (s : State) (p : PartId) : Bool :=
  match (s.parts[p]).resetEnd with
  | some t => (decide (t ≤ s.gcnt.toNat) && s.partDone p) || decide ((s.parts[p]).resetBy ≤ s.gcnt.toNat)
  | none => false

/-- Work of a core that is left when its partition's reset must be complete is dropped. -/
def Core.stopWork (c : Core) : Core :=
  { (c.onCtx fun x => { x with queues := x.queues.map fun q => { q with entries := [] }, mxe := { x.mxe with ops := [], running := [] }, af := Af.empty }) with
    endWrites := [], credits := [], reports := [], ev := [], portBusy := [] }

def stopWork (s : State) (p : PartId) : State :=
  let cs := (s.coresOf p).map (·.val)
  let s := (s.coresOf p).foldl (fun s c => s.updCore c Core.stopWork) s
  { s with atoms := s.atoms.filter fun a => !cs.contains a.core, reqs := s.reqs.filter fun r => !cs.contains r.core }

-- PARTSET (R387)

/-- PCTL as stored. -/
def pctlMask (v : Word) : Word := v &&& 0xC000000FFFFFFFFF

/-- A PCTL that R387 refuses. -/
def pctlRefused (s : State) (p : PartId) (v : Word) : Bool :=
  v.getLsbD 63 && (fld v 11 0 == 0 ||
    (List.finRange 12).any fun q => q != p && (s.parts[q]).en && ((s.parts[q]).pctl &&& v &&& 0xFFFFFFFFF != 0))

/-- PAT entries written one after another; the stack of the first that is refused. -/
def writePat (s : State) : List (BitVec 3 × BitVec 7 × BitVec 64) → Except StackId State
  | [] => .ok s
  | e :: r =>
    let k := stackIx e.1.toNat
    if patRefused s k e.2.1.toNat (patMask e.2.2) then .error k
    else writePat (s.updStack k fun x => { x with pat := x.pat.setIfInBounds e.2.1.toNat (patMask e.2.2) }) r

/-- The units or ports of a PCTL change. -/
def unitsChange (a b : Word) : Bool := a &&& 0xFFFFFFFFF != b &&& 0xFFFFFFFFF

def PartSet.apply (y : PartSet) (x : Part) : Part := { x with pctl := y.pctl, hmrange := y.hmrange, hbmpart := y.hbmpart }

/-- What a PARTSET sets. -/
def setPart (s : State) (p : PartId) (y : PartSet) : State :=
  let s := (writePat s y.pat).toOption.getD s
  let old := fld (s.parts[p]).hbmpart 9 8
  (if old = fld y.hbmpart 9 8 then s else s.newSplit p old).updPart p y.apply

/-- Steps 3 and 4 (R389), and what a PARTSET has to set; the cores that the partition gains are cleared too (R241). -/
def endReset (s : State) (p : PartId) : State :=
  let s := wipePart (stopWork (endOrders s p) p) p
  let s := match (s.parts[p]).resetTo with | some y => wipePart (setPart s p y) p | none => s
  let s := s.updPart p fun x => { x.cleared with resetEnd := none, resetTo := none }
  s.updPmc fun x => { x with busy := s.parts.toList.any fun y => y.resetEnd.isSome }

/-- PARTITION_RESET_COMPLETE (R389). -/
def execPartitionResetComplete (p : PartId) (s : State) : Outcome State Fault Refusal :=
  event "PARTITION_RESET_COMPLETE" (s.resetDone p) s fun s => endReset s p

/-- PARTSET (R387, R371, R373): arguments p, PCTL, HMRANGE, HBMPART in MBOXARG0–3, and the PAT entries. Where it is refused, so far as it got: the
state with PATERR set for a PAT entry or an HBMPART that is refused (R381). Tenant keys are set while the part is not in maintenance (R395). -/
def partset (s : State) (x : PartsetArgs) : Except State State :=
  if 12 ≤ (s.arg 0).toNat then .error s
  else
    let p := partIx (s.arg 0).toNat
    let v := pctlMask (s.arg 1)
    let old := (s.parts[p]).pctl
    let change := unitsChange old v || old.getLsbD 63 != v.getLsbD 63
    if pctlRefused s p v then .error s
    else
      let y : PartSet := ⟨v, s.arg 2 &&& 0x8000FFFFFFFFFFFF, hbmpartMask (s.arg 3), x.pat⟩
      match writePat (if change then endTasks s p else s) x.pat with
      | .error k => .error (s.patErr k)
      | .ok s1 =>
        if hbmpartRefused s1 p y.hbmpart then .error (s.hbmpartErr p)
        else .ok ((if change then beginReset s p (some y) else setPart s p y).updPart p fun z =>
          if s.pmc.maint then z else { z with tenant := x.tenant.getD z.tenant })

/-- PARTSET (R387). -/
def execPartset (x : PartsetArgs) (s : State) : Outcome State Fault Refusal :=
  mbox s (fun s => (partset s x).toOption) fun s => match partset s x with | .error t => t | .ok _ => s

-- the firmware image (R390, R391)

/-- SVNCOMMIT (R391): FUSECTR rises to the running image's SVN. -/
def execSvncommit (s : State) : Outcome State Fault Refusal :=
  mbox s fun s => some (s.updPmc fun p => { p with fusectr := if p.fusectr.toNat < p.svn.toNat then p.svn else p.fusectr })

/-- d of an image (R391). -/
def imageDigest (im : List Byte) (body : Nat) : List Byte := Config.sha3_512 (im.take 2000 ++ (im.drop 5376).take body)

/-- The verdict on an image: none accepts it, else the ERR code, in the order of precedence of R391. -/
def verifyImage (im : List Byte) (fusectr : Nat) : Option Nat :=
  let body := leNat ((im.drop 12).take 4)
  let svn := leNat ((im.drop 8).take 4)
  let headOk := decide (leNat (im.take 4) = 0x3231584A) && decide (leNat ((im.drop 4).take 4) = 1) && decide (1 ≤ svn) && decide (svn ≤ 64) &&
    decide (1 ≤ body) && decide (body ≤ 16771840) && ((im.drop 5373).take 3).all (fun b => b == 0) && decide (5376 + body ≤ im.length)
  let d := imageDigest im body
  let keys := (im.drop 16).take 1984
  let e1 := Config.ed25519Verify ((im.drop 16).take 32) d ((im.drop 2000).take 64)
  let e2 := Config.mldsaVerify ((im.drop 48).take 1952) d ((im.drop 2064).take 3309)
  if !headOk then some 6
  else if Config.sha3_512 keys != Config.fusedKeyHash then some 4
  else if !e1 && !e2 then some 3
  else if !e1 then some 1
  else if !e2 then some 2
  else if svn < fusectr then some 5
  else none

/-- An image is presented to the ROM or to the loader (R391): it boots, or the recovery loader waits with its ERR. -/
def present (s : State) (im : List Byte) : State :=
  match verifyImage im s.pmc.fusectr.toNat with
  | some e => s.updPmc fun p => { p with err := BitVec.ofNat 8 e, stage := 2 }
  | none => s.updPmc fun p =>
    { p with err := 0, stage := 3, stageAt := s.gcnt.toNat, svn := BitVec.ofNat 8 (leNat ((im.drop 8).take 4)),
             keys := (im.drop 16).take 1984, digest := imageDigest im (leNat ((im.drop 12).take 4)) }

/-- RECOVER (R391, R398): the image in BAR2, of the length in MBOXARG0, verified by the waiting loader; refused where no loader waits. -/
def execRecover (s : State) : Outcome State Fault Refusal :=
  if s.pmc.stage == 2 && !s.pmc.off then .next (present s (s.pmc.bar2.bytes 0 (min 16777216 (s.arg 0).toNat))) else mbox s fun _ => none

/-- IDEKEY (R385). -/
def execIdekey (s : State) : Outcome State Fault Refusal :=
  mbox s fun s => some (s.updPmc fun p => { p with idekeys := p.idekeys ++ [(s.arg 0, s.arg 1)] })

-- identity and attestation (R392, R393)

def asciiBytes (x : String) : List Byte := x.toList.map fun c => BitVec.ofNat 8 c.toNat

/-- Seeds of the four key pairs (R392). -/
def idSeed (ml : Bool) : List Byte := Config.shake256 (Config.uniqueSecret ++ asciiBytes (if ml then "ID-ML" else "ID-ED")) 32
def aliasSeed (ml : Bool) (d : List Byte) : List Byte := Config.shake256 (Config.uniqueSecret ++ asciiBytes (if ml then "AL-ML" else "AL-ED") ++ d) 32

def wordBytes (w : Word) : List Byte := (List.range 8).map fun i => BitVec.ofNat 8 (w.toNat / 256 ^ i)

/-- The Alias keys and their certificates (R392). -/
def aliasPart (d : List Byte) : List (List Byte) :=
  let ed := Config.edPublic (aliasSeed false d)
  let ml := Config.mldsaPublic (aliasSeed true d)
  let cert := Config.layout [ed, ml, d]
  [ed, ml, Config.edSign (idSeed false) cert, Config.mldsaSign (idSeed true) cert]

/-- The security state (R395, R398): 2 maintenance, 1 tenanted (some partition holds a tenant debug key), 0 provisioned. -/
def State.secState (s : State) : Nat := if s.pmc.maint then 2 else if s.parts.toList.any fun x => !x.tenant.isEmpty then 1 else 0

/-- What a report holds before its signatures (R393). -/
def reportBody (s : State) (p : PartId) : List (List Byte) :=
  let x := s.parts[p]
  [x.nonce.toList.flatMap wordBytes, s.pmc.digest, wordBytes (s.pmc.svn.zeroExtend 64), wordBytes (s.pmc.fusectr.zeroExtend 64),
    wordBytes (BitVec.ofNat 64 s.secState), wordBytes (if s.pmc.vendor then 2 else x.dbg.zeroExtend 64), wordBytes x.pctl, wordBytes x.hmrange,
    wordBytes x.hbmpart, wordBytes x.ptroot] ++
  ((List.finRange 8).flatMap fun k => ((s.hbms[k]).pat.toList.filter fun w => patValid w && patDom w == p.val).map wordBytes) ++
  [wordBytes s.gcnt] ++ aliasPart s.pmc.digest

/-- The report: what it holds, and both Alias signatures over the digest of everything before them. -/
def report (s : State) (p : PartId) : List Byte :=
  let body := Config.layout (reportBody s p)
  let h := Config.sha3_512 body
  Config.layout [body, Config.edSign (aliasSeed false s.pmc.digest) h, Config.mldsaSign (aliasSeed true s.pmc.digest) h]

/-- ATTESTATION_REQUEST (R393): ignored while a report is pending. -/
def execAttestationRequest (p : PartId) (v : BitVec 64) (s : State) : Outcome State Fault Refusal :=
  event "ATTESTATION_REQUEST" (v.getLsbD 63) s fun s =>
    if (s.parts[p]).attctl.getLsbD 63 then s else s.updPart p fun x => { x with attctl := v &&& 0x8000FFFFFFFFFFC0 }

/-- ATTESTATION_DURABLE (R393): the report stands in host memory. -/
def execAttestationDurable (p : PartId) (s : State) : Outcome State Fault Refusal :=
  event "ATTESTATION_DURABLE" ((s.parts[p]).attctl.getLsbD 63) s fun s =>
    let at_ := fldUp (s.parts[p]).attctl 47 6 6
    let bs := (report s p).zipIdx.map fun x => (at_ + x.2, x.1)
    { (s.updPart p fun x => { x with attctl := x.attctl &&& 0x7FFFFFFFFFFFFFFF }) with host := s.host.writeAll bs false }

-- power (R394, R397)

/-- The package after its reset or its power's removal: fuses and what lies outside it stay (R397). -/
def restartPackage (s : State) (off : Bool) : State :=
  { State.reset with
    host := s.host, inputs := s.inputs, draws := s.draws, pmc := { Pmc.reset with off := off, fusectr := s.pmc.fusectr, bar2 := s.pmc.bar2 } }

/-- Every core of the package holds no task. -/
def State.noTasks (s : State) : Bool := (List.finRange 12).all fun p => !(s.parts[p]).en || !s.holdsTask p

/-- A3: cores off, their memories lost; TENANT sessions suspended (R394, R395). -/
def enterA3 (s : State) : State :=
  { (s.updPmc fun p => { p with a3 := true }) with
    cores := s.cores.map fun c => { c.wipe with power := .off, imem := Mem.empty }, parts := s.parts.map fun x => { x with dbg := 0 } }

def leaveA3 (s : State) : State :=
  { (s.updPmc fun p => { p with a3 := false }) with cores := s.cores.map fun c => { c with power := .a0 } }

/-- POWER (R394). -/
def execPower (target : PowerTo) (s : State) : Outcome State Fault Refusal :=
  mbox s fun s => match target with
    | .a0 => some (if s.pmc.a3 then leaveA3 s else s)
    | .a3 => if s.pmc.a3 then some s else if s.noTasks && isDetached s.pmc.cfl then some (enterA3 s) else none
    | .off => some (restartPackage s true)

/-- RESET (R397). -/
def execReset (s : State) : Outcome State Fault Refusal := mbox s fun s => some (restartPackage s false)

/-- POWER_LOSS (R394). -/
def execPowerLoss (s : State) : Outcome State Fault Refusal := .next (restartPackage s true)

/-- POWER_GOOD (R397): stage 0. -/
def execPowerGood (s : State) : Outcome State Fault Refusal :=
  event "POWER_GOOD" s.pmc.off s fun s => restartPackage s false

/-- A stack that has failed its stage is left out; its BANKFAIL shows it (R397): the number that it then shows is not stated, a free value from 1 to
255 (log 103). -/
def Stack.leave (k : Stack) (draw : Nat) : Stack := { k with present := false, bankfail := 1 + Config.freeDelay draw % 255 }

/-- What the boot self-test does with the failing rows that it finds: they leave the free set; a bank with too few good rows is retired (R382, R397). -/
def Stack.bootTest (k : Stack) (pick : Nat) (rows : List (Nat × Nat × Nat)) : Stack :=
  ((rows.map fun r => (r.1 % 512, r.2.1 % 16)).eraseDups).foldl (fun k b =>
    let fails := (rows.filterMap fun r => if r.1 % 512 = b.1 ∧ r.2.1 % 16 = b.2 ∧ r.2.2 < 6208 then some r.2.2 else none).eraseDups
    let k := k.repair pick b.1 b.2 fails
    if k.tooFew b.1 b.2 then { k with bankfail := min 255 (k.bankfail + 1), retired := k.retired ++ [b] } else k) k

/-- The next stage of bring-up (R397). `out`: the firmware image; the stacks left out, with the rows in error; the dies with a failed link. -/
def bootStage (s : State) (ok : Bool) (out : BootOut) : State :=
  match s.pmc.stage.toNat with
  | 0 => s.updPmc fun p => { p with stage := 1 }
  | 1 => present s out.image
  | 3 => s.updPmc fun p => { p with stage := 4 }
  | 4 => if ok then s.updPmc fun p => { p with stage := 5 } else s.updPmc fun p => { p with stage := 9, err := 8, dies := out.mask.truncate 4 }
  | 5 => { (s.updPmc fun p => { p with stage := 6, hbms := out.mask, err := if out.mask = 0 then p.err else 7 }) with
      draws := s.draws + 8,
      hbms := Vector.ofFn fun (k : Fin 8) =>
        let x := { s.hbms[k] with slots := roundOf s.gcnt.toNat 3900, winEnd := s.gcnt.toNat + 32000000, nextTemp := (s.gcnt.toNat / 10000 + 1) * 10000 }
        if out.mask.getLsbD k.val then x.leave (s.draws + k.val) else x }
  | 6 => { (s.updPmc fun p => { p with stage := 7, hbms := p.hbms ||| out.mask }) with
      draws := s.draws + 8,
      hbms := Vector.ofFn fun (k : Fin 8) =>
        let x := (s.hbms[k]).bootTest (s.draws + k.val) ((out.rows.filter fun r => r.1 = k.val).map (·.2))
        if (s.hbms[k]).present && out.mask.getLsbD k.val then x.leave (s.draws + k.val) else x
      dies := s.dies.map fun d => { d with ports := d.ports.map fun q => { q with state := 1 } } }
  | 7 => { (s.updPmc fun p => { p with stage := 8, nextSample := (s.gcnt.toNat / 10000 + 1) * 10000 }) with
      dies := s.dies.map fun d => { d with ports := d.ports.map fun q => if q.state = 1 then { q with state := 3 } else q } }
  | _ => s

/-- The time bound of a stage in ticks (R397). -/
def stageBound (stage : Nat) : Nat := ([100, 40, 0, 20, 10, 300, 800, 200] : List Nat).getD stage 0 * 1000000

/-- A stage has used up its time, less the ticks of a cycle. -/
def State.stageLate (s : State) : Bool :=
  !s.pmc.off && s.pmc.stage != 2 && decide (s.pmc.stage.toNat < 8) && decide (s.pmc.stageAt + stageBound s.pmc.stage.toNat ≤ s.gcnt.toNat + 4)

/-- What it then brings. -/
def State.stageOut (s : State) : Bool × BootOut := (Config.bootOk s.draws, Config.bootOut s.draws)

/-- BOOT_STAGE_COMPLETE (R397, R391). -/
def execBootStageComplete (ok : Bool) (out : BootOut) (s : State) : Outcome State Fault Refusal :=
  event "BOOT_STAGE_COMPLETE" (!s.pmc.off && s.pmc.stage != 2 && s.pmc.stage.toNat < 8) s fun s =>
    (bootStage s ok out).updPmc fun p => { p with stageAt := s.gcnt.toNat }

/-- A core without task, queued task or work under way (R394). -/
def Core.workless (c : Core) : Bool := c.run == .idle && c.queue.isEmpty && c.workDone && !c.halted && !c.haltReq

/-- CORE_IDLE_A1 (R394). -/
def execCoreIdleA1 (c : CoreId) (s : State) : Outcome State Fault Refusal :=
  event "CORE_IDLE_A1" ((s.cores[c]).power == .a0 && (s.cores[c]).workless) s fun s =>
    s.updCore c fun x => { x with power := .a1, idleAt := s.gcnt.toNat }

/-- A2_ENTRY (R394): after 1 ms; bands off, SHAPE kept. -/
def execA2Entry (c : CoreId) (s : State) : Outcome State Fault Refusal :=
  event "A2_ENTRY" ((s.cores[c]).power == .a1 && (s.cores[c]).workless && decide ((s.cores[c]).idleAt + 1000000 ≤ s.gcnt.toNat)) s fun s =>
    s.updCore c fun x => { (x.onMxe fun m => { m with bands := Vector.replicate 4 Band.off }) with power := .a2 }

/-- A sleeping core is to wake: for a task, a SPAWN or a debug access (R394). -/
def Core.wakeDue (c : Core) : Bool := (c.power == .a1 || c.power == .a2) && (!c.queue.isEmpty || c.haltReq || c.wake)

/-- CORE_WAKE (R394): from A2 the set bands rise (R202). -/
def execCoreWake (c : CoreId) (s : State) : Outcome State Fault Refusal :=
  event "CORE_WAKE" (s.cores[c]).wakeDue s fun s =>
    let d := s.draw
    let t := (s.coreGcnt c).toNat + Config.freeDelay d.1 % 2001
    d.2.updCore c fun x =>
      let y := if x.power = .a2 then x.onMxe fun m => { m with bands := bandsTo m.bands x.ctx.spr.shape t } else x
      { y with power := .a0, wake := false }

-- debug (R395, R396)

/-- The state in which tenant keys and sessions of a partition end. -/
def Part.lock (x : Part) : Part := { x with tenant := [], dbg := 0, nonce := Vector.replicate 4 0 }

/-- A token bears both signatures under two public keys, Ed25519 and ML-DSA-65 (R391, R395). The token's layout is the part's (log 54). -/
def signedBy (keys token : List Byte) : Bool :=
  let t := Config.tokenParts token
  Config.ed25519Verify (keys.take 32) t.1 t.2.1 && Config.mldsaVerify (keys.drop 32) t.1 t.2.2

/-- The token in host memory, at the address in MBOXARG2. -/
def State.token (s : State) : List Byte := s.host.bytes (s.arg 2).toNat Config.tokenLen

/-- DEBUG (R395): level, partition and the token's address in MBOXARG0–2. A TENANT token is signed by the partition's keys, a VENDOR token by those of
the running firmware image. -/
def debug (s : State) : Option State :=
  match (s.arg 0).toNat with
  | 0 => if 12 ≤ (s.arg 1).toNat then none else some ((s.updPart (partIx (s.arg 1).toNat) fun x => { x with dbg := 0 }).updPmc fun p => { p with vendor := false })
  | 1 =>
    if 12 ≤ (s.arg 1).toNat then none
    else
      let p := partIx (s.arg 1).toNat
      if s.secState = 1 && (s.parts[p]).en && !(s.parts[p]).tenant.isEmpty && signedBy (s.parts[p]).tenant s.token then
        some (s.updPart p fun x => { x with dbg := 1 })
      else none
  | 2 =>
    if !signedBy s.pmc.keys s.token then none
    else
      let s := (List.finRange 12).foldl (fun s p => if (s.parts[p]).en then endTasks s p else s) s
      some (({ s with parts := s.parts.map Part.lock } : State).updPmc fun p => { p with maint := true, vendor := true })
  | _ => none

/-- DEBUG (R395). -/
def execDebug (s : State) : Outcome State Fault Refusal := mbox s debug

/-- Highest level of any session (R398). -/
def State.dbgLevel (s : State) : Nat := if s.pmc.vendor then 2 else if s.parts.toList.any fun x => x.dbg != 0 then 1 else 0

/-- A session may use the partition's debug registers. -/
def State.session (s : State) (p : PartId) : Bool := s.pmc.vendor || (s.parts[p]).dbg != 0

/-- The core of a partition-relative index. -/
def State.relCore (s : State) (p : PartId) (i : Nat) : Option CoreId := (s.coresOf p)[i]?

/-- A debug access wakes a sleeping core (R395). -/
def Core.rouse (c : Core) : Core := if c.power == .a1 || c.power == .a2 then { c with wake := true } else c

/-- A DBGCTL write of the session owner: its CORE field, and a request of the core named; a core outside the partition is refused (R395). -/
def dbgCtl (s : State) (p : PartId) (v : Word) (f : Core → Core) : State :=
  if !s.session p then s
  else match s.relCore p (fld v 6 0) with
    | none => s.updPart p fun x => { x with dbgref := true }
    | some c => (s.updPart p fun x => { x with dbgcore := v.truncate 7 }).updCore c fun x => f x.rouse

/-- DBG_HALT (R396). -/
def execDbgHalt (p : PartId) (v : BitVec 64) (s : State) : Outcome State Fault Refusal :=
  event "DBG_HALT" (v.getLsbD 63) s fun s =>
    dbgCtl s p v fun x => if x.halted then x else { x with haltReq := true, stepReq := false }

/-- The halt can be taken: at a bundle boundary; after a STEP, once its bundle and its results are complete (R353, R396). -/
def haltDue (s : State) (c : CoreId) : Bool :=
  let x := s.cores[c]
  x.moves && x.power == .a0 && x.haltReq && !x.halted && (x.run == .idle || x.run == .running) && x.ptrap.isNone && x.nextTrap.isNone &&
    (if x.stepReq then x.bundles.isEmpty && x.flights.isEmpty && s.settled c else s.settled c)

/-- DEBUG_HALT_TAKEN (R396, R353). -/
def execDebugHaltTaken (c : CoreId) (s : State) : Outcome State Fault Refusal :=
  event "DEBUG_HALT_TAKEN" (haltDue s c) s fun s =>
    s.updCore c fun x =>
      let y := if x.run = .running then (let r := x.cut; r.1.position r.2) else x
      { y with halted := true, haltReq := false, stepReq := false }

/-- A halted core goes on (R81 step 4): for one bundle, the first of its next task where it runs none, or until it is halted again. -/
def Core.debugOn (c : Core) (step : Bool) : Core :=
  if c.halted then { c.reinject with halted := false, haltReq := false, stepReq := step } else c

/-- DBG_STEP (R396). -/
def execDbgStep (p : PartId) (v : BitVec 64) (s : State) : Outcome State Fault Refusal :=
  event "DBG_STEP" (v.getLsbD 62 && !v.getLsbD 63) s fun s => dbgCtl s p v fun x => x.debugOn true

/-- DBG_RESUME (R396). -/
def execDbgResume (p : PartId) (v : BitVec 64) (s : State) : Outcome State Fault Refusal :=
  event "DBG_RESUME" (v.getLsbD 61 && !v.getLsbD 62 && !v.getLsbD 63) s fun s => dbgCtl s p v fun x => x.debugOn false

/-- What DBGDATA reads of a halted core (R396): a pool word, a scalar, half of a 16-byte word of a vector (which half is free, log 55), a special
register. -/
def dbgRead (s : State) (c : CoreId) (a : Word) (half : Bool) : Word :=
  let x := s.cores[c]
  let i := fld a 59 0
  match fld a 63 60 with
  | 0 => x.pool.word (i % 2 ^ 24)
  | 1 => if i < 64 then x.rs (BitVec.ofNat 6 i) else 0
  | 2 => if i < 512 then BitVec.ofNat 64 ((x.rv (BitVec.ofNat 6 (i / 8))).toNat / 2 ^ (128 * (i % 8) + if half then 64 else 0)) else 0
  | 3 => if i < 1024 then sprRead s c x.tagNow i else 0
  | _ => 0

def dbgWrite (c : Core) (a v : Word) (half : Bool) : Core :=
  let i := fld a 59 0
  match fld a 63 60 with
  | 0 => { c with pool := c.pool.writeAll (leBytes (i % 2 ^ 24) 8 v.toNat) false }
  | 1 => if i < 64 then c.setReg (.s (BitVec.ofNat 6 i)) (v.zeroExtend 2048) else c
  | 2 =>
    if i < 512 then
      let r : Reg := .v (BitVec.ofNat 6 (i / 8))
      let sh := 128 * (i % 8) + if half then 64 else 0
      c.setReg r ((c.getReg r &&& ~~~(lowMask 64 <<< sh)) ||| (v.zeroExtend 2048 <<< sh))
    else c
  | 3 => if i < 1024 then c.setReg (.spr (BitVec.ofNat 10 i)) (v.zeroExtend 2048) else c
  | _ => c

/-- DBGDATA_ACCESS (R395, R396): refused unless the core named is halted; it wakes a sleeping one. -/
def execDbgdataAccess (p : PartId) (write : Option (BitVec 64)) (s : State) : Outcome State Fault Refusal :=
  if !s.session p then .next s
  else
    let x := s.parts[p]
    let d := s.draw
    let half := Config.freeBool d.1
    .next (match s.relCore p x.dbgcore.toNat with
      | none => s.updPart p fun x => { x with dbgref := true }
      | some c =>
        if !(s.cores[c]).halted then (s.updPart p fun x => { x with dbgref := true }).updCore c Core.rouse
        else match write with
          | some v => (d.2.updCore c fun y => dbgWrite y x.dbgaddr v half).updPart p fun x => { x with dbgdata := v }
          | none => d.2.updPart p fun x => { x with dbgdata := dbgRead s c x.dbgaddr half })

/-- What a read of DBGSTAT returns (R396). -/
def dbgStat (s : State) (p : PartId) : Word :=
  let x := s.parts[p]
  let h := match s.relCore p x.dbgcore.toNat with | some c => (s.cores[c]).halted | none => false
  mkWord [(if h then 1 else 0, 63), (if x.dbgref then 1 else 0, 62), (x.dbgcore.toNat, 0)]

/-- DBGSTAT_READ (R396). -/
def execDbgstatRead (p : PartId) (s : State) : Outcome State Fault Refusal :=
  .next (if s.session p then s.updPart p fun x => { x with dbgref := false } else s)

-- BAR0 (R386, R388)

/-- MBOXSTAT (R398). -/
def State.mboxstat (s : State) : Word :=
  let p := s.pmc
  mkWord [(p.stage.toNat, 60), (s.secState, 58), (s.dbgLevel, 56), (if p.a3 then 1 else 0, 55), (if p.busy then 1 else 0, 54), (p.err.toNat, 40),
    (p.svn.toNat, 32), (p.fusectr.toNat, 24), (p.hbms.toNat, 8), (p.dies.toNat, 0)]

/-- What a read of the PMC block returns (R398, R328, R383). -/
def pmcRead (s : State) (r : Nat) : Word :=
  match r with
  | 0x000 => s.mboxstat
  | 0x050 => s.pmc.res
  | 0x100 => s.pmc.cflcfg
  | 0x200 => s.pmc.ckptctl
  | 0x208 => s.pmc.ckptdst
  | 0x210 => s.pmc.ckptstat
  | _ => if 0x010 ≤ r ∧ r ≤ 0x048 ∧ r % 8 = 0 then s.arg ((r - 0x010) / 8) else 0

/-- What a read of partition p's block returns (R388, R367); LAUNCH shows GO while the partition resets (R389); the debug registers belong to a
session. -/
def partRead (s : State) (p : PartId) (r : Nat) : Word :=
  let x := s.parts[p]
  match r with
  | 0x000 => x.pctl
  | 0x008 => if x.resetEnd.isSome then x.launch ||| 1 else x.launch
  | 0x010 => x.ptroot
  | 0x020 => x.hbmpart
  | 0x028 => x.hmrange
  | 0x040 => x.cqbase
  | 0x048 => x.cqn.zeroExtend 64
  | 0x050 => x.cqhwi.zeroExtend 64
  | 0x058 => x.cqdri.zeroExtend 64
  | 0x060 => mkWord [(if x.cqover then 1 else 0, 63), (x.cqlast.toNat, 0)]
  | 0x068 => x.eqbase
  | 0x070 => x.eqn.zeroExtend 64
  | 0x078 => x.eqdwi.zeroExtend 64
  | 0x080 => x.eqhri.zeroExtend 64
  | 0x088 => x.dropped.zeroExtend 64
  | 0x100 => if s.session p then x.dbgcore.zeroExtend 64 else 0
  | 0x108 => if s.session p then x.dbgaddr else 0
  | 0x110 => if s.session p then x.dbgdata else 0
  | 0x118 => if s.session p then dbgStat s p else 0
  | 0x200 => x.attctl
  | 0x208 => getAt x.nonce 0
  | 0x210 => getAt x.nonce 1
  | 0x218 => getAt x.nonce 2
  | 0x220 => getAt x.nonce 3
  | _ => 0

/-- What a read of a stack's block returns (R374, R381, R382, R371). -/
def stackRead (s : State) (k : StackId) (r : Nat) : Word :=
  let x := s.hbms[k]
  match r with
  | 0x000 => x.hbmcfg
  | 0x008 => x.status
  | 0x010 => x.bist
  | _ => if 0x400 ≤ r ∧ r ≤ 0x7F8 ∧ r % 8 = 0 then x.pat.toArray.getD ((r - 0x400) / 8) 0 else 0

/-- What a read of BAR0 returns (R386): every offset not listed reads as zero. The reads that clear something have rows of their own. -/
def State.bar0 (s : State) (r : HostReg) : Word :=
  let a := r.off.toNat
  match r.vf with
  | some p => if a < 0x10000 then partRead s p a else 0
  | none =>
    if a < 0x10000 then pmcRead s a
    else if 0x100000 ≤ a ∧ a < 0x100000 + 12 * 0x10000 then partRead s (partIx ((a - 0x100000) / 0x10000)) (a % 0x10000)
    else if 0x200000 ≤ a ∧ a < 0x200000 + 4 * 0x10000 then
      (if a % 0x10000 < 48 ∧ a % 8 = 0 then (((s.dies[dieIx ((a - 0x200000) / 0x10000)]).ports.toArray.getD (a % 0x10000 / 8) Port.reset)).status else 0)
    else if 0x300000 ≤ a ∧ a < 0x300000 + 8 * 0x10000 then stackRead s (stackIx ((a - 0x300000) / 0x10000)) (a % 0x10000)
    else 0

/-- Ring sizes lie in 4–16 (R367); another is not stored. -/
def ringSize (old : BitVec 5) (v : Word) : BitVec 5 := if 4 ≤ fld v 4 0 ∧ fld v 4 0 ≤ 16 then v.truncate 5 else old

/-- A write in the PMC block. -/
def pmcWrite (s : State) (r : Nat) (v : Word) : State :=
  if 0x010 ≤ r ∧ r ≤ 0x048 ∧ r % 8 = 0 then s.updPmc fun p => { p with args := setAt p.args ((r - 0x010) / 8) v }
  else if r = 0x008 then
    (if s.pmc.accepts && !(1 ≤ v.toNat && v.toNat ≤ 8) then s.updPmc fun p => { p with err := 9 } else s)
  else if r = 0x100 then s.writeCflcfg v
  else s

/-- A write in a partition's block. -/
def partWrite (s : State) (p : PartId) (r : Nat) (v : Word) : State :=
  match r with
  | 0x010 => if s.holdsTask p then s else s.updPart p fun x => { x with ptroot := v &&& 0x000FFFFFFFE00000 }
  | 0x040 => s.updPart p fun x => { x with cqbase := v &&& ~~~63 }
  | 0x048 => s.updPart p fun x =>
      let x := { x with cqn := ringSize x.cqn v }
      if v.getLsbD 8 then { x with cqhwi := 0, cqdri := 0, cqover := false, cqlast := 0 } else x.checkOver
  | 0x068 => s.updPart p fun x => { x with eqbase := v &&& ~~~63 }
  | 0x070 => s.updPart p fun x =>
      let x := { x with eqn := ringSize x.eqn v }
      if v.getLsbD 8 then { x with eqdwi := 0, eqhri := 0, dropped := 0, dropRep := 0 } else x
  | 0x100 => dbgCtl s p v fun c => c
  | 0x108 => if s.session p then s.updPart p fun x => { x with dbgaddr := v } else s
  | 0x200 => s.updPart p fun x => if x.attctl.getLsbD 63 then x else { x with attctl := v &&& 0x0000FFFFFFFFFFC0 }
  | 0x208 => s.updPart p fun x => { x with nonce := setAt x.nonce 0 v }
  | 0x210 => s.updPart p fun x => { x with nonce := setAt x.nonce 1 v }
  | 0x218 => s.updPart p fun x => { x with nonce := setAt x.nonce 2 v }
  | 0x220 => s.updPart p fun x => { x with nonce := setAt x.nonce 3 v }
  | _ => s

/-- REGISTER_WRITE (R386, R388), through function 0 or a virtual function: registers that have a row of their own are written by it; read-only ones,
those of access F, and offsets not listed, ignore writes. -/
def execRegisterWrite (r : HostReg) (v : BitVec 64) (s : State) : Outcome State Fault Refusal :=
  let a := r.off.toNat
  .next (match r.vf with
    | some p => if a < 0x10000 then partWrite s p a v else s
    | none =>
      if a < 0x10000 then pmcWrite s a v
      else if 0x100000 ≤ a ∧ a < 0x100000 + 12 * 0x10000 then partWrite s (partIx ((a - 0x100000) / 0x10000)) (a % 0x10000) v
      else s)

end Sys2Proof.Machine
end

