-- ==== Sys2Proof/Machine/Limiter.lean ====
section
/-!
DEFINITION. Weights of a core's cycle and the current limiter (R218, R261, R340–R342).
-/
namespace Sys2Proof.Machine

open Host

/-- A band is ready (R202). -/
def Band.ready (b : Band) : Bool := b == .on

/-- The operation latches weights, streams rows in this cycle, or writes output (R206, R218). -/
def MOp.latching (o : MOp) : Bool := match o.kind with | .mloadw _ => true | _ => false
def MOp.streaming (o : MOp) (cyc : Nat) : Bool :=
  match o.kind with
  | .mma _ => decide (o.at_ 24 ≤ cyc) && decide (cyc ≤ o.at_ o.lastRow)
  | .mouter _ _ => decide (o.at_ 0 ≤ cyc) && decide (cyc < o.at_ o.lastRow)
  | _ => false
def MOp.writing (o : MOp) : Bool := match o.kind with | .mout _ _ _ _ | .mzero => true | _ => false

/-- Bands that no running operation uses, and that are ready. -/
def Mxe.idleBands (m : Mxe) (cyc : Nat) : Nat :=
  ((List.finRange 4).filter fun b => (m.bands[b]).ready && !(m.running.any fun o => o.shape.getLsbD b.val && (o.latching || o.streaming cyc))).length

/-- Ready bands of an operation. -/
def Mxe.readyBands (m : Mxe) (o : MOp) : Nat := ((List.finRange 4).filter fun b => (m.bands[b]).ready && o.shape.getLsbD b.val).length

/-- Weight of the MXE in this cycle (R218). -/
def Core.mxeWeight (c : Core) : Nat :=
  let m := c.ctx.mxe
  m.running.foldl (fun n o =>
    n + (if o.latching then 8 * m.readyBands o else 0) + (if o.streaming c.cyc then 24 * m.readyBands o else 0) + (if o.writing then 6 else 0))
    (2 * m.idleBands c.cyc)

/-- Weight of the array-field words under way: an array carries 1 in each cycle of an AMVM step, and in the first cycle of each AF cycle of another
word (R261). -/
def Core.arWeight (c : Core) : Nat :=
  (c.ctx.af.words.filter fun w => match w.start with
    | none => false
    | some t => decide (t ≤ c.cyc) && decide (c.cyc < t + 2 * w.u) && (match w.work with
      | .amvm _ _ _ _ _ _ _ _ => true
      | .aacc _ _ _ _ => false
      | _ => decide ((c.cyc - t) % 2 = 0))).length

/-- S(t) of R340 with a weight for the present cycle. -/
def Core.windowSum (c : Core) (w : Nat) : Nat := (c.weights.take (c.ctx.spr.cwin.toNat - 1)).foldl (· + ·) w

/-- The limiter freezes this cycle, a later one of a split step among them (R340, R342). -/
def Core.limiterDue (c : Core) : Bool :=
  !c.stalled && c.ctx.spr.clim != 0 && decide (c.ctx.spr.clim.toNat < c.windowSum c.pred) && decide (c.frzRun < 15)

/-- CURRENT_LIMITER_FREEZE (R340). -/
def execCurrentLimiterFreeze (c : CoreId) (s : State) : Outcome State Fault Refusal :=
  event "CURRENT_LIMITER_FREEZE" (s.cores[c]).limiterDue s fun s => s.updCore c fun x =>
    { x with frozen := true, stalled := true, limHit := true, frzRun := x.frzRun + 1, limFrz := x.limFrz + 1 }

end Sys2Proof.Machine
end

