-- ==== Sys2Proof/Machine/Dispatch.lean ====
section
/-!
DEFINITION. One arm for every constructor of `Instr`: each is a direct call of its meaning.
-/
namespace Sys2Proof.Machine

open Host

def exec (i : Instr) (s : State) : Host.Outcome State Fault Refusal :=
  match i with
  | .nop => Sys2Proof.Machine.execNop s
  | .halt => Sys2Proof.Machine.execHalt s
  | .yield => Sys2Proof.Machine.execYield s
  | .trap code => Sys2Proof.Machine.execTrap code s
  | .rett => Sys2Proof.Machine.execRett s
  | .pbt bt off => Sys2Proof.Machine.execPbt bt off s
  | .pbtr bt sa => Sys2Proof.Machine.execPbtr bt sa s
  | .br bt cf sense => Sys2Proof.Machine.execBr bt cf sense s
  | .brAlways bt => Sys2Proof.Machine.execBrAlways bt s
  | .call bt => Sys2Proof.Machine.execCall bt s
  | .ret => Sys2Proof.Machine.execRet s
  | .cmp cf cond sa sb => Sys2Proof.Machine.execCmp cf cond sa sb s
  | .cmpi cf cond sa imm => Sys2Proof.Machine.execCmpi cf cond sa imm s
  | .cfop cfd cfa cfb op => Sys2Proof.Machine.execCfop cfd cfa cfb op s
  | .vany cf p w => Sys2Proof.Machine.execVany cf p w s
  | .vall cf p w => Sys2Proof.Machine.execVall cf p w s
  | .loop count off => Sys2Proof.Machine.execLoop count off s
  | .loopReg sa off => Sys2Proof.Machine.execLoopReg sa off s
  | .loopx n => Sys2Proof.Machine.execLoopx n s
  | .movsr sd spr => Sys2Proof.Machine.execMovsr sd spr s
  | .movrs sa spr => Sys2Proof.Machine.execMovrs sa spr s
  | .waitc n => Sys2Proof.Machine.execWaitc n s
  | .waitg sa => Sys2Proof.Machine.execWaitg sa s
  | .align mode => Sys2Proof.Machine.execAlign mode s
  | .phase level => Sys2Proof.Machine.execPhase level s
  | .spawn sa core => Sys2Proof.Machine.execSpawn sa core s
  | .abeat n => Sys2Proof.Machine.execAbeat n s
  | .add sd sa sb => Sys2Proof.Machine.execAdd sd sa sb s
  | .sub sd sa sb => Sys2Proof.Machine.execSub sd sa sb s
  | .and sd sa sb => Sys2Proof.Machine.execAnd sd sa sb s
  | .or sd sa sb => Sys2Proof.Machine.execOr sd sa sb s
  | .xor sd sa sb => Sys2Proof.Machine.execXor sd sa sb s
  | .shl sd sa sb => Sys2Proof.Machine.execShl sd sa sb s
  | .shr sd sa sb => Sys2Proof.Machine.execShr sd sa sb s
  | .sar sd sa sb => Sys2Proof.Machine.execSar sd sa sb s
  | .mul sd sa sb => Sys2Proof.Machine.execMul sd sa sb s
  | .mulh sd sa sb => Sys2Proof.Machine.execMulh sd sa sb s
  | .mulhu sd sa sb => Sys2Proof.Machine.execMulhu sd sa sb s
  | .div sd sa sb => Sys2Proof.Machine.execDiv sd sa sb s
  | .divu sd sa sb => Sys2Proof.Machine.execDivu sd sa sb s
  | .rem sd sa sb => Sys2Proof.Machine.execRem sd sa sb s
  | .remu sd sa sb => Sys2Proof.Machine.execRemu sd sa sb s
  | .min sd sa sb => Sys2Proof.Machine.execMin sd sa sb s
  | .max sd sa sb => Sys2Proof.Machine.execMax sd sa sb s
  | .minu sd sa sb => Sys2Proof.Machine.execMinu sd sa sb s
  | .maxu sd sa sb => Sys2Proof.Machine.execMaxu sd sa sb s
  | .sel sd sa sb cf => Sys2Proof.Machine.execSel sd sa sb cf s
  | .clz sd sa => Sys2Proof.Machine.execClz sd sa s
  | .popc sd sa => Sys2Proof.Machine.execPopc sd sa s
  | .addi sd sa imm => Sys2Proof.Machine.execAddi sd sa imm s
  | .andi sd sa imm => Sys2Proof.Machine.execAndi sd sa imm s
  | .ori sd sa imm => Sys2Proof.Machine.execOri sd sa imm s
  | .xori sd sa imm => Sys2Proof.Machine.execXori sd sa imm s
  | .shli sd sa imm => Sys2Proof.Machine.execShli sd sa imm s
  | .shri sd sa imm => Sys2Proof.Machine.execShri sd sa imm s
  | .sari sd sa imm => Sys2Proof.Machine.execSari sd sa imm s
  | .movi sd imm => Sys2Proof.Machine.execMovi sd imm s
  | .movk sd imm => Sys2Proof.Machine.execMovk sd imm s
  | .ld sd as size sx off => Sys2Proof.Machine.execLd sd as size sx off s
  | .st sa as size off => Sys2Proof.Machine.execSt sa as size off s
  | .lda sd as size scope => Sys2Proof.Machine.execLda sd as size scope s
  | .stl sa as size scope => Sys2Proof.Machine.execStl sa as size scope s
  | .aset as field sa => Sys2Proof.Machine.execAset as field sa s
  | .aget sd as field => Sys2Proof.Machine.execAget sd as field s
  | .fadd sd sa sb => Sys2Proof.Machine.execFadd sd sa sb s
  | .fsub sd sa sb => Sys2Proof.Machine.execFsub sd sa sb s
  | .fmul sd sa sb => Sys2Proof.Machine.execFmul sd sa sb s
  | .fma sd sa sb => Sys2Proof.Machine.execFma sd sa sb s
  | .fmin sd sa sb => Sys2Proof.Machine.execFmin sd sa sb s
  | .fmax sd sa sb => Sys2Proof.Machine.execFmax sd sa sb s
  | .fcmp sd sa sb cond => Sys2Proof.Machine.execFcmp sd sa sb cond s
  | .fcvtif sd sa => Sys2Proof.Machine.execFcvtif sd sa s
  | .fcvtfi sd sa rtz => Sys2Proof.Machine.execFcvtfi sd sa rtz s
  | .fneg sd sa => Sys2Proof.Machine.execFneg sd sa s
  | .fabs sd sa => Sys2Proof.Machine.execFabs sd sa s
  | .vadd w t vd va vb => Sys2Proof.Machine.execVadd w t vd va vb s
  | .vsub w t vd va vb => Sys2Proof.Machine.execVsub w t vd va vb s
  | .vmul w t vd va vb => Sys2Proof.Machine.execVmul w t vd va vb s
  | .vfma w t vd va vb => Sys2Proof.Machine.execVfma w t vd va vb s
  | .vmin w t vd va vb => Sys2Proof.Machine.execVmin w t vd va vb s
  | .vmax w t vd va vb => Sys2Proof.Machine.execVmax w t vd va vb s
  | .vminu w t vd va vb => Sys2Proof.Machine.execVminu w t vd va vb s
  | .vmaxu w t vd va vb => Sys2Proof.Machine.execVmaxu w t vd va vb s
  | .vand w t vd va vb => Sys2Proof.Machine.execVand w t vd va vb s
  | .vor w t vd va vb => Sys2Proof.Machine.execVor w t vd va vb s
  | .vxor w t vd va vb => Sys2Proof.Machine.execVxor w t vd va vb s
  | .vandn w t vd va vb => Sys2Proof.Machine.execVandn w t vd va vb s
  | .vshl w t vd va vb => Sys2Proof.Machine.execVshl w t vd va vb s
  | .vshr w t vd va vb => Sys2Proof.Machine.execVshr w t vd va vb s
  | .vsar w t vd va vb => Sys2Proof.Machine.execVsar w t vd va vb s
  | .vadds w t vd va vb => Sys2Proof.Machine.execVadds w t vd va vb s
  | .vsubs w t vd va vb => Sys2Proof.Machine.execVsubs w t vd va vb s
  | .vaddsc w t vd va sb => Sys2Proof.Machine.execVaddsc w t vd va sb s
  | .vmulsc w t vd va sb => Sys2Proof.Machine.execVmulsc w t vd va sb s
  | .vbcast w t vd sb => Sys2Proof.Machine.execVbcast w t vd sb s
  | .vmov w t vd va => Sys2Proof.Machine.execVmov w t vd va s
  | .vcmp w t cond pd va vb => Sys2Proof.Machine.execVcmp w t cond pd va vb s
  | .vsel w t vd va p => Sys2Proof.Machine.execVsel w t vd va p s
  | .vunary w t op vd va p => Sys2Proof.Machine.execVunary w t op vd va p s
  | .vsfu w t fn vd va p => Sys2Proof.Machine.execVsfu w t fn vd va p s
  | .vred w t op sd va p => Sys2Proof.Machine.execVred w t op sd va p s
  | .vscan w t op vd va p => Sys2Proof.Machine.execVscan w t op vd va p s
  | .vdot4 w t vd va vb => Sys2Proof.Machine.execVdot4 w t vd va vb s
  | .vdot2 w t vd va vb => Sys2Proof.Machine.execVdot2 w t vd va vb s
  | .vdot16 w t vd va vb => Sys2Proof.Machine.execVdot16 w t vd va vb s
  | .vcompress w t vd va p => Sys2Proof.Machine.execVcompress w t vd va p s
  | .vexpand w t vd va p => Sys2Proof.Machine.execVexpand w t vd va p s
  | .viota w t vd p => Sys2Proof.Machine.execViota w t vd p s
  | .vext w t sd va idx => Sys2Proof.Machine.execVext w t sd va idx s
  | .vins w t vd sa idx => Sys2Proof.Machine.execVins w t vd sa idx s
  | .vld w as vd off => Sys2Proof.Machine.execVld w as vd off s
  | .vst w as va off => Sys2Proof.Machine.execVst w as va off s
  | .vldp w as p vd off => Sys2Proof.Machine.execVldp w as p vd off s
  | .vstp w as p va off => Sys2Proof.Machine.execVstp w as p va off s
  | .vgather w t vd va as => Sys2Proof.Machine.execVgather w t vd va as s
  | .vscatter w t vs va as => Sys2Proof.Machine.execVscatter w t vs va as s
  | .xnet k vd va => Sys2Proof.Machine.execXnet k vd va s
  | .xnload k as => Sys2Proof.Machine.execXnload k as s
  | .xcvt src dst rnd sat vd va => Sys2Proof.Machine.execXcvt src dst rnd sat vd va s
  | .xcvth src dst rnd sat vd va => Sys2Proof.Machine.execXcvth src dst rnd sat vd va s
  | .xmx src dst rnd sat vd va => Sys2Proof.Machine.execXmx src dst rnd sat vd va s
  | .xmxd src dst rnd sat vd va => Sys2Proof.Machine.execXmxd src dst rnd sat vd va s
  | .xplane t planes rnd vd va => Sys2Proof.Machine.execXplane t planes rnd vd va s
  | .xunplane t planes rnd sat vd va => Sys2Proof.Machine.execXunplane t planes rnd sat vd va s
  | .xrng vd => Sys2Proof.Machine.execXrng vd s
  | .mdset md field sa => Sys2Proof.Machine.execMdset md field sa s
  | .mloadw md cb fmt => Sys2Proof.Machine.execMloadw md cb fmt s
  | .mma md cb => Sys2Proof.Machine.execMma md cb s
  | .mmaz md cb => Sys2Proof.Machine.execMmaz md cb s
  | .mouter md cba cbb h => Sys2Proof.Machine.execMouter md cba cbb h s
  | .mcommit batch => Sys2Proof.Machine.execMcommit batch s
  | .mwaitb batch => Sys2Proof.Machine.execMwaitb batch s
  | .mout md as dst rnd => Sys2Proof.Machine.execMout md as dst rnd s
  | .mzero md => Sys2Proof.Machine.execMzero md s
  | .mshape mask => Sys2Proof.Machine.execMshape mask s
  | .adset ad field sa => Sys2Proof.Machine.execAdset ad field sa s
  | .ast b ad as => Sys2Proof.Machine.execAst b ad as s
  | .ald b ad as => Sys2Proof.Machine.execAld b ad as s
  | .astv b ad va => Sys2Proof.Machine.execAstv b ad va s
  | .aldv b ad vd => Sys2Proof.Machine.execAldv b ad vd s
  | .amvm b ad as acc planes zero => Sys2Proof.Machine.execAmvm b ad as acc planes zero s
  | .arop b add op ads ew sat imm => Sys2Proof.Machine.execArop b add op ads ew sat imm s
  | .aacc vd acc part toI32 => Sys2Proof.Machine.execAacc vd acc part toI32 s
  | .edld ed as => Sys2Proof.Machine.execEdld ed as s
  | .edset ed word sa => Sys2Proof.Machine.execEdset ed word sa s
  | .cpy q ed => Sys2Proof.Machine.execCpy q ed s
  | .cpym q ed => Sys2Proof.Machine.execCpym q ed s
  | .put q ed => Sys2Proof.Machine.execPut q ed s
  | .putr q ed op => Sys2Proof.Machine.execPutr q ed op s
  | .putrVerb q ed => Sys2Proof.Machine.execPutrVerb q ed s
  | .red q ed op => Sys2Proof.Machine.execRed q ed op s
  | .zip q ed h => Sys2Proof.Machine.execZip q ed h s
  | .fold q ed h tree => Sys2Proof.Machine.execFold q ed h tree s
  | .scan q ed h tree => Sys2Proof.Machine.execScan q ed h tree s
  | .vbdef h as => Sys2Proof.Machine.execVbdef h as s
  | .qfence mask => Sys2Proof.Machine.execQfence mask s
  | .flag q sa sb scope => Sys2Proof.Machine.execFlag q sa sb scope s
  | .qwait q => Sys2Proof.Machine.execQwait q s
  | .qstat sd q => Sys2Proof.Machine.execQstat sd q s
  | .probe sd sa cf table => Sys2Proof.Machine.execProbe sd sa cf table s
  | .pinv sa table mode => Sys2Proof.Machine.execPinv sa table mode s
  | .ppin sa table pin => Sys2Proof.Machine.execPpin sa table pin s
  | .awinit sa sb => Sys2Proof.Machine.execAwinit sa sb s
  | .await sa sb cf t => Sys2Proof.Machine.execAwait sa sb cf t s
  | .atom op sd sa sb ord => Sys2Proof.Machine.execAtom op sd sa sb ord s
  | .atomc wide sd sa sb ord => Sys2Proof.Machine.execAtomc wide sd sa sb ord s
  | .fence scope kind => Sys2Proof.Machine.execFence scope kind s
  | .xfence mask dir => Sys2Proof.Machine.execXfence mask dir s
  | .vjoin => Sys2Proof.Machine.execVjoin s
  | .cbset cb field sa => Sys2Proof.Machine.execCbset cb field sa s
  | .cbp cb n => Sys2Proof.Machine.execCbp cb n s
  | .cbc cb n => Sys2Proof.Machine.execCbc cb n s
  | .cbwf cb n => Sys2Proof.Machine.execCbwf cb n s
  | .cbwe cb n => Sys2Proof.Machine.execCbwe cb n s
  | .round sa tt tag => Sys2Proof.Machine.execRound sa tt tag s
  | .rabort tag => Sys2Proof.Machine.execRabort tag s
  | .bundleDispatch c => Sys2Proof.Machine.execBundleDispatch c s
  | .bundleRetirement c => Sys2Proof.Machine.execBundleRetirement c s
  | .resultLanding c => Sys2Proof.Machine.execResultLanding c s
  | .preciseTrapEntry c => Sys2Proof.Machine.execPreciseTrapEntry c s
  | .impreciseTrapEntry c => Sys2Proof.Machine.execImpreciseTrapEntry c s
  | .waitcExpiry c => Sys2Proof.Machine.execWaitcExpiry c s
  | .awaitTimeout c => Sys2Proof.Machine.execAwaitTimeout c s
  | .beatOverrun c => Sys2Proof.Machine.execBeatOverrun c s
  | .rngRefill c => Sys2Proof.Machine.execRngRefill c s
  | .currentLimiterFreeze c => Sys2Proof.Machine.execCurrentLimiterFreeze c s
  | .bandReady c => Sys2Proof.Machine.execBandReady c s
  | .queueEntryBegin c q => Sys2Proof.Machine.execQueueEntryBegin c q s
  | .engineSourceRead c q => Sys2Proof.Machine.execEngineSourceRead c q s
  | .engineBlockWrite c q => Sys2Proof.Machine.execEngineBlockWrite c q s
  | .entryCompletion c q => Sys2Proof.Machine.execEntryCompletion c q s
  | .flagWritePerformed c q => Sys2Proof.Machine.execFlagWritePerformed c q s
  | .qfenceMarkerComplete c q => Sys2Proof.Machine.execQfenceMarkerComplete c q s
  | .remoteAccessPerform n => Sys2Proof.Machine.execRemoteAccessPerform n s
  | .translationWalk d => Sys2Proof.Machine.execTranslationWalk d s
  | .followOnReceipt c q => Sys2Proof.Machine.execFollowOnReceipt c q s
  | .mxeOpBegin c => Sys2Proof.Machine.execMxeOpBegin c s
  | .mxeOpComplete c => Sys2Proof.Machine.execMxeOpComplete c s
  | .arWordPerform c n => Sys2Proof.Machine.execArWordPerform c n s
  | .afBlockArrival c q => Sys2Proof.Machine.execAfBlockArrival c q s
  | .afBlockPerform c array => Sys2Proof.Machine.execAfBlockPerform c array s
  | .beatOpen c => Sys2Proof.Machine.execBeatOpen c s
  | .receiveBlockApply port => Sys2Proof.Machine.execReceiveBlockApply port s
  | .reductionContribution n => Sys2Proof.Machine.execReductionContribution n s
  | .reductionEventReturn c => Sys2Proof.Machine.execReductionEventReturn c s
  | .atomicPerform d bank => Sys2Proof.Machine.execAtomicPerform d bank s
  | .atomicResponse c => Sys2Proof.Machine.execAtomicResponse c s
  | .timetableWindowOpen d n => Sys2Proof.Machine.execTimetableWindowOpen d n s
  | .roundEnd d n => Sys2Proof.Machine.execRoundEnd d n s
  | .confluencePost => Sys2Proof.Machine.execConfluencePost s
  | .clockChangeEffect => Sys2Proof.Machine.execClockChangeEffect s
  | .handshakeEnd => Sys2Proof.Machine.execHandshakeEnd s
  | .raiseWindow => Sys2Proof.Machine.execRaiseWindow s
  | .memberLost => Sys2Proof.Machine.execMemberLost s
  | .joinTimeout => Sys2Proof.Machine.execJoinTimeout s
  | .taskStart c => Sys2Proof.Machine.execTaskStart c s
  | .preloadComplete c => Sys2Proof.Machine.execPreloadComplete c s
  | .preemption c => Sys2Proof.Machine.execPreemption c s
  | .budgetExpiry c => Sys2Proof.Machine.execBudgetExpiry c s
  | .taskResume c => Sys2Proof.Machine.execTaskResume c s
  | .taskEnd c => Sys2Proof.Machine.execTaskEnd c s
  | .taskRestart c => Sys2Proof.Machine.execTaskRestart c s
  | .cqNop p => Sys2Proof.Machine.execCqNop p s
  | .endcores p => Sys2Proof.Machine.execEndcores p s
  | .echo p => Sys2Proof.Machine.execEcho p s
  | .attestationDurable p => Sys2Proof.Machine.execAttestationDurable p s
  | .partitionResetComplete p => Sys2Proof.Machine.execPartitionResetComplete p s
  | .debugHaltTaken c => Sys2Proof.Machine.execDebugHaltTaken c s
  | .hbmRefreshSlot k pc => Sys2Proof.Machine.execHbmRefreshSlot k pc s
  | .a2Entry c => Sys2Proof.Machine.execA2Entry c s
  | .coreWake c => Sys2Proof.Machine.execCoreWake c s
  | .waitgExpiry c => Sys2Proof.Machine.execWaitgExpiry c s
  | .refreshWindowEnd k => Sys2Proof.Machine.execRefreshWindowEnd k s
  | .sensorSample x => Sys2Proof.Machine.execSensorSample x s
  | .launch p v => Sys2Proof.Machine.execLaunch p v s
  | .partset x => Sys2Proof.Machine.execPartset x s
  | .hostMemAccess p addr op len => Sys2Proof.Machine.execHostMemAccess p addr op len s
  | .powerGood => Sys2Proof.Machine.execPowerGood s
  | .bootStageComplete ok out => Sys2Proof.Machine.execBootStageComplete ok out s
  | .registerWrite r v => Sys2Proof.Machine.execRegisterWrite r v s
  | .d2dLinkFailure a b => Sys2Proof.Machine.execD2dLinkFailure a b s
  | .cqhwiWrite p v => Sys2Proof.Machine.execCqhwiWrite p v s
  | .dbgHalt p v => Sys2Proof.Machine.execDbgHalt p v s
  | .dbgResume p v => Sys2Proof.Machine.execDbgResume p v s
  | .peerBlockArrival port b => Sys2Proof.Machine.execPeerBlockArrival port b s
  | .roundAbortNotice port tag => Sys2Proof.Machine.execRoundAbortNotice port tag s
  | .portFailure x => Sys2Proof.Machine.execPortFailure x s
  | .counterStamp c stamp => Sys2Proof.Machine.execCounterStamp c stamp s
  | .postReceived p => Sys2Proof.Machine.execPostReceived p s
  | .cflcfgJoin v => Sys2Proof.Machine.execCflcfgJoin v s
  | .cflcfgLeave v => Sys2Proof.Machine.execCflcfgLeave v s
  | .grantReceived code epoch member stamp members => Sys2Proof.Machine.execGrantReceived code epoch member stamp members s
  | .eqhriWrite p v => Sys2Proof.Machine.execEqhriWrite p v s
  | .cqReset p => Sys2Proof.Machine.execCqReset p s
  | .eqReset p => Sys2Proof.Machine.execEqReset p s
  | .eqstatRead p => Sys2Proof.Machine.execEqstatRead p s
  | .tlbinv p => Sys2Proof.Machine.execTlbinv p s
  | .attestationRequest p v => Sys2Proof.Machine.execAttestationRequest p v s
  | .partreset => Sys2Proof.Machine.execPartreset s
  | .svncommit => Sys2Proof.Machine.execSvncommit s
  | .power x => Sys2Proof.Machine.execPower x s
  | .debug => Sys2Proof.Machine.execDebug s
  | .reset => Sys2Proof.Machine.execReset s
  | .recover => Sys2Proof.Machine.execRecover s
  | .idekey => Sys2Proof.Machine.execIdekey s
  | .dbgStep p v => Sys2Proof.Machine.execDbgStep p v s
  | .dbgdataAccess p write => Sys2Proof.Machine.execDbgdataAccess p write s
  | .dbgstatRead p => Sys2Proof.Machine.execDbgstatRead p s
  | .checkpointGo v dst => Sys2Proof.Machine.execCheckpointGo v dst s
  | .checkpointDone err => Sys2Proof.Machine.execCheckpointDone err s
  | .ckptstatRead => Sys2Proof.Machine.execCkptstatRead s
  | .hbmbistGo k v => Sys2Proof.Machine.execHbmbistGo k v s
  | .bistPhaseComplete k fails => Sys2Proof.Machine.execBistPhaseComplete k fails s
  | .patEntryWrite k n v => Sys2Proof.Machine.execPatEntryWrite k n v s
  | .hbmpartWrite p v => Sys2Proof.Machine.execHbmpartWrite p v s
  | .hbmcfgWrite k v => Sys2Proof.Machine.execHbmcfgWrite k v s
  | .hbmstatRead k => Sys2Proof.Machine.execHbmstatRead k s
  | .portStatusRead port => Sys2Proof.Machine.execPortStatusRead port s
  | .stackTempSample k x => Sys2Proof.Machine.execStackTempSample k x s
  | .powerLoss => Sys2Proof.Machine.execPowerLoss s
  | .coreIdleA1 c => Sys2Proof.Machine.execCoreIdleA1 c s
  | .portRetraining port x => Sys2Proof.Machine.execPortRetraining port x s

end Sys2Proof.Machine
end

