-- ==== Sys2Proof/Machine/Arbiter.lean ====
section
/-!
DEFINITION. Which words of a core issue in a cycle: the reasons a slot waits (R47–R50), the shadow scoreboard (R58–R60), hand-offs (R52),
and what two slots' words decide between them in one cycle.
-/
namespace Sys2Proof.Machine

open Host

/-- An unissued word of an earlier bundle in a slot is of a kind. -/
def Core.before (c : Core) (sl : Slot) (k : Nat) (p : Instr → Bool) : Bool :=
  c.bundles.any fun r => decide (c.nextSeq sl ≤ r.seq) && decide (r.seq < k) && p (r.instr sl)

def isAbeat (i : Instr) : Bool := match i with | .abeat _ => true | _ => false

/-- The order of words: no trap found for the bundle or an older one (R53), slip (R47), J (R48), VJOIN (R175), WAITC (R91), ABEAT (R92). -/
def Core.inTurn (c : Core) (sl : Slot) (b : BundleRec) : Bool :=
  (match c.ptrap with | some t => decide (b.seq < t.seq) | none => true) &&
    decide (b.seq ≤ c.oldestWord + 16) &&
    (!(frameOf (b.word sl)).j || allSlots.all fun q => decide (b.seq ≤ c.nextSeq q)) &&
    !c.before .ae b.seq (fun i => i == .vjoin) &&
    (sl != .ctl || c.ctlHold == 0) &&
    (sl != .ar || !c.before .ctl b.seq isAbeat)

-- the scoreboard

/-- A register is pending (R60). -/
def State.pendingReg (s : State) (c : CoreId) (r : Reg) : Bool :=
  s.atomPending c r || (s.cores[c]).flights.any fun f => f.pend && Reg.same f.reg r

/-- A write of a register in flight from another slot: that slot and its bundle (R58). -/
def Core.clashOf (c : Core) (sl : Slot) (r : Reg) : Option (Slot × BitVec 14) :=
  match c.flights.find? fun f => !f.pend && f.slot != sl && Reg.same f.reg r with
  | some f => some (f.slot, f.bundle)
  | none => if sl = .ar then none else (c.arWrites.find? fun w => Reg.same w.1 r).map fun w => (.ar, w.2)

/-- The core as the scoreboard will see it in the next cycle: what lands at the end of this one is in flight no more. -/
def Core.afterLanding (c : Core) : Core := { c with flights := c.flights.filter fun f => c.cyc < f.due }

/-- The word waits for a register (R58, R60, R249), a transfer for one that it reads in the cycle after its issue (R67). -/
def State.regWait (s : State) (c : CoreId) (sl : Slot) (i : Instr) : Bool :=
  let x := s.cores[c]
  let t := s.updCore c Core.afterLanding
  let rs := x.readsOf i
  (rs ++ writesOf sl i).any (fun r => s.pendingReg c r) || (lateReads i).any (fun r => t.pendingReg c r) ||
    (sl == .ar && rs.any fun r => x.arWrites.any fun w => Reg.same w.1 r) ||
    (!x.ctx.spr.sbmode && (rs.any (fun r => (x.clashOf sl r).isSome) || (lateReads i).any fun r => (x.afterLanding.clashOf sl r).isSome))

/-- The scoreboard trap of a word (R58, R62). -/
def sbTrap (sl : Slot) (b : BundleRec) (r : Reg) (other : Slot) (obundle : BitVec 14) : TrapReq :=
  let i := clashInfo r sl other b.pc obundle
  ⟨b.seq, 0x05, i.1, i.2⟩

/-- The first of its reads that traps: of a register with an uncorrectable error (R362), or under SBMODE 1 of one that another slot is writing. -/
def Core.regTrap (c : Core) (sl : Slot) (b : BundleRec) (i : Instr) : Option TrapReq :=
  if (c.readsOf i ++ lateReads i).any fun r => c.upsets.regs.any fun u => Reg.same u r then some ⟨b.seq, 0x0F, 0, 0⟩
  else if c.ctx.spr.sbmode then
    ((c.readsOf i).findSome? fun r => (c.clashOf sl r).map fun w => sbTrap sl b r w.1 w.2) <|>
      (lateReads i).findSome? fun r => (c.afterLanding.clashOf sl r).map fun w => sbTrap sl b r w.1 w.2
  else none

-- hand-offs (R52, R92, R272)

/-- Another word of the bundle does not hold its hand-offs: a hand-off itself, issued before, or a NOP that nothing keeps from issuing. -/
def Core.notHolding (c : Core) (b : BundleRec) (q : Slot) : Bool :=
  isHandoff (b.instr q) || decide (b.seq < c.nextSeq q) || (b.instr q == .nop && (q != .ctl || c.ctlHold == 0))

/-- The common condition of R52, and the response of ordered atomics (R272). -/
def State.handoffOk (s : State) (c : CoreId) (sl : Slot) (b : BundleRec) (i : Instr) : Bool :=
  let x := s.cores[c]
  x.bundles.head?.map (·.seq) == some b.seq &&
    (allSlots.all fun q => q == sl || x.notHolding b q) &&
    (b.accEnd == 0 || decide (b.accEnd < x.cyc)) &&
    !(s.atoms.any fun a => a.core == c.val && a.ord && decide (a.seq < b.seq)) &&
    (!isAbeat i || decide (b.seq ≤ x.nextSeq .ar))

/-- A word that could issue as far as order, registers and hand-off go. -/
def State.wordFree (s : State) (c : CoreId) (sl : Slot) (b : BundleRec) (i : Instr) : Bool :=
  let x := s.cores[c]
  !s.regWait c sl i && (!isHandoff i || s.handoffOk c sl b i) && (!takesRq i || !x.ctx.rq.isEmpty) &&
    (sl != .ar || i == .nop || b.tag.beat == x.ctx.af.openBeat)

-- one cycle of the eight slots

/-- A slot's head word in a cycle: whether it issues, whether it traps in doing so, and for which bundle (R55). -/
structure Cand where
  slot  : Slot
  b     : BundleRec
  i     : Instr
  goes  : Bool
  traps : Bool
  /-- the bundle that its trap names -/
  tseq  : Nat
  deriving DecidableEq, Repr

/-- The state after a word's meaning, in its own place. -/
def State.tryWord (s : State) (c : CoreId) (sl : Slot) (i : Instr) : State :=
  match exec i { s with cur := ⟨c, sl⟩ } with
  | .next t => t
  | _ => s

/-- A slot's head word, if it could issue. -/
def State.cand (s : State) (c : CoreId) (sl : Slot) : Option Cand :=
  let x := s.cores[c]
  match x.recOf (x.nextSeq sl) with
  | none => none
  | some b =>
    let i := b.instr sl
    if x.inTurn sl b && s.wordFree c sl b i && (x.regTrap sl b i).isNone then
      let y := (s.tryWord c sl i).cores[c]
      some ⟨sl, b, i, x.nextSeq sl < y.nextSeq sl, y.ptrap != x.ptrap, (y.ptrap.map (·.seq)).getD b.seq⟩
    else none

/-- The scoreboard traps of a cycle's head words against writes in flight. -/
def State.headTraps (s : State) (c : CoreId) : List (Slot × TrapReq) :=
  let x := s.cores[c]
  allSlots.filterMap fun sl => match x.recOf (x.nextSeq sl) with
    | none => none
    | some b =>
      let i := b.instr sl
      if x.inTurn sl b && s.wordFree c sl b i then (x.regTrap sl b i).map fun t => (sl, t) else none

/-- A register that word w writes and word r reads, or that w makes pending (R58, R60). -/
def Core.meets (c : Core) (w r : Cand) : Option Reg := (writesOf w.slot w.i).find? fun a => (c.readsOf r.i ++ lateReads r.i).any fun b => Reg.same a b

def isPend (i : Instr) : Bool :=
  match i with
  | .vred .. | .vext .. | .qstat .. | .await .. | .atom .. | .atomc .. => true
  | _ => false

/-- If w issues, r does not: a register, the vector lanes (R49), the one entry of the random queue (R149). -/
def Core.bars (c : Core) (w r : Cand) : Bool :=
  w.slot != r.slot && !w.traps &&
    ((c.meets w r).isSome ||
      (isPend w.i && (writesOf w.slot w.i).any fun a => (writesOf r.slot r.i).any fun b => Reg.same a b) ||
      (w.slot == .va && r.slot == .vb && decide (1024 < laneWidth w.i + laneWidth r.i)) ||
      (takesRq w.i && takesRq r.i && w.slot.num < r.slot.num && decide (c.ctx.rq.length < 2)))

/-- Which of the words issue: those that none that issues bars; of words that bar one another in a ring, the lowest slot's. -/
def settle (bars : Cand → Cand → Bool) : Nat → List Cand → List Cand → List Cand
  | 0, _, inn => inn
  | n + 1, und, inn =>
    let und := und.filter fun r => !(inn.any fun w => bars w r)
    match und.find? fun r => !(und.any fun w => bars w r) with
    | some r => settle bars n (und.filter fun w => w.slot != r.slot) (inn ++ [r])
    | none => match und with
      | [] => inn
      | r :: rest => settle bars n rest (inn ++ [r])

/-- A word that only waits: it hands nothing over, so it may go first in its cycle. -/
def isWait (i : Instr) : Bool :=
  match i with
  | .cbwf .. | .cbwe .. | .qwait .. | .mwaitb .. | .fence .. | .xfence _ true | .waitg .. | .align .. => true
  | _ => false

/-- The slots that issue in this cycle, in the order in which they do, and the state with what waiting words leave behind and with the traps
that the scoreboard and the transfers' reads find: no hand-off of the trapped bundle or a later one happens (R53). -/
def State.arbitrate (s : State) (c : CoreId) : State × List Slot :=
  let x := s.cores[c]
  let cs := allSlots.filterMap fun sl => s.cand c sl
  let go := cs.filter (·.goes)
  let inn := settle x.bars 8 go []
  let out := go.filter fun r => !(inn.any fun w => w.slot == r.slot)
  let late := if x.ctx.spr.sbmode then
      out.filterMap fun r => inn.findSome? fun w =>
        if w.traps || isPend w.i then none else (x.meets w r).map fun a => (r.slot, sbTrap r.slot r.b a w.slot w.b.pc)
    else []
  let new := fun (r : Reg) => (inn.find? fun w => w.slot != .ctl && !w.traps && (writesOf w.slot w.i).any fun a => Reg.same a r).map fun w =>
    (w.slot, w.b.pc, isPend w.i)
  let read := s.readXfers c new
  let s := read.1
  let traps := (s.headTraps c ++ late).map (·.2) ++ read.2
  let undone := fun (r : Cand) => isHandoff r.i && !r.traps &&
    (traps.any (fun t => decide (t.seq ≤ r.b.seq)) || inn.any fun w => w.traps && decide (w.tseq ≤ r.b.seq))
  let inn := inn.filter fun r => !undone r
  let s := (cs.filter fun r => !r.goes).foldl (fun s r => s.tryWord c r.slot r.i) s
  let s := s.updCore c fun x => traps.foldl Core.reqTrap x
  let order := fun (p : Instr → Bool) => (allSlots.filter fun sl => inn.any fun r => r.slot == sl && p r.i)
  (s, order isWait ++ order fun i => !isWait i)

end Sys2Proof.Machine
end

