-- ==== Sys2Proof/Machine/Schedule.lean ====
section
/-!
DEFINITION. How the package moves: each cycle is a fixed order of phases (log 2), and every happening in it is one event or one slot word,
performed by its meaning where its condition holds.
-/
namespace Sys2Proof.Machine

open Host

/-- What the package does next. -/
inductive Move where
  /-- an event of the part, or the second half of RETT, in a state -/
  | event (i : Instr) (t : State)
  /-- something from outside: without effect where it cannot happen -/
  | input (i : Instr) (t : State)
  /-- the word of a slot issues -/
  | word (c : CoreId) (sl : Slot) (i : Instr) (t : State)
  /-- work inside a phase, or the next phase -/
  | inner (t : State)

/-- An event with its condition. -/
def dueEvent (due : Bool) (i : Instr) : Option Instr := if due then some i else none

-- what comes from outside

/-- The events that the outside world causes, or whose time the spec leaves to firmware, a sensor or a wire. -/
def isExternal : Instr → Bool
  | .peerBlockArrival .. | .roundAbortNotice .. | .portFailure .. | .counterStamp .. | .postReceived .. | .sensorSample .. | .cflcfgJoin ..
  | .cflcfgLeave .. | .grantReceived .. | .launch .. | .d2dLinkFailure .. | .cqhwiWrite .. | .eqhriWrite .. | .cqReset .. | .eqReset ..
  | .eqstatRead .. | .tlbinv .. | .attestationRequest .. | .partset .. | .partreset | .svncommit | .power .. | .debug | .reset | .recover
  | .idekey | .dbgHalt .. | .dbgStep .. | .dbgResume .. | .dbgdataAccess .. | .dbgstatRead .. | .checkpointGo .. | .checkpointDone ..
  | .ckptstatRead | .hbmbistGo .. | .bistPhaseComplete .. | .patEntryWrite .. | .hbmpartWrite .. | .hbmcfgWrite .. | .hbmstatRead ..
  | .portStatusRead .. | .stackTempSample .. | .hostMemAccess .. | .powerGood | .bootStageComplete .. | .powerLoss | .coreIdleA1 ..
  | .registerWrite .. | .portRetraining .. => true
  | _ => false

def isPost : Instr → Bool
  | .postReceived .. => true
  | _ => false

/-- The first undelivered happening whose tick has come. A post that comes at a tick at which members are lost, or later, waits for that (R334). -/
def State.nextInput (s : State) : Option Input :=
  s.inputs.find? fun x => decide (x.tick ≤ s.gcnt.toNat) && !(isPost x.ev && (lossReached s).any fun T => decide (T ≤ x.tick))

/-- The first of equal happenings leaves the list. -/
def dropInput (x : Input) : List Input → List Input
  | [] => []
  | y :: r => if y = x then r else y :: dropInput x r

-- what the package's own clocks bring

/-- The windows of a die, numbered as their event numbers them. -/
def Die.windowNos (d : Die) : List Nat :=
  d.rounds.zipIdx.flatMap fun r => (List.range r.1.wins.length).map fun k => 256 * r.2 + k

def dieTimer (s : State) (d : DieId) : Option Instr :=
  (((s.dies[d]).windowNos.find? fun n => windowDue s d n).map fun n => .timetableWindowOpen d n) <|>
    ((List.range (s.dies[d]).rounds.length).find? fun n => roundEndDue s d n).map fun n => .roundEnd d n

def stackTimer (s : State) (k : StackId) : Option Instr :=
  let x := s.hbms[k]
  dueEvent (s.hbmUp k && decide (x.slotTick ≤ s.gcnt.toNat) && decide (x.slotPc < 512)) (.hbmRefreshSlot k (BitVec.ofNat 9 x.slotPc)) <|>
    dueEvent (s.hbmUp k && decide (x.winEnd ≤ s.gcnt.toNat)) (.refreshWindowEnd k) <|>
    dueEvent (x.bistLate s.gcnt.toNat) (.bistPhaseComplete k [])

def partTimer (s : State) (p : PartId) : Option Instr :=
  let x := s.parts[p]
  let code := fld (s.cqWord p 0) 15 0
  dueEvent (s.resetDone p) (.partitionResetComplete p) <|>
    dueEvent (x.attctl.getLsbD 63) (.attestationDurable p) <|>
    dueEvent (s.cqReady p) (if code = 1 then .endcores p else if code = 2 then .echo p else .cqNop p)

def coreTimer (s : State) (c : CoreId) : Option Instr :=
  let x := s.cores[c]
  dueEvent (x.ctx.mxe.bands.any fun b => bandRisen s c b) (.bandReady c) <|>
    dueEvent (alignDue s c) (.counterStamp c ⟨BitVec.ofNat 64 (s.leGcnt (dieOf c)), none⟩) <|>
    dueEvent x.wakeDue (.coreWake c) <|>
    dueEvent (x.power == .a1 && x.workless && decide (x.idleAt + 1000000 ≤ s.gcnt.toNat)) (.a2Entry c)

/-- A window that opens before a tick. -/
def windowBefore (s : State) (T : Nat) : Option Instr :=
  (List.finRange 4).findSome? fun d => ((s.dies[d]).windowNos.find? fun n =>
    windowDue s d n && (match s.windowAt d n with | some x => decide (x.1.opens x.2 < T) | none => false)).map fun n => .timetableWindowOpen d n

/-- The next happening that a count of ticks, or a register, brings about. The windows that open before members are lost are the first (R334). -/
def State.timer (s : State) : Option Instr :=
  dueEvent (clockDue s) .clockChangeEffect <|> dueEvent (shakeEndDue s) .handshakeEnd <|>
    (firstLoss s).bind (windowBefore s) <|> dueEvent (firstLoss s).isSome .memberLost <|> dueEvent (joinLate s) .joinTimeout <|>
    dueEvent (raiseDue s) .raiseWindow <|> dueEvent (postDue s) .confluencePost <|> dueEvent s.ckptDue (.checkpointDone false) <|>
    dueEvent s.stageLate (.bootStageComplete s.stageOut.1 s.stageOut.2) <|>
    ((List.finRange 4).findSome? fun d => dieTimer s d) <|> ((List.finRange 8).findSome? fun k => stackTimer s k) <|>
    ((List.finRange 12).findSome? fun p => partTimer s p) <|> ((List.finRange 96).findSome? fun c => coreTimer s c)

-- the start of a cycle

/-- A core is frozen in the coming cycle, the limiter apart, and with it the later words of a split step (R50, R202, R330, R332). -/
def stallNow (s : State) (x : Core) : Bool := s.shake.isSome || s.emergFreeze x.ccnt || (x.sub == 0 && x.bandWait)

/-- A cycle opens. -/
def State.openCycle (s : State) : State :=
  { s with cores := s.cores.map (fun x => { x with frozen := stallNow s x || x.sub != 0, stalled := stallNow s x, pred := 0 }), cursor := .tasks 0 }

/-- A core has something to do. -/
def Core.busy (c : Core) : Bool :=
  c.run != .idle || !c.queue.isEmpty || !c.bundles.isEmpty || !c.flights.isEmpty || !c.access.isEmpty || !c.stores.isEmpty || !c.reports.isEmpty ||
    !c.workDone || !c.ev.isEmpty || !c.itraps.isEmpty || c.haltReq || c.ptrap.isSome || c.ret.isSome || c.ctx.af.closing.isSome ||
    !c.endWrites.isEmpty || !c.credits.isEmpty

/-- Core c or the next one after it that has something to do; 96 if none. -/
def State.busyFrom (s : State) (c : Nat) : Nat :=
  (((List.finRange 96).drop c).find? fun x => (s.cores[x]).busy || s.atoms.any fun a => a.core == x.val).elim 96 fun x => x.val

-- tasks, traps and timers of a core

/-- What a core's sequencer and task logic do at the start of a cycle. -/
def coreTask (s : State) (c : CoreId) : Option Instr :=
  let x := s.cores[c]
  dueEvent x.limiterDue (.currentLimiterFreeze c) <|>
    dueEvent (haltDue s c) (.debugHaltTaken c) <|>
    dueEvent (preciseDue s c) (.preciseTrapEntry c) <|>
    dueEvent (impreciseDue s c) (.impreciseTrapEntry c) <|>
    dueEvent (x.moves && x.run == .running && !x.expired && x.ctx.spr.tbudget == 0) (.budgetExpiry c) <|>
    dueEvent (preemptDue s c) (.preemption c) <|>
    dueEvent (taskEndDue s c) (.taskEnd c) <|>
    dueEvent (taskRestartDue s c) (.taskRestart c) <|>
    dueEvent (taskStartDue s c) (.taskStart c) <|>
    dueEvent (taskResumeDue s c) (.taskResume c) <|>
    dueEvent (preloadDue s c) (.preloadComplete c) <|>
    dueEvent (match x.ctx.af.closing with | some t => x.moves && decide (t < x.cyc) | none => false) (.beatOpen c) <|>
    dueEvent x.overrunDue (.beatOverrun c) <|>
    dueEvent x.waitcDue (.waitcExpiry c)

/-- The bundle of a RETT has retired and every result in flight has landed: its return is due (R81). -/
def rettDue (s : State) (c : CoreId) : Bool :=
  let x := s.cores[c]
  x.moves && x.run == .running && x.ptrap.isNone && (match x.ret with | some k => !x.alive k | none => false) && x.flights.isEmpty && x.arWrites.isEmpty &&
    !(s.atoms.any fun a => a.core == c.val)

def taskMove (s : State) (c : CoreId) : Move :=
  match coreTask s c with
  | some i => .event i s
  | none =>
    if rettDue s c then .event .rett { s with cur := ⟨c, .ctl⟩ }
    else .inner { s.moveImage c with cursor := .dispatch c.val }

-- issue

/-- What a slot's turn performs: its word, or the end of its wait (R183, R311). -/
def slotEvent (s : State) (c : CoreId) (sl : Slot) : Instr :=
  if sl = .ae && (s.cores[c]).awaitDue then .awaitTimeout c
  else if sl = .ctl && waitgDue s c then .waitgExpiry c
  else (s.cores[c]).nextInstr sl

/-- The cycle of a bundle step in which a slot's word issues (R342). -/
def subCycle (split : BitVec 2) (sl : Slot) : Nat :=
  match split.toNat, sl with
  | 1, .vb | 1, .mx | 1, .ae => 1
  | 2, .va | 2, .xn => 1
  | 2, .vb | 2, .ar => 2
  | 2, .mx | 2, .ae => 3
  | _, _ => 0

/-- A number added to a place of a list that grows as it needs. -/
def addAt : List Nat → Nat → Nat → List Nat
  | [], 0, w => [w]
  | [], n + 1, w => 0 :: addAt [] n w
  | x :: r, 0, w => (x + w) :: r
  | x :: r, n + 1, w => x :: addAt r n w

/-- The weight of a word that has issued, in its cycle (R218, R342). -/
def Core.charge (c : Core) (sl : Slot) (i : Instr) : Core :=
  match subCycle c.ctx.spr.split sl with
  | 0 => { c with weight := c.weight + wordWeight sl i }
  | n + 1 => { c with subW := addAt c.subW n (wordWeight sl i) }

/-- The state after a word's turn: its weight, if it issued. -/
def chargeWord (c : CoreId) (sl : Slot) (i : Instr) (before t : State) : State :=
  if (before.cores[c]).nextSeq sl < (t.cores[c]).nextSeq sl then t.updCore c fun x => x.charge sl i else t

-- units of the package

/-- A bank of a die with an atomic that it can perform. -/
def dieUnit (s : State) (d : DieId) : Option Instr :=
  ((List.range 16).find? fun b => (atomReady s d b).isSome).map (fun b => .atomicPerform d b)

/-- What moves next outside the cores: walks, blocks of peers in arrival order, contributions, those held before the others, remote accesses,
atomics. -/
def State.unit (s : State) : Option Instr :=
  ((List.finRange 4).find? fun d => (walkReady s d).isSome).map (fun d => .translationWalk d) <|>
    s.recvPort.map (fun p => .receiveBlockApply p) <|>
    (s.reqs.find? fun r => r.held && redDue s r.id).map (fun r => .reductionContribution r.id) <|>
    (s.reqs.find? fun r => redDue s r.id).map (fun r => .reductionContribution r.id) <|>
    (s.reqs.findSome? fun r =>
      let q : QueueId := Fin.ofNat 8 r.queue
      if isFlagReq r then dueEvent (s.flagReq (coreIx r.core) (qix q)).isSome (.flagWritePerformed (coreIx r.core) q)
      else dueEvent (remoteDue s r.id) (.remoteAccessPerform r.id)) <|>
    (List.finRange 4).findSome? fun d => dieUnit s d

-- engines of a core

/-- The queues in the order of R173: q7 first while it serves a fill. -/
def Core.queueAt (c : Core) (n : Nat) : Option QueueId :=
  let fill := (c.head 7).any isFill
  if n = 0 then (if fill then some 7 else none)
  else if n = 8 then (if fill then none else some 7)
  else some (Fin.ofNat 8 (n - 1))

/-- A queue's flag write, block write and source read. -/
def queueTurn (s : State) (c : CoreId) (q : QueueId) (k : Nat) : Option Instr :=
  match k with
  | 0 => dueEvent (ownFlagDue s c (qix q)) (.flagWritePerformed c q)
  | 1 => dueEvent (blockDue s c (qix q) false || zreadDue s c (qix q)) (.engineBlockWrite c q) <|>
      dueEvent (blockDue s c (qix q) true) (.afBlockArrival c q)
  | _ => dueEvent ((s.cores[c]).readDue (qix q)) (.engineSourceRead c q)

/-- The blocks of an AMVM, and the bytes of an AST, read in this cycle (R249). -/
def Core.arReads (c : Core) : Core := c.ctx.af.words.foldl (fun c w => c.arRead w) c

/-- An operation completes: what it weighs in its last cycle beyond idle bands (R218). -/
def Core.lastWeight (c : Core) : Nat :=
  match c.mxeReady with
  | some o => (if o.latching then 6 * c.ctx.mxe.readyBands o else 0) + (if o.writing then 6 else 0)
  | none => 0

/-- Place k of a core's engines in a cycle: what it does there, if anything. Places that may act again stay; others go on. -/
def engineAt (s : State) (c : CoreId) (k : Nat) : Option Move :=
  let x := s.cores[c]
  let again := { s with cursor := .engines c.val k }
  let on := { s with cursor := .engines c.val (k + 1) }
  let q : QueueId := Fin.ofNat 8 k
  if k < 8 then
    if followDue s c (qix q) then some (.event (.followOnReceipt c q) again)
    else if completionDue s c (qix q) then some (.event (.entryCompletion c q) again) else none
  else if k < 16 then (if x.markerDue (qix q) then some (.event (.qfenceMarkerComplete c q) again) else none)
  else if k < 24 then (if beginDue s c (qix q) then some (.event (.queueEntryBegin c q) again) else none)
  else if k = 24 then (if x.moves && x.followLost then some (.inner (again.updCore c Core.dropFollow)) else if x.moves && x.mxeDue then some (.event (.mxeOpBegin c) again) else none)
  else if k = 25 then
    (if x.moves && (!x.ctx.mxe.running.isEmpty || !(s.creditClaims c).isEmpty) then some (.inner (on.portsTaken c)) else none)
  else if k = 26 then
    match x.ctx.af.active.find? fun b => (x.afNext (b.addr / 65536)).isSome with
    | some b => some (.event (.afBlockPerform c (b.addr / 65536)) again)
    | none => none
  else if k = 27 then (if x.moves && !x.ctx.af.words.isEmpty then some (.inner (on.updCore c Core.arReads)) else none)
  else if k = 28 then
    match x.ctx.af.words.find? fun w => x.moves && (x.arDue w || (w.isAld && x.arLandDue w)) with
    | some w => some (.event (.arWordPerform c w.order) again)
    | none => none
  else if k < 56 then
    match x.queueAt ((k - 29) / 3) with
    | some q => (queueTurn s c q ((k - 29) % 3)).map fun i => .event i (if (k - 29) % 3 = 1 then again else on)
    | none => none
  else if k = 56 then
    match x.ctx.af.words.find? fun w => x.moves && x.arLandDue w with
    | some w => some (.event (.arWordPerform c w.order) again)
    | none => none
  else if x.mxeReady.isSome then
    some (.event (.mxeOpComplete c) (again.updCore c fun y => { y with weight := y.weight + x.lastWeight }))
  else none

/-- An engine writes this byte of the pool, or credits its word, in this cycle. -/
def Core.written (c : Core) (a : Nat) : Bool := c.endWrites.any (fun w => w.1 == a) || c.credits.any fun x => x.1 / 16 == a / 16

/-- Pool writes and credits of this cycle's end (R172, R181). An engine's write ends what is kept of a byte for the other view, and for bundles that a
trap might still take back (R174). -/
def Core.commit (c : Core) : Core :=
  let pool := c.endWrites.foldl (fun (m : Mem) w => m.write w.1 w.2.1 w.2.2) c.pool
  let pool := c.credits.foldl (fun m x => creditWord m x.1 x.2.1 x.2.2.1 x.2.2.2) pool
  { (c.onCtx fun x => { x with viewLog := x.viewLog.filter fun e => !c.written e.1 }) with
      pool := pool, endWrites := [], credits := [],
      gone := c.gone.map fun g => { g with under := g.under.filter (fun u => !c.written u.1), log := g.log.filter fun e => !c.written e.1 } }

/-- Place k of the end of a core's cycle. -/
def landingAt (s : State) (c : CoreId) (k : Nat) : Option Move :=
  let x := s.cores[c]
  let again := { s with cursor := .landing c.val k }
  let on := { s with cursor := .landing c.val (k + 1) }
  let act := fun (due : Bool) (i : Instr) (t : State) => if due then some (Move.event i t) else none
  match k with
  | 0 => act x.rngDue (.rngRefill c) on
  | 1 => act (responseReady s c).isSome (.atomicResponse c) again
  | 2 => act (returnDue s c) (.reductionEventReturn c) again
  | 3 => act x.landingDue (.resultLanding c) again
  | 4 => act (retireDue s c) (.bundleRetirement c) again
  | 5 => some (.inner (on.updCore c Core.commit))
  | _ => none

-- the end of a cycle

/-- The weight that a core's cycle has carried (R218, R261, R340–R342): among it 3 for each bank that an applying grant holds. -/
def Core.total (c : Core) : Nat :=
  if c.sub != 0 && !c.stalled then c.subW.headD 0
  else if c.frozen then 2 * c.ctx.mxe.idleBands c.cyc
  else c.weight + c.mxeWeight + c.arWeight + 3 * (c.portBusy.filter fun p => c.cyc ≤ p.2).length

/-- Cycles of a bundle step (R342). -/
def stepCycles (split : BitVec 2) : Nat := if split = 1 then 2 else if split = 2 then 4 else 1

/-- The special registers that count cycles (R93, R350). -/
def Core.countSprs (c : Core) (shake : Bool) : Core :=
  c.onSpr fun x =>
    { x with frzcnt := if c.frozen && c.run != .idle && !shake then x.frzcnt + 1 else x.frzcnt,
             tbudget := if !c.frozen && c.run != .idle && !c.halted && x.tbudget != 0 then x.tbudget - 1 else x.tbudget }

/-- A core's cycle ends; `ticks` of the package's count have passed. -/
def Core.clock (ticks : Nat) (shake : Bool) (c : Core) : Core :=
  let hold := min c.ghold ticks
  let goes := !c.stalled && !(c.frozen && c.sub == 0)
  let sub := if goes then (c.sub + 1) % stepCycles c.ctx.spr.split else c.sub
  { ((c.countSprs shake).onSpr fun x => { x with split := if sub = 0 then c.splitTo else x.split }).relabel with
      cyc := if c.frozen then c.cyc else c.cyc + 1,
      ccnt := if shake then c.ccnt else c.ccnt + 1,
      gskew := c.gskew - hold, ghold := c.ghold - hold,
      weights := (c.total :: c.weights).take 65536, weight := 0,
      frzRun := if c.limHit then c.frzRun else 0, limHit := false, limCyc := c.limCyc + 1,
      sub := sub, subW := if goes && c.sub != 0 then c.subW.drop 1 else c.subW,
      switch := c.switch.map (fun n => if c.stalled then n else n - ticks), cutLeft := if c.stalled then c.cutLeft else c.cutLeft - ticks,
      grants := [], cbNew := [], dropsNow := 0, reached := c.reached.filter fun r => decide (c.cyc ≤ r.cyc) }

/-- A die's part of a cycle's end: its LE's count, held for as many ticks as a correction asks (R309); its SYE's banks are free again. -/
def Die.clock (ticks : Nat) (d : Die) : Die :=
  let hold := min d.lhold ticks
  { d with banks := [], lskew := d.lskew - hold, lhold := d.lhold - hold }

/-- The tags aborted in this cycle are so from its end on (R302). -/
def State.abortAll (s : State) : State := { s.aborts.foldl State.abortTag s with aborts := [] }

/-- A contribution that its slice refuses in this cycle stops its entry, which tries it again in the next (R251, R297). -/
def State.stopRefused (s : State) : State :=
  (s.reqs.filter fun r => isRedReq r && s.came r && redFate s r == .refuse).foldl (fun s r =>
    s.updCore (coreIx r.core) fun x => x.onHead (BitVec.ofNat 3 r.queue) fun e => if e.order = r.order then e.stopped x.cyc else e) s

/-- The MCs' part of a cycle's end: rows of a bank under test are copied, a checkpoint goes on. -/
def State.mcClock (s : State) : State :=
  ({ s with mcNow := s.mcNow + 1, hbms := s.hbms.map fun k => k.copyRows s.gcnt.toNat } : State).ckptStep

/-- A frozen cycle of the core whose pool or array field a request is for counts in none of its bounds: its window may be longer by it (R399; free,
log 6). -/
def State.stretch (s : State) : State :=
  { s with
    draws := s.draws + s.reqs.length,
    reqs := s.reqs.zipIdx.map fun x => match x.1.at_.core with
      | some k => if (s.cores[coreIx k]).frozen && s.shake.isNone && x.1.data.isNone then
          let n := (Config.freeBool (s.draws + x.2)).toNat
          { x.1 with due := x.1.due + n, back := x.1.back + n }
        else x.1
      | none => x.1 }

/-- A cycle of the group clock ends: 80/(24 + C) ticks of GCNT at code C (R309, R326). What requests and walks are timed by stands still in a
handshake, but at the MCs (R330). -/
def State.clock (s : State) : State :=
  let u := s.frac + 80
  let n := u / (24 + s.ceiling)
  let s := s.endReqs.stretch.admitAll.releaseAtoms.abortAll.mcClock
  { s with now := if s.shake.isSome then s.now else s.now + 1, gcnt := s.gcnt + BitVec.ofNat 64 n, frac := u % (24 + s.ceiling),
           cores := s.cores.map (Core.clock n s.shake.isSome), dies := s.dies.map (Die.clock n), cursor := .inputs }

-- the whole

/-- What the package does next, by its cursor. -/
def State.move (s : State) : Move :=
  match s.cursor with
  | .inputs =>
    match s.nextInput with
    | some x =>
      let t := { s with inputs := dropInput x s.inputs }
      if isExternal x.ev then .input x.ev t else .inner t
    | none => match s.timer with
      | some i => .event i s
      | none => .inner s.openCycle
  | .tasks c =>
    if 96 ≤ c then .inner { s with cursor := .units 0 }
    else if s.busyFrom c = c then taskMove s (coreIx c)
    else .inner { s with cursor := .tasks (s.busyFrom c) }
  | .dispatch c =>
    let t := { s with cursor := .access c }
    if (s.cores[coreIx c]).dispatchDue then .event (.bundleDispatch (coreIx c)) t else .inner t
  | .access c => .inner { (if (s.cores[coreIx c]).moves then accessCycle s (coreIx c) else s) with cursor := .arbiter c }
  | .arbiter c =>
    let r := if (s.cores[coreIx c]).moves then s.arbitrate (coreIx c) else (s, [])
    .inner { r.1 with cursor := .issue c r.2 }
  | .issue c (sl :: rest) =>
    let i := slotEvent s (coreIx c) sl
    .word (coreIx c) sl i { s with cur := ⟨coreIx c, sl⟩, cursor := .issue c rest }
  | .issue c [] => .inner { s with cursor := .tasks (c + 1) }
  | .units _ => match s.unit with
    | some i => .event i s
    | none => .inner { s.stopRefused with cursor := .engines (s.busyFrom 0) 0 }
  | .engines c k =>
    if 96 ≤ c then .inner { s with cursor := .landing (s.busyFrom 0) 0 }
    else ((List.range' k (58 - k)).findSome? fun j => engineAt s (coreIx c) j).getD (.inner { s with cursor := .engines (s.busyFrom (c + 1)) 0 })
  | .landing c k =>
    if 96 ≤ c then .inner { s with cursor := .clock }
    else ((List.range' k (6 - k)).findSome? fun j => landingAt s (coreIx c) j).getD (.inner { s with cursor := .landing (s.busyFrom (c + 1)) 0 })
  | .clock => .inner s.clock

/-- One move. -/
def State.advance (s : State) : Outcome State Fault Refusal :=
  match s.move with
  | .event i t => exec i t
  | .input i t => match exec i t with
    | .next u => .next u
    | _ => .next t
  | .word c sl i t => match exec i t with
    | .next u => .next (chargeWord c sl i s u)
    | o => o
  | .inner t => .next t

/-- The rest of a cycle, on fuel. -/
def runCycle : Nat → State → State
  | 0, s => s
  | n + 1, s =>
    if s.cursor = .clock then s
    else match s.advance with
      | .next t => runCycle n t
      | _ => s

/-- The weight that the opened cycle will carry on a core if its limiter lets it run (R340). -/
def predict (s : State) (c : CoreId) : Nat := ((runCycle 1000000 (s.updCore c fun x => x.onSpr fun y => { y with clim := 0 })).cores[c]).total

/-- The limiter of a core may freeze the cycle: no cycle weighs more than 1,000. -/
def Core.suspectCycle (c : Core) : Bool := !c.stalled && c.ctx.spr.clim != 0 && decide (c.ctx.spr.clim.toNat < c.windowSum 1000)

/-- The limiters foresee the weights of the cycle that opens (R340). -/
def State.foresee (s : State) : State :=
  (List.finRange 96).foldl (fun s c => if (s.cores[c]).suspectCycle then (let n := predict s c; s.updCore c fun x => { x with pred := n }) else s) s

/-- One step of the package. -/
def State.stepOnce (s : State) : Outcome State Fault Refusal :=
  match s.advance with
  | .next t => .next (if s.cursor = .inputs ∧ t.cursor = .tasks 0 then t.foresee else t)
  | o => o

/-- Core 0 with a dispatched bundle that holds one word in a slot, NOPs elsewhere, and that slot's turn next. -/
def placeWord (s : State) (sl : Slot) (w : SWord) : State :=
  let t := s.updCore 0 fun x =>
    let b := { emptyRec with seq := x.seqNo, pc := x.ctx.pc, words := BitVec.ofNat 256 (w.toNat * 2 ^ (32 * sl.num)) }
    { x with bundles := [b], next := Vector.replicate 8 x.seqNo, ptrap := none, seqNo := x.seqNo + 1 }
  { t with cursor := .issue 0 [sl] }

end Sys2Proof.Machine
end

