-- ==== Sys2Proof/Machine/Step.lean ====
section
/-!
DEFINITION. One step of the machine, and a word placed where the next step issues it.
-/
namespace Sys2Proof.Machine

open Host

/-- One step of the package (log 2). -/
def step (s : State) : Host.Outcome State Fault Refusal := s.stepOnce

/-- The state with a table word dispatched in core 0, in the first slot of `tableOrder` whose map holds it (log 3). -/
def State.withFetchWord (s : State) (nbits w : Nat) : State :=
  if nbits = 0 then s
  else match firstSlot (BitVec.ofNat 32 (ofBytes (toBytes 4 (w % 2 ^ nbits)))) tableOrder with
    | some (sl, _) => placeWord s sl (BitVec.ofNat 32 (w % 2 ^ nbits))
    | none => s

end Sys2Proof.Machine
end

