-- ==== Sys2Proof/Safety.lean ====
section
/-!
DEFINITION. The terms in which claims about the machine are made: canonical memories, what an issuing word leaves alone, what a step
leaves alone, and the machine's safe runs.
-/
namespace Sys2Proof

/-- A word of a slot, as against an event of the part. -/
def Instr.isWord (i : Instr) : Bool := i.home.isSome

end Sys2Proof

namespace Sys2Proof.Machine

open Host

-- canonical memories

/-- The memories that a queued task carries are canonical. -/
def QTask.memsWf (t : QTask) : Bool :=
  (match t.savedPool with | some x => x.2.wf | none => true) && (match t.savedRows with | some m => m.wf | none => true)

def Core.memsWf (c : Core) : Bool := c.pool.wf && c.rows.wf && c.imem.wf && c.queue.all QTask.memsWf

def Die.memsWf (d : Die) : Bool := d.sram.wf && d.ovf.wf && d.tables.wf

/-- Every memory of the package is in canonical form: rising addresses, nothing listed that reads as an unlisted byte does. -/
def State.memsWf (s : State) : Bool :=
  s.cores.all Core.memsWf && s.dies.all Die.memsWf && s.hbms.all (fun k => k.bytes.wf) && s.pmc.bar2.wf && s.pmc.ckptimg.wf && s.host.wf

/-- Every memory of the package holds in t what it held in s. -/
def SameMemories (s t : State) : Prop :=
  (∀ c : CoreId, t.cores[c].pool = s.cores[c].pool ∧ t.cores[c].rows = s.cores[c].rows ∧ t.cores[c].imem = s.cores[c].imem) ∧
  (∀ d : DieId, t.dies[d].sram = s.dies[d].sram ∧ t.dies[d].ovf = s.dies[d].ovf ∧ t.dies[d].tables = s.dies[d].tables) ∧
  (∀ k : StackId, t.hbms[k].bytes = s.hbms[k].bytes) ∧ t.pmc.bar2 = s.pmc.bar2 ∧ t.pmc.ckptimg = s.pmc.ckptimg ∧ t.host = s.host

/-- Every memory of the package holds in t what it held in s, but for the destinations of the tag's transfers of which a block has been written or waits
in a port's buffer: their bytes are undefined once the round has ended badly (R303, R319). -/
def SameButLanded (s t : State) (tag : BitVec 8) : Prop :=
  (∀ c : CoreId, t.cores[c].rows = s.cores[c].rows ∧ t.cores[c].imem = s.cores[c].imem ∧
    ∀ a, (∀ x ∈ s.landed ++ s.waiting, x.tag = tag → coreIx x.core = c → a < x.base ∨ x.base + x.len ≤ a) → t.cores[c].pool.read a = s.cores[c].pool.read a) ∧
  (∀ d : DieId, t.dies[d].sram = s.dies[d].sram ∧ t.dies[d].ovf = s.dies[d].ovf ∧ t.dies[d].tables = s.dies[d].tables) ∧
  (∀ k : StackId, t.hbms[k].bytes = s.hbms[k].bytes) ∧ t.pmc.bar2 = s.pmc.bar2 ∧ t.pmc.ckptimg = s.pmc.ckptimg ∧ t.host = s.host

-- what changes

/-- Nothing but a core differs. -/
def OnlyCore (c : CoreId) (s t : State) : Prop := t = { s with cores := t.cores } ∧ ∀ d : CoreId, d ≠ c → t.cores[d] = s.cores[d]

/-- Nothing but a partition's registers differs. -/
def OnlyPart (p : PartId) (s t : State) : Prop := t = { s with parts := t.parts } ∧ ∀ q : PartId, q ≠ p → t.parts[q] = s.parts[q]

/-- Nothing but a stack differs. -/
def OnlyStack (k : StackId) (s t : State) : Prop := t = { s with hbms := t.hbms } ∧ ∀ q : StackId, q ≠ k → t.hbms[q] = s.hbms[q]

/-- Nothing but a die differs. -/
def OnlyDie (d : DieId) (s t : State) : Prop := t = { s with dies := t.dies } ∧ ∀ q : DieId, q ≠ d → t.dies[q] = s.dies[q]

/-- `exec` answers a next state that has a property. -/
def Completes (i : Instr) (s : State) (P : State → Prop) : Prop := ∃ t, exec i s = .next t ∧ P t

/-- A core becomes another, and nothing else differs. -/
def Makes (c : CoreId) (s t : State) (d : Core) : Prop := OnlyCore c s t ∧ t.cores[c] = d

/-- A partition's registers become others, and nothing else differs. -/
def MakesPart (p : PartId) (s t : State) (x : Part) : Prop := OnlyPart p s t ∧ t.parts[p] = x

/-- A stack becomes another, and nothing else differs. -/
def MakesStack (k : StackId) (s t : State) (x : Stack) : Prop := OnlyStack k s t ∧ t.hbms[k] = x

/-- A die's units become others, and nothing else differs. -/
def MakesDie (d : DieId) (s t : State) (x : Die) : Prop := OnlyDie d s t ∧ t.dies[d] = x

/-- The PMC becomes another, and nothing else differs. -/
def MakesPmc (s t : State) (x : Pmc) : Prop := t = { s with pmc := x }

/-- The installed handler is entered (R80) on a core that stands as `y`: cause, record and resume position saved, the loop stack held and empty,
TVEC.A set, the PC at the handler with no pending transfers. A TEPC that a return refused keeps its value (R81). -/
def EntersHandler (c : CoreId) (s t : State) (y : Core) (cause : BitVec 8) (i0 i1 tepc : Word) : Prop :=
  let v := y.ctx.spr.tvec
  let kept := cause = 0x01 ∧ i0.getLsbD 5 = true
  Makes c s t { y with ctx := { y.ctx with
    held := y.ctx.loops, loops := [], pc := v.setWidth 14, xfers := []
    spr := { y.ctx.spr with tcause := cause, tinfo0 := i0, tinfo1 := i1, tepc := if kept then y.ctx.spr.tepc else tepc, tvec := v ||| 0x8000 } } }

/-- The rounds of a tag end on this package with a violation (R302, R319): none of the tag is left, each core that joined one is to take the
timetable trap with the kind, window, queue and tag in its record and its count of ticks, and no byte changes outside the destinations of its transfers. -/
def RoundEnds (s t : State) (tag : BitVec 8) (kind window queue : Nat) : Prop :=
  tag ∈ t.aborted ∧ (∀ d : DieId, (t.dies[d]).rounds = (s.dies[d]).rounds.filter fun r => r.tag != tag) ∧
  (∀ k : CoreId, k.val ∈ s.roundCores tag → ∃ r ∈ (t.cores[k]).itraps, r.cause = 0x0D ∧ r.info1 = s.coreGcnt k ∧
    r.info0 = BitVec.ofNat 64 (tag.toNat * 2 ^ 24 + window * 2 ^ 16 + kind * 2 ^ 12 + queue * 2 ^ 8 + 7)) ∧ SameButLanded s t tag

/-- The bytes of an event of a partition's ring (R367, R368): the words from the device's write index on. -/
def Part.eventBytes (x : Part) (ws : List Word) : List (Nat × Byte) :=
  ws.zipIdx.flatMap fun w => leBytes (x.eqbase.toNat + 64 * (x.eqdwi.toNat % 2 ^ x.eqn.toNat) + 8 * w.2) 8 w.1.toNat

-- an issuing word

/-- A bundle's record without the bookkeeping of issue. -/
def BundleRec.bare (b : BundleRec) : BundleRec := { b with issued := 0, accEnd := 0 }

/-- A core with the bookkeeping of issue of another. -/
def Core.withIssue (c d : Core) : Core := { c with next := d.next, waitFrom := d.waitFrom, bundles := d.bundles }

/-- The issuing word has issued: its slot, and no other, has gone on to its next word, and no bundle has come, gone or changed. -/
def HasIssued (s t : State) : Prop :=
  t.me.nextSeq s.cur.slot = s.me.nextSeq s.cur.slot + 1 ∧ (∀ sl, sl ≠ s.cur.slot → t.me.nextSeq sl = s.me.nextSeq sl) ∧
  t.me.bundles.map BundleRec.bare = s.me.bundles.map BundleRec.bare

/-- The word has issued with this effect on its core and none elsewhere: every register, memory, queue and engine of the issuing core is as
`c` says, and everything else of the package as it was. -/
def Issues (s t : State) (c : Core) : Prop := OnlyCore s.cur.core s t ∧ HasIssued s t ∧ t.me = c.withIssue t.me

/-- The word waits: nothing has issued, and no register, memory, queue or engine has changed. -/
def Waits (s t : State) : Prop := OnlyCore s.cur.core s t ∧ t.me = { s.me with waitFrom := t.me.waitFrom }

/-- A result of the issuing word, to land `lat` cycles after its issue. -/
def State.resultOf (s : State) (r : Reg) (mask : Payload) (v lat : Nat) (kinds : Kinds) (pend : Bool) : Flight :=
  { seq := s.myRec.seq, slot := s.cur.slot, bundle := s.myRec.pc, reg := r, val := BitVec.ofNat 2048 v, mask := mask, due := s.me.cyc + lat,
    kinds := kinds, pend := pend }

/-- No other slot's write of the register, a landing AR word's among them, is to land in the same cycle (R61). -/
def Core.noMeeting (c : Core) (f : Flight) : Bool :=
  (c.flights ++ c.arFlights).all fun g => !(Reg.same g.reg f.reg && g.slot != f.slot && g.due = f.due && !g.pend && !f.pend)

/-- The core with one more result on its way; a trap is asked for only where two slots' writes of a register are to land together. -/
def Core.plus (c : Core) (f : Flight) (p : Option TrapReq) : Core := { c with flights := c.flights ++ [f], ptrap := p }

/-- The whole effect of a word that only writes a register: one result is on its way, of these bits and this value, landing `lat` cycles
after issue with these events. Until then every register keeps its value, and every register but this one afterwards. -/
def Delivers (s t : State) (r : Reg) (mask : Payload) (v lat : Nat) (kinds : Kinds := 0) (pend : Bool := false) : Prop :=
  ∃ p, Issues s t (s.me.plus (s.resultOf r mask v lat kinds pend) p) ∧
    (s.me.noMeeting (s.resultOf r mask v lat kinds pend) = true → p = s.me.ptrap)

/-- The core `d` is `c` with one more result on its way; a trap is asked for only where two slots' writes are to land together. -/
def Adds (c : Core) (f : Flight) (d : Core) : Prop := ∃ p, d = c.plus f p ∧ (c.noMeeting f = true → p = c.ptrap)

/-- The whole effect of a word that only raises a precise trap for its bundle (R44, R53). -/
def TrapsWith (s t : State) (cause : BitVec 8) (i0 i1 : Word) : Prop := Issues s t (s.me.reqTrap ⟨s.myRec.seq, cause, i0, i1⟩)

/-- The illegal trap of an issue-time check (R45): the slot number, further bits of TINFO0, the slot word. -/
def TrapsIllegal (s t : State) (extra : Word) : Prop :=
  TrapsWith s t 0x01 (extra ||| BitVec.ofNat 64 s.cur.slot.num) (s.myWord.zeroExtend 64)

/-- A pool access of the issuing word, `lat` cycles after its issue. -/
def State.accessOf (s : State) (view : Bool) (addr len lat : Nat) (op : AccOp) : Access :=
  { seq := s.myRec.seq, slot := s.cur.slot, bundle := s.myRec.pc, due := s.me.cyc + lat, addr := addr, len := len, view := view, op := op }

/-- The whole effect of a load: a result without a value yet, and the access that will bring it. -/
def Loads (s t : State) (r : Reg) (mask : Payload) (lat : Nat) (x : Access) : Prop :=
  ∃ p, Issues s t { s.me.plus (s.resultOf r mask 0 lat 0 false) p with access := s.me.access ++ [x] } ∧
    (s.me.noMeeting (s.resultOf r mask 0 lat 0 false) = true → p = s.me.ptrap)

/-- The whole effect of a store: accesses that will write; no byte of any memory has changed. -/
def Stores (s t : State) (xs : List Access) : Prop := Issues s t { s.me with access := s.me.access ++ xs }

/-- The pool address of R98, term by term: the base, every active level's index times its stride, the offset in units. -/
def State.streamAt (s : State) (as : BitVec 4) (off : Int) (unit : Nat) : Word :=
  (s.me.ras as).base +
    ((List.finRange 6).map fun k => (s.myRec.tag.lidx.getD k.val 0).setWidth 64 * ((s.me.ras as).st[k]).signExtend 64).sum +
    BitVec.ofInt 64 (off * unit)

/-- The checks of R99 on a slot access of n bytes with a granule: in the scratchpad, and aligned. -/
def State.reaches (s : State) (a : Word) (n al : Nat) : Prop := a.toNat % al = 0 ∧ a.toNat + n ≤ s.me.scratch

/-- The register file has the registers (R115). -/
def State.hasV (s : State) (rs : List (BitVec 6)) : Prop := s.me.ctx.spr.pw.getLsbD 0 = true → ∀ r ∈ rs, r.toNat < 32

/-- Elements of a number, by index: what element i of b bits holds for every i below n, and nothing above. -/
def Elements (v b n : Nat) (f : Nat → Nat) : Prop := v < 2 ^ (b * n) ∧ ∀ i < n, v / 2 ^ (b * i) % 2 ^ b = f i

-- hand-offs

/-- The entry of a queue that the issuing word makes, before what its own card adds. -/
def State.entryOf (s : State) (q : BitVec 3) (kind : EKind) (w : Vector Word 8) : Entry :=
  { newEntry kind w s.myRec.pc s.me.orders s.myRec.seq with pubs := s.pubsOf s.cur.core .system, notBefore := (s.me.rq q).fenceAt }

/-- The whole effect of a word that hands an entry to a copy-engine queue: the entry stands last in the queue, the next hand-off has the next
number, and, where the descriptor asks for it (R186, PFX), the entry has taken the translations that are cached and asked for the others. -/
def HandsOff (s t : State) (q : BitVec 3) (e : Entry) : Prop :=
  let e := if e.desc.pfx then e.translate s.me.ceTlb else e
  Issues (if e.desc.pfx then s.askMissing s.cur.core q e else s) t
    { s.me with orders := s.me.orders + 1, ctx :=
      { s.me.ctx with queues := s.me.ctx.queues.set q.toNat { s.me.rq q with entries := (s.me.rq q).entries ++ [e] } } }

/-- The core with an operation received by its matrix engine, in the open batch, in this cycle. -/
def State.withOp (s : State) (o : MOp) : Core :=
  { s.me with orders := s.me.orders + 1, ctx :=
    { s.me.ctx with mxe := { s.me.ctx.mxe with ops := s.me.ctx.mxe.ops ++ [{ o with batch := s.me.ctx.mxe.openB, rcvd := s.me.cyc }] } } }

/-- The core with an operation received whose tile goes into flight. -/
def State.withTile (s : State) (o : MOp) : Core :=
  (s.withOp o).onMxe fun m => { m with tiles := m.flying ++ [Tile.ofMd o.md m.openB] }

/-- The core with a word in its array field. -/
def State.withArWord (s : State) (work : ArWork) (ad : Vector Word 6) : Core :=
  { s.me with orders := s.me.orders + 1, ctx := { s.me.ctx with af := { s.me.ctx.af with words := s.me.ctx.af.words ++ [
    { work := work, ad := ad, beat := s.myRec.tag.beat, bundle := s.myRec.pc, seq := s.myRec.seq, order := s.me.orders, issue := s.me.cyc,
      slip := 0, start := none, writes := none, got := [], kinds := 0 }] } } }

-- runs

/-- n steps of the machine, none of which stops. -/
inductive Runs : Nat → State → State → Prop where
  | here (s : State) : Runs 0 s s
  | more {n : Nat} {s t u : State} : step s = .next t → Runs n t u → Runs (n + 1) s u

/-- A safe state: a step from it goes on, and its memories are canonical. -/
def Safe (s : State) : Prop := s.memsWf = true ∧ ∃ t, step s = .next t

end Sys2Proof.Machine
end

