-- ==== Sys2Proof/Certificates/Slice0/Obligations.lean ====
section
/-!
DEFINITION. The statements about the machine that are to be proved.
-/
open Sys2Proof Sys2Proof.Machine Host

-- S1: integer words

/-- R102, R104, R105 and R106 over all operands: each word puts the value of its row on its way to sd, a 64-bit register written whole, landing at
the end of issue + 1, and has no other effect. The amounts of the immediate shifts are 0–63 in every word that decodes; CLZ and POPC count 0–64. MOVI
and MOVK are format W words of OP 0x1F and 0x20. -/
def Obligations.IntegerResults : Prop :=
  (∀ (s : State) (d a b : BitVec 6) (cf : BitVec 3) (i : BitVec 11) (j : BitVec 17),
     let x := s.me.rs a
     let y := s.me.rs b
     let gives := fun (w : Instr) (v : Word) => Completes w s fun t => Delivers s t (.s d) (lowMask 64) v.toNat 1
     gives (.add d a b) (x + y) ∧ gives (.sub d a b) (x - y) ∧ gives (.and d a b) (x &&& y) ∧ gives (.or d a b) (x ||| y) ∧
     gives (.xor d a b) (x ^^^ y) ∧ gives (.shl d a b) (x <<< (y &&& 63)) ∧ gives (.shr d a b) (x >>> (y &&& 63)) ∧
     gives (.sar d a b) (x.sshiftRight' (y &&& 63)) ∧
     gives (.min d a b) (BitVec.ofInt 64 (min x.toInt y.toInt)) ∧ gives (.max d a b) (BitVec.ofInt 64 (max x.toInt y.toInt)) ∧
     gives (.minu d a b) (BitVec.ofNat 64 (min x.toNat y.toNat)) ∧ gives (.maxu d a b) (BitVec.ofNat 64 (max x.toNat y.toNat)) ∧
     gives (.sel d a b cf) (if s.me.rcf cf then x else y) ∧
     gives (.addi d a i) (x + i.signExtend 64) ∧ gives (.andi d a i) (x &&& i.signExtend 64) ∧ gives (.ori d a i) (x ||| i.signExtend 64) ∧
     gives (.xori d a i) (x ^^^ i.signExtend 64) ∧
     gives (.movi d j) (j.signExtend 64) ∧ gives (.movk d j) (BitVec.ofNat 64 (s.me.rs d).toNat <<< 17 ||| j.setWidth 64)) ∧
  (∀ (s : State) (d a : BitVec 6) (i : BitVec 11), i.toNat ≤ 63 →
     let x := s.me.rs a
     let gives := fun (w : Instr) (v : Word) => Completes w s fun t => Delivers s t (.s d) (lowMask 64) v.toNat 1
     gives (.shli d a i) (BitVec.ofNat 64 (x.toNat * 2 ^ i.toNat)) ∧ gives (.shri d a i) (BitVec.ofNat 64 (x.toNat / 2 ^ i.toNat)) ∧
     gives (.sari d a i) (BitVec.ofInt 64 (x.toInt / 2 ^ i.toNat))) ∧
  (∀ (s : State) (d a : BitVec 6),
     let x := s.me.rs a
     (∃ n, n ≤ 64 ∧ x.toNat < 2 ^ (64 - n) ∧ (n < 64 → 2 ^ (63 - n) ≤ x.toNat) ∧
       Completes (.clz d a) s fun t => Delivers s t (.s d) (lowMask 64) n 1) ∧
     Completes (.popc d a) s fun t => Delivers s t (.s d) (lowMask 64) ((List.finRange 64).countP fun i => x[i]) 1) ∧
  (∀ (d : BitVec 6) (j : BitVec 17), (Instr.movi d j).body = 0x1F#6 ++ d ++ j ∧ (Instr.movk d j).body = 0x20#6 ++ d ++ j)

/-- R102, R103: MUL gives bits 63:0 of the product, MULH and MULHU bits 127:64 of the signed and of the unsigned 128-bit product, at the end of
issue + 3; the divides give quotients and remainders at the end of issue + 18, with a divisor of 0 all ones, or the dividend, and the div-zero
event. The most negative number divided by −1 gives itself and the remainder 0, without an event. The divides are format A
words of OP 0x0C–0x0F. -/
def Obligations.MultipliesAndDivides : Prop :=
  (∀ (s : State) (d a b : BitVec 6),
     let x := s.me.rs a
     let y := s.me.rs b
     let gives := fun (w : Instr) (v : Word) => Completes w s fun t => Delivers s t (.s d) (lowMask 64) v.toNat 3
     gives (.mul d a b) ((x.setWidth 128 * y.setWidth 128).extractLsb' 0 64) ∧
     gives (.mulh d a b) ((x.signExtend 128 * y.signExtend 128).extractLsb' 64 64) ∧
     gives (.mulhu d a b) ((x.setWidth 128 * y.setWidth 128).extractLsb' 64 64)) ∧
  (∀ (s : State) (d a b : BitVec 6),
     let x := s.me.rs a
     let y := s.me.rs b
     let gives := fun (w : Instr) (v : Word) (k : Kinds) => Completes w s fun t => Delivers s t (.s d) (lowMask 64) v.toNat 18 k
     (y ≠ 0 → gives (.div d a b) (x.sdiv y) 0 ∧ gives (.divu d a b) (x.udiv y) 0 ∧ gives (.rem d a b) (x.srem y) 0 ∧
       gives (.remu d a b) (x.umod y) 0) ∧
     (y = 0 → gives (.div d a b) (BitVec.allOnes 64) kDivZero ∧ gives (.divu d a b) (BitVec.allOnes 64) kDivZero ∧
       gives (.rem d a b) x kDivZero ∧ gives (.remu d a b) x kDivZero)) ∧
  (∀ d a b : BitVec 6, (Instr.div d a b).body = 0x0C#6 ++ d ++ a ++ b ++ 0#5 ∧ (Instr.divu d a b).body = 0x0D#6 ++ d ++ a ++ b ++ 0#5 ∧
     (Instr.rem d a b).body = 0x0E#6 ++ d ++ a ++ b ++ 0#5 ∧ (Instr.remu d a b).body = 0x0F#6 ++ d ++ a ++ b ++ 0#5)


-- S1: binary32

/-- R110–R113 over all operands: each word reads bits 31:0 of its registers and puts one binary32, with bits 63:32 zero, on its way to sd with the
events of its row, landing at the end of issue + 4; FADD to FMAX follow the exact-then-rounded arithmetic of R143. FCMP gives 1 or 0: a NaN makes
EQ, LT and LE false and UN true, and raises invalid under LT and LE, under the others where it signals. FCVTFI of a NaN gives 0 and of an
infinity the nearer bound, both invalid; of a finite value the integer of the named rounding, the nearer bound and invalid where that falls
outside, and otherwise inexact exactly where it is not the value. -/
def Obligations.FloatResults : Prop :=
  (∀ (s : State) (d a b : BitVec 6),
     let x := (s.me.rs a).toNat % 2 ^ 32
     let y := (s.me.rs b).toNat % 2 ^ 32
     let z := (s.me.rs d).toNat % 2 ^ 32
     let gives := fun (w : Instr) (r : Nat × Kinds) => r.1 < 2 ^ 32 ∧ Completes w s fun t => Delivers s t (.s d) (lowMask 64) r.1 4 r.2
     gives (.fadd d a b) (fmtF32.add x y) ∧ gives (.fsub d a b) (fmtF32.sub x y) ∧ gives (.fmul d a b) (fmtF32.mul x y) ∧
     gives (.fma d a b) (fmtF32.fma z x y) ∧ gives (.fmin d a b) (fmtF32.minmax false x y) ∧ gives (.fmax d a b) (fmtF32.minmax true x y) ∧
     gives (.fneg d a) (if x < 2 ^ 31 then x + 2 ^ 31 else x - 2 ^ 31, 0) ∧ gives (.fabs d a) (x % 2 ^ 31, 0) ∧
     gives (.fcvtif d a) (fmtF32.roundTo .rne false 0 (.ofInt (s.me.rs a).toInt))) ∧
  (∀ (s : State) (d a b : BitVec 6),
     let x := fmtF32.decode ((s.me.rs a).toNat % 2 ^ 32)
     let y := fmtF32.decode ((s.me.rs b).toNat % 2 ^ 32)
     let gives := fun (c : FCond) (v : Bool) (k : Kinds) =>
       Completes (.fcmp d a b c) s fun t => Delivers s t (.s d) (lowMask 64) (if v then 1 else 0) 4 k
     let signalling : Kinds := if x.isSig || y.isSig then kInvalid else 0
     (x.isNan = true ∨ y.isNan = true →
       gives .eq false signalling ∧ gives .lt false kInvalid ∧ gives .le false kInvalid ∧ gives .un true signalling) ∧
     (x.isNan = false ∧ y.isNan = false →
       gives .eq (x.eq y) 0 ∧ gives .lt (x.lt y) 0 ∧ gives .le (x.lt y || x.eq y) 0 ∧ gives .un false 0)) ∧
  (∀ (s : State) (d a : BitVec 6) (rtz : Bool),
     let gives := fun (v : Int) (k : Kinds) =>
       Completes (.fcvtfi d a rtz) s fun t => Delivers s t (.s d) (lowMask 64) (BitVec.ofInt 64 v).toNat 4 k
     match fmtF32.decode ((s.me.rs a).toNat % 2 ^ 32) with
     | .nan _ _ => gives 0 kInvalid
     | .inf neg => gives (if neg then -(2 ^ 63) else 2 ^ 63 - 1) kInvalid
     | .fin neg m e =>
       let r := roundMag (if rtz then .rtz else .rne) neg 0 m e 0
       let v : Int := if neg then -(r.1 : Int) else r.1
       (v < -(2 ^ 63) → gives (-(2 ^ 63)) kInvalid) ∧ (2 ^ 63 - 1 < v → gives (2 ^ 63 - 1) kInvalid) ∧
       (-(2 ^ 63) ≤ v ∧ v ≤ 2 ^ 63 - 1 → gives v (if r.2 then 0 else kInexact)))

/-- A value that a floating format of R140 holds, other than a NaN, rounds to its own bits in that format under every rounding, without an event. -/
def Obligations.RepresentedValuesRoundToThemselves : Prop :=
  ∀ f ∈ [fmtF32, fmtF16, fmtBF16, fmtE4M3, fmtE5M2, fmtE3M2, fmtE2M3, fmtE2M1], ∀ (mode : Rnd) (sat : Bool) (r x : Nat),
    r < 256 → x < 2 ^ f.bits → (f.decode x).isNan = false → f.roundTo mode sat r (f.decode x) = (x, 0)

/-- R143, R148: rounding a magnitude m × 2^e to a whole multiple of 2^lsb gives one of the two nearest multiples, the value itself where it is
one, the nearer one under RNE with ties to the even, the lower one under RTZ, and under RUP the one nearer to +∞. -/
def Obligations.RoundingChoosesANeighbour : Prop :=
  ∀ (mode : Rnd) (neg : Bool) (r m d : Nat) (e : Int), r < 256 → 0 < d →
    let k := roundMag mode neg r m e (e + d)
    let q := m / 2 ^ d
    (k.1 = q ∨ k.1 = q + 1) ∧ (k.2 = true ↔ 2 ^ d ∣ m) ∧ (2 ^ d ∣ m → k.1 = q) ∧
    (mode = .rne → 2 * (k.1 * 2 ^ d) ≤ 2 * m + 2 ^ d ∧ 2 * m ≤ 2 * (k.1 * 2 ^ d) + 2 ^ d ∧ (2 * (m % 2 ^ d) = 2 ^ d → k.1 % 2 = 0)) ∧
    (mode = .rtz → k.1 = q) ∧ (mode = .rup → (neg = true → k.1 = q) ∧ (neg = false → m ≤ k.1 * 2 ^ d))

-- S1: the pool and the streams

/-- R98–R101, R107, R109: LD and LDA of n bytes from a legal address put a result without a value yet on its way to sd, to land at the end of
issue + 4, and a read of those bytes in issue + 2; ST and STL the write of bits 8n − 1:0 of their register, in issue + 2. No byte of any memory
has changed. An address that fails a check raises the illegal trap of the bundle and does nothing else: TINFO0 holds the slot, bit 4 and bits
31:0 of the address, TINFO1 the slot word (R45). ASET writes its one field from sa, and AGET reads one into sd, both landing at the end of
issue + 1: the base, a stride sign-extended, or the view bit. -/
def Obligations.ScalarAccesses : Prop :=
  ((∀ (s : State) (r : BitVec 6) (as : BitVec 4) (size : SSize) (sx : Bool) (off : BitVec 10) (sc : Scope),
      let n := match size with | .b => 1 | .h => 2 | .w => 4 | .d => 8
      let view := (s.me.ras as).view
      let a := s.streamAt as off.toInt n
      let b := s.streamAt as 0 n
      let bytes := (List.range n).map fun i => some ((s.me.rs r).extractLsb' (8 * i) 8)
      (s.reaches a n n → (size = .d → sx = false) →
        Completes (.ld r as size sx off) s fun t =>
          Loads s t (.s r) (lowMask 64) 4 (s.accessOf view a.toNat n 2 (.load (.s r) 0 0 sx []))) ∧
      (s.reaches a n n → Completes (.st r as size off) s fun t => Stores s t [s.accessOf view a.toNat n 2 (.store bytes)]) ∧
      (s.reaches b n n → Completes (.lda r as size sc) s fun t =>
          Loads s t (.s r) (lowMask 64) 4 (s.accessOf view b.toNat n 2 (.load (.s r) 0 0 false []))) ∧
      (s.reaches b n n → Completes (.stl r as size sc) s fun t => Stores s t [s.accessOf view b.toNat n 2 (.store bytes)])) ∧
   (∀ (s : State) (r : BitVec 6) (as : BitVec 4) (size : SSize) (sx : Bool) (off : BitVec 10) (sc : Scope),
      let n := match size with | .b => 1 | .h => 2 | .w => 4 | .d => 8
      let a := s.streamAt as off.toInt n
      let b := s.streamAt as 0 n
      let info := fun (x : Word) => BitVec.ofNat 64 (16 + x.toNat % 2 ^ 32 * 2 ^ 32)
      (¬ s.reaches a n n → (Completes (.ld r as size sx off) s fun t => TrapsIllegal s t (info a)) ∧
        Completes (.st r as size off) s fun t => TrapsIllegal s t (info a)) ∧
      (¬ s.reaches b n n → (Completes (.lda r as size sc) s fun t => TrapsIllegal s t (info b)) ∧
        Completes (.stl r as size sc) s fun t => TrapsIllegal s t (info b)))) ∧
  (∀ (s : State) (as : BitVec 4) (f : BitVec 3) (r : BitVec 6),
     let x := s.me.ras as
     (Completes (.aset as f r) s fun t => Delivers s t (.asf as f) (lowMask 64) (s.me.rs r).toNat 1) ∧
     (Completes (.aget r as 0) s fun t => Delivers s t (.s r) (lowMask 64) x.base.toNat 1) ∧
     (∀ k : Fin 6, Completes (.aget r as (BitVec.ofNat 3 (k.val + 1))) s fun t =>
       Delivers s t (.s r) (lowMask 64) ((x.st[k]).signExtend 64).toNat 1) ∧
     (Completes (.aget r as 7) s fun t => Delivers s t (.s r) (lowMask 64) x.view.toNat 1) ∧
     (Instr.aget r as f).body = 0x29#6 ++ r ++ as ++ f ++ 0#10)


-- S0: flags, targets, special registers

/-- R82, R84, R85, R86: PBT and PBTR prepare a target, CMP, CMPI and CFOP set a flag, all landing at the end of issue + 1; VANY and VALL vote on
bits W/8 − 1 : 0 of a predicate, landing at the end of issue + 2. No other effect. -/
def Obligations.TargetsAndFlags : Prop :=
  ∀ (s : State) (bt cf cg ch p : BitVec 3) (off : BitVec 20) (a b : BitVec 6) (i : BitVec 10) (w : VWidth), s.cur.slot = .ctl →
    let flag := fun (x : Instr) (v : Bool) (lat : Nat) => Completes x s fun t => Delivers s t (.cf cf) (lowMask 1) (if v then 1 else 0) lat
    let compares := fun (y : Word) (x : Cond → Instr) =>
      let x0 := s.me.rs a
      flag (x .eq) (decide (x0 = y)) 1 ∧ flag (x .ne) (decide (x0 ≠ y)) 1 ∧
      flag (x .lt) (decide (x0.toInt < y.toInt)) 1 ∧ flag (x .ge) (decide (y.toInt ≤ x0.toInt)) 1 ∧
      flag (x .le) (decide (x0.toInt ≤ y.toInt)) 1 ∧ flag (x .gt) (decide (y.toInt < x0.toInt)) 1 ∧
      flag (x .ltu) (decide (x0.toNat < y.toNat)) 1 ∧ flag (x .geu) (decide (y.toNat ≤ x0.toNat)) 1 ∧
      flag (x .leu) (decide (x0.toNat ≤ y.toNat)) 1 ∧ flag (x .gtu) (decide (y.toNat < x0.toNat)) 1 ∧
      flag (x .bits) (decide (x0 &&& y ≠ 0)) 1 ∧ flag (x .nobits) (decide (x0 &&& y = 0)) 1
    (Completes (.pbt bt off) s fun t => Delivers s t (.bt bt) (lowMask 64) (BitVec.ofInt 64 (s.myRec.pc.toNat + off.toInt)).toNat 1) ∧
    (Completes (.pbtr bt a) s fun t => Delivers s t (.bt bt) (lowMask 64) (s.me.rs a).toNat 1) ∧
    compares (s.me.rs b) (fun c => .cmp cf c a b) ∧ compares (i.signExtend 64) (fun c => .cmpi cf c a i) ∧
    flag (.cfop cf cg ch .and) (s.me.rcf cg && s.me.rcf ch) 1 ∧ flag (.cfop cf cg ch .or) (s.me.rcf cg || s.me.rcf ch) 1 ∧
    flag (.cfop cf cg ch .xor) (s.me.rcf cg != s.me.rcf ch) 1 ∧ flag (.cfop cf cg ch .andn) (s.me.rcf cg && !s.me.rcf ch) 1 ∧
    flag (.vany cf p w) ((List.range (w.bits / 8)).any fun k => (s.me.rp p).getLsbD k) 2 ∧
    flag (.vall cf p w) ((List.range (w.bits / 8)).all fun k => (s.me.rp p).getLsbD k) 2 ∧
    (∀ op : CfOp, (Instr.cfop cf cg ch op).body = 0x0C#6 ++ cf ++ cg ++ ch ++ op.code ++ 0#12) ∧
    CfOp.and.code = 0 ∧ CfOp.or.code = 1 ∧ CfOp.xor.code = 2 ∧ CfOp.andn.code = 3

/-- R89, R90, R93, R94, R336: MOVSR samples a special register in its issue cycle, for sd at the end of issue + 2; of FELA it also clears the log, FELA and
FELB alone, keeping what a precise trap restores. MOVRS puts sa on its way to the register, landing at the end of issue + 2; of a privileged
register without TASKINFO.P it raises the privileged-write trap alone, with the register's number in TINFO0 bits 25:16 and its word in TINFO1.
What the special registers read as: the core's and the partition's number, the counters, the tag's beat, loop indices, depth and count, the bt
registers' low fourteen bits, and the registers of the task as they stand. -/
def Obligations.SpecialRegisters : Prop :=
  ((∀ (s : State) (d : BitVec 6) (n : BitVec 10), s.cur.slot = .ctl →
      let v := sprRead s s.cur.core s.myRec.tag n.toNat
      let x := s.me.ctx.spr
      (n ≠ 0x006 → Completes (.movsr d n) s fun t => Delivers s t (.s d) (lowMask 64) v.toNat 2) ∧
      (n = 0x006 → v = x.fela ∧ Completes (.movsr d n) s fun t => ∃ c,
        Adds s.me (s.resultOf (.s d) (lowMask 64) v.toNat 2 0 false) c ∧
        Issues s t { c with ctx := { c.ctx with spr := { x with fela := 0, felb := 0 } }, undo := .felRead (s.me.nextSeq .ctl) x.fela x.felb :: c.undo })) ∧
   (∀ (s : State) (a : BitVec 6) (n : BitVec 10), s.cur.slot = .ctl → sprWritable n = true →
      let privileged := n.toNat = 0x015 ∨ n.toNat = 0x016 ∨ (0x040 ≤ n.toNat ∧ n.toNat ≤ 0x046)
      (privileged → s.me.ctx.spr.taskinfo.getLsbD 63 = false →
        Completes (.movrs a n) s fun t => TrapsWith s t 0x14 (BitVec.ofNat 64 (n.toNat * 2 ^ 16)) (s.myWord.setWidth 64)) ∧
      (¬ privileged ∨ s.me.ctx.spr.taskinfo.getLsbD 63 = true →
        Completes (.movrs a n) s fun t => Delivers s t (.spr n) (lowMask 64) (s.me.rs a).toNat 2))) ∧
  (∀ (s : State) (c : CoreId) (t : Tag),
     let x := s.cores[c]
     let reads := fun (n : Nat) (v : Word) => sprRead s c t n = v
     reads 0x000 (BitVec.ofNat 64 c.val) ∧ (∀ p, s.partOf c = some p → reads 0x001 (BitVec.ofNat 64 p.val)) ∧ reads 0x002 x.ccnt ∧
     reads 0x003 (s.gcnt + BitVec.ofInt 64 x.gskew) ∧ reads 0x004 (t.beat.setWidth 64) ∧ reads 0x014 (BitVec.ofNat 64 s.ceiling) ∧
     reads 0x015 (x.ctx.spr.clim.setWidth 64) ∧ reads 0x016 (x.ctx.spr.cwin.setWidth 64) ∧ reads 0x017 (x.ctx.spr.split.setWidth 64) ∧
     (∀ k : Fin 6, reads (0x018 + k.val) ((t.lidx.getD k.val 0).setWidth 64)) ∧ reads 0x01E (BitVec.ofNat 64 t.lidx.length) ∧
     reads 0x01F (t.lcnt.setWidth 64) ∧ (∀ k : Fin 8, reads (0x020 + k.val) (x.ctx.bt[k] &&& 0x3FFF)) ∧
     reads 0x028 (BitVec.ofNat 64 x.ctx.rq.length) ∧
     (let r := x.ctx.spr
      reads 0x005 r.frzcnt ∧ reads 0x006 r.fela ∧ reads 0x007 r.felb ∧ reads 0x008 (r.felmask.setWidth 64) ∧ reads 0x009 (r.fflags.setWidth 64) ∧
      reads 0x00A (if r.sbmode then 1 else 0) ∧ reads 0x00B (r.shape.setWidth 64) ∧ reads 0x00C (r.alate.setWidth 64) ∧
      reads 0x00D (r.astretch.setWidth 64) ∧ reads 0x00E (r.alatecnt.setWidth 64) ∧ reads 0x00F (r.arows.setWidth 64) ∧
      reads 0x010 (r.vcnta.setWidth 64) ∧ reads 0x011 (r.vcntb.setWidth 64) ∧ reads 0x012 (r.atscope.setWidth 64) ∧ reads 0x029 r.rngctr ∧
      reads 0x02A r.rngkey ∧ reads 0x030 (r.tcause.setWidth 64) ∧ reads 0x031 r.tinfo0 ∧ reads 0x032 r.tinfo1 ∧ reads 0x033 r.tepc ∧
      reads 0x034 (r.tvec.setWidth 64) ∧ reads 0x038 r.taskinfo ∧ reads 0x039 r.tbudget ∧ (∀ k : Fin 6, reads (0x040 + k.val) r.dom[k]) ∧
      reads 0x046 (r.policy.setWidth 64) ∧ reads 0x050 r.pw))

-- S0: transfers, loops, the sequencer's words

/-- R67, R83: a transfer that issues reads its registers from the next cycle on; nothing else changes of the core, but that CALL also puts this
bundle + 4 on its way to s63, landing at the end of issue + 1. The bundle's transfer stands in the list from its dispatch. -/
def Obligations.TransfersIssue : Prop :=
  ∀ (s : State) (bt cf : BitVec 3) (sense : Bool), s.cur.slot = .ctl → (s.me.ctx.xfers.any fun x => x.seq = s.myRec.seq) = true →
    let told := fun (b : Option (BitVec 3)) (k : Option (BitVec 3 × Bool)) =>
      { s.me with ctx := { s.me.ctx with xfers := s.me.ctx.xfers.map fun x =>
        if x.seq = s.myRec.seq then { x with readAt := some (s.me.cyc + 1), bt := b, cond := k } else x } }
    (Completes (.br bt cf sense) s fun t => Issues s t (told (some bt) (some (cf, sense)))) ∧
    (Completes (.brAlways bt) s fun t => Issues s t (told (some bt) none)) ∧
    (Completes .ret s fun t => Issues s t (told none none)) ∧
    (Completes (.call bt) s fun t => ∃ c,
      Adds (told (some bt) none) (s.resultOf (.s 63) (lowMask 64) (s.myRec.pc.toNat + 4) 1 0 false) c ∧ Issues s t c)

/-- R73, R87, R88: a LOOP or LOOPX that its checks let pass issues without any effect of its own (what it does to the loop stack it does at the
boundary after its bundle, R75); the register form also gives the sequencer its count and ends the hold on dispatch (R65). A body end beyond
that of the innermost level, a register count above 32 bits, and a LOOPX of more levels than there are raise the illegal trap, a seventh level
the loop-depth trap with the count and the offset in its record; nothing else happens. -/
def Obligations.LoopWords : Prop :=
  (∀ (s : State) (n : BitVec 10) (a : BitVec 6) (off : BitVec 12) (k : BitVec 3), s.cur.slot = .ctl →
     let inside := ∀ l ∈ s.myRec.loopsBefore.head?, s.myRec.pc.toNat + off.toNat ≤ l.stop.toNat
     let room := fun (count : Nat) => s.myRec.loopsBefore.length ≠ 6 ∨ count = 0
     (inside → room n.toNat → Completes (.loop n off) s fun t => Issues s t s.me) ∧
     (inside → room (s.me.rs a).toNat → (s.me.rs a).toNat < 2 ^ 32 → Completes (.loopReg a off) s fun t =>
       Issues s t { s.me with hold := .none, bound := s.me.bound.map fun b =>
         if b.seq = s.me.nextSeq .ctl then { b with count := some ((s.me.rs a).setWidth 32) } else b }) ∧
     (k.toNat ≤ s.myRec.loopsBefore.length → Completes (.loopx k) s fun t => Issues s t s.me)) ∧
  (∀ (s : State) (n : BitVec 10) (a : BitVec 6) (off : BitVec 12) (k : BitVec 3), s.cur.slot = .ctl →
     let word := s.myWord.setWidth 64
     let beyond := ∃ l ∈ s.myRec.loopsBefore.head?, l.stop.toNat < s.myRec.pc.toNat + off.toNat
     let full := fun (count : Nat) => s.myRec.loopsBefore.length = 6 ∧ count ≠ 0
     let deep := fun (count : Nat) => BitVec.ofNat 64 (count * 2 ^ 32 + off.toNat * 2 ^ 16)
     (beyond → Completes (.loop n off) s fun t => TrapsWith s t 0x01 0 word) ∧
     (beyond ∨ 2 ^ 32 ≤ (s.me.rs a).toNat → Completes (.loopReg a off) s fun t => TrapsWith s t 0x01 0 word) ∧
     (¬ beyond → full n.toNat → Completes (.loop n off) s fun t => TrapsWith s t 0x07 (deep n.toNat) word) ∧
     (¬ beyond → full (s.me.rs a).toNat → (s.me.rs a).toNat < 2 ^ 32 →
       Completes (.loopReg a off) s fun t => TrapsWith s t 0x07 (deep (s.me.rs a).toNat) word) ∧
     (s.myRec.loopsBefore.length < k.toNat → Completes (.loopx k) s fun t => TrapsWith s t 0x01 0 word))

/-- R26, R77, R78, R79, R81, R91: what NOP, HALT, YIELD, TRAP, a RETT that issues, and WAITC do at their issue, and that they do nothing else:
HALT begins the end of the task; YIELD asks for a pre-emption where a ready or suspended task of equal or higher priority waits, and otherwise
lets dispatch go on; TRAP has the software trap, with its code, wait for its bundle's retirement; RETT waits for its own; WAITC keeps CTL from
issuing for max(n, 1) cycles. -/
def Obligations.SequencerWords : Prop :=
  ∀ (s : State) (code n : BitVec 16), s.cur.slot = .ctl →
    let waits := ∃ t ∈ s.me.queue, fld s.me.ctx.spr.taskinfo 29 28 ≤ fld (t.launch.getD 0 0) 29 28 ∧ (t.state = .ready ∨ t.state = .suspended)
    (Completes .nop s fun t => Issues s t s.me) ∧ (Completes .halt s fun t => Issues s t { s.me with run := .halting }) ∧
    (waits → Completes .yield s fun t => Issues s t { s.me with preempt := true }) ∧
    (¬ waits → Completes .yield s fun t => Issues s t { s.me with hold := .none }) ∧
    (Completes (.trap code) s fun t => Issues s t { s.me with itraps := s.me.itraps ++ [⟨0x10, code.setWidth 64, 0, none, some (s.me.nextSeq .ctl)⟩] }) ∧
    (s.me.ret = none → Completes .rett s fun t => Issues s t { s.me with ret := some (s.me.nextSeq .ctl) }) ∧
    (Completes (.waitc n) s fun t => Issues s t { s.me with ctlHold := s.me.cyc + max n.toNat 1 })

/-- R81: once its bundle has retired, in a handler and with a TEPC that passes its checks, RETT restores the held loop stack, takes the PC from TEPC
bits 13:0 and the pending transfers from the rest, clears TVEC.A, and re-injects the replay buffer, an entry with r cycles remaining to land at
the end of the r-th cycle from the resumption's first on (log 38: the resumption's first cycle is that in which the return is made, the model's
reading); the queues whose halt the handler answered run their first entry again from its beginning, of a CBP overflow its CBP alone (R361); and it
changes no register, memory or other core. Without TVEC.A, and with a PC or a target outside the code region or two equal counts, it has done none of this and asks for
the illegal trap of its own bundle, the second with bit 5 and its address in TINFO0. -/
def Obligations.ReturnFromTrap : Prop :=
  ∀ (s : State) (k : Nat), s.me.ret = some k → s.me.alive k = false →
    let x := s.me.ctx
    let left := tepcXfers x.spr.tepc
    let within := fun (p : BitVec 14) => inRegion x.spr.taskinfo p.toNat = true
    let good := within (x.spr.tepc.setWidth 14) ∧ (∀ y ∈ left, within y.1) ∧ (left.map (·.2)).Nodup
    let active := x.spr.tvec.getLsbD 15
    (active = true → good → Completes .rett s fun t => OnlyCore s.cur.core s t ∧
      t.me.ctx = { x with
        loops := x.held, held := [], pc := x.spr.tepc.setWidth 14, replay := [], spr := { x.spr with tvec := x.spr.tvec &&& 0x7FFF },
        queues := x.queues.map fun q =>
          let es := match q.entries with | e :: r => (if q.cause = 4 then e else e.again) :: r | [] => []
          if q.halted && q.inTrap then { q with halted := false, cause := 0, inTrap := false, entries := es } else q,
        xfers := left.zipIdx.map fun y =>
          { seq := s.me.seqNo + y.2, pc := 0, left := y.1.2, readAt := none, bt := none, cond := none, tgt := some y.1.1, res := some (some y.1.1)
            done := false } } ∧
      t.me.flights = s.me.flights ++ (x.replay.map fun f => { f with due := s.me.cyc + f.due - 1 }) ∧
      t.me.pool = s.me.pool ∧ t.me.rows = s.me.rows ∧ t.me.imem = s.me.imem ∧ t.me.ret = none ∧ t.me.hold = .none ∧ t.me.bound = none) ∧
    (∀ g, (s.me.gone.find? fun g => g.b.seq = k) = some g →
      let word := (g.b.word .ctl).setWidth 64
      (active = false → Completes .rett s fun t => Makes s.cur.core s t (s.me.reqTrap ⟨k, 0x01, 0, word⟩)) ∧
      (active = true → ¬ good → Completes .rett s fun t =>
        Makes s.cur.core s t (s.me.reqTrap ⟨k, 0x01, BitVec.ofNat 64 (2 ^ 5 + g.b.pc.toNat * 2 ^ 32), word⟩)))

/-- R68, R70, R72, R74, R75: at the boundary after a bundle at which no transfer lands, LOOP with a count pushes a level whose body starts at the next
bundle and control enters it, and LOOP 0 skips past its body; of another bundle the end tests go from the innermost level outward: a level that
ends elsewhere stops them, one with an iteration left loops back, one without pops. LOOPX pops its levels before them. The taken transfer whose
third delay bundle has gone lands: every level whose body does not hold the target pops, the others stay with their indices, control goes to the
target, and no end test is made; one that is not taken has no effect. A body's end past the last bundle number is taken modulo 2^14 (log 88, the
model's choice). -/
def Obligations.Boundaries : Prop :=
  (∀ (c : Machine.Core) (b : Boundary), c.bound = some b → c.landingXfer = none →
     let goes := fun (ls : List LoopLevel) (pc : BitVec 14) => c.cross.ctx.loops = ls ∧ c.cross.ctx.pc = pc ∧ c.cross.bound = none
     let quiet := match b.ctl with | .loop _ _ | .loopReg _ _ | .loopx _ => False | _ => True
     (∀ n off, b.ctl = .loop n off → n ≠ 0 → off ≠ 0 → c.ctx.loops.length < 6 →
       goes (⟨0, n.setWidth 32, b.pc + 1, b.pc + off.setWidth 14⟩ :: c.ctx.loops) (b.pc + 1)) ∧
     (∀ off, b.ctl = .loop 0 off → (∀ l ∈ c.ctx.loops.head?, l.stop ≠ b.pc + off.setWidth 14) → goes c.ctx.loops (b.pc + off.setWidth 14 + 1)) ∧
     (∀ a off n, b.ctl = .loopReg a off → b.count = some n → n ≠ 0 → off ≠ 0 → c.ctx.loops.length < 6 →
       goes (⟨0, n, b.pc + 1, b.pc + off.setWidth 14⟩ :: c.ctx.loops) (b.pc + 1)) ∧
     (∀ k, b.ctl = .loopx k → (∀ l ∈ (c.ctx.loops.drop k.toNat).head?, l.stop ≠ b.pc) → goes (c.ctx.loops.drop k.toNat) (b.pc + 1)) ∧
     (quiet → (∀ l ∈ c.ctx.loops.head?, l.stop ≠ b.pc) → goes c.ctx.loops (b.pc + 1)) ∧
     (∀ l r, quiet → c.ctx.loops = l :: r → l.stop = b.pc → l.index.toNat + 1 < l.count.toNat → goes ({ l with index := l.index + 1 } :: r) l.start) ∧
     (∀ l r, quiet → c.ctx.loops = l :: r → l.stop = b.pc → l.count.toNat ≤ l.index.toNat + 1 → (∀ m ∈ r.head?, m.stop ≠ b.pc) → goes r (b.pc + 1)) ∧
     (∀ l m r, quiet → c.ctx.loops = l :: m :: r → l.stop = b.pc → l.count.toNat ≤ l.index.toNat + 1 → m.stop = b.pc →
       m.index.toNat + 1 < m.count.toNat → goes ({ m with index := m.index + 1 } :: r) m.start)) ∧
  (∀ (c : Machine.Core) (b : Boundary) (x : Xfer), c.bound = some b → c.landingXfer = some x →
     let quiet := match b.ctl with | .loop _ _ | .loopReg _ _ | .loopx _ => False | _ => True
     (∀ target, quiet → x.res = some (some target) →
       c.cross.ctx.pc = target ∧
       c.cross.ctx.loops = c.ctx.loops.filter fun l => decide (l.start.toNat ≤ target.toNat ∧ target.toNat ≤ l.stop.toNat)) ∧
     (quiet → x.res = some none → (∀ l ∈ c.ctx.loops.head?, l.stop ≠ b.pc) → c.cross.ctx.loops = c.ctx.loops ∧ c.cross.ctx.pc = b.pc + 1))


-- the words that wait

/-- R178, R184, R192, R212, R263, R310, R311: each of these words issues, with no effect of its own, exactly in a state where its condition
holds, and otherwise waits with nothing changed: CBWF and CBWE on a usable buffer, QWAIT and XFENCE of direction 1 on their queues, MWAITB on
its batch, WAITG on GCNT, FENCE on the writes before it (an acquire holds nothing back). CBWF and CBWE raise the illegal trap alone where the buffer
is not usable or n exceeds its count. ALIGN issues in a state where its core and its LE are within ±2 ticks of the package's count, in mode 0 of a
package in a group with others of the group's, which its LE has learned, and otherwise waits; waiting in mode 0 it asks its LE to align the core. -/
def Obligations.WaitingWords : Prop :=
  ∀ (s : State) (cb : BitVec 5) (n : BitVec 10) (q k : BitVec 3) (m : BitVec 8) (a : BitVec 6) (mode : BitVec 16) (sc : Scope) (fk : FenceKind),
    let gate := fun (i : Instr) (p : Prop) => (p → Completes i s fun t => Issues s t s.me) ∧ (¬ p → Completes i s fun t => Waits s t)
    let b := s.me.rcb cb
    let usable := b.esize ≠ 0 ∧ b.count ≠ 0 ∧ b.base + b.esize * b.count ≤ s.me.scratch ∧ n.toNat ≤ b.count
    let quiet := fun (q : Queue) => q.entries = [] ∨ q.halted = true
    let le := s.dies[dieOf s.cur.core]
    let far := mode = 0 ∧ (s.pmc.cfl.state = 2 ∨ s.pmc.cfl.state = 3) ∧ s.pmc.cfl.members ≠ []
    let off := if far then s.groupSkew else 0
    let aligned := (far → le.aligned = true) ∧ off - 2 ≤ s.me.gskew ∧ s.me.gskew ≤ off + 2 ∧ off - 2 ≤ le.lskew ∧ le.lskew ≤ off + 2
    (¬ usable → (Completes (.cbwf cb n) s fun t => TrapsIllegal s t 0) ∧ Completes (.cbwe cb n) s fun t => TrapsIllegal s t 0) ∧
    (usable → gate (.cbwf cb n) (n.toNat ≤ b.f) ∧ gate (.cbwe cb n) (n.toNat ≤ b.count - b.f)) ∧
    gate (.qwait q) (quiet (s.me.rq q)) ∧
    gate (.xfence m true) (∀ j : Fin 8, m.getLsbD j.val = true → quiet s.me.ctx.queues[j]) ∧
    gate (.mwaitb k) (∀ b, s.me.ctx.mxe.numbers[k.toNat] = some b → ∀ o ∈ s.me.ctx.mxe.ops ++ s.me.ctx.mxe.running, o.batch ≠ b) ∧
    gate (.waitg a) ((s.me.rs a).toNat ≤ (s.gcnt + BitVec.ofInt 64 s.me.gskew).toNat) ∧
    gate (.fence sc fk) (fk = .acquire ∨ s.unperformed s.cur.core s.myRec.seq sc = false) ∧
    (aligned → Completes (.align mode) s fun t => Issues s t { s.me with alignAsk := false }) ∧
    (¬ aligned → mode ≠ 0 → Completes (.align mode) s fun t => Waits s t) ∧
    (¬ aligned → mode = 0 → Completes (.align mode) s fun t => Makes s.cur.core s t { s.me with alignAsk := true })

/-- R92, R238: ABEAT issues, and its close completes in that cycle, where AR has issued its word of the bundle (or that word holds no close), no
AR word is in progress and no admitted block is unwritten; otherwise it waits, counting from the cycle in which it first could have issued. -/
def Obligations.BeatCloses : Prop :=
  ∀ (s : State) (n : BitVec 16),
    let seq := s.me.nextSeq .ctl
    let closed := (seq < s.me.nextSeq .ar ∨ (∃ b, s.me.recOf seq = some b ∧ holdsNoClose (b.instr .ar) = true)) ∧
      s.me.ctx.af.words = [] ∧ s.me.ctx.af.active = []
    (closed → Completes (.abeat n) s fun t =>
      Issues s t { s.me with ctx := { s.me.ctx with af := { s.me.ctx.af with closing := some s.me.cyc } } }) ∧
    (¬ closed → Completes (.abeat n) s fun t => Waits s t ∧ t.me.waitFrom = (s.me.waitSince .ctl).waitFrom)

-- S7: registers, buffers, the software cache

/-- R177, R193, R194: EDLD loads a descriptor, EDSET one word of it; CBSET a field of a buffer that its checks let pass, and otherwise the illegal
trap; QSTAT the low half of done, the halt and its cause, and the entries held. -/
def Obligations.EngineRegisters : Prop :=
  ∀ (s : State) (ed as : BitVec 4) (k : BitVec 3) (a d : BitVec 6) (cb : BitVec 5) (f : BitVec 2) (q : BitVec 3),
    let x := s.streamAt as 0 1
    let v := s.me.rs a
    let b := s.me.rcb cb
    let legal := match f.toNat with
      | 0 => v.toNat < 2 ^ 24
      | 1 => 1 ≤ v.toNat ∧ v.toNat ≤ 2 ^ 24
      | 2 => 1 ≤ v.toNat ∧ v.toNat ≤ 1023
      | _ => b.esize ≠ 0 ∧ v &&& 0xFFFFFC00FC00FC00 = 0 ∧ fld v 9 0 < b.count ∧ fld v 25 16 < b.count ∧ fld v 41 32 ≤ b.count ∧
          fld v 9 0 = (fld v 25 16 + fld v 41 32) % b.count
    let y := s.me.rq q
    (s.reaches x 64 64 → Completes (.edld ed as) s fun t =>
      Loads s t (.ed ed) (lowMask 512) 5 (s.accessOf (s.me.ras as).view x.toNat 64 3 (.load (.ed ed) 0 0 false []))) ∧
    (¬ s.reaches x 64 64 → Completes (.edld ed as) s fun t => TrapsIllegal s t (addrInfo x)) ∧
    (s.cur.slot = .ae → Completes (.edset ed k a) s fun t => Delivers s t (.edw ed k) (lowMask 64) v.toNat 1) ∧
    (s.cur.slot = .ae → legal → Completes (.cbset cb f a) s fun t => Delivers s t (.cb cb f) (lowMask 64) v.toNat 1) ∧
    (¬ legal → Completes (.cbset cb f a) s fun t => TrapsIllegal s t 0) ∧
    (s.cur.slot = .ae → Completes (.qstat d q) s fun t =>
      Delivers s t (.s d) (lowMask 64)
        (BitVec.ofNat 64 (y.entries.length + y.cause.toNat * 2 ^ 8 + y.halted.toNat * 2 ^ 16 + y.done.toNat % 2 ^ 32 * 2 ^ 32)).toNat 4 0 true)

/-- R178, R182, R183, R225: what CBP, CBC, AWINIT and VBDEF change at the end of their issue cycle, and that nothing else changes: F and P, F and C, the
sixteen bytes of the arrival word, the verb handle. An AWAIT at a legal address whose time has not run out issues where the word's generation has
reached bits 31:0 of sb, its flag 1 landing pending at the end of the next cycle, with poison where the word's status says so; where its time
has run out it issues with the flag 0 and no event; and otherwise it waits. -/
def Obligations.BuffersAndArrivalWords : Prop :=
  (∀ (s : State) (cb : BitVec 5) (n : BitVec 10) (a b : BitVec 6) (h as : BitVec 4),
     let x := s.me.rcb cb
     let usable := x.esize ≠ 0 ∧ x.count ≠ 0 ∧ x.base + x.esize * x.count ≤ s.me.scratch
     let moved := fun (y : CircBuf) =>
       { s.me with ctx := { s.me.ctx with cb := s.me.ctx.cb.set cb.toNat y }, cbNew := s.me.cbNew ++ [(cb, (y.f : Int) - (x.f : Int))] }
     let w := s.me.rs a
     let target := (s.me.rs b).toNat % 2 ^ 32
     let at_ := s.streamAt as 0 1
     let verb : Verb := ⟨(List.range 35).map fun i => BitVec.ofNat 32 (leNat (s.me.pool.bytes (at_.toNat + 4 * i) 4)), none⟩
     (usable → x.f + n.toNat ≤ x.count → Completes (.cbp cb n) s fun t =>
       Issues s t (moved { x with f := x.f + n.toNat, p := (x.p + n.toNat) % x.count })) ∧
     (¬ (usable ∧ x.f + n.toNat ≤ x.count) → Completes (.cbp cb n) s fun t => TrapsIllegal s t 0) ∧
     (usable → n.toNat ≤ x.f → Completes (.cbc cb n) s fun t =>
       Issues s t (moved { x with f := x.f - n.toNat, c := (x.c + n.toNat) % x.count })) ∧
     (¬ (usable ∧ n.toNat ≤ x.f) → Completes (.cbc cb n) s fun t => TrapsIllegal s t 0) ∧
     (s.reaches w 16 16 → target ≠ 0 → Completes (.awinit a b) s fun t =>
       Issues s t { s.me with endWrites := s.me.endWrites ++ (List.range 16).map fun i => (w.toNat + i, BitVec.ofNat 8 (target / 256 ^ i), false) }) ∧
     (¬ (s.reaches w 16 16 ∧ target ≠ 0) → Completes (.awinit a b) s fun t => TrapsIllegal s t (addrInfo w)) ∧
     (¬ s.reaches at_ 4 4 → Completes (.vbdef h as) s fun t => TrapsIllegal s t (addrInfo at_)) ∧
     (∀ k, verb.fault = some k → s.reaches at_ (4 * k + 4) 4 → Completes (.vbdef h as) s fun t => TrapsIllegal s t (BitVec.ofNat 64 (4 * k * 2 ^ 32))) ∧
     (verb.fault = none → s.reaches at_ (4 * verb.size) 4 → 0 < verb.size → Completes (.vbdef h as) s fun t =>
       Issues s t { s.me with ctx := { s.me.ctx with h := s.me.ctx.h.set h.toNat (some ⟨verb.words.take verb.size, none⟩) } })) ∧
  (∀ (s : State) (a b : BitVec 6) (cf : BitVec 3) (k : BitVec 5), s.cur.slot = .ae →
     let x := s.me.rs a
     let gen := BitVec.ofNat 32 (leNat (s.me.pool.bytes (x.toNat + 8) 4))
     let reached := (gen - (s.me.rs b).setWidth 32).toNat < 2 ^ 31
     let poison : Kinds := if (s.me.pool.read (x.toNat + 12)).getLsbD 0 then kPoison else 0
     (s.reaches x 16 16 → awaitLate s.me k = false → reached →
       Completes (.await a b cf k) s fun t => Delivers s t (.cf cf) (lowMask 1) 1 1 poison true) ∧
     (s.reaches x 16 16 → awaitLate s.me k = true → Completes (.await a b cf k) s fun t => Delivers s t (.cf cf) (lowMask 1) 0 1 0 true) ∧
     (s.reaches x 16 16 → awaitLate s.me k = false → ¬ reached → Completes (.await a b cf k) s fun t => Waits s t) ∧
     (¬ s.reaches x 16 16 → Completes (.await a b cf k) s fun t => TrapsIllegal s t (addrInfo x)))

/-- R197, R198, R199: PROBE of an enabled table. A block that some way of its set holds gives that slot, with status 0 and the flag 1 where it is ready
and status 1 where it is pending; a set in which every way is pinned or pending gives status 3; and otherwise the slot picked from the victim
pointer on takes the block, pending, the pointer goes behind it, a fill of the block goes into q7, or the word waits while q7 is full, and the
status is 2. Both results land at the end of issue + 6. PINV clears valid and pin of the slots that its mode names, with
their pending state where no fill of theirs is under way, PPIN sets or clears the pin of one, and neither does anything else; a slot number outside the table is the illegal trap. By slot number and for all
slots they act whatever EN is (log 58, the model's reading of R198 and R199). -/
def Obligations.SoftwareCache : Prop :=
  (∀ (s : State) (d a : BitVec 6) (cf : BitVec 3) (k : BitVec 2), s.cur.slot = .ae → (s.me.rs a).toNat < 2 ^ 48 →
     let t := s.me.ctx.tags[k.toNat]
     let blk := (s.me.rs a).toNat / 2 ^ t.lb
     let both := fun (slot status : Nat) (c : Machine.Core) => ∃ b,
       Adds s.me (s.resultOf (.s d) (lowMask 64) (slot + status * 2 ^ 32) 6 0 false) b ∧
       Adds b (s.resultOf (.cf cf) (lowMask 1) (if status = 0 then 1 else 0) 6 0 false) c
     t.conf.getLsbD 63 = true →
     (∀ j x, t.hit blk = some j → t.slots[j]? = some x → Completes (.probe d a cf k) s fun u => ∃ c,
       both j (if x.pending then 1 else 0) c ∧ Issues s u c) ∧
     (t.hit blk = none → t.pick blk = none → Completes (.probe d a cf k) s fun u => ∃ c, both (2 ^ 32 - 1) 3 c ∧ Issues s u c) ∧
     (∀ j, t.hit blk = none → t.pick blk = some j → (s.me.rq 7).entries.length < 32 → Completes (.probe d a cf k) s fun u => ∃ c,
       let t' := { t with slots := t.slots.modify j fun x => { x with tag := blk, valid := true, pending := true },
                          victim := t.victim.set (blk % t.sets) ((j % t.ways + 1) % t.ways) }
       let e := { newEntry (.fill k j) (fillWords t blk j) s.myRec.pc s.me.orders s.myRec.seq with notBefore := (s.me.rq 7).fenceAt }
       both j 2 c ∧ Issues s u { c with orders := s.me.orders + 1, ctx := { s.me.ctx with
         tags := s.me.ctx.tags.set k.toNat t',
         queues := s.me.ctx.queues.set 7 { s.me.rq 7 with entries := (s.me.rq 7).entries ++ [e] } } }) ∧
     (∀ j, t.hit blk = none → t.pick blk = some j → 32 ≤ (s.me.rq 7).entries.length → Completes (.probe d a cf k) s fun u => Waits s u)) ∧
  (∀ (s : State) (a : BitVec 6) (k : BitVec 2) (pin : Bool),
     let t := s.me.ctx.tags[k.toNat]
     let n := (s.me.rs a).toNat
     let filling := fun (j : Nat) => (s.me.rq 7).halted = false ∧ ∃ e ∈ (s.me.rq 7).entries, e.kind = .fill k j
     let clear := fun (j : Nat) (x y : TagSlot) => y.tag = x.tag ∧ y.valid = false ∧ y.pin = false ∧ (y.pending = true ↔ x.pending = true ∧ filling j)
     let clears := fun (i : Instr) (P : Nat → Prop) => Completes i s fun u => ∃ slots : List TagSlot, slots.length = t.slots.length ∧
       (∀ j x y, t.slots[j]? = some x → slots[j]? = some y → (P j → clear j x y) ∧ (¬ P j → y = x)) ∧
       Issues s u { s.me with ctx := { s.me.ctx with tags := s.me.ctx.tags.set k.toNat { t with slots := slots } } }
     clears (.pinv 0 k .all) (fun _ => True) ∧
     (∀ i, t.conf.getLsbD 63 = true → t.hit (n / 2 ^ t.lb) = some i → clears (.pinv a k .addr) (fun j => j = i)) ∧
     (t.conf.getLsbD 63 = true → t.hit (n / 2 ^ t.lb) = none → Completes (.pinv a k .addr) s fun u => Issues s u s.me) ∧
     (n < t.slots.length → clears (.pinv a k .slot) (fun j => j = n) ∧
       Completes (.ppin a k pin) s fun u => Issues s u { s.me with ctx := { s.me.ctx with
         tags := s.me.ctx.tags.set k.toNat { t with slots := t.slots.modify n fun x => { x with pin := pin } } } }) ∧
     (t.slots.length ≤ n → (Completes (.pinv a k .slot) s fun u => TrapsIllegal s u 0) ∧
       Completes (.ppin a k pin) s fun u => TrapsIllegal s u 0))

-- S7: entries of the copy-engine queues

/-- R188, R189, R216, R227, R295, R298, R322: with its checks passed and a place in its queue, each queue word hands off one entry that holds the
descriptor as it stood, with what its card captures besides (the verb, the round, the follow-on with its descriptor, shape and latched sizes). One
whose checks fail raises the illegal trap alone, and one whose checks pass waits while its queue holds 32 entries. -/
def Obligations.QueueWords : Prop :=
  (∀ (s : State) (q : BitVec 3) (ed : BitVec 4) (op : RedOp) (h : BitVec 4) (tree : Bool) (a b : BitVec 6) (sc : Scope),
     let w := s.me.red ed
     let d := descOf w
     let e := fun (k : EKind) => s.entryOf q k w
     let after : FollowOn :=
       { zero := d.foOp == 1, md := s.me.rmd d.foMd, cb := d.foCb, c := (s.me.rcb d.foCb).c, shape := s.me.ctx.spr.shape,
         lk := s.me.ctx.mxe.lk, ln := s.me.ctx.mxe.ln }
     let common := fun (isFold isPut : Bool) => edCommon s.me w isFold isPut = true
     (s.me.rq q).entries.length < 32 →
     (common false false → copyOk w = true → noFollow w = true → Completes (.cpy q ed) s fun t => HandsOff s t q (e .cpy)) ∧
     (common false false → copyOk w = true → d.fo = true → d.foOp ≤ 1 →
       mmaOk s.me (s.me.rmd d.foMd) (s.me.rcb d.foCb) s.me.ctx.spr.shape = true →
       Completes (.cpym q ed) s fun t => HandsOff s t q { e .cpym with follow := some after }) ∧
     (common false true → putOk s s.cur.core q w = true → d.handle = 0 → d.ty = 0 →
       Completes (.put q ed) s fun t => HandsOff s t q { e .put with round := s.me.ctx.round }) ∧
     (common false true → putOk s s.cur.core q w = true → d.handle = 0 → (d.size, d.ty) = redCodes op →
       Completes (.putr q ed op) s fun t => HandsOff s t q { e (.putr op) with round := s.me.ctx.round }) ∧
     (∀ v, common false true → putOk s s.cur.core q w = true → s.me.rh (BitVec.ofNat 4 d.handle) = some v → v.comm = true → verbFits d v = true →
       Completes (.putrVerb q ed) s fun t => HandsOff s t q { e .putrVerb with round := s.me.ctx.round, verb := some v }) ∧
     (common false false → redOk w op = true → Completes (.red q ed op) s fun t => HandsOff s t q (e (.red op))) ∧
     (common false false → verbOk s.me w h false = true → Completes (.zip q ed h) s fun t => HandsOff s t q { e .zip with verb := s.me.rh h }) ∧
     (common true false → verbOk s.me w h tree = true →
       Completes (.fold q ed h tree) s fun t => HandsOff s t q { e (.fold tree) with verb := s.me.rh h }) ∧
     (common false false → verbOk s.me w h tree = true →
       Completes (.scan q ed h tree) s fun t => HandsOff s t q { e (.scan tree) with verb := s.me.rh h }) ∧
     (let x := (s.me.rs a).toNat
      x / 2 ^ 60 ≤ 2 → spClean x = true → x % 8 = 0 → (x / 2 ^ 60 = 0 → x + 8 ≤ s.me.scratch) →
       Completes (.flag q a b sc) s fun t => HandsOff s t q (s.entryOf q (.flag (s.me.rs a) (s.me.rs b) sc) (Vector.replicate 8 0)))) ∧
  (∀ (s : State) (q : BitVec 3) (ed : BitVec 4) (op : RedOp) (h : BitVec 4),
     let w := s.me.red ed
     let ok := edCommon s.me w false false
     (ok = false → (Completes (.cpy q ed) s fun t => TrapsIllegal s t 0) ∧ (Completes (.cpym q ed) s fun t => TrapsIllegal s t 0) ∧
       (Completes (.red q ed op) s fun t => TrapsIllegal s t 0) ∧ (Completes (.zip q ed h) s fun t => TrapsIllegal s t 0) ∧
       Completes (.scan q ed h false) s fun t => TrapsIllegal s t 0) ∧
     (s.roundOf s.cur.core = none → (Completes (.put q ed) s fun t => TrapsIllegal s t 0) ∧ (Completes (.putr q ed op) s fun t => TrapsIllegal s t 0) ∧
       Completes (.putrVerb q ed) s fun t => TrapsIllegal s t 0) ∧
     (s.me.rh h = none → (Completes (.zip q ed h) s fun t => TrapsIllegal s t 0) ∧ (Completes (.fold q ed h false) s fun t => TrapsIllegal s t 0) ∧
       Completes (.scan q ed h true) s fun t => TrapsIllegal s t 0) ∧
     (ok = true → copyOk w = true → noFollow w = true → 32 ≤ (s.me.rq q).entries.length → Completes (.cpy q ed) s fun t => Waits s t))

/-- R187, R189: the extent check of a local end says exactly that every byte the entry visits lies in the scratchpad. -/
def Obligations.ExtentCheckIsExact : Prop :=
  ∀ (S a es c0 c1 c2 : Nat) (s0 s1 s2 : Int), 0 < es → 0 < c0 → 0 < c1 → 0 < c2 →
    (extentOk S a es [(c0, s0), (c1, s1), (c2, s2)] = true ↔
      ∀ i0 i1 i2 b : Nat, i0 < c0 → i1 < c1 → i2 < c2 → b < es →
        0 ≤ (a : Int) + s0 * i0 + s1 * i1 + s2 * i2 + b ∧ (a : Int) + s0 * i0 + s1 * i1 + s2 * i2 + b < S)

/-- R294, R263, R293: QFENCE puts one marker, under one number, into every queue it names, waiting while one of them is full; XFENCE of direction 0
orders entries handed off later behind this cycle's slot stores; VJOIN lets every later slot access see both views; an acquire or a FENCE with
nothing before it issues. -/
def Obligations.FenceWords : Prop :=
  ∀ (s : State) (m : BitVec 8),
    let named := (List.finRange 8).filter fun j => m.getLsbD j.val
    ((∀ j : Fin 8, m.getLsbD j.val = true → (s.me.ctx.queues[j]).entries.length < 32) → Completes (.qfence m) s fun t =>
      ∃ qs : File 3 Queue, Issues s t { s.me with orders := s.me.orders + 1, ctx := { s.me.ctx with queues := qs } } ∧
        ∀ j : Fin 8, qs[j] = if j ∈ named then { s.me.ctx.queues[j] with entries := (s.me.ctx.queues[j]).entries ++
          [{ newEntry (.marker s.me.orders) (Vector.replicate 8 0) s.myRec.pc s.me.orders s.myRec.seq with
             notBefore := (s.me.ctx.queues[j]).fenceAt }] } else s.me.ctx.queues[j]) ∧
    ((∃ j : Fin 8, m.getLsbD j.val = true ∧ 32 ≤ (s.me.ctx.queues[j]).entries.length) → Completes (.qfence m) s fun t => Waits s t) ∧
    (Completes (.xfence m false) s fun t => ∃ qs : File 3 Queue, Issues s t { s.me with ctx := { s.me.ctx with queues := qs } } ∧
      ∀ j : Fin 8, qs[j] = if j ∈ named then { s.me.ctx.queues[j] with fenceAt := s.me.cyc + 1 } else s.me.ctx.queues[j]) ∧
    (Completes .vjoin s fun t => Issues s t { s.me with ctx := { s.me.ctx with viewLog := [] } })

-- S2 and S3: vectors

/-- R114, R118, R119: the elementwise words on integer elements (VAND to VANDN on every type), over all operands and widths. Element k of vd is what
the row says of elements k of va, vb and vd, wrapping; bits of vd at w and above are not written; the results land at the end of issue + 2, of
VMUL and VFMA + 3. VADDS and VSUBS clamp each signed sum or difference to the element, and raise saturation exactly where one is clamped. -/
def Obligations.VectorIntegers : Prop :=
  (∀ (s : State) (w : VWidth) (t u : VType) (d a b : BitVec 6), s.hasV [d, a, b] → t.isInt = true →
     let gives := fun (t : VType) (i : Instr) (lat : Nat) (f : Nat → Nat → Nat → Nat) =>
       let e := 8 * t.bytes
       let at_ := fun (r : BitVec 6) (k : Nat) => (s.me.rv r).toNat / 2 ^ (e * k) % 2 ^ e
       ∃ v, Elements v e (w.bits / e) (fun k => f (at_ d k) (at_ a k) (at_ b k)) ∧
         Completes i s fun x => Delivers s x (.v d) (lowMask w.bits) v lat
     let e := 8 * t.bytes
     let M := 2 ^ e
     let S := fun (x : Nat) => (BitVec.ofNat e x).toInt
     let U := fun (x : Int) => (BitVec.ofInt e x).toNat
     gives t (.vadd w t d a b) 2 (fun _ x y => (x + y) % M) ∧ gives t (.vsub w t d a b) 2 (fun _ x y => (x + M - y) % M) ∧
     gives t (.vmul w t d a b) 3 (fun _ x y => x * y % M) ∧ gives t (.vfma w t d a b) 3 (fun z x y => (z + x * y) % M) ∧
     gives t (.vmin w t d a b) 2 (fun _ x y => U (min (S x) (S y))) ∧ gives t (.vmax w t d a b) 2 (fun _ x y => U (max (S x) (S y))) ∧
     gives t (.vminu w t d a b) 2 (fun _ x y => min x y) ∧ gives t (.vmaxu w t d a b) 2 (fun _ x y => max x y) ∧
     gives t (.vshl w t d a b) 2 (fun _ x y => x * 2 ^ (y % e) % M) ∧ gives t (.vshr w t d a b) 2 (fun _ x y => x / 2 ^ (y % e)) ∧
     gives t (.vsar w t d a b) 2 (fun _ x y => U (S x / 2 ^ (y % e))) ∧
     (let m := 8 * u.bytes
      gives u (.vand w u d a b) 2 (fun _ x y => (BitVec.ofNat m x &&& BitVec.ofNat m y).toNat) ∧
      gives u (.vor w u d a b) 2 (fun _ x y => (BitVec.ofNat m x ||| BitVec.ofNat m y).toNat) ∧
      gives u (.vxor w u d a b) 2 (fun _ x y => (BitVec.ofNat m x ^^^ BitVec.ofNat m y).toNat) ∧
      gives u (.vandn w u d a b) 2 (fun _ x y => (BitVec.ofNat m x &&& ~~~(BitVec.ofNat m y)).toNat))) ∧
  (∀ (s : State) (w : VWidth) (t : VType) (d a b : BitVec 6), s.hasV [d, a, b] → t.isInt = true →
     let e := 8 * t.bytes
     let n := w.bits / e
     let S := fun (r : BitVec 6) (k : Nat) => (BitVec.ofNat e ((s.me.rv r).toNat / 2 ^ (e * k))).toInt
     let lo : Int := -(2 ^ (e - 1))
     let hi : Int := 2 ^ (e - 1) - 1
     let gives := fun (i : Instr) (f : Int → Int → Int) =>
       let x := fun k => f (S a k) (S b k)
       ∃ v, Elements v e n (fun k => (BitVec.ofInt e (max lo (min hi (x k)))).toNat) ∧
         Completes i s fun u => Delivers s u (.v d) (lowMask w.bits) v 2
           (if (List.range n).any fun k => decide (x k < lo ∨ hi < x k) then kSaturation else 0)
     gives (.vadds w t d a b) (fun x y => x + y) ∧ gives (.vsubs w t d a b) (fun x y => x - y))

/-- R118, R119, R120: the elementwise words on floating elements, with the format's arithmetic on every element and the union of the elements'
events, landing at the end of issue + 4; and the scalar-operand forms and VBCAST, whose scalar is the low bits of sb. -/
def Obligations.VectorFloats : Prop :=
  ∀ (s : State) (w : VWidth) (t u : VType) (d a b : BitVec 6), t = .f32 ∨ t = .f16 ∨ t = .bf16 →
    let f := vfmt t
    let gives := fun (t : VType) (i : Instr) (lat : Nat) (g : Nat → Nat → Nat → Nat × Kinds) =>
      let e := 8 * t.bytes
      let at_ := fun (r : BitVec 6) (k : Nat) => (s.me.rv r).toNat / 2 ^ (e * k) % 2 ^ e
      let r := fun k => g (at_ d k) (at_ a k) (at_ b k)
      ∃ v, Elements v e (w.bits / e) (fun k => (r k).1) ∧ Completes i s fun x => Delivers s x (.v d) (lowMask w.bits) v lat
        ((List.range (w.bits / e)).foldl (fun z k => z ||| (r k).2) 0)
    let y := fun (t : VType) => (s.me.rs b).toNat % 2 ^ (8 * t.bytes)
    (s.hasV [d, a, b] →
      gives t (.vadd w t d a b) 4 (fun _ x y => f.add x y) ∧ gives t (.vsub w t d a b) 4 (fun _ x y => f.sub x y) ∧
      gives t (.vmul w t d a b) 4 (fun _ x y => f.mul x y) ∧ gives t (.vfma w t d a b) 4 (fun z x y => f.fma z x y) ∧
      gives t (.vmin w t d a b) 4 (fun _ x y => f.minmax false x y) ∧ gives t (.vmax w t d a b) 4 (fun _ x y => f.minmax true x y)) ∧
    (s.hasV [d, a] → gives t (.vaddsc w t d a b) 4 (fun _ x _ => f.add x (y t)) ∧ gives t (.vmulsc w t d a b) 4 (fun _ x _ => f.mul x (y t))) ∧
    (s.hasV [d] → gives u (.vbcast w u d b) 2 (fun _ _ _ => (y u, 0))) ∧
    (s.hasV [d, a] → u.isInt = true → gives u (.vaddsc w u d a b) 2 (fun _ x _ => ((x + y u) % 2 ^ (8 * u.bytes), 0)) ∧
      gives u (.vmulsc w u d a b) 3 (fun _ x _ => (x * y u % 2 ^ (8 * u.bytes), 0))) ∧
    (s.hasV [d, a] → Completes (.vmov w u d a) s fun x => Delivers s x (.v d) (lowMask w.bits) (s.me.rv a).toNat 2)

/-- R116, R117, R123, R124, R125: VSEL, VUNARY and VSFU write exactly the bits of the selected elements below w, each with what the row says of
the element of va, and raise the selected elements' events alone. -/
def Obligations.MergingWords : Prop :=
  ∀ (s : State) (w : VWidth) (t : VType) (d a : BitVec 6) (p : BitVec 3), s.hasV [d, a] →
    let e := 8 * t.bytes
    let n := w.bits / e
    let M := 2 ^ e
    let x := fun k => (s.me.rv a).toNat / 2 ^ (e * k) % M
    let sel := fun k => (s.me.rp p).getLsbD (t.bytes * k)
    let gives := fun (i : Instr) (lat : Nat) (g : Nat → Nat × Kinds) =>
      ∃ (v : Nat) (mask : Payload), (∀ j < 2048, mask.getLsbD j = (decide (j < w.bits) && sel (j / e))) ∧
        (∀ k < n, sel k = true → v / 2 ^ (e * k) % M = (g (x k)).1) ∧
        Completes i s fun u => Delivers s u (.v d) mask v lat
          ((List.range n).foldl (fun z k => z ||| (if sel k then (g (x k)).2 else 0)) 0)
    let quiet := fun (f : Nat → Nat) (y : Nat) => (f y, (0 : Kinds))
    let flips := fun (y : Nat) => if y < 2 ^ (e - 1) then y + 2 ^ (e - 1) else y - 2 ^ (e - 1)
    gives (.vsel w t d a p) 2 (quiet id) ∧
    (t.isInt = true →
      gives (.vunary w t .abs d a p) 2 (quiet fun y => if y < 2 ^ (e - 1) then y else M - y) ∧
      gives (.vunary w t .neg d a p) 2 (quiet fun y => (M - y) % M) ∧ gives (.vunary w t .not d a p) 2 (quiet fun y => M - 1 - y) ∧
      gives (.vunary w t .clz d a p) 2 (quiet fun y => if y = 0 then e else e - 1 - y.log2) ∧
      gives (.vunary w t .popc d a p) 2 (quiet fun y => (List.range e).countP fun i => y.testBit i)) ∧
    (t = .f32 ∨ t = .f16 ∨ t = .bf16 →
      gives (.vunary w t .abs d a p) 2 (quiet fun y => y % 2 ^ (e - 1)) ∧ gives (.vunary w t .neg d a p) 2 (quiet flips)) ∧
    (t = .f32 → ∀ fn : SfuFn, gives (.vsfu w t fn d a p) 12 fn.apply)

/-- R28, R122: VCMP sets bits e·k … e·k + e − 1 of pd to its condition on elements k, for every element below w, and no other bit; of floating
elements a NaN makes every condition false but NE and UN, and raises invalid under LT, LE, GT and GE, under the others where it signals. -/
def Obligations.VectorCompares : Prop :=
  ∀ (s : State) (w : VWidth) (t : VType) (pd : BitVec 3) (a b : BitVec 6), s.hasV [a, b] → t.isNum = true →
    let e := 8 * t.bytes
    let n := w.bits / e
    let at_ := fun (r : BitVec 6) (k : Nat) => (s.me.rv r).toNat / 2 ^ (e * k) % 2 ^ e
    let gives := fun (c : VCond) (holds : Nat → Nat → Bool) (k : Nat → Nat → Kinds) =>
      ∃ v, Elements v t.bytes n (fun j => if holds (at_ a j) (at_ b j) then 2 ^ t.bytes - 1 else 0) ∧
        Completes (.vcmp w t c pd a b) s fun u => Delivers s u (.p pd) (lowMask (w.bits / 8)) v 2
          ((List.range n).foldl (fun z j => z ||| k (at_ a j) (at_ b j)) 0)
    let S := fun (x : Nat) => (BitVec.ofNat e x).toInt
    let none := fun (_ _ : Nat) => (0 : Kinds)
    let N := (vfmt t).decode
    let any := fun (x y : Nat) => if (N x).isNan || (N y).isNan then kInvalid else 0
    let sig := fun (x y : Nat) => if (N x).isSig || (N y).isSig then kInvalid else 0
    (t.isInt = true →
      gives .eq (fun x y => decide (x = y)) none ∧ gives .ne (fun x y => decide (x ≠ y)) none ∧ gives .lt (fun x y => decide (S x < S y)) none ∧
      gives .le (fun x y => decide (S x ≤ S y)) none ∧ gives .ltuUn (fun x y => decide (x < y)) none ∧
      gives .leuOrd (fun x y => decide (x ≤ y)) none ∧ gives .gt (fun x y => decide (S y < S x)) none ∧
      gives .gtuGe (fun x y => decide (y < x)) none) ∧
    (t.isInt = false →
      gives .eq (fun x y => (N x).eq (N y)) sig ∧ gives .ne (fun x y => !(N x).eq (N y)) sig ∧ gives .lt (fun x y => (N x).lt (N y)) any ∧
      gives .le (fun x y => (N x).lt (N y) || (N x).eq (N y)) any ∧ gives .ltuUn (fun x y => (N x).isNan || (N y).isNan) sig ∧
      gives .leuOrd (fun x y => !((N x).isNan || (N y).isNan)) sig ∧ gives .gt (fun x y => (N y).lt (N x)) any ∧
      gives .gtuGe (fun x y => (N y).lt (N x) || (N y).eq (N x)) any)

/-- R130, R131. On I32, VRED gives the sum modulo 2^32, the greatest or the least of the selected elements, the identity standing for the others,
sign-extended, in a pending register at the end of issue + 8, and VSCAN every running value likewise: the order of the tree does not show. On F32, VRED
takes the pairwise tree over the selected elements and the identities, VSCAN each running value combined block by block. -/
def Obligations.Reductions : Prop :=
  (∀ (s : State) (w : VWidth) (d a : BitVec 6) (p : BitVec 3), s.hasV [a] →
     let n := w.bits / 32
     let x := fun (ident : Int) (k : Nat) => if (s.me.rp p).getLsbD (4 * k) then ((s.me.rv a).extractLsb' (32 * k) 32).toInt else ident
     let word := fun (v : Int) => ((BitVec.ofInt 32 v).signExtend 64).toNat
     let upTo := fun (f : Int → Int → Int) (ident : Int) (m : Nat) => (List.range m).foldl (fun z k => f z (x ident k)) ident
     let one := fun (op : RedFn) (f : Int → Int → Int) (ident : Int) =>
       (Completes (.vred w .i32 op d a p) s fun u => Delivers s u (.s d) (lowMask 64) (word (upTo f ident n)) 8 0 true) ∧
       (s.hasV [d] → ∃ v, Elements v 32 n (fun k => (BitVec.ofInt 32 (upTo f ident (k + 1))).toNat) ∧
         Completes (.vscan w .i32 op d a p) s fun u => Delivers s u (.v d) (lowMask w.bits) v 8)
     one .sum (fun y z => y + z) 0 ∧ one .max max (-(2 ^ 31)) ∧ one .min min (2 ^ 31 - 1)) ∧
  (∀ (s : State) (w : VWidth) (op : RedFn) (d a : BitVec 6) (p : BitVec 3), s.hasV [a] →
     let xs := (List.range (w.bits / 32)).map fun k =>
       (if (s.me.rp p).getLsbD (4 * k) then ((s.me.rv a).extractLsb' (32 * k) 32).toNat
        else (match op with | .sum => 0x80000000 | .max => 0xFF800000 | .min => 0x7F800000), (0 : Kinds))
     let step := opK (fun y z => match op with | .sum => fmtF32.add y z | .max => fmtF32.minmax true y z | .min => fmtF32.minmax false y z)
     (∃ r, tree step xs = some r ∧ Completes (.vred w .f32 op d a p) s fun u => Delivers s u (.s d) (lowMask 64) r.1 8 r.2 true) ∧
     (s.hasV [d] → ∃ v k, Elements v 32 xs.length (fun i => ((prefixOf step (xs.take (i + 1))).getD (0, 0)).1) ∧
       Completes (.vscan w .f32 op d a p) s fun u => Delivers s u (.v d) (lowMask w.bits) v 8 k))

/-- R132: VDOT4 adds four signed byte products to each 32-bit element of vd, wrapping, landing at the end of issue + 4; VDOT2 and VDOT16 give each
of the F32 elements they write the dot product of their pairs or sixteens, landing at + 5 and + 6, VDOT16 writing elements 0 … w/128 − 1 only. -/
def Obligations.DotProducts : Prop :=
  ∀ (s : State) (w : VWidth) (t : VType) (d a b : BitVec 6), s.hasV [d, a, b] →
    let byte := fun (r : BitVec 6) (j : Nat) => ((s.me.rv r).extractLsb' (8 * j) 8)
    let acc := fun (k : Nat) => ((s.me.rv d).extractLsb' (32 * k) 32)
    let el := fun (r : BitVec 6) (j : Nat) => (s.me.rv r).toNat / 2 ^ (8 * t.bytes * j) % 2 ^ (8 * t.bytes)
    let run := fun (r : BitVec 6) (m k : Nat) => (List.range m).map fun j => el r (m * k + j)
    (∃ v, Elements v 32 (w.bits / 32) (fun k => (BitVec.ofInt 32 ((acc k).toInt +
        ((List.range 4).map fun j => (byte a (4 * k + j)).toInt * (byte b (4 * k + j)).toInt).sum)).toNat) ∧
      Completes (.vdot4 w .i8 d a b) s fun u => Delivers s u (.v d) (lowMask w.bits) v 4) ∧
    (t = .bf16 ∨ t = .f16 → ∃ v k, Elements v 32 (w.bits / 32) (fun k => (dot2 (vfmt t) (acc k).toNat (run a 2 k) (run b 2 k)).1) ∧
      Completes (.vdot2 w t d a b) s fun u => Delivers s u (.v d) (lowMask w.bits) v 5 k) ∧
    (t = .e4m3 ∨ t = .e5m2 → ∃ v k, Elements v 32 (w.bits / 128) (fun k => (dot16 (vfmt t) (acc k).toNat (run a 16 k) (run b 16 k)).1) ∧
      Completes (.vdot16 w t d a b) s fun u => Delivers s u (.v d) (lowMask (w.bits / 4)) v 6 k)

/-- R133, R134: VIOTA numbers the elements by the selected ones before them; VCOMPRESS packs the selected elements to the low end and fills with
zeros, VEXPAND spreads the low elements over the selected places with zeros between, both with the count for the slot's count register landing
together at the end of issue + 4; VEXT takes one element out, into a pending register, and VINS puts one in, writing no other bit. -/
def Obligations.PermutingWords : Prop :=
  ∀ (s : State) (w : VWidth) (t : VType) (d a : BitVec 6) (p : BitVec 3) (ix : BitVec 6),
    let e := 8 * t.bytes
    let n := w.bits / e
    let x := fun k => (s.me.rv a).toNat / 2 ^ (e * k) % 2 ^ e
    let sel := fun k => (s.me.rp p).getLsbD (t.bytes * k)
    let before := fun k => (List.range k).countP sel
    let chosen := (List.range n).filter sel
    let count : Reg := .spr (if s.cur.slot = .va then 0x010 else 0x011)
    let pair := fun (i : Instr) (f : Nat → Nat) => ∃ v, Elements v e n f ∧ Completes i s fun u => ∃ b c,
      Adds s.me (s.resultOf (.v d) (lowMask w.bits) v 4 0 false) b ∧ Adds b (s.resultOf count (lowMask 64) (before n) 4 0 false) c ∧ Issues s u c
    (s.hasV [d] → t.isInt = true → ∃ v, Elements v e n (fun k => before k % 2 ^ e) ∧
      Completes (.viota w t d p) s fun u => Delivers s u (.v d) (lowMask w.bits) v 2) ∧
    (s.hasV [d, a] → pair (.vcompress w t d a p) (fun k => match chosen[k]? with | some j => x j | none => 0) ∧
      pair (.vexpand w t d a p) (fun k => if sel k then x (before k) else 0)) ∧
    (s.hasV [a] → ix.toNat < n → Completes (.vext w t d a ix) s fun u => Delivers s u (.s d) (lowMask 64)
      (if t.isInt then ((BitVec.ofNat e (x ix.toNat)).signExtend 64).toNat else x ix.toNat) 4 0 true) ∧
    (s.hasV [d] → ix.toNat < n → ∃ (v : Nat) (mask : Payload), (∀ j < 2048, mask.getLsbD j = decide (j / e = ix.toNat)) ∧
      v / 2 ^ (e * ix.toNat) = (s.me.rs a).toNat % 2 ^ e ∧ Completes (.vins w t d a ix) s fun u => Delivers s u (.v d) mask v 2)

/-- R135: the contiguous accesses at a legal address: VLD and VLDP put a result without a value yet on its way, for bits w − 1 : 0 of vd or for the
bytes that the predicate selects, landing at the end of issue + 5, and the read in issue + 3; VST and VSTP the write in issue + 3, of the selected
bytes only. At another address the illegal trap of R99. -/
def Obligations.VectorAccesses : Prop :=
  ∀ (s : State) (w : VWidth) (as : BitVec 4) (d : BitVec 6) (g p : BitVec 3) (off : BitVec 11),
    let n := w.bits / 8
    let view := (s.me.ras as).view
    let a := s.streamAt as off.toInt n
    let low : BitVec 6 := g.setWidth 6
    let byte := fun (r : BitVec 6) (i : Nat) => (s.me.rv r).extractLsb' (8 * i) 8
    (s.reaches a n n → s.hasV [d] → (Completes (.vld w as d off) s fun t =>
        Loads s t (.v d) (lowMask w.bits) 5 (s.accessOf view a.toNat n 3 (.load (.v d) 0 0 false []))) ∧
      Completes (.vst w as d off) s fun t => Stores s t [s.accessOf view a.toNat n 3 (.store ((List.range n).map fun i => some (byte d i)))]) ∧
    (s.reaches a n n → (∃ mask : Payload, (∀ j < 2048, mask.getLsbD j = (decide (j < w.bits) && (s.me.rp p).getLsbD (j / 8))) ∧
        Completes (.vldp w as p g off) s fun t =>
          Loads s t (.v low) mask 5 (s.accessOf view a.toNat n 3 (.load (.v low) 0 0 false []))) ∧
      Completes (.vstp w as p g off) s fun t => Stores s t [s.accessOf view a.toNat n 3
        (.store ((List.range n).map fun i => if (s.me.rp p).getLsbD i then some (byte low i) else none))]) ∧
    (¬ s.reaches a n n → s.hasV [d] → (Completes (.vld w as d off) s fun t => TrapsIllegal s t (addrInfo a)) ∧
      (Completes (.vst w as d off) s fun t => TrapsIllegal s t (addrInfo a)) ∧
      (Completes (.vldp w as p g off) s fun t => TrapsIllegal s t (addrInfo a)) ∧
      Completes (.vstp w as p g off) s fun t => TrapsIllegal s t (addrInfo a))

/-- R136: with every index legal, VGATHER reads index i in issue + 3 + floor(4i/m) into bytes 4i … 4i + 3 of vd, landing whole at the end of
issue + 8, and VSCATTER writes those bytes of vs in those cycles; with an illegal one, the illegal trap names the lowest such index's address. -/
def Obligations.GathersAndScatters : Prop :=
  ∀ (s : State) (w : VWidth) (t : VType) (d a : BitVec 6) (as : BitVec 4), s.hasV [d, a] →
    let m := w.bits / 32
    let at_ := fun (i : Nat) => s.streamAt as 0 1 + ((s.me.rv a).extractLsb' (32 * i) 32).signExtend 64
    let view := (s.me.ras as).view
    ((∀ i < m, s.reaches (at_ i) 4 4) →
      (Completes (.vgather w t d a as) s fun u => ∃ c, Adds s.me (s.resultOf (.v d) (lowMask w.bits) 0 8 0 false) c ∧
        Issues s u { c with access := s.me.access ++ ((List.range m).map fun i =>
          s.accessOf view (at_ i).toNat 4 (3 + 4 * i / m) (.load (.v d) (32 * i) 0 false [])) }) ∧
      Completes (.vscatter w t d a as) s fun u => Stores s u ((List.range m).map fun i =>
        s.accessOf view (at_ i).toNat 4 (3 + 4 * i / m)
          (.store ((List.range 4).map fun j => some ((s.me.rv d).extractLsb' (32 * i + 8 * j) 8))))) ∧
    (∀ i < m, ¬ s.reaches (at_ i) 4 4 → (∀ j < i, s.reaches (at_ j) 4 4) →
      (Completes (.vgather w t d a as) s fun u => TrapsIllegal s u (addrInfo (at_ i))) ∧
      Completes (.vscatter w t d a as) s fun u => TrapsIllegal s u (addrInfo (at_ i)))

/-- R115: with the 32-register file, a vector word that names v32–v63 raises the illegal trap alone; one statement for a word of each shape. Where the
address of VLD, VST or VGATHER fails as well, TINFO0 holds no address: the register is checked first (log 105, the model's choice). -/
def Obligations.SmallRegisterFile : Prop :=
  ∀ (s : State) (w : VWidth) (t : VType) (d a b : BitVec 6) (p k : BitVec 3) (as : BitVec 4) (off : BitVec 11), s.me.ctx.spr.pw.getLsbD 0 = true →
    let traps := fun (i : Instr) => Completes i s fun u => TrapsIllegal s u 0
    (32 ≤ d.toNat → traps (.vadd w t d a b) ∧ traps (.vmov w t d a) ∧ traps (.vbcast w t d b) ∧ traps (.vsel w t d a p) ∧ traps (.vld w as d off) ∧
      traps (.vst w as d off) ∧ traps (.vgather w t d a as) ∧ traps (.xnet k d a) ∧ traps (.xrng d)) ∧
    (32 ≤ a.toNat → traps (.vcmp w t .eq p a b) ∧ traps (.vred w t .sum d a p) ∧ traps (.vext w t d a 0) ∧ traps (.vsfu w t .rcp d a p)) ∧
    (32 ≤ (a + 1).toNat → traps (.xnet k d a))

-- S4: the network, conversions, random values

/-- R138, R139: XNET writes vd whole, bit i of byte j being the source bit that pattern k routes there, reversed, rotated, inverted and zeroed as
its entry says, at the end of issue + 3; XNLOAD brings 256 aligned bytes into the pattern, landing at the end of issue + 5. -/
def Obligations.BitNetwork : Prop :=
  ∀ (s : State) (k : BitVec 3) (d a : BitVec 6) (as : BitVec 4),
    let pair := s.me.rv (a + 1) ++ s.me.rv a
    let at_ := s.streamAt as 0 1
    (s.hasV [d, a, a + 1] → ∃ v, v < 2 ^ 1024 ∧
      (∀ (j : Fin 128) (i : Nat), i < 8 →
        let e := (s.me.ctx.pat[k.toNat])[j]
        let r := (i + 8 - (e.toNat / 256 % 8)) % 8
        let bit := if e.getLsbD 11 then 7 - r else r
        v.testBit (8 * j.val + i) = (!e.getLsbD 12 && (pair.getLsbD (8 * (e.toNat % 256) + bit) != e.getLsbD 13))) ∧
      Completes (.xnet k d a) s fun t => Delivers s t (.v d) (lowMask 1024) v 3) ∧
    (s.reaches at_ 256 256 → Completes (.xnload k as) s fun t =>
      Loads s t (.pat k) (lowMask 2048) 5 (s.accessOf (s.me.ras as).view at_.toNat 256 3 (.load (.pat k) 0 0 false []))) ∧
    (¬ s.reaches at_ 256 256 → Completes (.xnload k as) s fun t => TrapsIllegal s t (addrInfo at_)) ∧
    (Instr.xnet k d a).body = 0x01#6 ++ k ++ d ++ a ++ 0#8 ∧ (Instr.xnet k d a).wf = (a.toNat % 2 == 0)

/-- R149–R156: the conversion words and XRNG. With a deterministic rounding a word converts with the random entry 0 and takes none; with stochastic
rounding it takes the oldest entry of RQ, at issue, or waits while RQ is empty. XCVT, XCVTH and XMXD land at the end of issue + 4, XMX, XPLANE
and XUNPLANE at + 6, XRNG at + 2 with the 256 bits of its entry. -/
def Obligations.Conversions : Prop :=
  ∀ (s : State) (x y : Cvt) (rnd : Rnd) (sat : Bool) (n : BitVec 4) (d a : BitVec 6), s.hasV [d] →
    let v := s.me.rv a
    let all := fun (r : Vec × Kinds) => (lowMask 1024, r.1.toNat, r.2)
    let gives := fun (i : Instr) (lat : Nat) (f : BitVec 256 → Payload × Nat × Kinds) =>
      (rnd ≠ .sr → Completes i s fun t => Delivers s t (.v d) (f 0).1 (f 0).2.1 lat (f 0).2.2) ∧
      (rnd = .sr → s.me.ctx.rq = [] → Completes i s fun t => Waits s t) ∧
      (∀ e r, rnd = .sr → s.me.ctx.rq = e :: r → Completes i s fun t => ∃ c,
        Adds { s.me with ctx := { s.me.ctx with rq := r }, undo := .rq (s.me.nextSeq s.cur.slot) e :: s.me.undo }
          (s.resultOf (.v d) (f e).1 (f e).2.1 lat (f e).2.2 false) c ∧ Issues s t c)
    (s.hasV [a] → gives (.xcvt x y rnd sat d a) 4 (cvtVec x y rnd sat false v) ∧ gives (.xcvth x y rnd sat d a) 4 (cvtVec x y rnd sat true v) ∧
    gives (.xmx x y rnd sat d a) 6 (fun e => all (xmxBlock y rnd sat e v)) ∧ gives (.xmxd x y rnd sat d a) 4 (fun e => all (xmxdBlock x rnd sat e v)) ∧
    gives (.xplane x n rnd d a) 6 (fun e => all (xplaneBlock x (n.toNat + 1) rnd e v)) ∧
    gives (.xunplane x n rnd sat d a) 6 (fun e => all (xunplaneBlock x (n.toNat + 1) rnd sat e v))) ∧
    (s.me.ctx.rq = [] → Completes (.xrng d) s fun t => Waits s t) ∧
    (∀ e r, s.me.ctx.rq = e :: r → Completes (.xrng d) s fun t => ∃ c,
      Adds { s.me with ctx := { s.me.ctx with rq := r }, undo := .rq (s.me.nextSeq s.cur.slot) e :: s.me.undo }
        (s.resultOf (.v d) (lowMask 256) e.toNat 2 0 false) c ∧ Issues s t c)

-- S5: the matrix engine

/-- R203–R207, R210, R211, R214, R215, R234: with their checks passed, their buffers filled and a place among the engine's sixteen, the MX words hand
their operation off, where no follow-on waits for that place, with its descriptor, buffer, shape and batch as they stand, and put its tile into flight; MLOADW's K and N count as latched
from then; MOUT takes one RQ entry where it rounds stochastically; MSHAPE sets SHAPE in its own cycle, and with another mask leaves no weights
latched; MCOMMIT closes the open batch under its number; MDSET writes one field of a descriptor. That a field of the descriptor which a word's own
card does not use is not checked by it, so that the word hands off with stray bits there, is the model's reading (log 92, DEDUCED); R203's plain
words would admit a check of every field. -/
def Obligations.MatrixWords : Prop :=
  ∀ (s : State) (md as h mask : BitVec 4) (cb cc : BitVec 5) (fmt : WFmt) (dst : OutFmt) (rnd : Rnd) (f k : BitVec 3) (a : BitVec 6), s.cur.slot = .mx →
    let w := s.me.rmd md
    let b := s.me.rcb cb
    let b2 := s.me.rcb cc
    let m := s.me.ctx.mxe
    let S := s.me.scratch
    let shape := s.me.ctx.spr.shape
    let pw := s.me.ctx.spr.pw
    let room := m.ops.length + s.me.heldFollows < 16
    let free := m.accBusy (Tile.ofMd w 0) = none
    let tile := mOk w = true ∧ nOk w = true ∧ tileOk w pw = true
    (Completes (.mdset md f a) s fun t => Delivers s t (.md md f) (lowMask 64) (s.me.rs a).toNat 1) ∧
    (nOk w = true → kOk w shape = true → b.holds (weightBytes fmt (mdK w) (mdN w)) S = true → 1 ≤ b.f → room →
      Completes (.mloadw md cb fmt) s fun t =>
        Issues s t ((s.withOp (s.myOp (.mloadw fmt) w b cb)).onMxe fun m => { m with lk := mdK w, ln := mdN w })) ∧
    (mmaOk s.me w b shape = true → mdM w ≤ b.f → room →
      (Completes (.mma md cb) s fun t => Issues s t (s.withTile (s.myOp (.mma false) w b cb))) ∧
      Completes (.mmaz md cb) s fun t => Issues s t (s.withTile (s.myOp (.mma true) w b cb))) ∧
    (∀ v, s.me.rh h = some v → v.kind = 0 → tile → 1 ≤ bandCount shape → b.holds (4 * mdM w) S = true → b2.holds (4 * mdN w) S = true →
      1 ≤ b.f → 1 ≤ b2.f → room → Completes (.mouter md cb cc h) s fun t => Issues s t (s.withTile (s.myOp (.mouter b2 v) w b cb))) ∧
    (tile → free → room → Completes (.mzero md) s fun t => Issues s t (s.withTile (s.myOp .mzero w CircBuf.zero 0))) ∧
    (let addr := s.streamAt as 0 1
     let z := outZ dst
     let row := outStride w z
     tile → flagsOk w = true → fld w[6] 63 40 = 0 → fld w[6] 31 25 = 0 → row % z = 0 → s.reaches addr ((mdM w - 1) * row + mdN w * z) z → free → room →
      (rnd ≠ .sr → Completes (.mout md as dst rnd) s fun t => Issues s t (s.withOp (s.myOp (.mout dst rnd addr.toNat 0) w CircBuf.zero 0))) ∧
      (∀ e r, rnd = .sr → s.me.ctx.rq = e :: r → Completes (.mout md as dst rnd) s fun t =>
        let c := s.withOp (s.myOp (.mout dst rnd addr.toNat e) w CircBuf.zero 0)
        Issues s t { c with ctx := { c.ctx with rq := r }, undo := .rq (s.me.nextSeq .mx) e :: s.me.undo }) ∧
      (rnd = .sr → s.me.ctx.rq = [] → Completes (.mout md as dst rnd) s fun t => Waits s t)) ∧
    (room → Completes (.mshape mask) s fun t => ∃ c,
      Adds (s.withOp (s.myOp (.mshape mask) (Vector.replicate 8 0) CircBuf.zero 0)) (s.resultOf (.spr 0x00B) (lowMask 4) mask.toNat 0 0 false) c ∧
      Issues s t (if shape = mask then c else c.onMxe fun m => { m with lk := 0, ln := 0 })) ∧
    (Completes (.mcommit k) s fun t => Issues s t (s.me.onMxe fun m =>
      { m with numbers := m.numbers.set k.toNat (some m.openB), openB := m.openB + 1,
               tiles := m.tiles.map fun x => if x.batch = m.openB then { x with num := some k } else x }))

/-- R205, R210, R213, R215, R247: an MX word whose checks fail raises the illegal trap alone; MZERO of a tile that shares a byte with one in flight the
accumulator-busy trap, with the lowest shared byte in its record; a word whose rows are not filled, or that finds sixteen operations, waits. An AR
word whose own checks fail raises the illegal trap, with the pool address in the record of one that has one (R45, R54: the lower cause). One whose
checks pass and whose beat field is neither 31 nor the program beat modulo 32 raises the beat trap with kind 0, one of the wrong parity with kind 1,
each with the program beat, the field and slot 6 in TINFO0 and the word in TINFO1; and nothing else happens. That
MZERO's busy trap and the waits are met with stray bits in descriptor fields which the word's card does not use is the model's reading (log 92,
DEDUCED). -/
def Obligations.EngineWordsThatStop : Prop :=
  (∀ (s : State) (md : BitVec 4) (cb : BitVec 5),
     let w := s.me.rmd md
     let b := s.me.rcb cb
     let m := s.me.ctx.mxe
     let ok := mmaOk s.me w b s.me.ctx.spr.shape
     let tile := mOk w = true ∧ nOk w = true ∧ tileOk w s.me.ctx.spr.pw = true
     (ok = false → (Completes (.mma md cb) s fun t => TrapsIllegal s t 0) ∧ Completes (.mmaz md cb) s fun t => TrapsIllegal s t 0) ∧
     (ok = true → b.f < mdM w ∨ 16 ≤ m.ops.length + s.me.heldFollows → (Completes (.mma md cb) s fun t => Waits s t) ∧ Completes (.mmaz md cb) s fun t => Waits s t) ∧
     (¬ tile → Completes (.mzero md) s fun t => TrapsIllegal s t 0) ∧
     (∀ i, tile → m.accBusy (Tile.ofMd w 0) = some i → Completes (.mzero md) s fun t => TrapsWith s t 0x04 i (s.myWord.setWidth 64)) ∧
     (tile → m.accBusy (Tile.ofMd w 0) = none → 16 ≤ m.ops.length + s.me.heldFollows → Completes (.mzero md) s fun t => Waits s t)) ∧
  (∀ (s : State) (n : BitVec 5) (ad acc : BitVec 3) (as planes : BitVec 4) (v : BitVec 6) (zero sat : Bool) (op : ArFn) (ew : ArWidth) (imm : BitVec 5),
     let w := s.me.rad ad
     let d := s.me.rad acc
     let at_ := s.streamAt as 0 1
     let ww := w[5].toNat
     let beat := s.myRec.tag.beat.toNat
     let named := n.toNat = 31 ∨ n.toNat = beat % 32
     let pool := astOk s.me w at_ = true
     let small := adOk w = true ∧ adBits w ≤ 1024 ∧ s.hasV [v]
     let planar := adOk w = true ∧ (ww = 2 ∨ ww = 4 ∨ ww = 8) ∧ adCols w % ww = 0 ∧ adCols w / ww ≤ 128 ∧
       s.reaches at_ (128 * ceilDiv (adRows w) 32) 128
     let roomy := zero = true ∨ ((s.me.ctx.af.groups[acc.toNat]).arrays.length < 8 ∧
       ∀ x ∈ s.me.ctx.af.words, ∀ z k p y r l q, x.work ≠ .amvm acc z k p y r l q)
     let paired := adOk d = true ∧ adCols d % (match ew with | .b8 => 8 | .b16 => 16 | .b32 => 32) = 0 ∧
       (op = .zero ∨ (adOk w = true ∧ adArr w = adArr d ∧ adCol w = adCol d ∧ adCols w = adCols d ∧ adRows w = adRows d))
     let info := BitVec.ofNat 64 (at_.toNat % 2 ^ 32 * 2 ^ 32)
     let fails := fun (i : Instr) (x : Word) => Completes i s fun t => TrapsIllegal s t x
     let traps := fun (i : Instr) (kind : Nat) => Completes i s fun t =>
       TrapsWith s t 0x0A (BitVec.ofNat 64 (beat * 2 ^ 48 + n.toNat * 2 ^ 40 + kind * 2 ^ 8 + 6)) (s.myWord.setWidth 64)
     let even := fun (kind : Nat) => (pool → traps (.ast n ad as) kind ∧ traps (.ald n ad as) kind) ∧
       (small → traps (.astv n ad v) kind ∧ traps (.aldv n ad v) kind)
     let odd := fun (kind : Nat) => (planar → roomy → traps (.amvm n ad as acc planes zero) kind) ∧
       (paired → traps (.arop n acc op ad ew sat imm) kind)
     (¬ named → even 0 ∧ odd 0) ∧ (named → beat % 2 = 1 → even 1) ∧ (named → beat % 2 = 0 → odd 1) ∧
     (¬ pool → fails (.ast n ad as) info ∧ fails (.ald n ad as) info) ∧ (¬ small → fails (.astv n ad v) 0 ∧ fails (.aldv n ad v) 0) ∧
     (¬ planar → fails (.amvm n ad as acc planes zero) info) ∧ (¬ paired → fails (.arop n acc op ad ew sat imm) 0))

-- S6: the array field

/-- R244, R247, R249, R253–R255, R257, R258: with its beat right and its checks passed, each AR word goes into the array field with its descriptor,
the beat of its tag and its operands as they stand in its hand-off cycle; nothing else changes. The even beats take AST, ALD, ASTV and ALDV, the
odd ones AMVM and AROP; AACC takes no beat. ADSET writes one field of a descriptor. -/
def Obligations.ArrayWords : Prop :=
  ∀ (s : State) (n : BitVec 5) (ad add f acc : BitVec 3) (as planes : BitVec 4) (v : BitVec 6) (zero sat i32 : Bool) (op : ArFn) (ew : ArWidth)
    (imm : BitVec 5) (part : BitVec 2), s.cur.slot = .ar →
    let w := s.me.rad ad
    let d := s.me.rad add
    let at_ := s.streamAt as 0 1
    let view := (s.me.ras as).view
    let beat := s.myRec.tag.beat.toNat
    let fits := fun (parity : Nat) => (n.toNat = 31 ∨ n.toNat = beat % 32) ∧ beat % 2 = parity
    let puts := fun (i : Instr) (work : ArWork) (x : Vector Word 6) => Completes i s fun t => Issues s t (s.withArWord work x)
    let bytes := adBits w / 8
    let small := adOk w = true ∧ adBits w ≤ 1024
    let ww := w[5].toNat
    let roomy := (s.me.ctx.af.groups[acc.toNat]).arrays.length < 8 ∧
      ∀ x ∈ s.me.ctx.af.words, ∀ z k p v r l q, x.work ≠ .amvm acc z k p v r l q
    (Completes (.adset ad f v) s fun t => Delivers s t (.ad ad f) (lowMask 64) (s.me.rs v).toNat 1) ∧
    (fits 0 → small → adCols w % 8 = 0 → s.reaches at_ bytes 1 → 0 < bytes → at_.toNat % 128 + bytes ≤ 128 →
      puts (.ast n ad as) (.ast at_.toNat view none) w ∧ puts (.ald n ad as) (.ald at_.toNat view) w) ∧
    (fits 0 → small → s.hasV [v] → puts (.astv n ad v) (.astv (s.me.rv v)) w ∧ puts (.aldv n ad v) (.aldv v) w) ∧
    (fits 1 → adOk w = true → ww = 2 ∨ ww = 4 ∨ ww = 8 → adCols w % ww = 0 → adCols w / ww ≤ 128 →
      s.reaches at_ (128 * ceilDiv (adRows w) 32) 128 → zero = true ∨ roomy →
      puts (.amvm n ad as acc planes zero) (.amvm acc zero (planes.toNat + 1) at_.toNat view s.me.ctx.spr.arows.toNat [] false) w) ∧
    (fits 1 → adOk d = true → adCols d % (match ew with | .b8 => 8 | .b16 => 16 | .b32 => 32) = 0 →
      op = .zero ∨ (adOk w = true ∧ adArr w = adArr d ∧ adCol w = adCol d ∧ adCols w = adCols d ∧ adRows w = adRows d) →
      puts (.arop n add op ad ew sat imm) (.arop op w ew sat imm.toNat) d) ∧
    (s.hasV [v] → puts (.aacc v acc part i32) (.aacc v acc part i32) (Vector.replicate 6 0))

-- S7: atomics and rounds; S0: phases and spawned tasks

/-- R286, R289, R290: an atomic on a page that the core's table maps to a synchronisation engine, writable, over a link that stands, hands one
request off with its operands and address, to reach its bank 18 cycles later on its own die and 42 on another (in the overflow area no earlier);
its failing checks raise the illegal trap and a page without permission the translation trap, with the address in the record. -/
def Obligations.AtomicWords : Prop :=
  ∀ (s : State) (op : AtomOp) (wide ord : Bool) (d a b : BitVec 6) (leaf : Word),
    let x := s.me.rs a
    let c := s.cur.core
    let bytes := match op with | .addI64 | .and | .or | .xor | .swap64 => 8 | _ => 4
    let info := BitVec.ofNat 64 (x.toNat % 2 ^ 48 * 2 ^ 16 + 7)
    let word := s.myWord.setWidth 64
    let each := fun (P : Instr → Nat → Option AtomOp → Word → Prop) =>
      P (.atom op d a b ord) bytes (some op) 0 ∧ P (.atomc wide d a b ord) (if wide then 8 else 4) none (s.me.rs d)
    let request := fun (o : Option AtomOp) (n : Nat) (cmp : Word) (die at_ extra : Nat) (ovf : Bool) (waits : List Nat) =>
      ({ core := c.val, sd := d, op := o, wide := n == 8, cmp := cmp, operand := s.me.rs b, die := die, ovf := ovf, addr := at_,
         bundle := s.myRec.pc, seq := s.myRec.seq, order := s.me.orders, ord := ord,
         reach := s.me.cyc + (if die = c.val / 24 then 18 else 42) + extra, back := if die = c.val / 24 then 18 else 42, extra := extra
         waits := waits, resp := none } : Atomic)
    each (fun i n _ _ => 2 ^ 48 ≤ x.toNat ∨ x.toNat % n ≠ 0 → Completes i s fun t => TrapsWith s t 0x01 info word) ∧
    (x.toNat < 2 ^ 48 → x.toNat % 8 = 0 → cacheGet s.me.tlb (x.toNat / 65536) = some leaf → leafOk leaf = true →
      each (fun i _ _ _ => leafKind leaf ≠ 2 → Completes i s fun t => TrapsWith s t 0x01 info word) ∧
      (leafKind leaf = 2 → each (fun i _ _ _ => leafW leaf = false → Completes i s fun t => TrapsWith s t 0x0B info word)) ∧
      (leafKind leaf = 2 → leafW leaf = true → ∀ die ovf at_, s.leafPlace c leaf (x.toNat % 65536) = .sye die ovf at_ →
        s.linkBad die (c.val / 24) = false →
        each fun i n o cmp => Completes i s fun t => ∃ extra waits draws, (ovf = false → extra = 0) ∧ (ord = false → waits = []) ∧
          Issues { s with atoms := s.atoms ++ [request o n cmp die at_ extra ovf waits], draws := draws } t { s.me with orders := s.me.orders + 1 }))

/-- R301, R302, R303, R315: ROUND in the future on a table that meets R312 starts the round on its die, beside those that run, for the cores that join;
what blocks of an earlier round of the tag wrote is no longer at risk unless a round of the tag runs on another die. A start that has passed, a round
of the same tag with another table or start, a table that is illegal or already in use, and a ninth round of the die are the illegal trap; a core
that names a running round's table and start joins it. RABORT has the tag aborted at the end of its cycle: the tag's unbegun entries leave every queue of the package and its rounds end. Neither
touches a register or a memory. -/
def Obligations.RoundWords : Prop :=
  (∀ (s : State) (a : BitVec 6) (tt : BitVec 3) (tag : BitVec 8),
    let c := s.cur.core
    let start := (s.me.rs a).toNat
    let die := s.dies[dieOf c]
    let late := start ≤ (s.coreGcnt c).toNat
    let cleared := { s with aborted := s.aborted.filter (fun t => t != tag), noticed := s.noticed.filter (fun t => t != tag)
                            spoiled := s.spoiled.filter (fun t => t != tag) }
    let mine := fun (ident : Nat) => { s.me with ctx := { s.me.ctx with round := some (tag, ident) } }
    (late → Completes (.round a tt tag) s fun t => TrapsIllegal s t 0) ∧
    (∀ r, ¬ late → die.rounds.find? (fun r => r.tag = tag) = some r → ¬ (r.tt = tt.toNat ∧ r.start = start) →
      Completes (.round a tt tag) s fun t => TrapsIllegal s t 0) ∧
    (∀ r, ¬ late → die.rounds.find? (fun r => r.tag = tag) = some r → r.tt = tt.toNat → r.start = start →
      Completes (.round a tt tag) s fun t => Issues (cleared.updDie (dieOf c) fun x =>
        { x with rounds := x.rounds.map fun y => if y.tag = tag then { y with cores := (c.val :: y.cores).eraseDups } else y }) t (mine r.ident)) ∧
    (¬ late → die.rounds.find? (fun r => r.tag = tag) = none →
      die.timetable tt.toNat = none ∨ (∃ r ∈ die.rounds, r.tt = tt.toNat) ∨ 8 ≤ die.rounds.length →
      Completes (.round a tt tag) s fun t => TrapsIllegal s t 0) ∧
    (∀ slack ws p, ¬ late → (∀ r ∈ die.rounds, r.tag ≠ tag ∧ r.tt ≠ tt.toNat) → die.rounds.length < 8 →
      die.timetable tt.toNat = some (slack, ws) → s.partOf c = some p →
      (∀ w ∈ ws, (die.ports.toArray.getD w.port Port.reset).state = 2 ∧ (s.parts[p]).ownsPort (6 * (dieOf c).val + w.port) = true ∧
        s.partOf (coreIx (24 * (dieOf c).val + w.core)) = some p) →
      Completes (.round a tt tag) s fun t =>
        Issues (({ cleared with roundNo := s.roundNo + 1, landed := if s.runsTag tag then s.landed else s.landed.filter fun x => x.tag != tag } : State).updDie
          (dieOf c) fun x => { x with rounds := x.rounds ++ [⟨tag, s.roundNo, tt.toNat, start, slack, ws, [], [], [c.val]⟩] }) t (mine s.roundNo)) ∧
    (Completes (.rabort tag) s fun t => Issues { s with aborts := s.aborts ++ [tag] } t s.me)) ∧
  (∀ (s : State) (tag : BitVec 8),
    let t := ({ s with aborts := [tag] } : State).abortAll
    SameMemories s t ∧ tag ∈ t.aborted ∧ t.aborts = [] ∧
    (∀ d : DieId, (t.dies[d]).rounds = (s.dies[d]).rounds.filter fun r => r.tag != tag) ∧
    ∀ (k : CoreId), ((t.cores[k]).ctx = { (s.cores[k]).ctx with queues := (t.cores[k]).ctx.queues }) ∧
      ∀ q : Fin 8, ((t.cores[k]).ctx.queues[q]) = { (s.cores[k]).ctx.queues[q] with
        entries := ((s.cores[k]).ctx.queues[q]).entries.filter fun e => !(decide (e.round.map (fun x => x.1) = some tag) && e.began.isNone) })

/-- R348, R356, R357, R358: PHASE of a level whose membership in force is valid sends one credit of one byte to that membership's phase word, to be
performed within R399's bound, and is otherwise the illegal trap; the DOM register of the level comes into force when the credit is performed (log 19,
the model's reading; the performance is stated in ElsewhereEvents). A home core above 95 is taken modulo 96 (log 20, the model's choice). SPAWN of a
legal entry into a queue with a place puts the task last there, and the queue's tasks take the states that follow from which of them is now the next;
it waits while the queue is full, and is the illegal trap for an entry or an address that fails. -/
def Obligations.PhaseAndSpawn : Prop :=
  ∀ (s : State) (level : BitVec 3) (a : BitVec 6) (core : BitVec 7), level.toNat ≤ 5 →
    let d := getAt s.me.ctx.domIn level.toNat
    let home := fld d 54 48 % 96
    let bound := if s.cur.core.val = home then 1 else if s.cur.core.val / 24 = home / 24 then 48 else 96
    let scope := match level.toNat with | 0 => Scope.core | 1 => .cluster | 2 => .half | 3 => .die | _ => .partition
    let x := s.me.rs a
    let target := coreIx core.toNat
    let ws := (List.range 32).map fun i => s.me.pool.word (x.toNat + 8 * i)
    (d.getLsbD 63 = false → Completes (.phase level) s fun t => TrapsIllegal s t 0) ∧
    (d.getLsbD 63 = true → Completes (.phase level) s fun t => ∃ due, s.now + 1 ≤ due ∧ due ≤ s.now + bound ∧
      Issues { s with draws := s.draws + 1, reqNo := s.reqNo + 1, reqs := s.reqs ++
        [{ id := s.reqNo, core := s.cur.core.val, queue := 8, order := s.me.orders, bundle := s.myRec.pc, at_ := .pool home (fldUp d 43 24 4),
           kind := .credit level.toNat, seq := s.myRec.seq, admitted := true, after := s.pubsOf s.cur.core scope, sent := s.now, due := due, back := 0
           data := none, held := false }] } t { s.me with orders := s.me.orders + 1 }) ∧
    (¬ s.reaches x 256 256 → Completes (.spawn a core) s fun t => TrapsIllegal s t 0) ∧
    (∀ p, s.reaches x 256 256 → core.toNat < 96 → s.partOf s.cur.core = some p → s.partOf target = some p → (ws.getD 0 0).getLsbD 62 = true →
      ((ws.getD 0 0).getLsbD 63 = true → s.me.ctx.spr.taskinfo.getLsbD 63 = true) →
      (∀ r, refusal ws true ((s.parts[p]).pctl.getLsbD 62) false = some r → Completes (.spawn a core) s fun t => TrapsIllegal s t 0) ∧
      (refusal ws true ((s.parts[p]).pctl.getLsbD 62) false = none →
        (4 ≤ (s.cores[target]).queue.length → Completes (.spawn a core) s fun t => Waits s t) ∧
        ((s.cores[target]).queue.length < 4 → Completes (.spawn a core) s fun t =>
          let posted := s.updCore target fun y =>
            ({ y with queue := y.queue ++ [QTask.enters .queued ws (s.pubsOf s.cur.core .partition)] } : Machine.Core).relabel
          Issues posted t posted.me)))

-- events of the core: the pipeline

/-- R64–R66, R37, R45, R362: a bundle is dispatched at the next position in execution order: outside the code region, from poisoned instruction
memory, where its dispatch meets an uncorrectable error in a level of the loop stack or in the replay buffer just re-injected, or where a slot holds no
instruction of its map, its precise trap is asked for and nothing enters (TINFO0 and TINFO1 are 0 but for the last: log 35, the model's choice; a loop
level entered anew has no error: log 113); otherwise the 256 bits of
instruction memory enter as one bundle, with the tag of R64, and ABEAT moves the program beat on. R51, R52: the oldest bundle retires once every
word has issued, its pool accesses are done and no trap is found for it: its stores, in order, and no other byte, reach the pool. -/
def Obligations.DispatchAndRetirement : Prop :=
  ∀ (s : State) (c : CoreId),
    let x := s.cores[c]
    let info := x.ctx.spr.taskinfo
    (x.dispatchDue = true →
      let depth := min x.ctx.loops.length x.cross.ctx.loops.length
      let u := { x.upsets with loops := x.upsets.loops.filter fun l => decide (l < depth) }
      let y := { x.cross with haltReq := x.stepReq, upsets := u }
      let error := u.met = true ∨ u.loops ≠ []
      let pc := y.ctx.pc
      let words := BitVec.ofNat 256 (leNat (x.imem.bytes (32 * pc.toNat) 32))
      let stored := inRegion info pc.toNat = true ∧ x.imem.tainted (32 * pc.toNat) 32 = false
      let clean := stored ∧ ¬ error
      let traps := fun (cause : BitVec 8) (i0 i1 : Word) => Completes (.bundleDispatch c) s fun t =>
        Makes c s t { y with ptrap := some ⟨x.seqNo, cause, i0, i1⟩ }
      (inRegion info pc.toNat = false → traps 0x01 0 0) ∧
      (inRegion info pc.toNat = true → x.imem.tainted (32 * pc.toNat) 32 = true → traps 0x0F 0 0) ∧
      (stored → error → Completes (.bundleDispatch c) s fun t =>
        Makes c s t { y with ptrap := some ⟨x.seqNo, 0x0F, 0, 0⟩, upsets := { u with met := false } }) ∧
      (∀ sl why, clean → bundleReject words = some (sl, why) →
        traps 0x01 (BitVec.ofNat 64 ((if why = .lanes then 8 else 0) + sl.num)) ((slotWord words sl).setWidth 64)) ∧
      (clean → bundleReject words = none → Completes (.bundleDispatch c) s fun t =>
        ∃ b xfers beat bound hold,
          Makes c s t { y with
            seqNo := x.seqNo + 1, bundles := x.bundles ++ [b], bound := bound, hold := hold
            ctx := { y.ctx with xfers := xfers, beat := beat } } ∧
          b.seq = x.seqNo ∧ b.pc = pc ∧ b.words = words ∧ b.issued = 0 ∧ b.tag.lidx = y.ctx.loops.reverse.map (fun l => l.index) ∧
          b.tag.beat = y.ctx.beat ∧ beat = y.ctx.beat + (match b.instr .ctl with | .abeat _ => (1 : BitVec 16) | _ => 0))) ∧
    (∀ b rest, retireDue s c = true → x.bundles = b :: rest → Completes (.bundleRetirement c) s fun t =>
      let mine := x.stores.filter fun p => p.seq = b.seq
      let pool := mine.foldl (fun m p => m.writeAll p.bytes false) x.pool
      (∃ log xfers undo gone, Makes c s t { x with
        bundles := rest, stores := (x.stores.filter fun p => p.seq != b.seq), undo := undo, gone := gone, pool := pool,
        ctx := { x.ctx with viewLog := log, xfers := xfers } }) ∧
      ∀ a, (∀ p ∈ mine, ∀ q ∈ p.bytes, q.1 ≠ a) → pool.read a = x.pool.read a)

/-- R9, R56, R95, R116, R161–R163: the one result due at a cycle's end writes the bits of its mask into its register and leaves the register's other
bits and every other register; s0 and p0 discard it. Its kinds are added to FFLAGS; with the log empty, the lowest of them that FELMASK lets
through is recorded with its slot, bundle and cycle. R290: an atomic's response brings one result for sd and one report, and the atomic is gone.
R299: reduction events that are home become reports. R150: the random queue takes one more entry of the generator and RNGCTR counts it. -/
def Obligations.Landings : Prop :=
  ∀ (s : State) (c : CoreId),
    let x := s.cores[c]
    (∀ f : Flight, x.frozen = false → x.flights.filter (fun g => g.due ≤ x.cyc) = [f] → x.reports = [] →
      Completes (.resultLanding c) s fun t =>
        let d := t.cores[c]
        let v := (x.getReg f.reg &&& ~~~f.mask) ||| (f.val &&& f.mask)
        let seen := fun (k : Nat) => f.kinds.getLsbD k = true ∧ x.ctx.spr.felmask.getLsbD k = true
        OnlyCore c s t ∧ d.flights = x.flights.filter (fun g => x.cyc < g.due) ∧ d.pool = x.pool ∧ d.rows = x.rows ∧ d.imem = x.imem ∧
        (∀ r, Reg.key r ≠ Reg.key f.reg → r ∉ [Reg.spr 6, Reg.spr 7, Reg.spr 9] → d.getReg r = x.getReg r) ∧
        d.rs 0 = 0 ∧ d.rp 0 = BitVec.allOnes 128 ∧
        (∀ i, f.reg = .s i → i ≠ 0 → d.rs i = v.setWidth 64) ∧ (∀ i, f.reg = .p i → i ≠ 0 → d.rp i = v.setWidth 128) ∧
        (∀ i, f.reg = .v i → d.rv i = v.setWidth 1024) ∧ (∀ i, f.reg = .cf i → d.rcf i = v.getLsbD 0) ∧
        (∀ i, f.reg = .bt i → d.rbt i = v.setWidth 64) ∧ (∀ i k, f.reg = .md i k → getAt (d.rmd i) k.toNat = v.setWidth 64) ∧
        (f.reg ≠ .spr 9 → d.ctx.spr.fflags = x.ctx.spr.fflags ||| f.kinds) ∧
        (f.reg ∉ [Reg.spr 6, Reg.spr 7, Reg.spr 8] →
          (∀ k < 9, x.ctx.spr.fela.getLsbD 63 = false → seen k → (∀ j < k, ¬ seen j) →
            d.ctx.spr.fela = BitVec.ofNat 64 (2 ^ 63 + f.bundle.toNat) ∧
            d.ctx.spr.felb = BitVec.ofNat 64 (x.ccnt.toNat % 2 ^ 32 * 2 ^ 32 + k * 16 + f.slot.num)) ∧
          (x.ctx.spr.fela.getLsbD 63 = true ∨ (∀ k < 9, ¬ seen k) → d.ctx.spr.fela = x.ctx.spr.fela ∧ d.ctx.spr.felb = x.ctx.spr.felb))) ∧
    (∀ a v k, responseReady s c = some (a, v, k) → Completes (.atomicResponse c) s fun t =>
      ∃ f : Flight, f.reg = .s a.sd ∧ f.val = v.setWidth 2048 ∧ f.mask = lowMask 64 ∧ f.due = x.cyc ∧ f.kinds = 0 ∧
        Makes c { s with atoms := s.atoms.filter fun y => y != a } t { x with
          flights := x.flights ++ [f], reports := if k = 0 then x.reports else x.reports ++ [⟨k, 7, a.bundle, 0, .handoff a.order⟩] }) ∧
    (returnDue s c = true → Completes (.reductionEventReturn c) s fun t =>
      let home := (x.ev.filter fun e => e.1 ≤ s.now).map fun e => e.2
      Makes c s t { x with ev := x.ev.filter (fun e => s.now < e.1), reports := x.reports ++ home.filter fun r => r.kinds != 0 }) ∧
    (x.rngDue = true → Completes (.rngRefill c) s fun t =>
      let y := x.ctx
      Makes c s t { x with ctx := { y with rq := y.rq ++ [rngEntry y.spr.rngkey y.spr.rngctr], spr := { y.spr with rngctr := y.spr.rngctr + 1 } } } ∧
        (t.cores[c]).ctx.rq.length ≤ 32)

/-- R53, R54, R80, R353: a trap whose time has come is taken at the oldest bundle not retired, or at the bundle a transfer's check or a RETT names
though it has retired (log 16, the model's reading of R67 and R71), with everything of it and of younger bundles taken back: no bundle, result, access
or store of theirs is left, and a byte that they stored to holds what the oldest of those stores replaced, every other byte what it held. With a handler installed and not active, the core enters it, with the cause, its record and the resume position
saved; with the handler absent or active and no level of domains defined, the task ends and the core has none. -/
def Obligations.TrapEntry : Prop :=
  ∀ (s : State) (c : CoreId),
    let x := s.cores[c]
    let open_ := fun (y : Machine.Core) => y.ctx.spr.tvec.getLsbD 14 = true ∧ y.ctx.spr.tvec.getLsbD 15 = false
    let bare := fun (y : Machine.Core) => ∀ k < 6, (getAt y.ctx.domIn k).getLsbD 63 = false
    let ends := fun (i : Instr) => Completes i s fun t => (t.cores[c]).run = .idle ∧ (t.cores[c]).queue = x.queue ∧ ∀ d, d ≠ c → t.cores[d] = s.cores[d]
    let back := match x.ptrap with | some p => x.gone.filter (fun g => p.seq ≤ g.b.seq) | none => []
    let clean := fun (y : Machine.Core) => y.bundles = [] ∧ y.flights = [] ∧ y.access = [] ∧ y.stores = [] ∧ y.ptrap = none ∧
      (∀ a, (∀ g ∈ back, ∀ u ∈ g.under, u.1 ≠ a) → y.pool.read a = x.pool.read a) ∧ (back = [] → y.pool = x.pool) ∧
      (∀ a l g r u, x.pool.wf = true → back = l ++ g :: r → (∀ h ∈ l, ∀ w ∈ h.under, w.1 ≠ a) →
        g.under.reverse.find? (fun w => w.1 = a) = some u → y.pool.read a = u.2.1) ∧
      y.rows = x.rows ∧ y.imem = x.imem
    let first := (back.map (fun g => g.b) ++ x.bundles).head?
    (∀ p, preciseDue s c = true → x.ptrap = some p →
      clean x.cut.1 ∧ (∀ b ∈ first, x.cut.2.setWidth 14 = b.pc) ∧
      (open_ x.cut.1 → Completes (.preciseTrapEntry c) s fun t => EntersHandler c s t x.cut.1 p.cause p.info0 p.info1 x.cut.2) ∧
      (¬ open_ x.cut.1 → bare x.cut.1 → x.run = .running → ends (.preciseTrapEntry c))) ∧
    (∀ p, impreciseDue s c = true → x.nextTrap = some p →
      let r := Machine.Core.cut { x with itraps := dropTrap p x.itraps }
      let y := match p.queue with | some q => r.1.onQueue q (fun z => { z with inTrap := true }) | none => r.1
      clean y ∧ (∀ b ∈ first, r.2.setWidth 14 = b.pc) ∧
      (open_ y → Completes (.impreciseTrapEntry c) s fun t => EntersHandler c s t y p.cause p.info0 p.info1 r.2) ∧
      (¬ open_ y → bare y → ends (.impreciseTrapEntry c)))

/-- R91, R183, R311, R92, R238, R248, R340, R202: a WAITC that has run frees its slot; an AWAIT out of time issues with its flag 0; a WAITG whose tick has
come issues; an ABEAT past its deadline asks for the beat-overrun trap; a cycle that the limiter stops is frozen, the later words of a split step too; a band whose tick has
come is ready; the next beat opens, held blocks first where it is an access beat, with the blocks that waited for it. -/
def Obligations.CoreTimers : Prop :=
  ∀ (s : State) (c : CoreId),
    let x := s.cores[c]
    let a := x.ctx.af
    (x.waitcDue = true → Completes (.waitcExpiry c) s fun t => Makes c s t { x with ctlHold := 0 }) ∧
    (∀ sa sb cf n, x.awaitDue = true → x.nextInstr .ae = .await sa sb cf n → Completes (.awaitTimeout c) s fun t =>
      Delivers { s with cur := ⟨c, .ae⟩ } t (.cf cf) (lowMask 1) 0 1 0 true) ∧
    (waitgDue s c = true → Completes (.waitgExpiry c) s fun t => Issues { s with cur := ⟨c, .ctl⟩ } t x) ∧
    (∀ D, x.overrunDue = true → x.overrun = some D → Completes (.beatOverrun c) s fun t =>
      Makes c s t (x.reqTrap ⟨x.nextSeq .ctl, 0x09,
        BitVec.ofNat 64 (a.openBeat.toNat * 2 ^ 48 + min 255 a.active.length * 2 ^ 32 + if a.words = [] then 0 else 2 ^ 8), BitVec.ofNat 64 D⟩)) ∧
    (x.limiterDue = true → Completes (.currentLimiterFreeze c) s fun t =>
      Makes c s t { x with frozen := true, stalled := true, limHit := true, frzRun := x.frzRun + 1, limFrz := x.limFrz + 1 }) ∧
    (∀ k tick, k < 4 → x.ctx.mxe.bands.toArray.getD k .off = .rising tick → tick ≤ (s.coreGcnt c).toNat → Completes (.bandReady c) s fun t =>
      Makes c s t { x with ctx := { x.ctx with mxe := { x.ctx.mxe with bands := x.ctx.mxe.bands.map fun b =>
        match b with | .rising n => if n ≤ (s.coreGcnt c).toNat then .on else b | _ => b } } }) ∧
    (∀ n, a.closing = some n → n < x.cyc → x.frozen = false → Completes (.beatOpen c) s fun t =>
      let even := (a.openBeat + 1).toNat % 2 = 0
      Makes c s t { x with ctx := { x.ctx with af := { a with
        openBeat := a.openBeat + 1, closing := none, held := if even then [] else a.held
        active := a.active ++ (if even then a.held else []) ++ a.pending.filter (fun b => b.beat = a.openBeat + 1)
        pending := a.pending.filter (fun b => b.beat != a.openBeat + 1) } } })

-- events of the core: its engines

/-- R188–R191, R162, R228, R229, R262–R264, R294, R295, R216, R178, R238, R239, R365: the life of a queue's head. It takes the translations that are
cached and keeps them; without all of them it asks for the others; refused, it halts its queue with the cause, and nothing of it is performed; otherwise
it begins in this cycle, a FLAG by sending its write to its memory, or in 16 cycles to its own pool. A pool read takes the bytes as they stand, or, its
bank refused, is a cycle later. A block write of the pool reaches it at the cycle's end, with its credit, or, a bank of it or of its credit refused,
delays itself and the later blocks by a cycle (R173). The block of a verb entry writes, element by element, what ZIP makes of the destination element as
it was read and the source element, the fold of a row's elements or the running value of one, sequential or tree. A completed entry produces into its
buffer, hands its follow-on to the matrix engine with base, element size and count of its buffer as they stand then (log 93, the model's choice),
writes its flag, and leaves with one more entry done. A flag write writes eight bytes and nothing else. A block for the array field enters, waits, is
refused, or is late as ALATE says; once the task has ended or is to restart, a held one is written before the field is left. -/
def Obligations.QueueEvents : Prop :=
  ∀ (s : State) (c : CoreId) (qn : QueueId),
    let x := s.cores[c]
    let q := qix qn
    let Q := x.rq q
    let heads := fun (t : State) (e : Entry) => ((t.cores[c]).rq q).entries = e :: Q.entries.drop 1
    let leaves := fun (t : State) => ((t.cores[c]).rq q).entries = Q.entries.drop 1 ∧ ((t.cores[c]).rq q).done = Q.done + 1
    (∀ e0, beginDue s c q = true → x.head q = some e0 →
      let e := e0.translate x.ceTlb
      let place := s.flagPlace c e
      (e.missing ≠ [] → Completes (.queueEntryBegin c qn) s fun t => SameMemories s t ∧ (∀ k, k ≠ c → t.cores[k] = s.cores[k]) ∧
        heads t e ∧ ∀ p ∈ e.missing, t.walkAsked c q p = true) ∧
      (∀ h, e.missing = [] → entryHalt s c e = some h → x.ended = false → Completes (.queueEntryBegin c qn) s fun t =>
        OnlyCore c s t ∧ SameMemories s t ∧ ((t.cores[c]).rq q).halted = true ∧ ((t.cores[c]).rq q).cause = BitVec.ofNat 8 h.1 ∧
        ((t.cores[c]).rq q).entries = Q.entries ∧ ∃ r, (t.cores[c]).itraps = x.itraps ++ [r] ∧ (h.2.1 ≠ 15 → r.cause = BitVec.ofNat 8 h.2.1)) ∧
      (e.missing = [] → entryHalt s c e = none → Completes (.queueEntryBegin c qn) s fun t => SameMemories s t ∧
        ∃ e1 : Entry, heads t e1 ∧
          e1 = { e with began := some x.cyc, nextRead := x.cyc, ready := true, flagDue := e1.flagDue, armed := e1.armed } ∧
          (e.isFlag = false → t.reqs = s.reqs ∧ e1.flagDue = e.flagDue) ∧
          ∀ a data sc, e.kind = .flag a data sc →
            (place.core = some c.val → t.reqs = s.reqs ∧ e1.flagDue = some (x.cyc + 16)) ∧
            (place.core ≠ some c.val → e1.flagDue = e.flagDue ∧ ∃ r, t.reqs = s.reqs ++ [r] ∧ r.core = c.val ∧ r.queue = q.toNat ∧ r.order = e.order ∧
              r.at_ = place ∧ r.kind = .flag data ∧ r.after = s.publishes c q e sc ∧ r.data = none))) ∧
    (∀ e b blk rest, x.readDue q = true → x.head q = some e → e.take.cur = some b → e.take.want = blk :: rest → space e.desc.src = 0 →
      let granted := x.free (queueReads q) [bankOf e.desc.sv (128 * blk)]
      (granted = true → Completes (.engineSourceRead c qn) s fun t => OnlyCore c s t ∧ SameMemories s t ∧
        heads t (e.take.readDone x.cyc (b.fill (128 * blk) 128 fun a => (x.pool.read a, x.pool.poison.contains a)) [] false)) ∧
      (granted = false → Completes (.engineSourceRead c qn) s fun t => OnlyCore c s t ∧ SameMemories s t ∧
        heads t (e.take.readRefused x.cyc))) ∧
    (∀ e b, blockDue s c q false = true → x.head q = some e → s.nextBlock x.cyc e = some b → b.await = [] → e.isVerb = false → e.isRed = false →
      e.isPut = false → space e.desc.dst = 0 → s.tableMet c e b = false →
      let granted := x.free (queueWrites q) ((e.bytesOf b).map fun y => bankOf e.desc.dv y.1).eraseDups &&
        (!e.desc.cred || x.grants.contains (bankOf false e.desc.credAt, queueCredits q))
      (granted = true → Completes (.engineBlockWrite c qn) s fun t =>
        SameMemories s t ∧ (t.cores[c]).endWrites = x.endWrites ++ e.bytesOf b ∧
        (t.cores[c]).credits = x.credits ++ if e.desc.cred = true ∧ e.bytesOf b ≠ [] then
          [(e.desc.credAt, (e.bytesOf b).length, (e.bytesOf b).any (fun y => y.2.2), b.late)] else []) ∧
      (granted = false → Completes (.engineBlockWrite c qn) s fun t => OnlyCore c s t ∧ SameMemories s t ∧
        (t.cores[c]).endWrites = x.endWrites ∧ (t.cores[c]).credits = x.credits ∧ heads t (e.writeRefused x.cyc b.j))) ∧
    (∀ e0 b v, blockDue s c q false = true → x.head q = some e0 → s.nextBlock x.cyc e0 = some b → e0.isVerb = true → e0.verb = some v →
      let e := { e0 with got := e0.got ++ s.harvest b }
      let es := e.desc.es
      let c0 := e.desc.c0
      let op := fun (l r : Nat × Bool) => (v.eval l r).1
      let el := fun (i : Nat) => ((elemOf e.got es i).1.toNat, (elemOf e.got es i).2)
      let old := fun (i : Nat) =>
        let y := elemOf (e.dgot.filterMap fun g => (b.outs.find? fun o => o.1 = g.1 && o.2 / es = i).map fun o => (o.2, g.2)) es i
        (y.1.toNat, y.2)
      let row := fun (i n : Nat) => (List.range n).map fun k => el (i / c0 * c0 + k)
      let inTurn := fun (xs : List (Nat × Bool)) => match v.ident, xs with
        | some i, xs => xs.foldl op (i, false)
        | none, y :: ys => ys.foldl op y
        | none, [] => (0, false)
      let value := fun (i : Nat) => match e.kind with
        | .zip => op (old i) (el i)
        | .fold false => inTurn ((List.range c0).map fun k => el (i * c0 + k))
        | .fold true => (tree op ((List.range c0).map fun k => el (i * c0 + k))).getD (0, false)
        | .scan false => inTurn (row i (i % c0 + 1))
        | _ => (prefixOf op (row i (i % c0 + 1))).getD (0, false)
      0 < c0 → space e.desc.dst = 0 → e.parity b = none → s.tableMet c e b = false →
      x.free (queueWrites q) ((e.bytesOf b).map fun y => bankOf e.desc.dv y.1).eraseDups = true → e.desc.cred = false →
      Completes (.engineBlockWrite c qn) s fun t => SameMemories s t ∧ ∃ ws, (t.cores[c]).endWrites = x.endWrites ++ ws ∧
        ws.map (fun y => y.1) = b.outs.map (fun o => o.1) ∧
        ∀ j y, j < b.outs.length / es * es → ws[j]? = some y →
          y.2 = (BitVec.ofNat 8 ((value (b.first / es + j / es)).1 / 256 ^ (j % es)), (value (b.first / es + j / es)).2)) ∧
    (∀ e, completionDue s c q = true → finishedHead s c q = some e → e.follow = none → isFill e = false →
      (e.cbpDone = true ∨ e.desc.cbpe = false → e.desc.flag = false ∨ e.flagDone = true → Completes (.entryCompletion c qn) s fun t =>
        OnlyCore c s t ∧ SameMemories s t ∧ leaves t ∧ (t.cores[c]).ctx.cb = x.ctx.cb) ∧
      (e.cbpDone = false → e.desc.cbpe = true → e.desc.flag = false →
        let b := x.rcb e.desc.cb
        (b.f + e.desc.n ≤ b.count → Completes (.entryCompletion c qn) s fun t => SameMemories s t ∧ leaves t ∧
          (t.cores[c]).rcb e.desc.cb = { b with f := b.f + e.desc.n, p := (b.p + e.desc.n) % b.count }) ∧
        (b.count < b.f + e.desc.n → x.ended = false → Completes (.entryCompletion c qn) s fun t => SameMemories s t ∧ (t.cores[c]).ctx.cb = x.ctx.cb ∧
          ((t.cores[c]).rq q).halted = true ∧ ((t.cores[c]).rq q).cause = 4 ∧ ((t.cores[c]).rq q).entries = Q.entries))) ∧
    (∀ e f, followDue s c q = true → finishedHead s c q = some e → e.follow = some f → Completes (.followOnReceipt c qn) s fun t =>
      SameMemories s t ∧ ∃ o, (t.cores[c]).ctx.mxe.ops = x.ctx.mxe.ops ++ [o] ∧ o.kind = .mma f.zero ∧ o.md = f.md ∧ o.cbn = f.cb ∧
        o.cb = { x.rcb f.cb with c := f.c } ∧ o.shape = f.shape ∧ o.rcvd = x.cyc) ∧
    (∀ e a, ownFlagDue s c q = true → s.flagReq c q = none → x.head q = some e → s.flagPlace c e = .pool c.val a →
      Completes (.flagWritePerformed c qn) s fun t => OnlyCore c s t ∧ SameMemories s t ∧
        (t.cores[c]).endWrites = x.endWrites ++ (leBytes a 8 (e.flagWrite Q.done).1.toNat).map (fun y => (y.1, y.2, false)) ∧
        ∃ r, heads t { e with flagDone := true, lastWrite := r }) ∧
    (∀ r data, s.flagReq c q = some r → r.kind = .flag data → s.hostHolds r.at_ r.span = false →
      let v := data.toNat
      let done := fun (t : State) => t.reqs = (s.reqs.map fun y => if y.id = r.id then { y with data := some ([], false) } else y) ∧
        ∃ f : Entry → Entry, (∀ e, (f e).flagDone = true ∧ (f e).order = e.order ∧ (f e).kind = e.kind) ∧
          ((t.cores[c]).rq q).entries = Q.entries.map fun e => if e.order = r.order then f e else e
      (∀ a, r.at_ = .host a → Completes (.flagWritePerformed c qn) s fun t =>
        t.host = s.host.writeAll (leBytes a 8 v) false ∧ SameMemories { s with host := t.host } t ∧ done t) ∧
      (∀ k a, r.at_ = .hbm k a → Completes (.flagWritePerformed c qn) s fun t =>
        (t.hbms[stackIx k]).bytes = ((s.hbms[stackIx k]).write (leBytes a 8 v) false).bytes ∧
        (∀ j : StackId, j ≠ stackIx k → (t.hbms[j]).bytes = (s.hbms[j]).bytes) ∧ t.host = s.host ∧ done t) ∧
      (∀ k a, r.at_ = .pool k a → Completes (.flagWritePerformed c qn) s fun t => SameMemories s t ∧
        (t.cores[coreIx k]).endWrites = (s.cores[coreIx k]).endWrites ++ (leBytes a 8 v).map (fun y => (y.1, y.2, false)) ∧ done t)) ∧
    (x.markerDue q = true → Completes (.qfenceMarkerComplete c qn) s fun t => OnlyCore c s t ∧ SameMemories s t ∧ leaves t ∧
      ∀ k, k ≠ q → (t.cores[c]).rq k = x.rq k) ∧
    (∀ e b, blockDue s c q true = true → x.head q = some e → s.nextBlock x.cyc e = some b → b.await = [] → Completes (.afBlockArrival c qn) s fun t =>
      let a := x.ctx.af
      let d := t.cores[c]
      let is := fun (y : AfBlock) => y.beat = e.desc.beat ∧ y.addr = spOff b.dst ∧ y.queue = q ∧
        y.bytes = some ((e.bytesOf b).map fun z => (spOff z.1, z.2.1))
      SameMemories s t ∧ (x.afFate e.desc.beat = .enter → ∃ y, d.ctx.af = { a with active := a.active ++ [y] } ∧ is y) ∧
      (x.afFate e.desc.beat = .wait → ∃ y, d.ctx.af = { a with pending := a.pending ++ [y] } ∧ is y) ∧
      (x.afFate e.desc.beat = .refuse → d.ctx.af = a ∧ heads t (e.stopped x.cyc)) ∧
      (x.afFate e.desc.beat = .late →
        (x.ctx.spr.alate = 0 → d.ctx.af = a ∧ d.ctx.spr.alatecnt = x.ctx.spr.alatecnt + 1) ∧
        (x.ctx.spr.alate = 1 → d.ctx.af = a ∧ d.ctx.spr.alatecnt = x.ctx.spr.alatecnt) ∧
        (x.ctx.spr.alate = 2 → ∃ y, is y ∧ y.late = true ∧
          d.ctx.af = if x.lastBeat then { a with active := a.active ++ [y] } else { a with held := a.held ++ [y] })))

/-- R200–R202, R205–R211, R214, R215, R234, R249, R250, R253–R259: the matrix engine begins its oldest operation, MSHAPE with its bands at once, any
other to run with the weights latched then (log 94, the model's choice), a MOUT with the bytes it is to write, its tile as it stands then converted
(R214). It reads a piece of its operands as the pool holds it, its bank granting, and so writes a block of MOUT. An access to the tile writes one row of
it and no other byte, in the cycle that log 95 gives it (the model's choice), or, its bank refused, waits: MZERO's row is zeros, MMA's and MMAZ's each
element the accumulator plus the exact sum over the groups, rounded once, with R210's special operands, MOUTER's the verb of its two elements. The
completion latches MLOADW's weights, each group by R208, and writes nothing more. An AR word takes the rows as they stand when it starts, then lands:
AST, ASTV and AROP in the rows, AROP element by element, ALD in the pool, ALDV and AACC in a register, AACC's elements converted from the group, AMVM in
its group, each block's products added. An engine block writes its bytes into the rows in its AF cycle. -/
def Obligations.EngineUnitEvents : Prop :=
  ∀ (s : State) (c : CoreId),
    let x := s.cores[c]
    let m := x.ctx.mxe
    let a := x.ctx.af
    let pw := x.ctx.spr.pw
    let tileBytes := fun (o : MOp) (i n : Nat) => leNat (x.pool.bytes (tileAt pw o.md i n) 4)
    (∀ o rest, x.frozen = false → x.mxeDue = true → m.ops = o :: rest →
      (∀ mask, o.kind = .mshape mask → Completes (.mxeOpBegin c) s fun t =>
        ∃ tick, tick ≤ s.gcnt.toNat + 2000 ∧ Makes c { s with draws := s.draws + 1 } t { x with ctx := { x.ctx with mxe := { m with
          ops := rest, running := m.running ++ [{ o with begun := some x.cyc, lat := m.latched, rowsEnd := some x.cyc }]
          bands := bandsTo m.bands mask tick, latched := if o.shape = mask then m.latched else Latched.none } } }) ∧
      ((∀ mask, o.kind ≠ .mshape mask) → Completes (.mxeOpBegin c) s fun t =>
        ∃ o', Makes c s t { x with ctx := { x.ctx with mxe := { m with ops := rest, running := m.running ++ [o'] } } } ∧
          o'.begun = some x.cyc ∧ o'.lat = m.latched ∧ o'.kind = o.kind ∧ o'.md = o.md ∧ o'.order = o.order ∧
          ∀ dst rnd addr rq, o.kind = .mout dst rnd addr rq →
            let value := fun (i n : Nat) =>
              let v := fmtF32.decode (tileBytes o i n)
              let v := if o.md[7].getLsbD 1 && v.neg && !v.isZero && !v.isNan then Sys2Proof.Num.zero false else v
              ((outCvt dst).round rnd (o.md[6].getLsbD 24) (rndByte rq (i * mdN o.md + n)) (v.shift (BitVec.ofNat 8 (fld o.md[6] 39 32)).toInt)).1
            ∀ y, y ∈ o'.outs.flatMap id ↔ ∃ i n, i < mdM o.md ∧ n < mdN o.md ∧
              y ∈ leBytes (addr + i * outStride o.md (outZ dst) + n * outZ dst) (outZ dst) (value i n))) ∧
    (∀ (o : MOp) p, o.reads[o.rows.length]? = some p → o.at_ p.2.2 ≤ x.cyc →
      let granted := x.free mxePort (runBanks p.1 p.2.1)
      (granted = true → (x.mxeRead o).2.1.rows = o.rows ++ [x.pool.bytes p.1 p.2.1] ∧ (x.mxeRead o).2.2 = false ∧
        (x.mxeRead o).1.pool = x.pool ∧ (x.mxeRead o).1.endWrites = x.endWrites) ∧
      (granted = false → x.mxeRead o = (x, o, true))) ∧
    (∀ (o : MOp) b, o.outs[o.wrote]? = some b → o.wrote < o.tiles → o.at_ (8 + o.wrote) ≤ x.cyc →
      let granted := x.free mxePort (runBanks ((b.map (·.1)).headD 0) 1)
      (granted = true → (x.mxeWrite o).1.endWrites = x.endWrites ++ b.map (fun y => (y.1, y.2, false)) ∧ (x.mxeWrite o).2.1.wrote = o.wrote + 1) ∧
      (granted = false → x.mxeWrite o = (x, o, true))) ∧
    (∀ o : MOp, o.writesTile = true → x.pieceDue o o.tiles = true →
      let k := o.tiles
      let first := tileAt pw o.md k 0
      let granted := x.free mxePort (x.pieceBanks o k)
      let r := x.mxeTile 1 o
      let P := mdP o.md
      let K := mdK o.md
      let blk := fun (g : Nat) => BitVec.ofNat 1024 (leNat (((o.rows.getD k []).drop (128 * g)).take 128))
      let col := fun (n : Nat) => o.lat.cols.getD n []
      let groups := fun (n : Nat) => List.range (min (mdGroups o.md) (col n).length)
      let gsum := fun (g : Nat) (q : List Int) =>
        ((List.range (min 32 (K - 32 * g))).map fun i => (planeInts P (blk g)).getD i 0 * q.getD i 0).foldl (fun (y : Int) z => y + z) 0
      let term := fun (n g : Nat) => match (col n)[g]? with
        | some (some y) => (Sys2Proof.Num.ofInt (gsum g y.2)).shift (((mxScale (blk g) : Int) - 127 - ((P : Int) - 2)) + y.1)
        | _ => Sys2Proof.Num.zero false
      let mma := fun (zero : Bool) (n : Nat) =>
        let acc := if zero then Sys2Proof.Num.zero false else fmtF32.decode (tileBytes o k n)
        let S := sumExact ((groups n).map (term n))
        if (List.range (mdGroups o.md)).any (fun g => mxScale (blk g) = 255) || (groups n).any (fun g => (col n)[g]? = some none) then fmtF32.nan
        else if acc.isNan then fmtF32.nan
        else if acc.isInf then tileBytes o k n
        else if S.isZero then (if zero then 0 else tileBytes o k n)
        else (fmtF32.roundTo .rne false 0 (sumExact [acc, if o.md[7].getLsbD 0 then S.flip else S])).1
      let na := ceilDiv (4 * mdM o.md) 128
      let elem := fun (xs : List (List Byte)) (i : Nat) => leNat (((xs.flatMap id).drop (4 * i)).take 4)
      let value := fun (n : Nat) => match o.kind with
        | .mma zero => mma zero n
        | .mouter _ v => if v.bad.isSome then fmtF32.nan else (v.eval (elem (o.rows.take na) k, false) (elem (o.rows.drop na) n, false)).1.1
        | _ => 0
      (granted = true → r.2.1.tiles = k + 1 ∧ r.2.2 = false ∧ ∃ ws, r.1.endWrites = x.endWrites ++ ws ∧
        (∀ y ∈ ws, first ≤ y.1 ∧ y.1 < first + 4 * mdN o.md) ∧
        ws = ((List.range (mdN o.md)).flatMap fun n => leBytes (tileAt pw o.md k n) 4 (value n)).map fun y => (y.1, y.2, false)) ∧
      (granted = false → r = (x, o, true)) ∧
      ∀ n, x.mxeTile (n + 1) o = if r.2.2 then r else r.1.mxeTile n r.2.1) ∧
    (∀ o, x.mxeReady = some o → Completes (.mxeOpComplete c) s fun t =>
      let d := t.cores[c]
      OnlyCore c s t ∧ d.pool = x.pool ∧ d.rows = x.rows ∧ d.imem = x.imem ∧ d.endWrites = x.endWrites ∧
      d.ctx.mxe.running = m.running.filter (fun y => y.order != o.order) ∧ d.ctx.mxe.ops = m.ops ∧
      ((∀ fmt, o.kind ≠ .mloadw fmt) → d.ctx.mxe.latched = m.latched) ∧
      (∀ fmt, o.kind = .mloadw fmt → d.ctx.mxe.latched.k = mdK o.md ∧ d.ctx.mxe.latched.n = mdN o.md ∧
        ∀ n g, n < mdN o.md → g < mdGroups o.md →
          let ws := weightsOf fmt (o.rows.flatMap id) (mdK o.md) (mdN o.md) g n
          let L := (d.ctx.mxe.latched.cols.getD n []).getD g none
          ((ws.2 || ws.1.any (fun v => v.isNan || v.isInf)) = true → L = none) ∧
          ((ws.2 || ws.1.any (fun v => v.isNan || v.isInf)) = false →
            (maxLog ws.1 = none → L = some (-127, ws.1.map fun _ => 0)) ∧
            ∀ e, maxLog ws.1 = some e → ∃ q, L = some (e - 14, q) ∧ q.length = ws.1.length ∧
              ∀ (k : Nat) neg mag ex, ws.1[k]? = some (.fin neg mag ex) →
                let y := min (roundMag .rne false 0 mag (ex + 14 - e) 0).1 32767
                q[k]? = some (if neg then -(y : Int) else (y : Int))))) ∧
    (∀ n w, x.arNext n = some w →
      let nr := adRows w.ad
      (x.arLandDue w = false → Completes (.arWordPerform c n) s fun t =>
        OnlyCore c s t ∧ SameMemories s t ∧ (t.cores[c]).ctx.af.groups = a.groups ∧
        ∃ w', (t.cores[c]).ctx.af.words = a.words.map (fun y => if y.order = w.order then w' else y) ∧ w'.start = some x.cyc ∧ w'.work = w.work ∧
          w'.ad = w.ad ∧
          (∀ src op ew sat imm, w.work = .arop op src ew sat imm → ∀ i, i < nr →
            w'.got[i]? = some (rowField x.rows src i) ∧ w'.got[nr + i]? = some (rowPoison x.rows src i) ∧
            w'.got[2 * nr + i]? = some (rowField x.rows w.ad i)) ∧
          ((∃ p v, w.work = .ald p v) ∨ (∃ v, w.work = .aldv v) ∨ (∃ g z k p v r bl pz, w.work = .amvm g z k p v r bl pz) → ∀ i, i < nr →
            w'.got[i]? = some (rowField x.rows w.ad i) ∧ w'.got[nr + i]? = some (rowPoison x.rows w.ad i))) ∧
      (x.arLandDue w = true →
        let gone := fun (t : State) => (t.cores[c]).ctx.af.words = a.words.filter fun y => y.order != w.order
        (∀ v, w.work = .astv v → Completes (.arWordPerform c n) s fun t => OnlyCore c s t ∧ (t.cores[c]).rows = writeRegion x.rows w.ad v.toNat ∧
          (t.cores[c]).pool = x.pool ∧ gone t) ∧
        (∀ p v bs, w.work = .ast p v (some bs) → Completes (.arWordPerform c n) s fun t => OnlyCore c s t ∧
          (t.cores[c]).rows = writeRegion x.rows w.ad (leNat bs) ∧ (t.cores[c]).pool = x.pool ∧ gone t) ∧
        (∀ op src ew sat imm, w.work = .arop op src ew sat imm → Completes (.arWordPerform c n) s fun t => OnlyCore c s t ∧
          (t.cores[c]).pool = x.pool ∧ gone t ∧
          let bits := arBits ew
          let at_ := fun (row m : Nat) => row / 2 ^ (bits * m) % 2 ^ bits
          let elem := fun (i m : Nat) =>
            let l := signed bits (at_ (w.got.getD i 0) m)
            let r := signed bits (at_ (w.got.getD (2 * nr + i) 0) m)
            let v : Int := match op with
              | .add => r + l | .sub => r - l | .shl => l * 2 ^ imm | .sar => l / 2 ^ imm
              | .max => max r l | .min => min r l | .copy => l | .zero => 0
            let low : Int := -(2 ^ (bits - 1))
            intBits bits (if sat then min (max v low) (-low - 1) else v)
          ∃ bad : Nat → List Nat, (op = .zero → ∀ i, bad i = []) ∧
            (∀ i, (∀ m, m < adCols w.ad / bits → at_ (w.got.getD (nr + i) 0) m = 0) → bad i = []) ∧
            (t.cores[c]).rows = (List.range nr).foldl (fun rows i =>
              writeRow rows (adRowAt w.ad i) (adCol w.ad) (adCols w.ad) (packNat bits ((List.range (adCols w.ad / bits)).map (elem i))) (bad i)) x.rows) ∧
        (∀ p v, w.work = .ald p v → x.free afPort [bankOf v p] = true → Completes (.arWordPerform c n) s fun t => OnlyCore c s t ∧ SameMemories s t ∧
          (∃ z, (t.cores[c]).endWrites = x.endWrites ++
            (leBytes p (adBits w.ad / 8) (streamOf (w.got.take nr) (adCols w.ad))).map fun y => (y.1, y.2, z)) ∧ gone t) ∧
        (∀ v, w.work = .aldv v → Completes (.arWordPerform c n) s fun t => OnlyCore c s t ∧ SameMemories s t ∧ gone t ∧
          ∃ f, (t.cores[c]).flights = x.flights ++ [f] ∧ f.reg = .v v ∧ f.due = x.cyc ∧ f.mask = lowMask (adBits w.ad) ∧
            f.val = BitVec.ofNat 2048 (streamOf (w.got.take nr) (adCols w.ad))) ∧
        (∀ v g part toI32, w.work = .aacc v g part toI32 → Completes (.arWordPerform c n) s fun t => OnlyCore c s t ∧ SameMemories s t ∧ gone t ∧
          (t.cores[c]).ctx.af.groups = a.groups ∧
          let G := a.groups[g.toNat]
          let elem := fun (i : Nat) =>
            let k := 32 * part.toNat + i
            if G.poison.getLsbD k || G.nan.getLsbD k then (if toI32 then 0 else 0x7FC00000)
            else match G.x with
              | none => 0
              | some e =>
                let v := (Sys2Proof.Num.ofInt (G.s.toArray.getD k 0)).shift e
                if toI32 then intBits 32 (roundInt 32 .rne true 0 v).1 else (fmtF32.roundTo .rne false 0 v).1
          ∃ f, (t.cores[c]).flights = x.flights ++ [f] ∧ f.reg = .v v ∧ f.due = x.cyc ∧ f.mask = lowMask 1024 ∧
            f.val = BitVec.ofNat 2048 (packNat 32 ((List.range 32).map elem))) ∧
        (∀ g z P p v r bl pz, w.work = .amvm g z P p v r bl pz → Completes (.arWordPerform c n) s fun t => OnlyCore c s t ∧ SameMemories s t ∧ gone t ∧
          (∀ j, j ≠ g → (t.cores[c]).ctx.af.groups[j.toNat] = a.groups[j.toNat]) ∧
          let ww := w.ad[5].toNat
          let N := adCols w.ad / ww
          let G := if z then AccGroup.clear else a.groups[g.toNat]
          let blk := fun (b : List Byte) => BitVec.ofNat 1024 (leNat b)
          let T := fun (b : List Byte) (j n : Nat) => ((List.range (min 32 (nr - 32 * j))).map fun k =>
            (planeInts P (blk b)).getD k 0 * signed ww (w.got.getD (32 * j + k) 0 / 2 ^ (n * ww) % 2 ^ ww)).foldl (fun (y : Int) q => y + q) 0
          let want := bl.zipIdx.foldl (fun (acc : AccGroup) y =>
            if mxScale (blk y.1) = 255 then { acc with nan := acc.nan ||| firstN N }
            else if mxScale (blk y.1) = 0 then acc
            else (acc.contribute ((List.range N).map (T y.1 y.2)) ((mxScale (blk y.1) : Int) - 127 - ((P : Int) - 2))).1)
            { G with arrays := (adArr w.ad :: G.arrays).eraseDups }
          ∃ pois, (t.cores[c]).ctx.af.groups[g.toNat] = { want with poison := want.poison ||| pois } ∧ (pz = true → pois ||| firstN N = pois)))) ∧
    (∀ (G : AccGroup) (T : List Int) (e : Int), (T.all fun y => y = 0) = true → (G.contribute T e).1 = G) ∧
    (∀ (G : AccGroup) (T : List Int) (e : Int), (T.all fun y => y = 0) = false →
      let old := G.x.getD e
      let low := min old e
      (G.contribute T e).1 = { G with
        x := some low
        s := Vector.ofFn fun (i : Fin 128) =>
          min (max (G.s[i] * 2 ^ (old - low).toNat + T.getD i.val 0 * 2 ^ (e - low).toNat) (-(2 ^ 47))) (2 ^ 47 - 1) }) ∧
    (∀ array b, x.afNext array = some b →
      (x.afDue b = false → Completes (.afBlockPerform c array) s fun t =>
        ∃ busy, Makes c s t { x with weight := x.weight + 1, ctx := { x.ctx with af := { a with
          busy := busy, active := a.active.map fun y => if y.id = b.id then { y with at_ := some (x.cyc + 1) } else y } } }) ∧
      (∀ bs, x.afDue b = true → b.bytes = some bs → Completes (.afBlockPerform c array) s fun t => OnlyCore c s t ∧
        (t.cores[c]).rows = writeAfBytes x.rows bs b.poison ∧ (t.cores[c]).pool = x.pool ∧
        (t.cores[c]).ctx.af.active = a.active.filter fun y => y.id != b.id) ∧
      (x.afDue b = true → b.bytes = none → Completes (.afBlockPerform c array) s fun t => OnlyCore c s t ∧ SameMemories s t ∧
        (t.cores[c]).ctx.af.active = a.active.filter fun y => y.id != b.id))

-- events of the package's units

/-- R181, R267, R268, R271, R282, R318, R323, R357, R358, R363, R365, R284–R291, R296, R297: a request is performed at its memory: a read brings that
memory's bytes, a write changes its bytes and no other (and the park copy of a row that has one), a credit reaches its word, and with a PHASE's the
level's DOM comes into force. A write into lines that a host agent holds waits until they have been taken back, for a time that the spec leaves open
(logs 6 and 104, the model's choices), and one into a table in use is discarded with kind 2. A walk's leaf is then held by the core that asked and
taken by the entry that waits for it. A peer's block is discarded under an aborted tag, counted and discarded where its check fails, and otherwise
written into the receiver's pool and credited. A reduction's contribution is combined with what stands at its block (for a poisoned element there, and
for one that lies in two blocks, log 99, the model's choice), held until its turn, or discarded, its source queue halted with cause 6 where its entry
still stands at the head (log 61, the model's reading). An atomic is one read and write of its location, with the new value and the answer of R287 and
R289; a location with an uncorrectable error is left as it is. -/
def Obligations.ElsewhereEvents : Prop :=
  ∀ (s : State),
    (∀ n r, s.reqOf n = some r → remoteDue s n = true →
      let kept := s.reqs.filter fun y => y.id != r.id
      let done := s.reqs.map fun y => if y.id = r.id then { y with data := some ([], false) } else y
      let queueHalts := fun (t : State) (cause : BitVec 8) =>
        ∀ e, (s.cores[coreIx r.core]).head (BitVec.ofNat 3 r.queue) = some e → e.order = r.order → (s.cores[coreIx r.core]).ended = false →
          ((s.cores[coreIx r.core]).rq (BitVec.ofNat 3 r.queue)).halted = false →
          ((t.cores[coreIx r.core]).rq (BitVec.ofNat 3 r.queue)).halted = true ∧ ((t.cores[coreIx r.core]).rq (BitVec.ofNat 3 r.queue)).cause = cause
      (∀ len, r.kind = .read len → (s.cores[coreIx r.core]).entryFed r.queue r.order = false → Completes (.remoteAccessPerform n) s fun t =>
        SameMemories s t ∧ t.reqs = s.reqs.map fun y => if y.id = r.id then { y with
          data := some (s.getPlace r.at_ r.at_.addr len)
          back := (match r.at_ with
            | .sye _ _ _ => r.back + (s.now - r.due)
            | .hbm k a => max r.back (s.mcNow + s.laneCycles (stackIx k) a false len)
            | _ => max r.back s.now) } else y) ∧
      (r.writes = true → s.hostHolds r.at_ r.span = true → Completes (.remoteAccessPerform n) s fun t =>
        SameMemories s t ∧ t.hostHolds r.at_ r.span = false ∧
        t.reqs = s.reqs.map fun y => if y.id = r.id then { y with due := s.clockOf r.at_ + 1 + Config.freeDelay s.draws } else y) ∧
      (∀ bs pz late a, r.kind = .write bs pz late none → r.at_ = .host a → Completes (.remoteAccessPerform n) s fun t =>
        t = { s with host := s.host.writeAll bs pz, reqs := done, touched := t.touched }) ∧
      (∀ bs pz late k a, r.kind = .write bs pz late none → r.at_ = .hbm k a → s.hostHolds r.at_ r.span = false →
        Completes (.remoteAccessPerform n) s fun t => t.reqs = done ∧ t.cores = s.cores ∧ t.dies = s.dies ∧ t.host = s.host ∧
          (∀ j : StackId, j ≠ stackIx k → t.hbms[j] = s.hbms[j]) ∧
          (t.hbms[stackIx k]).bytes = ((s.hbms[stackIx k]).write bs pz).bytes) ∧
      (∀ bs pz late k a, r.kind = .write bs pz late none → r.at_ = .pool k a → Completes (.remoteAccessPerform n) s fun t =>
        t.reqs = done ∧ OnlyCore (coreIx k) { s with reqs := done } t ∧ SameMemories s t ∧
        (t.cores[coreIx k]).endWrites = (s.cores[coreIx k]).endWrites ++ bs.map fun y => (y.1, y.2, pz)) ∧
      (∀ bs pz late j b k a, r.kind = .write bs pz late (some (.pool k a)) → r.at_ = .hbm j b → s.hostHolds r.at_ r.span = false →
        Completes (.remoteAccessPerform n) s fun t => t.reqs = done ∧
          (t.hbms[stackIx j]).bytes = ((s.hbms[stackIx j]).write bs pz).bytes ∧
          (t.cores[coreIx k]).credits = (s.cores[coreIx k]).credits ++ [(a, bs.length, pz, late)]) ∧
      (∀ bs pz late credit, r.kind = .write bs pz late credit → s.tableUsed r.at_ = true → Completes (.remoteAccessPerform n) s fun t =>
        t.reqs = kept ∧ SameMemories s t ∧ queueHalts t 3) ∧
      (∀ L k a, r.kind = .credit L → r.at_ = .pool k a → Completes (.remoteAccessPerform n) s fun t =>
        let x := (s.cores[coreIx r.core]).ctx
        t = { s with reqs := done, cores := t.cores } ∧ SameMemories s t ∧
        (∀ c : CoreId, c ≠ coreIx k → c ≠ coreIx r.core → t.cores[c] = s.cores[c]) ∧
        (t.cores[coreIx k]).credits = (s.cores[coreIx k]).credits ++ [(a, 1, false, false)] ∧
        (t.cores[coreIx r.core]).ctx = { x with domIn := setAt x.domIn L (getAt x.spr.dom L) })) ∧
    (∀ (d : DieId) c q page due, walkReady s d = some (c, q, page, due) → Completes (.translationWalk d) s fun t =>
      let x := t.cores[coreIx c]
      SameMemories s t ∧ (t.dies[d]).walks = (s.dies[d]).walks.filter (fun y => y != (c, q, page, due)) ∧
      cacheGet (if q = 8 then x.tlb else x.ceTlb) page = some (s.walk (coreIx c) page) ∧
      (if q = 8 then x.ceTlb = (s.cores[coreIx c]).ceTlb else x.tlb = (s.cores[coreIx c]).tlb) ∧
      ∀ e, q ≠ 8 → (s.cores[coreIx c]).head (BitVec.ofNat 3 q) = some e → e.began = none →
        x.head (BitVec.ofNat 3 q) = some (e.translate [(page, s.walk (coreIx c) page)])) ∧
    (∀ port b, recvReady s port = some b →
      let c := coreIx b.core
      let gone := s.updPort port fun y => { y with recv := dropBlock b y.recv }
      (BitVec.ofNat 8 b.tag ∈ s.aborted → Completes (.receiveBlockApply port) s fun t => t = gone) ∧
      (BitVec.ofNat 8 b.tag ∉ s.aborted → blockOk s port b = false → Completes (.receiveBlockApply port) s fun t =>
        t = gone.updPort port fun y => { y with baddst := if y.baddst = 0xFF then 0xFF else y.baddst + 1 }) ∧
      (BitVec.ofNat 8 b.tag ∉ s.aborted → BitVec.ofNat 8 b.tag ∉ s.spoiled → blockOk s port b = true → b.op = none → b.verb = [] →
        Completes (.receiveBlockApply port) s fun t => SameMemories s t ∧ t.dies = gone.dies ∧ (∀ d : CoreId, d ≠ c → t.cores[d] = s.cores[d]) ∧
          (t.cores[c]).endWrites = (s.cores[c]).endWrites ++ (b.bytes.zipIdx.map fun y => (b.addr + y.2, y.1, b.poison)) ∧
          (t.cores[c]).credits = (s.cores[c]).credits ++
            (match b.credit with | some w => [(w, b.bytes.length, b.poison, false)] | none => []))) ∧
    (∀ n r op bs k cnt ph, s.reqOf n = some r → redDue s n = true → r.kind = .red op bs false k cnt ph none →
      let kept := s.reqs.filter fun y => y.id != r.id
      (∀ j a, redFate s r = .apply → r.at_ = .hbm j a → s.hostHolds r.at_ r.span = false → Completes (.reductionContribution n) s fun t =>
        let old := (s.hbms[stackIx j]).bytes
        let es := 2 ^ (redCodes op).1
        let new := (redBytes op ph (fun a => Config.freeByte (s.draws + a % 128)) (fun b => (old.bytes b es, old.tainted b es)) bs).1
        let part := fun (z : Bool) => (new.filter fun b => b.2.2 == z).map fun b => (b.1, b.2.1)
        t.reqs = (s.reqs.map fun y => if y.id = r.id then { y with data := some ([], false) } else y) ∧ t.ords = ordNext s r ∧
        let M := s.hbms[stackIx j]
        let M := if part false = [] then M else M.write (part false) false
        (t.hbms[stackIx j]).bytes = (if part true = [] then M else M.write (part true) true).bytes) ∧
      (redFate s r = .hold → Completes (.reductionContribution n) s fun t =>
        t = { s with reqs := s.reqs.map fun y => if y.id = n then { y with held := true } else y }) ∧
      (redFate s r = .discard → Completes (.reductionContribution n) s fun t =>
        t.reqs = kept ∧ OnlyCore (coreIx r.core) { s with reqs := kept } t ∧ SameMemories s t ∧
        (∀ e, (s.cores[coreIx r.core]).head (BitVec.ofNat 3 r.queue) = some e → e.order = r.order → (s.cores[coreIx r.core]).ended = false →
          ((t.cores[coreIx r.core]).rq (BitVec.ofNat 3 r.queue)).halted = true ∧ ((t.cores[coreIx r.core]).rq (BitVec.ofNat 3 r.queue)).cause = 6))) ∧
    (∀ (d : DieId) bank a, atomReady s d bank = some a → Completes (.atomicPerform d bank) s fun t =>
      let n := if a.wide then 8 else 4
      let b := a.operand.toNat % 2 ^ (8 * n)
      let mem := fun (u : State) => if a.ovf then (u.dies[d]).ovf else (u.dies[d]).sram
      let old := leNat ((mem s).bytes a.addr n)
      let bad := (mem s).tainted (a.addr / 8 * 8) 8
      let sext := (BitVec.ofNat 32 old).signExtend 64
      ∃ new ans kinds,
        OnlyDie d { s with atoms := t.atoms } t ∧ t.atoms = s.atoms.map (fun y =>
          if y = a then { y with resp := some ((s.cores[coreIx a.core]).cyc + a.back, ans, kinds) } else y) ∧
        (bad = true → mem t = mem s ∧ ans = BitVec.ofNat 64 old ∧ kinds = 0x100) ∧
        (bad = false → mem t = (mem s).writeAll (leBytes a.addr n new) false ∧
          (a.op = none → new = (if old = a.cmp.toNat % 2 ^ (8 * n) then b else old) ∧ ans = BitVec.ofNat 64 old ∧ kinds = 0) ∧
          (a.op = some .addI32 → new = (old + b) % 2 ^ 32 ∧ ans = sext ∧ kinds = 0) ∧
          (a.op = some .addI64 → new = (old + b) % 2 ^ 64 ∧ ans = BitVec.ofNat 64 old ∧ kinds = 0) ∧
          (a.op = some .and → new = old &&& b ∧ ans = BitVec.ofNat 64 old) ∧ (a.op = some .or → new = old ||| b ∧ ans = BitVec.ofNat 64 old) ∧
          (a.op = some .xor → new = old ^^^ b ∧ ans = BitVec.ofNat 64 old) ∧
          (a.op = some .minI32 → new = (if signed 32 b < signed 32 old then b else old) ∧ ans = sext ∧ kinds = 0) ∧
          (a.op = some .maxI32 → new = (if signed 32 old < signed 32 b then b else old) ∧ ans = sext ∧ kinds = 0) ∧
          (a.op = some .minu → new = min old b ∧ ans = BitVec.ofNat 64 old) ∧ (a.op = some .maxu → new = max old b ∧ ans = BitVec.ofNat 64 old) ∧
          (a.op = some .swap32 ∨ a.op = some .swap64 → new = b ∧ ans = BitVec.ofNat 64 old ∧ kinds = 0) ∧
          (a.op = some .faddF32 → (new, kinds) = fmtF32.add old b ∧ ans = BitVec.ofNat 64 old)))

/-- R301, R302, R307–R309, R315–R319, R321, R362: a window opens: with its entry staged in time it is sent, one block for each staged one, each with its
arrival tick; without an entry it is missed; staged too late it ends its round. A round whose windows have opened and whose sends have ended is
over. A peer's block enters the port's buffer, poisoned where a flit of it was, or, where that is full, ends its round, whose destination bytes are then
free values, those that blocks had reached and those of transfers still waiting (log 60, the model's reading); so do a notice and, for every round that
uses it at either end, a failed port: its windows here, the transfers that came in over it, and the tags that the event carries (log 106, the model's
choice, as is what training tells of the far end). Reading a port's status clears its counters alone. A stamp within two ticks of an LE's count moves
the count of that LE, of those that can get none, and of every core of their dies forward to it, or holds each for two ticks at most, never back, and
leaves the package's own count (log 33, the model's choice); one further off takes its port out of service. An LE's count corrects one core. A failed
link drops the requests that have to cross it and answers its atomics with poison. -/
def Obligations.LinkEvents : Prop :=
  ∀ (s : State),
    (∀ (d : DieId) n r k, windowDue s d n = true → s.windowAt d n = some (r, k) →
      let t0 := r.opens k
      let w := (r.wins[k]?).getD ⟨0, 0, 0, 0, 0⟩
      let port := 6 * d.val + w.port
      let lat := ((s.dies[d]).ports.toArray.getD w.port Port.reset).linklat.toNat
      (s.windowEntry d r k = none → Completes (.timetableWindowOpen d n) s fun t => MakesDie d s t { s.dies[d] with
        rounds := (s.dies[d]).rounds.map fun y => if y.ident = r.ident then { y with opened := k :: y.opened } else y }) ∧
      (∀ c q e, s.windowEntry d r k = some (c, q, e) → (∀ T, e.stagedAt = some T → t0 + r.slack < T) → Completes (.timetableWindowOpen d n) s fun t =>
        RoundEnds s t r.tag 3 k q.toNat) ∧
      (∀ c q e T, s.windowEntry d r k = some (c, q, e) → e.stagedAt = some T → T ≤ t0 + r.slack → Completes (.timetableWindowOpen d n) s fun t =>
        SameMemories s t ∧ ∃ bs : List (Nat × PeerBlock), t.sent = s.sent ++ bs ∧ (∀ y ∈ bs, y.1 = port ∧ y.2.tag = e.tagNo) ∧
          (bs.map fun y => y.2.arrival) = (e.staged.map fun b => t0 + r.slack + lat + ceilDiv b.stop 210) ∧
          ∃ stop, t0 + ceilDiv w.len 210 ≤ stop ∧ stop ≤ t0 + r.slack + ceilDiv w.len 210 ∧
            ((t.cores[c]).rq q).entries.head? = some { e with sendEnd := some stop })) ∧
    (∀ (d : DieId) n, roundEndDue s d n = true → Completes (.roundEnd d n) s fun t =>
      MakesDie d { s with landed := t.landed } t { s.dies[d] with rounds := (s.dies[d]).rounds.eraseIdx n } ∧ ∀ x ∈ t.landed, x ∈ s.landed) ∧
    (∀ port b fecc unc tag, (s.port port).state = 2 →
      (((s.port port).recv.map fun y => y.bytes.length).sum + b.bytes.length ≤ 524288 → Completes (.peerBlockArrival port ⟨b, fecc, unc⟩) s fun t =>
        t = s.updPort port fun y => { y with
          fecc := BitVec.ofNat 16 (min 0xFFFF (y.fecc.toNat + fecc)), unc := BitVec.ofNat 8 (min 0xFF (y.unc.toNat + unc))
          recv := y.recv ++ [{ b with poison := b.poison || unc != 0 }] }) ∧
      (524288 < ((s.port port).recv.map fun y => y.bytes.length).sum + b.bytes.length → Completes (.peerBlockArrival port ⟨b, fecc, unc⟩) s fun t =>
        RoundEnds s t (BitVec.ofNat 8 b.tag) 6 0xFF 0) ∧
      (Completes (.roundAbortNotice port tag) s fun t => RoundEnds s t tag 4 0xFF 0)) ∧
    (∀ port tags lat id member far,
      ((s.port port).state = 1 ∨ (s.port port).state = 2 → Completes (.portFailure ⟨port, tags⟩) s fun t =>
        t.host = s.host ∧ (∀ k : StackId, (t.hbms[k]).bytes = (s.hbms[k]).bytes) ∧ (t.port port).state = 3 ∧ (t.port port).aln = false ∧
        (∀ r ∈ (t.dies[portDie port]).rounds, ∀ w ∈ r.wins, w.port ≠ (portNo port).val) ∧
        ∀ d : DieId, ∀ r ∈ (t.dies[d]).rounds, r ∈ (s.dies[d]).rounds ∧ r.tag ∉ tags ∧ r.tag ∉ s.tagsFrom port) ∧
      ((s.port port).state = 1 ∨ (s.port port).state = 3 → Completes (.portRetraining port ⟨lat, id, member, far⟩) s fun t =>
        t = s.updPort port fun y => { y with state := 2, aln := true, linklat := lat, peerid := some id, peermem := member, peerport := far }) ∧
      (Completes (.portStatusRead port) s fun t => t = s.updPort port fun y => { y with fecc := 0, unc := 0, baddst := 0 })) ∧
    (∀ (c : CoreId) stamp, stampDue s c stamp = true →
      let d := dieOf c
      let n := stamp.count.toNat
      let counts := fun (t : State) (k : CoreId) => t.gcnt = s.gcnt ∧ ((s.coreGcnt k).toNat ≤ n → t.coreGcnt k = stamp.count) ∧
        (n < (s.coreGcnt k).toNat → t.coreGcnt k = s.coreGcnt k ∧ (t.cores[k]).ghold = min ((s.coreGcnt k).toNat - n) 2)
      (stamp.port = none → Completes (.counterStamp c stamp) s fun t =>
        OnlyCore c s t ∧ SameMemories s t ∧ (t.cores[c]).aligned = true ∧ (t.cores[c]).alignAsk = false ∧ counts t c) ∧
      (∀ p, stamp.port = some p → n ≤ s.leGcnt d + 2 → s.leGcnt d ≤ n + 2 → Completes (.counterStamp c stamp) s fun t => SameMemories s t ∧
        (t.dies[d]).aligned = true ∧ (∀ k, s.follows d (dieOf k) = true → counts t k) ∧
        (∀ k, s.follows d (dieOf k) = false → t.cores[k] = s.cores[k]) ∧ (∀ e, s.follows d e = false → t.dies[e] = s.dies[e]) ∧
        ∀ e, s.follows d e = true → (t.dies[e]).aligned = true ∧
          (s.leGcnt e ≤ n → (t.dies[e]).lskew = (s.dies[e]).lskew + ((n : Int) - (s.leGcnt e : Int))) ∧
          (n < s.leGcnt e → (t.dies[e]).lskew = (s.dies[e]).lskew ∧ (t.dies[e]).lhold = min (s.leGcnt e - n) 2)) ∧
      (∀ p, stamp.port = some p → s.leGcnt d + 2 < n ∨ n + 2 < s.leGcnt d → Completes (.counterStamp c stamp) s fun t =>
        ((t.dies[d]).ports[p]).state = 3 ∧ t.gcnt = s.gcnt ∧ (∀ e : DieId, (t.dies[e]).lskew = (s.dies[e]).lskew) ∧
        (∀ k : CoreId, (t.cores[k]).gskew = (s.cores[k]).gskew) ∧ ∀ r ∈ (t.dies[d]).rounds, ∀ w ∈ r.wins, w.port ≠ p.val)) ∧
    (∀ a b : DieId, Completes (.d2dLinkFailure a b) s fun t =>
      SameMemories s t ∧ t.badLinks = s.badLinks ++ [(a.val, b.val)] ∧
      (∀ r ∈ t.reqs, r ∈ s.reqs ∧ (r.data = none → crosses a.val b.val r.core r.at_ = false)) ∧
      ∀ m ∈ t.atoms, crosses a.val b.val m.core (.sye m.die m.ovf m.addr) = true → m.resp ≠ none)

/-- R303, R326–R339: a member's periodic post carries its limit, epoch and its own tick of the period, and leaves where a port is trained. A ripe
notice below the ceiling begins a handshake of 2,048 ticks toward its code, one that is not below begins none; at the handshake's end the ceiling is
the new code and every core's CCNT has counted the cycles it took. At a raise window the ceiling may rise to the least limit posted, never while a
notice is pending. Members silent for TSIL are dropped: the rounds end, and every core with a task is to take the group-lost trap. Posts are taken of
members, and of a joiner under its number for the time when it is one; a JOIN whose values differ from the group's is refused, and of those that take
one the lowest-numbered member linked to the joiner sends the GRANT. Joining and leaving go through JOINING and LEAVING; a third failed try leaves the
package DETACHED. What a JOIN carries, the package's name among it, the number it takes and the joiner's post that tells the members of its GRANT are
the model's choices (logs 12 and 100). A sample below the code the member is bound for posts a lowering notice at its effect tick. -/
def Obligations.ConfluenceEvents : Prop :=
  ∀ (s : State),
    let g := s.pmc.cfl
    let now := s.gcnt.toNat
    let W := now / 1000000 * 1000000
    let posts := fun (t : State) (tick : Nat) (notice : Option (Nat × Nat)) (join : Option Join) (leave : Bool) =>
      t.posted = if s.linked then s.posted ++ [⟨g.self, g.epoch.toNat, g.limit, tick, notice, join, leave⟩] else s.posted
    (postDue s = true → isJoining g = false → Completes .confluencePost s fun t =>
      let slot := (now - 10 * g.self) / 10000 * 10000 + 10 * g.self
      10 * g.self ≤ now ∧ posts t slot none none false ∧ t = { s with posted := t.posted, pmc := { s.pmc with cfl := t.pmc.cfl } } ∧
      t.pmc.cfl.lastPost = slot) ∧
    (postDue s = true → isJoining g = true → Completes .confluencePost s fun t =>
      posts t now none none false ∧ t = { s with posted := t.posted, pmc := { s.pmc with cfl := t.pmc.cfl } } ∧ t.pmc.cfl.said = true) ∧
    (∀ code T, s.shake = none → g.ripe now = [(code, T)] → Completes .clockChangeEffect s fun t => SameMemories s t ∧
      (code < s.ceiling → t.shake = some (T + 2048, code) ∧ t.ceiling = s.ceiling) ∧
      (s.ceiling ≤ code → t.shake = none ∧ t.dies = s.dies ∧ t.cores = s.cores) ∧ t.pmc.cfl.lastEff = T ∧
      t.pmc.cfl.notices = g.notices.filter fun n => now < n.2 + 2048) ∧
    (∀ T code, s.shake = some (T, code) → T ≤ now → Completes .handshakeEnd s fun t =>
      let n := BitVec.ofNat 64 (2048 * (2400 + 100 * s.ceiling) / 8000)
      t.shake = none ∧ t.ceiling = code ∧ SameMemories s t ∧
      ∀ c : CoreId, (t.cores[c]).ccnt = (s.cores[c]).ccnt + n ∧
        (t.cores[c]).ctx.spr.frzcnt = (s.cores[c]).ctx.spr.frzcnt + if (s.cores[c]).run = .idle then 0 else n) ∧
    (raiseDue s = true → isMember g = true → g.state ≠ 3 → g.joiners = [] → g.leavers = [] → s.ceiling ≤ 72 → s.shake = none →
      Completes .raiseWindow s fun t => t.pmc.cfl.lastWin = now / 1000000 ∧ t.ceiling = s.ceiling ∧ t.pmc.cfl.members = g.members ∧
        t.pmc.cfl.epoch = g.epoch ∧ SameMemories s t ∧
        (∀ n ∈ g.notices, W < n.2 + 2048 → t.shake = none) ∧ (raiseCode g W = none → t.shake = none) ∧
        ∀ code, raiseCode g W = some code → (∀ n ∈ g.notices, n.2 + 2048 ≤ W) →
          t.shake = if s.ceiling < code then some (W + 2048, code) else none) ∧
    (∀ T, isMember g = true → firstLoss s = some T → Completes .memberLost s fun t =>
      (∀ d : DieId, (t.dies[d]).rounds = []) ∧ t.pmc.cfl.members = g.members.filter (fun y => lossTick s.pmc y != T) ∧
      t.pmc.cfl.epoch = g.epoch + 1 ∧ (t.pmc.cfl.members = [] → t.pmc.cfl.state = 2) ∧ t.host = s.host ∧ (∀ k : StackId, (t.hbms[k]).bytes = (s.hbms[k]).bytes) ∧
      (∀ m p, (g.members.filter fun y => lossTick s.pmc y = T) = [(m, p)] → t.pmc.cfl.lostCnt = g.lostCnt + 1 ∧
        ∀ c : CoreId, (t.cores[c]).itraps = (s.cores[c]).itraps ++ if (s.cores[c]).run = .idle then [] else
          [⟨0x0E, BitVec.ofNat 64 T, BitVec.ofNat 64 (2 ^ m), none, none⟩])) ∧
    (joinLate s = true →
      (g.joinTry < 3 → Completes .joinTimeout s fun t => t.pmc.cfl.state = 1 ∧ t.pmc.cfl.joinTry = g.joinTry + 1 ∧ t.pmc.cfl.joinAt = some now ∧
        (let join : Join := ⟨fld s.pmc.cflcfg 63 56, fld s.pmc.cflcfg 55 42, fld s.pmc.cflcfg 41 32, Config.packageId, s.peers⟩
         t.posted = if s.linked then s.posted ++ [⟨g.self, g.epoch.toNat, g.found, now, none, some join, false⟩] else s.posted) ∧ t.host = s.host) ∧
      (3 ≤ g.joinTry → Completes .joinTimeout s fun t => t.pmc.cfl.state = 0 ∧ t.pmc.cfl.joinAt = none ∧ t.cores = s.cores)) ∧
    (∀ p : Post, p.member ≠ g.self ∨ p.join ≠ none →
      let taken := { s with posted := s.posted ++ [p] }
      (p ∈ s.posted → Completes (.postReceived p) s fun t => t = s) ∧
      (p ∉ s.posted → p.join = none → isMember g = false → g.granted = none → Completes (.postReceived p) s fun t => t = taken) ∧
      (∀ q, p ∉ s.posted → p.join = none → isMember g = true → (g.members.find? fun m => m.1 = p.member) = some (p.member, q) →
        (p.epoch < q.epoch → p.epoch + 32768 ≥ q.epoch → Completes (.postReceived p) s fun t => t = taken) ∧
        (q.epoch ≤ p.epoch → Completes (.postReceived p) s fun t =>
          t = { taken with pmc := { s.pmc with cfl := t.pmc.cfl } } ∧ t.pmc.cfl.notices = p.notice.toList ++ g.notices ∧
          (p.leave = true → p.member ∈ t.pmc.cfl.leavers) ∧
          (q.tick < p.tick → ∀ m ∈ t.pmc.cfl.members, m.1 = p.member → m.2 = p))) ∧
      (p ∉ s.posted → p.join = none → isMember g = true → (g.members.find? fun m => m.1 = p.member) = none → Completes (.postReceived p) s fun t =>
        t = { taken with pmc := { s.pmc with cfl := { g with joiners := t.pmc.cfl.joiners } } } ∧
        ∀ j ∈ g.joiners, j.number = p.member → ∃ x ∈ t.pmc.cfl.joiners, x.join = j.join ∧ x.number = j.number ∧ x.ready = true ∧ x.limit = p.limit ∧
          p ∈ x.posts ∧ ∀ n, p.notice = some n → n ∈ x.notices) ∧
      (∀ j, p ∉ s.posted → p.join = some j →
        (j.group ≠ fld s.pmc.cflcfg 63 56 ∨ j.tsil ≠ s.pmc.tsil ∨ 1000 * j.lead ≠ s.pmc.leadTicks →
          Completes (.postReceived p) s fun t => t = taken) ∧
        (∀ n, g.freeNumber j.joiner = some n → isMember g = true → j.group = fld s.pmc.cflcfg 63 56 → j.tsil = s.pmc.tsil →
          1000 * j.lead = s.pmc.leadTicks → Completes (.postReceived p) s fun t =>
            ∃ x ∈ t.pmc.cfl.joiners, x.join = j ∧ x.limit = p.limit ∧ x.tick = now ∧
              t.grants = if (j.linked.filter (g.self :: g.members.map (·.1)).contains).min? = some g.self then
                s.grants ++ [⟨j.joiner, s.ceiling, g.epoch.toNat, x.number, now⟩] else s.grants))) ∧
    (∀ v : Word,
      let keeps := fun (t : State) => fld t.pmc.cflcfg 31 25 = min 72 (fld v 31 25) ∧ fld t.pmc.cflcfg 24 18 = min 72 (fld s.pmc.cflcfg 24 18) ∧
        (g.state ≠ 0 → fld t.pmc.cflcfg 55 42 = fld s.pmc.cflcfg 55 42 ∧ fld t.pmc.cflcfg 41 32 = fld s.pmc.cflcfg 41 32) ∧
        (g.state = 0 → fld t.pmc.cflcfg 55 42 = max 20 (min 10000 (fld v 55 42)) ∧ fld t.pmc.cflcfg 41 32 = max 50 (min 1000 (fld v 41 32)))
      let next := if v.getLsbD 0 = true ∧ g.state = 0 then 1 else if v.getLsbD 1 = true ∧ g.state = 2 then 3 else g.state
      (v.getLsbD 0 = true → Completes (.cflcfgJoin v) s fun t => keeps t ∧ SameMemories s t ∧ t.pmc.cfl.state = next) ∧
      (v.getLsbD 1 = true → Completes (.cflcfgLeave v) s fun t => keeps t ∧ SameMemories s t ∧ t.pmc.cfl.state = next)) ∧
    (∀ code epoch member stamp ms, g.state = 1 → Completes (.grantReceived code epoch member stamp ms) s fun t =>
      t.gcnt.toNat = max now stamp.toNat ∧ t.shake = some (t.gcnt.toNat + 2048, min code g.limit) ∧ t.pmc.cfl.self = member % 64 ∧
      t.pmc.cfl.epoch = BitVec.ofNat 16 epoch ∧ t.pmc.cfl.granted = some t.gcnt.toNat ∧ t.ceiling = s.ceiling ∧ SameMemories s t ∧
      (∀ c : CoreId, (t.cores[c]).aligned = false) ∧ ∀ d : DieId, (t.dies[d]).aligned = false) ∧
    (∀ x : Sensors, s.pmc.nextSample ≤ now → Completes (.sensorSample x) s fun t =>
      let L := localLimit s.pmc s.ceiling x (newSuspects s.pmc ((x :: s.pmc.samples).take 8)).1
      t.pmc.samples = (x :: s.pmc.samples).take 8 ∧ t.pmc.nextSample = (now / 10000 + 1) * 10000 ∧ t.ceiling = s.ceiling ∧ t.shake = s.shake ∧
      (∀ c : CoreId, (t.cores[c]).ctx = (s.cores[c]).ctx ∧ (t.cores[c]).pool = (s.cores[c]).pool) ∧
      (L < g.bound → posts t now (some (L, (now + s.pmc.leadTicks + 4095) / 4096 * 4096)) none false))

-- events of tasks and of the host

/-- R343–R356, R360, R368, R77: LAUNCH goes through its table entry by entry, in one move (log 66, the model's choice): an entry with V = 0 is skipped, a
refused one posts its reason, any other enters its core's queue. A task starts with the registers, the position and the special registers of its start
vector and zeros elsewhere, its queue place free. A preload stages the next task's data image where the reservation holds it, and its code, unless the
running task's stands in its region: then it stays LOADING; else it is ready; no register or pool byte of the running task changes. A pre-empted task
leaves the core idle and stands last in its queue; a resumed one has its saved context back, the parts of it that no other task has claimed as they stand
in the core (log 64, the model's reading), and its results in flight again. A task's end is posted. A budget that runs out lets an equal priority in, or
is reloaded with the budget trap. (That a pre-emption writes TEPC is the model's reading, log 101.) -/
def Obligations.TaskEvents : Prop :=
  ∀ (s : State) (c : CoreId),
    let x := s.cores[c]
    let others := fun (t : State) => ∀ d : CoreId, d ≠ c → t.cores[d] = s.cores[d]
    (∀ (p : PartId) (v : Word),
      ((s.parts[p]).en = false ∨ (s.parts[p]).resetEnd ≠ none → Completes (.launch p v) s fun t => t = s) ∧
      ((s.parts[p]).en = true → (s.parts[p]).resetEnd = none →
        let s1 := s.updPart p fun y => { y with launch := v &&& 0xFFFFFFFFFFFFFF00 }
        let table := v.toNat / 256 * 256
        (v.getLsbD 0 = false → Completes (.launch p v) s fun t => t = s1) ∧
        (v.getLsbD 0 = true → Completes (.launch p v) s fun t => t = (List.finRange 96).foldl (launchEntry p table) s1) ∧
        (∀ (u : State),
          let bs := u.virtBytes p (table + 256 * c.val) 256
          let ws := (List.range 32).map fun i => BitVec.ofNat 64 (leNat (((bs.drop (8 * i)).take 8).map fun y => y.1))
          let ok := refusal ws (u.partOf c == some p) ((u.parts[p]).pctl.getLsbD 62) (u.cores[c]).queueFull
          let u1 := u.virtRead p (table + 256 * c.val) 256
          u1 = { u with hbms := u1.hbms } ∧ SameMemories u u1 ∧
          ((ws.getD 0 0).getLsbD 62 = false → launchEntry p table u c = u1) ∧
          (∀ r, bs.any (fun y => y.2) = false → (ws.getD 0 0).getLsbD 62 = true → ok = some r →
            launchEntry p table u c = postEvent u1 p 1 c.val [BitVec.ofNat 64 r]) ∧
          (bs.any (fun y => y.2) = false → (ws.getD 0 0).getLsbD 62 = true → ok = none → Makes c u1 (launchEntry p table u c)
            (Machine.Core.relabel { u.cores[c] with queue := (u.cores[c]).queue ++ [QTask.enters .queued ws []] }))))) ∧
    (∀ i k, taskStartDue s c = true → x.nextOf = some (i, k) → Completes (.taskStart c) s fun t =>
      let d := t.cores[c]
      let ws := k.launch
      let w := fun (n : Nat) => ws.getD n 0
      others t ∧ d.run = .running ∧ d.queue.length + 1 = x.queue.length ∧ d.bundles = [] ∧ d.flights = [] ∧ d.ctx.rq = [] ∧
      (∀ n : BitVec 6, d.rs n = if 1 ≤ n.toNat ∧ n.toNat ≤ 8 then w (7 + n.toNat) else if n = 9 then BitVec.ofNat 64 c.val
        else if n = 10 then BitVec.ofNat 64 (s.rank c) else 0) ∧
      (∀ n, d.rv n = 0) ∧ (∀ n, d.rcf n = false) ∧ (∀ n, d.rbt n = 0) ∧ (∀ n, d.rp n = if n = 0 then BitVec.allOnes 128 else 0) ∧
      d.ctx.pc = BitVec.ofNat 14 (fld (w 0) 61 48) ∧ d.ctx.loops = [] ∧ d.ctx.xfers = [] ∧ d.ctx.beat = 0 ∧
      d.ctx.spr.fflags = 0 ∧ d.ctx.spr.fela = 0 ∧ d.ctx.spr.felmask = 0x1FF ∧ d.ctx.spr.tvec = 0 ∧ d.ctx.spr.pw = w 2 ∧
      d.ctx.spr.tbudget = (if w 1 = 0 then BitVec.allOnes 64 else w 1) ∧ d.ctx.spr.taskinfo = w 0 &&& 0x800000003FFFFFFF ∧
      d.ctx.spr.clim = 30720 ∧ d.ctx.spr.cwin = 256 ∧ d.ctx.spr.split = 0 ∧ d.splitTo = 0 ∧ (∀ n : Fin 6, d.ctx.spr.dom[n] = w (20 + n.val)) ∧ d.ctx.retry = 0) ∧
    (∀ i k, preloadDue s c = true → x.nextOf = some (i, k) → Completes (.preloadComplete c) s fun t =>
      let d := t.cores[c]
      others t ∧ d.ctx = x.ctx ∧ d.run = x.run ∧ d.pool = x.pool ∧ d.rows = x.rows ∧ d.queue.length = x.queue.length ∧
      (d.queue[i]?.map fun y => y.state) = some (if codeBarred x k then .loading else .ready) ∧ (codeBarred x k = true → d.imem = x.imem) ∧
      (d.queue[i]?.map fun y => y.launch) = some k.launch ∧
      (d.queue[i]?.map fun y => y.image) = some (if stages x k then some (dataImage s c k.launch) else k.image)) ∧
    (preemptDue s c = true → Completes (.preemption c) s fun t =>
      let d := t.cores[c]
      others t ∧ ((∀ p, x.ptrap = some p → ∀ g ∈ x.gone, g.b.seq < p.seq) → SameMemories s t) ∧ d.run = .idle ∧ d.bundles = [] ∧ d.flights = [] ∧
      d.queue = x.queue ++ [QTask.enters .suspended x.cut.1.ctx.launch []] ∧ d.ctx.spr.tepc = x.cut.2 ∧
      ∃ n, d.switch = some n ∧ n ≤ switchBound s c) ∧
    (∀ i k, taskResumeDue s c = true → x.nextOf = some (i, k) → k.stale = false → Completes (.taskResume c) s fun t =>
      let d := t.cores[c]
      let goes := fun (y : TaskCtx) => { y with
        replay := []
        queues := y.queues.map fun q => { q with entries := q.entries.map fun e => { e with stopStep := none } } }
      let again := fun (y : TaskCtx) => y.replay.map fun f => { f with due := x.cyc + f.due - 1 }
      others t ∧ d.run = .running ∧ d.queue.length + 1 = x.queue.length ∧
      (k.saved = none → d.ctx = goes x.ctx ∧ d.pool = x.pool ∧ d.rows = x.rows ∧ d.flights = x.flights ++ again x.ctx) ∧
      (∀ y, k.saved = some y → d.ctx = goes { y with traps := [], tags := d.ctx.tags, mxe := d.ctx.mxe } ∧ d.itraps = y.traps ∧ d.splitTo = y.spr.split ∧
        d.flights = again y ∧ (k.savedMxe = true → d.ctx.mxe = y.mxe) ∧ (k.savedMxe = false → d.ctx.mxe.latched = x.ctx.mxe.latched) ∧
        (∀ j : Fin (2 ^ 2), j.val ∈ k.savedTags → d.ctx.tags[j] = y.tags[j]) ∧ (k.savedRows = none → d.rows = x.rows) ∧
        (k.savedPool = none → d.pool = x.pool))) ∧
    (x.moves = true → x.run = .running → x.expired = false → x.ctx.spr.tbudget = 0 → Completes (.budgetExpiry c) s fun t =>
      Makes c s t (if x.queue.any (fun y => y.prio = x.prio) then { x with expired := true } else
        { x with itraps := x.itraps ++ [⟨0x11, 0, 0, none, none⟩], ctx := { x.ctx with spr := { x.ctx.spr with tbudget := startBudget x.ctx.launch } } })) ∧
    (taskEndDue s c = true → Completes (.taskEnd c) s fun t =>
      OnlyCore c (postCore s c 4 []) t ∧ (t.cores[c]).run = .idle ∧ (t.cores[c]).queue = x.queue ∧ (t.cores[c]).itraps = [] ∧
      (t.cores[c]).pool = x.pool ∧ (t.cores[c]).rows = x.rows ∧ (t.cores[c]).imem = x.imem) ∧
    (taskRestartDue s c = true → Completes (.taskRestart c) s fun t =>
      let d := t.cores[c]
      others t ∧ d.run = .running ∧ d.ctx.retry = x.ctx.retry ∧ d.ctx.pc = BitVec.ofNat 14 (fld (x.ctx.launch.getD 0 0) 61 48) ∧
      d.bundles = [] ∧ d.flights = [] ∧ d.ctx.launch = x.ctx.launch ∧ d.ctx.lostBase = s.pmc.cfl.lostCnt)

/-- R365, R367, R368, R386–R388, R393, R282: the host's queues and registers. Indexes written stand as written, a ring overrun stops the device's
reading; commands are consumed one at a time: ENDCORES ends the running and queued tasks of the cores it names, ECHO answers with its tag. Resets of the
rings, EQSTAT, TLBINV, ATTCTL and the plain registers change what R387, R388 and R393 say and nothing else, through function 0 or the partition's own
virtual function, and both read alike; LAUNCH reads with GO while the partition resets; unlisted offsets ignore writes. A host's write of a byte in its
window changes that byte of HBM alone (and its park copy, where its row has one), at once, a read none, and its line may stay in the host agent's caches;
a host's store to its own memory, or to BAR2, changes that byte alone (these ways of a host's store are the model's choice, log 104). -/
def Obligations.HostEvents : Prop :=
  ∀ (s : State) (p : PartId),
    let x := s.parts[p]
    let part := fun (i : Instr) (y : Part) => Completes i s fun t => MakesPart p s t y
    (∀ v : BitVec 32,
      part (.cqhwiWrite p v) { x with cqhwi := v, cqover := x.cqover || decide (2 ^ x.cqn.toNat < (v - x.cqdri).toNat) } ∧
      (x.dropRep = 0 ∨ (x.eqdwi - v).toNat = 2 ^ x.eqn.toNat → part (.eqhriWrite p v) { x with eqhri := v }) ∧
      (x.dropRep ≠ 0 → (x.eqdwi - v).toNat ≠ 2 ^ x.eqn.toNat → Completes (.eqhriWrite p v) s fun t =>
        MakesPart p { s with host := t.host } t { x with eqhri := v, eqdwi := x.eqdwi + 1, dropRep := 0 } ∧
        t.host = s.host.writeAll (x.eventBytes
          [BitVec.ofNat 64 (8 + p.val * 2 ^ 24), s.gcnt, BitVec.ofNat 64 x.dropRep, 0, 0, 0, 0, 0]) false)) ∧
    part (.cqReset p) { x with cqhwi := 0, cqdri := 0, cqover := false, cqlast := 0 } ∧
    part (.eqReset p) { x with eqdwi := 0, eqhri := 0, dropped := 0, dropRep := 0 } ∧
    part (.eqstatRead p) { x with dropped := 0 } ∧
    (s.cqReady p = true →
      let code := fld (s.cqWord p 0) 15 0
      (code ≠ 1 → code ≠ 2 → part (.cqNop p) { x with cqdri := x.cqdri + 1, cqlast := x.cqdri }) ∧
      (code = 1 → Completes (.endcores p) s fun t => (t.parts[p]).cqdri = x.cqdri + 1 ∧
        (∀ c ∈ endMask s p, (t.cores[c]).run = .idle ∧ (t.cores[c]).queue = []) ∧ ∀ c, c ∉ endMask s p → t.cores[c] = s.cores[c]) ∧
      (code = 2 → x.dropRep = 0 → x.eqFull = false → Completes (.echo p) s fun t =>
        MakesPart p { s with host := t.host } t { x with cqdri := x.cqdri + 1, cqlast := x.cqdri, eqdwi := x.eqdwi + 1 } ∧
        t.host = s.host.writeAll (x.eventBytes
          [BitVec.ofNat 64 (9 + p.val * 2 ^ 24), s.gcnt, BitVec.ofNat 64 (fld (s.cqWord p 0) 31 16), 0, 0, 0, 0, 0]) false)) ∧
    (Completes (.tlbinv p) s fun t => t = { s with cores := t.cores } ∧ ∀ c : CoreId,
      t.cores[c] = if s.partOf c = some p then { s.cores[c] with tlb := [], ceTlb := [] } else s.cores[c]) ∧
    (∀ v : Word, v.getLsbD 63 = true →
      part (.attestationRequest p v) (if x.attctl.getLsbD 63 then x else { x with attctl := v &&& 0x8000FFFFFFFFFFC0 })) ∧
    (x.attctl.getLsbD 63 = true → Completes (.attestationDurable p) s fun t =>
      MakesPart p { s with host := t.host } t { x with attctl := x.attctl &&& 0x7FFFFFFFFFFFFFFF } ∧
      t.host = s.host.writeAll ((report s p).zipIdx.map fun y => (fld x.attctl 47 6 * 64 + y.2, y.1)) false) ∧
    (∀ v : Word,
      let near := fun (r : Nat) => HostReg.mk (some p) (BitVec.ofNat 26 r)
      let far := fun (r : Nat) => HostReg.mk none (BitVec.ofNat 26 (0x100000 + 0x10000 * p.val + r))
      let put := fun (r : Nat) (y : Part) => part (.registerWrite (far r) v) y ∧ part (.registerWrite (near r) v) y
      put 0x010 (if s.holdsTask p then x else { x with ptroot := v &&& 0x000FFFFFFFE00000 }) ∧
      put 0x040 { x with cqbase := v &&& ~~~63 } ∧ put 0x068 { x with eqbase := v &&& ~~~63 } ∧
      put 0x208 { x with nonce := x.nonce.set 0 v } ∧ put 0x220 { x with nonce := x.nonce.set 3 v } ∧
      (v.getLsbD 8 = false → 4 ≤ fld v 4 0 → fld v 4 0 ≤ 16 →
        put 0x048 { x with cqn := v.setWidth 5, cqover := x.cqover || decide (2 ^ fld v 4 0 < (x.cqhwi - x.cqdri).toNat) } ∧ put 0x070 { x with eqn := v.setWidth 5 }) ∧
      put 0x108 (if s.session p then { x with dbgaddr := v } else x) ∧
      (∀ i : Fin 8, Completes (.registerWrite ⟨none, BitVec.ofNat 26 (0x010 + 8 * i.val)⟩ v) s fun t =>
        MakesPmc s t { s.pmc with args := s.pmc.args.set i v }) ∧
      (∀ off : BitVec 26, 0x1C0000 ≤ off.toNat → Completes (.registerWrite ⟨none, off⟩ v) s fun t => t = s) ∧
      (∀ off : BitVec 26, 0x10000 ≤ off.toNat → Completes (.registerWrite ⟨some p, off⟩ v) s fun t => t = s) ∧
      (∀ r, r < 0x10000 → s.bar0 (near r) = s.bar0 (far r)) ∧ s.bar0 (near 0x000) = x.pctl ∧
      (s.bar0 (near 0x008)).getLsbD 0 = (x.resetEnd.isSome || x.launch.getLsbD 0)) ∧
    (∀ addr len pa keeps, x.hostPa addr len = some pa → Completes (.hostMemAccess p addr ⟨none, .hbm keeps⟩ len) s fun t =>
      t = { s with hbms := t.hbms, hostLines := t.hostLines } ∧ ∀ k : StackId, (t.hbms[k]).bytes = (s.hbms[k]).bytes) ∧
    (∀ addr len pa (b : Byte) k a keeps, x.hostPa addr 1 = some pa → s.hbmPlace p pa = some (k, a) →
      Completes (.hostMemAccess p addr ⟨some [b], .hbm keeps⟩ len) s fun t =>
        t.cores = s.cores ∧ t.dies = s.dies ∧ t.host = s.host ∧ (∀ j : StackId, j ≠ stackIx k → t.hbms[j] = s.hbms[j]) ∧
        ((s.hbms[stackIx k]).bytes.wf = true → (t.hbms[stackIx k]).bytes.read a = b) ∧
        (∀ y, y ≠ a → (s.hbms[stackIx k]).parkAddr a ≠ some y → (t.hbms[stackIx k]).bytes.read y = (s.hbms[stackIx k]).bytes.read y) ∧
        (keeps = true → (k, a / 64) ∈ t.hostLines)) ∧
    (∀ addr len (b : Byte),
      (Completes (.hostMemAccess p addr ⟨some [b], .own⟩ len) s fun t => t = { s with host := s.host.write addr b false }) ∧
      (addr < 16777216 → s.pmc.off = false → Completes (.hostMemAccess p addr ⟨some [b], .bar2⟩ len) s fun t =>
        MakesPmc s t { s.pmc with bar2 := s.pmc.bar2.write addr b false }))

/-- R353, R395, R396: a debug register does nothing without a session of its partition. HALT asks the core it names to halt; a core outside the
partition is refused; a sleeping core that is named is to wake (R394). At a bundle boundary the core halts, with everything not retired taken back. STEP
and RESUME let a halted core go on, its results in flight again, STEP for one bundle, and touch no other. DBGDATA is refused unless the core is halted;
it reads and writes pool words, scalars and special registers; DBGSTAT's read clears the refusal. -/
def Obligations.DebugEvents : Prop :=
  ∀ (s : State) (p : PartId) (v : Word),
    let x := s.parts[p]
    let rouse := fun (y : Machine.Core) => if y.power = .a1 ∨ y.power = .a2 then { y with wake := true } else y
    let names := fun (f : Machine.Core → Machine.Core) (i : Instr) =>
      (s.session p = false → Completes i s fun t => t = s) ∧
      (s.session p = true → s.relCore p (fld v 6 0) = none → Completes i s fun t => MakesPart p s t { x with dbgref := true }) ∧
      (∀ c, s.session p = true → s.relCore p (fld v 6 0) = some c → Completes i s fun t =>
        t = { s with parts := t.parts, cores := t.cores } ∧ t.parts[p] = { x with dbgcore := v.setWidth 7 } ∧ t.cores[c] = f (rouse s.cores[c]) ∧
        (∀ q : PartId, q ≠ p → t.parts[q] = s.parts[q]) ∧ ∀ d : CoreId, d ≠ c → t.cores[d] = s.cores[d])
    let goes := fun (step : Bool) (y : Machine.Core) => if y.halted then { y with
      halted := false, haltReq := false, stepReq := step, ctx := { y.ctx with replay := [] }
      upsets := if y.ctx.replay = [] then y.upsets else { y.upsets with replay := false, met := y.upsets.met || y.upsets.replay }
      flights := y.flights ++ y.ctx.replay.map fun f => { f with due := y.cyc + f.due - 1 } } else y
    (v.getLsbD 63 = true → names (fun y => if y.halted then y else { y with haltReq := true, stepReq := false }) (.dbgHalt p v)) ∧
    (v.getLsbD 62 = true → v.getLsbD 63 = false → names (goes true) (.dbgStep p v)) ∧
    (v.getLsbD 61 = true → v.getLsbD 62 = false → v.getLsbD 63 = false → names (goes false) (.dbgResume p v)) ∧
    (∀ c : CoreId, haltDue s c = true → Completes (.debugHaltTaken c) s fun t =>
      OnlyCore c s t ∧ SameMemories s t ∧ (t.cores[c]).halted = true ∧ (t.cores[c]).haltReq = false ∧
      ((s.cores[c]).run = .running → (t.cores[c]).bundles = [] ∧ (t.cores[c]).flights = [] ∧ (t.cores[c]).stores = [])) ∧
    (Completes (.dbgstatRead p) s fun t => MakesPart p s t (if s.session p then { x with dbgref := false } else x)) ∧
    (∀ w : Option Word,
      (s.session p = false → Completes (.dbgdataAccess p w) s fun t => t = s) ∧
      (s.session p = true → s.relCore p x.dbgcore.toNat = none → Completes (.dbgdataAccess p w) s fun t => MakesPart p s t { x with dbgref := true }) ∧
      (∀ c, s.session p = true → s.relCore p x.dbgcore.toNat = some c → (s.cores[c]).halted = false → Completes (.dbgdataAccess p w) s fun t =>
        Makes c (s.updPart p fun y => { y with dbgref := true }) t (rouse s.cores[c])) ∧
      (∀ c, s.session p = true → s.relCore p x.dbgcore.toNat = some c → (s.cores[c]).halted = true →
        let y := s.cores[c]
        let i := fld x.dbgaddr 59 0
        let kind := fld x.dbgaddr 63 60
        (w = none → Completes (.dbgdataAccess p w) s fun t => ∃ d, MakesPart p { s with draws := s.draws + 1 } t { x with dbgdata := d } ∧
          (kind = 0 → d = y.pool.word (i % 2 ^ 24)) ∧ (kind = 1 → i < 64 → d = y.rs (BitVec.ofNat 6 i)) ∧
          (kind = 3 → i < 1024 → d = sprRead s c y.tagNow i)) ∧
        (∀ z, w = some z → Completes (.dbgdataAccess p w) s fun t => (∀ q : CoreId, q ≠ c → t.cores[q] = s.cores[q]) ∧
          (kind = 0 → t.cores[c] = { y with pool := y.pool.writeAll (leBytes (i % 2 ^ 24) 8 z.toNat) false }) ∧
          (kind = 1 → 0 < i → i < 64 → t.cores[c] = { y with ctx := { y.ctx with s := y.ctx.s.setIfInBounds i z } }) ∧
          (kind = 1 → i = 0 → t.cores[c] = y))))

-- events of the stacks and of the PMC

/-- R371, R373, R374, R376–R378, R380–R384: a refresh slot of a pseudo-channel, in the order of slots of log 52 (the model's choice), comes again an
interval of its mode later, shuts the pseudo-channel for at most 60 ns, leaves no row open and ends what waited for it; its scrub reads a row, whose
errors are then gone (which row is log 112, the model's choice); a window's end clears the activation counts. A PAT, HBMPART or HBMCFG write is stored
with its zero bits, or refused with PATERR and nothing else, an HBMPART write with PATERR in the stacks where the partition has entries, in all where it
has none (log 71, the model's choice). A self-test goes from copying to testing to restoring, and no logical byte changes; PATT, PC and BANK are written
without GO too, but for a running test (log 111, the model's choice). Reading HBMSTAT and CKPTSTAT clears what R381 and R383 say. A temperature sample
sets hot mode at 85 and ends it after 8 samples at or below 80; an error that has arisen since the last waits for a read or the scrub to meet it, and one
that cannot be corrected reads as poison. CKPTDST and CKPTCTL's fields come with CHECKPOINT_GO, with and without GO (log 74, the model's choice); a
checkpoint runs once at a time and ends done within its time, every unit counted, or with ERR. -/
def Obligations.StackEvents : Prop :=
  ∀ (s : State) (k : StackId) (v : Word),
    let x := s.hbms[k]
    let now := s.gcnt.toNat
    let stack := fun (i : Instr) (y : Stack) => Completes i s fun t => MakesStack k s t y
    (∀ pc : BitVec 9, s.hbmUp k = true → x.slotPc = pc.toNat → x.slotTick ≤ now → Completes (.hbmRefreshSlot k pc) s fun t =>
      let y := t.hbms[k]
      let T := x.slotTick
      let row := scrubRow T
      let a := stackAddr pc.toNat (row / 6144 % 16) (row % 6144) 0
      let scrubs := scrubRow (T - x.refresh pc.toNat) ≠ row
      OnlyStack k { s with draws := s.draws + 1 } t ∧ y.bytes = x.bytes ∧ y.hotNew = x.hotNew.filter (fun z => z != pc.toNat) ∧
      y.splits = x.splits.filter (fun z => z.1 != pc.toNat) ∧ y.slots = putSlot (T + if x.hot then 1950 else 3900, pc.toNat) (x.slots.drop 1) ∧
      (∃ e, T < e ∧ e ≤ T + 60 ∧ y.shut = (pc.toNat, e) :: x.shut.filter fun z => decide (T < z.2) && z.1 != pc.toNat) ∧
      (∀ o ∈ y.acts, o.1 = pc.toNat → o.2.2.1 = 6144) ∧ (scrubs → ∀ w ∈ y.weak, 32 * w.1 < a ∨ a + 1024 ≤ 32 * w.1) ∧
      (¬ scrubs → y.weak = x.weak ∧ y.ce = x.ce ∧ y.ue = x.ue) ∧ (x.swapsNow pc.toNat = [] → y.indir = x.indir ∧ y.swaps = x.swaps ∧ y.counts = x.counts)) ∧
    (s.hbmUp k = true → x.winEnd ≤ now → stack (.refreshWindowEnd k) { x with counts := [], winEnd := x.winEnd + if x.hot then 16000000 else 32000000 }) ∧
    (∀ n : BitVec 7,
      let w := v &&& 0x8F001FFF00001FFF
      (patRefused s k n.toNat w = true → stack (.patEntryWrite k n v) { x with paterr := true }) ∧
      (patRefused s k n.toNat w = false → stack (.patEntryWrite k n v) { x with pat := x.pat.setIfInBounds n.toNat w }) ∧
      (6144 < patLim w ∨ patLim w ≤ patBase w ∨ 13 ≤ patDom w → patRefused s k n.toNat w = true)) ∧
    (∀ p : PartId,
      let w := v &&& 0x3FF03E30300
      (hbmpartRefused s p w = true → Completes (.hbmpartWrite p v) s fun t => t = { s with hbms := t.hbms } ∧
        ∀ j : StackId, t.hbms[j] = if s.groupsOf p.val = [] ∨ ∃ g ∈ s.groupsOf p.val, g.1 = j.val then { s.hbms[j] with paterr := true } else s.hbms[j]) ∧
      (hbmpartRefused s p w = false → fld (s.parts[p]).hbmpart 9 8 = fld w 9 8 → Completes (.hbmpartWrite p v) s fun t =>
        MakesPart p s t { s.parts[p] with hbmpart := w })) ∧
    (let w := v &&& 0xFFF3
     (x.patGuarded = true ∨ v.getLsbD 0 = false → 512 ≤ fld w 15 4 → stack (.hbmcfgWrite k v) { x with hbmcfg := w }) ∧
     (x.patGuarded = false → v.getLsbD 0 = true → stack (.hbmcfgWrite k v) { x with paterr := true })) ∧
    stack (.hbmstatRead k) { x with paterr := false, swaps := 0, ce := 0, ue := 0 } ∧
    (∀ (ts : List Int) soft hard, s.hbmUp k = true → x.nextTemp ≤ now → Completes (.stackTempSample k ⟨ts, soft, hard⟩) s fun t =>
      let y := t.hbms[k]
      y.nextTemp = (now / 10000 + 1) * 10000 ∧ y.samples = (ts :: x.samples).take 8 ∧ (hard = [] → y.bytes = x.bytes) ∧ t.cores = s.cores ∧
      y.ce = x.ce ∧ y.ue = x.ue ∧ (∀ a, y.bytes.read a = x.bytes.read a) ∧
      (∀ a ∈ hard, a < stackBytes → y.bytes.tainted a 1 = true ∧ (a / 32, true) ∈ y.weak) ∧
      (∀ a ∈ soft, a < stackBytes → (a / 32, true) ∈ y.weak ∨ (a / 32, false) ∈ y.weak) ∧
      (x.hot = false → y.hot = decide (85 ≤ y.temp)) ∧ (x.hot = true → y.hot = false → y.temp ≤ 80 ∧ 8 ≤ x.cool + 1) ∧
      (x.hot = true → 80 < y.temp → y.hot = true)) ∧
    (let st := fld x.bist 62 60
     let runs := 1 ≤ st ∧ st ≤ 3
     (v.getLsbD 63 = false → runs → Completes (.hbmbistGo k v) s fun t => t = s) ∧
     (v.getLsbD 63 = false → ¬ runs → stack (.hbmbistGo k v) { x with bist := (x.bist &&& 0x70001FFFFF000000) ||| (v &&& 0x100000000001FFF) }) ∧
     (v.getLsbD 63 = true → runs ∨ x.parkBase = none → stack (.hbmbistGo k v) { x with paterr := true }) ∧
     (v.getLsbD 63 = true → ¬ runs → x.parkBase ≠ none → Completes (.hbmbistGo k v) s fun t => ∃ n, 1 ≤ n ∧ n ≤ 10000 ∧
       MakesStack k { s with draws := s.draws + 1 } t { x with
         bist := (v &&& 0x100000000001FFF) ||| 0x1000000000000000, bistAt := now, park := some (fld v 12 4, fld v 3 0), copied := 0, copyAt := now
         copyStep := n })) ∧
    (∀ fails : List Nat,
      let st := fun (y : Stack) => fld y.bist 62 60
      (st x = 1 → x.copied = 6144 → Completes (.bistPhaseComplete k fails) s fun t => OnlyStack k s t ∧ st t.hbms[k] = 2 ∧ (t.hbms[k]).bytes = x.bytes) ∧
      (st x = 2 → Completes (.bistPhaseComplete k fails) s fun t => st t.hbms[k] = 3 ∧ (t.hbms[k]).bytes = x.bytes ∧
        ∀ f ∈ fails, f < 6208 → (fld x.bist 12 4, fld x.bist 3 0, f) ∈ (t.hbms[k]).badRows) ∧
      (st x = 3 → x.copied = 6144 → Completes (.bistPhaseComplete k fails) s fun t =>
        (st t.hbms[k] = 4 ∨ st t.hbms[k] = 5 ∨ st t.hbms[k] = 6) ∧ (t.hbms[k]).bytes = x.bytes)) ∧
    (∀ dst : Word,
      let set := { s.pmc with ckptctl := v &&& 0x6000000000000FFF, ckptdst := dst &&& 0xFFFFFFFFFFFF0000 }
      (s.pmc.ckptbusy = true → Completes (.checkpointGo v dst) s fun t => t = s) ∧
      (s.pmc.ckptbusy = false → v.getLsbD 63 = false → Completes (.checkpointGo v dst) s fun t => MakesPmc s t set) ∧
      (s.pmc.ckptbusy = false → v.getLsbD 63 = true → Completes (.checkpointGo v dst) s fun t => MakesPmc { s with draws := s.draws + 1 } t { set with
        ckptbusy := true, ckptdone := false, ckpterr := false, ckptcnt := 0, ckptimg := Mem.empty, ckptcap := [], ckptat := now
        ckptdraw := t.pmc.ckptdraw, ckpthot := t.pmc.ckpthot })) ∧
    (∀ err : Bool, s.pmc.ckptbusy = true → err = true ∨ s.ckptDue = true → Completes (.checkpointDone err) s fun t =>
      let n := s.ckptSize s.pmc.ckptctl / 65536
      t.cores = s.cores ∧ t.dies = s.dies ∧ t.pmc.ckptbusy = false ∧ t.pmc.ckptdone = !err ∧ t.pmc.ckpterr = err ∧
      (err = true → t = { s with pmc := t.pmc } ∧ t.pmc.ckptcnt = s.pmc.ckptcnt) ∧
      (err = false → s.pmc.ckptcnt.toNat ≤ n → t.pmc.ckptcnt = BitVec.ofNat 32 n) ∧
      (s.pmc.ckptctl.getLsbD 62 = false → ∀ j : StackId, (t.hbms[j]).bytes = (s.hbms[j]).bytes) ∧
      (s.pmc.ckptctl.getLsbD 62 = true → t.host = s.host)) ∧
    (s.pmc.ckptbusy = true → s.pmc.ckptat + s.ckptBound ≤ now + 4 → s.ckptDue = true) ∧
    (Completes .ckptstatRead s fun t => MakesPmc s t { s.pmc with ckptdone := false, ckpterr := false })

/-- R381, R385, R387, R389, R391, R394, R395, R397, R398: a mailbox command is ignored while none is accepted; what its argument registers hold is log 46
(the model's choice). SVNCOMMIT raises the fuse counter to the running image's number and never lowers it. IDEKEY adds a key. RESET, the power's loss and
its return start the package over with its fuses, the BAR2 buffer and host memory as they were. POWER moves between A0, A3 and off, A3 only without tasks
and DETACHED, and the cores' memories are lost in it. PARTRESET ends the partition's tasks; when begun work is done, or its time is up (log 102, the
model's choice), the partition's memories are zeros, its rings are reset and it takes what a PARTSET had to set. PARTSET refuses an overlapping or
core-less partition, and with PATERR an entry that R371 refuses; it sets the tenant keys while the part is not in maintenance. DEBUG at level 0 ends a
session; at level 1 it starts one of a tenanted partition by a token that the partition's keys have signed, at level 2 one of the vendor by a token of the
running image's keys, with the tasks ended and every tenant key, session and nonce gone; it refuses all else. The recovery loader takes an image or says
why not, and none waits in a running part. Bring-up goes stage by stage, the image checked as the loader checks it; what a stage finds comes from outside
(log 103, the model's choice). An idle core goes to A1 and A2, and a task, a SPAWN or a debug access brings it back (when, log 84, the model's choice). -/
def Obligations.PackageEvents : Prop :=
  ∀ (s : State),
    let a := fun (i : Nat) => s.pmc.args.toArray.getD i 0
    let old := s.pmc
    let mail := fun (i : Instr) (P : Pmc → State → Prop) =>
      (old.accepts = false → Completes i s fun t => t = s) ∧
      (old.accepts = true → Completes i s fun t => ∃ r, P { old with err := 0, res := r } t)
    let fails := fun (i : Instr) => old.accepts = true → Completes i s fun t => t.pmc.err = 9 ∧ t.cores = s.cores ∧ t.parts = s.parts ∧
      t.hbms = s.hbms ∧ t.dies = s.dies ∧ t.host = s.host
    let fresh := fun (off : Bool) (t : State) => t.cores = State.reset.cores ∧ t.dies = State.reset.dies ∧ t.hbms = State.reset.hbms ∧
      t.parts = State.reset.parts ∧ t.gcnt = 0 ∧ t.host = s.host ∧ t.pmc = { Pmc.reset with off := off, fusectr := old.fusectr, bar2 := old.bar2 }
    (mail .svncommit fun y t => t.pmc = { y with fusectr := if old.fusectr.toNat < old.svn.toNat then old.svn else old.fusectr } ∧ t.cores = s.cores) ∧
    (mail .idekey fun y t => t.pmc = { y with idekeys := old.idekeys ++ [(a 0, a 1)] } ∧ t.cores = s.cores) ∧
    (mail .reset fun _ t => fresh false t) ∧
    (mail (.power .off) fun _ t => fresh true t) ∧
    (mail (.power .a0) fun y t => t.pmc = { y with a3 := false } ∧
      ∀ c : CoreId, t.cores[c] = if old.a3 then { s.cores[c] with power := .a0 } else s.cores[c]) ∧
    (old.a3 = false → s.noTasks = false ∨ old.cfl.state ≠ 0 → fails (.power .a3)) ∧
    (old.accepts = true → old.a3 = false → s.noTasks = true → old.cfl.state = 0 → Completes (.power .a3) s fun t => t.pmc.a3 = true ∧
      ∀ c : CoreId, (t.cores[c]).power = .off ∧ (t.cores[c]).pool = Mem.empty ∧ (t.cores[c]).rows = Mem.empty ∧ (t.cores[c]).imem = Mem.empty) ∧
    (12 ≤ (a 0).toNat → fails .partreset ∧ ∀ x, fails (.partset x)) ∧
    ((a 0).toNat < 12 → old.accepts = true → Completes .partreset s fun t =>
      let p := partIx (a 0).toNat
      t.pmc.busy = true ∧ ((t.parts[p]).resetEnd).isSome = true ∧ (t.parts[p]).resetBy = s.gcnt.toNat + 4999996 ∧ (t.parts[p]).resetTo = none ∧
      t.hbms = s.hbms ∧ ∀ c : CoreId, s.partOf c = some p → (t.cores[c]).run = .idle ∧ (t.cores[c]).queue = []) ∧
    (∀ x, (a 0).toNat < 12 → (a 1).getLsbD 63 = true →
      (fld (a 1) 11 0 = 0 ∨ ∃ q : PartId, q ≠ partIx (a 0).toNat ∧ (s.parts[q]).en = true ∧ (s.parts[q]).pctl &&& a 1 &&& 0xFFFFFFFFF ≠ 0) →
      fails (.partset x)) ∧
    (old.accepts = true → (a 0).toNat < 12 →
      let p := partIx (a 0).toNat
      let w := a 1 &&& 0xC000000FFFFFFFFF
      let h := a 3 &&& 0x3FF03E30300
      pctlRefused s p w = false → (s.parts[p]).pctl &&& 0x8000000FFFFFFFFF = w &&& 0x8000000FFFFFFFFF → hbmpartRefused s p h = false →
      fld (s.parts[p]).hbmpart 9 8 = fld h 9 8 → ∀ key, Completes (.partset ⟨[], key⟩) s fun t =>
        t.parts = s.parts.set p { s.parts[p] with
          pctl := w, hmrange := a 2 &&& 0x8000FFFFFFFFFFFF, hbmpart := h
          tenant := if old.maint then (s.parts[p]).tenant else key.getD (s.parts[p]).tenant } ∧ t.cores = s.cores) ∧
    (∀ (k : StackId) (n : BitVec 7) (v : Word) key, old.accepts = true → (a 0).toNat < 12 →
      let p := partIx (a 0).toNat
      let w := a 1 &&& 0xC000000FFFFFFFFF
      pctlRefused s p w = false → (s.parts[p]).pctl &&& 0x8000000FFFFFFFFF = w &&& 0x8000000FFFFFFFFF →
      patRefused s k n.toNat (v &&& 0x8F001FFF00001FFF) = true → Completes (.partset ⟨[(BitVec.ofNat 3 k.val, n, v)], key⟩) s fun t =>
        t.pmc.err = 9 ∧ t.cores = s.cores ∧ t.parts = s.parts ∧ ∀ j : StackId, t.hbms[j] = if j = k then { s.hbms[j] with paterr := true } else s.hbms[j]) ∧
    (old.accepts = true → a 0 = 0 → (a 1).toNat < 12 → Completes .debug s fun t => t.pmc.vendor = false ∧
      t.parts = s.parts.set (partIx (a 1).toNat) { s.parts[partIx (a 1).toNat] with dbg := 0 } ∧ t.cores = s.cores) ∧
    (old.accepts = true → a 0 = 0 → 12 ≤ (a 1).toNat → Completes .debug s fun t => t.pmc.err = 9 ∧ t.parts = s.parts ∧ t.cores = s.cores) ∧
    (old.accepts = false → Completes .debug s fun t => t = s) ∧
    (let signed := fun (keys : List Byte) =>
       let token := Config.tokenParts (s.host.bytes (a 2).toNat Config.tokenLen)
       Config.ed25519Verify (keys.take 32) token.1 token.2.1 && Config.mldsaVerify (keys.drop 32) token.1 token.2.2
     let q := partIx (a 1).toNat
     let may := old.maint = false ∧ (s.parts[q]).en = true ∧ (s.parts[q]).tenant ≠ [] ∧ signed (s.parts[q]).tenant = true
     (a 0 = 1 → 12 ≤ (a 1).toNat ∨ ¬ may → fails .debug) ∧
     (a 0 = 1 → (a 1).toNat < 12 → may → old.accepts = true → Completes .debug s fun t =>
       t.parts = s.parts.set q { s.parts[q] with dbg := 1 } ∧ t.cores = s.cores ∧ t.pmc.err = 0 ∧ t.session q = true) ∧
     (a 0 = 2 → signed old.keys = false → fails .debug) ∧
     (a 0 = 2 → signed old.keys = true → old.accepts = true → Completes .debug s fun t =>
       t.pmc.maint = true ∧ t.pmc.vendor = true ∧ t.secState = 2 ∧ t.dbgLevel = 2 ∧
       (∀ p : PartId, (t.parts[p]).tenant = [] ∧ (t.parts[p]).dbg = 0 ∧ (t.parts[p]).nonce = Vector.replicate 4 0 ∧ t.session p = true) ∧
       ∀ (c : CoreId) (p : PartId), s.partOf c = some p → (t.cores[c]).run = .idle ∧ (t.cores[c]).queue = []) ∧
     (3 ≤ (a 0).toNat → fails .debug)) ∧
    (old.stage ≠ 2 → fails .recover ∧ (old.accepts = false → Completes .recover s fun t => t = s)) ∧
    (old.stage = 2 → old.off = false →
      let im := old.bar2.bytes 0 (min 16777216 (a 0).toNat)
      Completes .recover s fun t => match verifyImage im old.fusectr.toNat with
        | some e => MakesPmc s t { old with err := BitVec.ofNat 8 e }
        | none => ∃ d, MakesPmc s t { old with
          err := 0, stage := 3, stageAt := s.gcnt.toNat, svn := im.getD 8 0, keys := (im.drop 16).take 1984, digest := d }) ∧
    (Completes .powerLoss s fun t => fresh true t) ∧
    (old.off = true → Completes .powerGood s fun t => fresh false t) ∧
    (∀ ok out, old.off = false → old.stage ≠ 2 → old.stage.toNat < 8 → Completes (.bootStageComplete ok out) s fun t =>
      t.cores = s.cores ∧ t.parts = s.parts ∧ t.host = s.host ∧ t.pmc.stageAt = s.gcnt.toNat ∧
      (old.stage = 1 → match verifyImage out.image old.fusectr.toNat with
        | some e => t.pmc.stage = 2 ∧ t.pmc.err = BitVec.ofNat 8 e
        | none => t.pmc.stage = 3 ∧ t.pmc.err = 0 ∧ t.pmc.svn = out.image.getD 8 0) ∧
      (old.stage = 4 → ok = false → t.pmc.stage = 9 ∧ t.pmc.err = 8 ∧ t.pmc.dies = out.mask.setWidth 4) ∧
      (old.stage = 5 → t.pmc.hbms = out.mask ∧ ∀ k : StackId, out.mask.getLsbD k.val = true →
        (t.hbms[k]).present = false ∧ 1 ≤ (t.hbms[k]).bankfail ∧ (t.hbms[k]).bankfail ≤ 255) ∧
      (old.stage = 6 → t.pmc.hbms = old.hbms ||| out.mask ∧ ∀ (k : StackId) pc bank row, (k.val, pc, bank, row) ∈ out.rows →
        pc < 512 → bank < 16 → row < 6208 → (pc, bank, row) ∈ (t.hbms[k]).badRows) ∧
      (old.stage ≠ 1 → old.stage ≠ 4 ∨ ok = true → t.pmc.stage = old.stage + 1)) ∧
    (∀ p : PartId, s.resetDone p = true → Completes (.partitionResetComplete p) s fun t =>
      let x := t.parts[p]
      x.resetEnd = none ∧ x.cqhwi = 0 ∧ x.cqdri = 0 ∧ x.eqdwi = 0 ∧ x.eqhri = 0 ∧ x.dropped = 0 ∧
      (t.pmc.busy = true ↔ ∃ q : PartId, ((t.parts[q]).resetEnd).isSome = true) ∧
      (∀ c : CoreId, s.partOf c = some p → (t.cores[c]).pool = Mem.empty ∧ (t.cores[c]).rows = Mem.empty ∧ (t.cores[c]).tlb = [] ∧
        (t.cores[c]).ceTlb = [] ∧ (t.cores[c]).workDone = true) ∧
      ((s.parts[p]).resetTo = none → t.hbms = s.hbms ∧ x.pctl = (s.parts[p]).pctl) ∧
      (∀ y, (s.parts[p]).resetTo = some y → x.pctl = y.pctl ∧ x.hmrange = y.hmrange ∧ x.hbmpart = y.hbmpart)) ∧
    (∀ c : CoreId,
      let x := s.cores[c]
      (x.power = .a0 → x.workless = true → Completes (.coreIdleA1 c) s fun t => Makes c s t { x with power := .a1, idleAt := s.gcnt.toNat }) ∧
      (x.power = .a1 → x.workless = true → x.idleAt + 1000000 ≤ s.gcnt.toNat → Completes (.a2Entry c) s fun t => Makes c s t { x with
        power := .a2, ctx := { x.ctx with mxe := { x.ctx.mxe with bands := Vector.replicate 4 .off } } }) ∧
      (x.power = .a1 → x.queue ≠ [] ∨ x.haltReq = true ∨ x.wake = true → Completes (.coreWake c) s fun t =>
        Makes c { s with draws := s.draws + 1 } t { x with power := .a0, wake := false }) ∧
      (x.power = .a2 → x.queue ≠ [] ∨ x.haltReq = true ∨ x.wake = true → Completes (.coreWake c) s fun t => ∃ n, n ≤ (s.coreGcnt c).toNat + 2000 ∧
        Makes c { s with draws := s.draws + 1 } t { x with
          power := .a0, wake := false, ctx := { x.ctx with mxe := { x.ctx.mxe with bands := bandsTo x.ctx.mxe.bands x.ctx.spr.shape n } } }))

/-- The words that the spec works out decode to the instructions it gives for them (R24–R45), and the words it calls illegal do not decode. -/
def Obligations.WordsOfTheSpecDecode : Prop :=
  decodeWord .ctl 0x80800000 = .ok .halt ∧ frameOf 0x80800000 = ⟨true, false, false⟩ ∧
  decodeWord .ctl 0x05A22418 = .ok (.cmpi 2 .lt 9 24) ∧
  decodeWord .sca 0x008A30E0 = .ok (.add 5 6 7) ∧ decodeWord .sca 0x0FA817EB = .ok (.movi 20 0x17EB) ∧
  decodeWord .sca 0x32B0F801 = .ok (.st 24 7 .d 1) ∧ frameOf 0x32B0F801 = ⟨false, false, true⟩ ∧
  decodeWord .va 0x00D41083 = .ok (.vadd .w1024 .f32 1 2 3) ∧ decodeWord .vb 0x12400802 = .ok (.vld .w1024 0 1 2) ∧
  decodeWord .xn 0x01AB1081 = .ok (.xcvt .f32 .e4m3 .rne true 2 1) ∧
  decodeWord .mx 0x04032800 = .ok (.mout 0 6 .f32 .rne) ∧
  decodeWord .ar 0x03040878 = .ok (.amvm 1 0 1 0 7 true) ∧
  decodeWord .ae 0x01910000 = .ok (.cpy 1 1) ∧ decodeWord .ae 0x0A2AC960 = .ok (.await 21 25 1 12) ∧
  (∀ sl : Slot, decodeWord sl 0 = .ok .nop) ∧
  (∀ p ∈ [(Slot.sca, (0x0B800000 : SWord)), (.va, 0x00E00000), (.ctl, 0x050C0000), (.xn, 0x00800100), (.ae, 0x0AF80000), (.va, 0x0B148000)],
    ∀ i, decodeWord p.1 p.2 ≠ .ok i)

/-- Encoding and decoding are inverse. The slot word of every well-formed instruction decodes, in its own slot (a vector word in VA and in VB,
NOP in every slot), to that instruction, with its J, F and L. And a word that decodes is the encoding, with its J, F and L, of the well-formed
instruction that it decodes to, an instruction of its own slot: no bit of a word is without a meaning (R24–R44). -/
def Obligations.EncodingIsExact : Prop :=
  (∀ (i : Instr) (fr : Frame), i.wf = true →
    (∀ sl, i.home = some sl → decodeWord sl (encode fr i) = .ok i ∧ frameOf (encode fr i) = fr) ∧
    (i.home = some .va → decodeWord .vb (encode fr i) = .ok i) ∧ (∀ sl, decodeWord sl (encode fr .nop) = .ok .nop)) ∧
  (∀ (sl : Slot) (w : SWord) (i : Instr), decodeWord sl w = .ok i →
    encode (frameOf w) i = w ∧ i.wf = true ∧ i.isWord = true ∧ (i = .nop ∨ i.home = some (if sl = .vb then .va else sl)))

/-- A step runs the word it decodes: in a slot's turn, where the bundle of the slot's next word is dispatched and its word decodes to an
instruction, the step is that instruction's `exec` at that slot (with the rest of the turns left over) and counts its weight for the current
limiter. A word that its F or L suppresses runs as NOP (R25, R66). Apart stand the two turns in which a wait ends: of an AWAIT whose time is
over and of a WAITG whose tick has come. -/
def Obligations.StepRunsDecodedWord : Prop :=
  ∀ (s : State) (n : Nat) (sl : Slot) (rest : List Slot) (i : Instr),
    let k := coreIx n
    let x := s.cores[k]
    let b := x.wordRec sl
    let u : State := { s with cur := ⟨k, sl⟩, cursor := .issue n rest }
    let runs := fun (j : Instr) => step s = (match exec j u with | .next t => .next (chargeWord k sl j s t) | o => o)
    s.cursor = .issue n (sl :: rest) → x.alive (x.nextSeq sl) = true → decodeWord sl (b.word sl) = .ok i →
    ¬ (sl = .ae ∧ x.awaitDue = true) → ¬ (sl = .ctl ∧ waitgDue s k = true) →
    (b.tag.suppresses (frameOf (b.word sl)) = false → runs i) ∧ (b.tag.suppresses (frameOf (b.word sl)) = true → runs .nop) ∧
    b.word sl = slotWord b.words sl

/-- Reset leaves every register that the spec gives a reset value at that value: port status, CFLCFG, the queues' registers, PAT, HBMCFG,
HBMSTAT, HBMBIST, HBMPART, HMRANGE, PCTL, the checkpoint's registers, STAGE; every partition disabled, the package DETACHED; and every memory
in canonical form. -/
def Obligations.ResetState : Prop :=
  let s := State.reset
  s.memsWf = true ∧ s.pmc.stage = 0 ∧ s.pmc.cfl.state = 0 ∧
  (fld s.pmc.cflcfg 63 56 = 0 ∧ fld s.pmc.cflcfg 55 42 = 100 ∧ fld s.pmc.cflcfg 41 32 = 200 ∧ fld s.pmc.cflcfg 31 25 = 72 ∧
    fld s.pmc.cflcfg 24 18 = min 72 Config.floorCode ∧ fld s.pmc.cflcfg 17 0 = 0) ∧
  (fld s.pmc.ckptctl 63 0 = 0 ∧ s.pmc.ckptdst = 0 ∧ s.pmc.ckptstat = 0) ∧
  (∀ d : DieId, ∀ p ∈ (s.dies[d]).ports.toList, p.fecc = 0 ∧ p.unc = 0 ∧ p.baddst = 0 ∧ p.peermem = 0xFF ∧ p.peerport = 31 ∧ p.state = 0 ∧
    p.aln = false ∧ p.linklat = 0) ∧
  (∀ k : StackId, let x := s.hbms[k]
    (∀ e ∈ x.pat.toList, e = 0) ∧ fld x.hbmcfg 63 16 = 0 ∧ fld x.hbmcfg 15 4 = 2048 ∧ fld x.hbmcfg 3 0 = 3 ∧ x.temp = 0 ∧ x.hot = false ∧
    x.paterr = false ∧ x.swaps = 0 ∧ x.ce = 0 ∧ x.ue = 0 ∧ x.bankfail = 0 ∧ x.bist = 0) ∧
  (∀ p : PartId, let x := s.parts[p]
    x.pctl = 0 ∧ x.en = false ∧ x.hmrange = 0 ∧ fld x.hbmpart 41 32 = 0 ∧ fld x.hbmpart 25 21 = 8 ∧ fld x.hbmpart 17 16 = 0 ∧
    fld x.hbmpart 9 8 = 1 ∧ x.cqbase = 0 ∧ x.cqn = 4 ∧ x.cqhwi = 0 ∧ x.cqdri = 0 ∧ x.cqover = false ∧ x.cqlast = 0 ∧ x.eqbase = 0 ∧
    x.eqn = 4 ∧ x.eqdwi = 0 ∧ x.eqhri = 0 ∧ x.dropped = 0) ∧
  (∀ c : CoreId, (s.cores[c]).run = .idle ∧ (s.cores[c]).queue = [] ∧ (s.cores[c]).ctx.spr.clim = 30720 ∧ (s.cores[c]).ctx.spr.cwin = 256)

/-- No word changes a memory as it issues: stores, copies and credits reach memory later, in their own events; and but for SPAWN no
word changes another core. -/
def Obligations.WordsLeaveMemoryToEvents : Prop :=
  ∀ (i : Instr) (s t : State), i.isWord = true → exec i s = .next t → SameMemories s t ∧
    ((∀ sa k, i ≠ .spawn sa k) → ∀ c : CoreId, c ≠ s.cur.core → t.cores[c] = s.cores[c])

/-- The part always goes on: from every state, one that no run reaches included, a step answers a next state, for every word and every event
that the machine asks of itself is one that can happen then. -/
def Obligations.EveryStepGoesOn : Prop := ∀ s : State, ∃ t, step s = .next t

/-- Every step keeps every memory of the package in canonical form: pools, rows and instruction memories of the cores, what queued tasks have
saved, the synchronization engines' pages, the timetables, HBM, the BAR2 window, the checkpoint's image and the host's memory. -/
def Obligations.MemoryStaysCanonical : Prop := ∀ s t : State, s.memsWf = true → step s = .next t → t.memsWf = true
end

