-- ==== Sys2Proof/Laws/Events.lean ====
section
/-!
SUPPORT. What a due event answers, and what an update of one unit of the package changes, said once.
-/
namespace Sys2Proof.Machine

open Host

/-- An event that is due is performed. -/
theorem event_due {name : String} {due : Bool} {s : State} {f : State → State} (h : due = true) : event name due s f = .next (f s) := if_pos h

/-- An event answers a next state only where it is due. -/
theorem event_next {name : String} {due : Bool} {s t : State} {f : State → State} (h : event name due s f = .next t) : due = true ∧ t = f s := by
  unfold event at h
  split at h
  · exact ⟨‹_›, (Outcome.next.inj h).symm⟩
  · cases h

theorem makes_updCore (s : State) (c : CoreId) (f : Core → Core) : Makes c s (s.updCore c f) (f s.cores[c]) := by
  refine ⟨⟨rfl, fun d hd => ?_⟩, by simp [State.updCore]⟩
  simp only [State.updCore]
  exact Vector.getElem_set_ne _ _ fun h => hd (Fin.ext h.symm)

theorem makes_of_updCore {s : State} {c : CoreId} {f : Core → Core} {d : Core} (h : f s.cores[c] = d) : Makes c s (s.updCore c f) d :=
  h ▸ makes_updCore s c f

theorem makesPart_updPart (s : State) (p : PartId) (f : Part → Part) : MakesPart p s (s.updPart p f) (f s.parts[p]) := by
  refine ⟨⟨rfl, fun d hd => ?_⟩, by simp [State.updPart]⟩
  simp only [State.updPart]
  exact Vector.getElem_set_ne _ _ fun h => hd (Fin.ext h.symm)

theorem makesStack_updStack (s : State) (k : StackId) (f : Stack → Stack) : MakesStack k s (s.updStack k f) (f s.hbms[k]) := by
  refine ⟨⟨rfl, fun d hd => ?_⟩, by simp [State.updStack]⟩
  simp only [State.updStack]
  exact Vector.getElem_set_ne _ _ fun h => hd (Fin.ext h.symm)

theorem makesDie_updDie (s : State) (k : DieId) (f : Die → Die) : MakesDie k s (s.updDie k f) (f s.dies[k]) := by
  refine ⟨⟨rfl, fun d hd => ?_⟩, by simp [State.updDie]⟩
  simp only [State.updDie]
  exact Vector.getElem_set_ne _ _ fun h => hd (Fin.ext h.symm)

end Sys2Proof.Machine
end

