-- ==== Sys2Proof/Laws/State.lean ====
section
/-!
SUPPORT. One lemma for each field of each update of the state, of a core and of a task context: each is true by unfolding the update once, so
that no later proof unfolds it again.
-/
namespace Sys2Proof.Machine

-- State.updCore
@[simp] theorem State.updCore_cursor (s : State) (c : CoreId) (f : Core → Core) : (s.updCore c f).cursor = s.cursor := rfl
@[simp] theorem State.updCore_cur (s : State) (c : CoreId) (f : Core → Core) : (s.updCore c f).cur = s.cur := rfl
@[simp] theorem State.updCore_inputs (s : State) (c : CoreId) (f : Core → Core) : (s.updCore c f).inputs = s.inputs := rfl
@[simp] theorem State.updCore_draws (s : State) (c : CoreId) (f : Core → Core) : (s.updCore c f).draws = s.draws := rfl
@[simp] theorem State.updCore_now (s : State) (c : CoreId) (f : Core → Core) : (s.updCore c f).now = s.now := rfl
@[simp] theorem State.updCore_mcNow (s : State) (c : CoreId) (f : Core → Core) : (s.updCore c f).mcNow = s.mcNow := rfl
@[simp] theorem State.updCore_gcnt (s : State) (c : CoreId) (f : Core → Core) : (s.updCore c f).gcnt = s.gcnt := rfl
@[simp] theorem State.updCore_frac (s : State) (c : CoreId) (f : Core → Core) : (s.updCore c f).frac = s.frac := rfl
@[simp] theorem State.updCore_groupSkew (s : State) (c : CoreId) (f : Core → Core) : (s.updCore c f).groupSkew = s.groupSkew := rfl
@[simp] theorem State.updCore_ceiling (s : State) (c : CoreId) (f : Core → Core) : (s.updCore c f).ceiling = s.ceiling := rfl
@[simp] theorem State.updCore_shake (s : State) (c : CoreId) (f : Core → Core) : (s.updCore c f).shake = s.shake := rfl
@[simp] theorem State.updCore_dies (s : State) (c : CoreId) (f : Core → Core) : (s.updCore c f).dies = s.dies := rfl
@[simp] theorem State.updCore_hbms (s : State) (c : CoreId) (f : Core → Core) : (s.updCore c f).hbms = s.hbms := rfl
@[simp] theorem State.updCore_parts (s : State) (c : CoreId) (f : Core → Core) : (s.updCore c f).parts = s.parts := rfl
@[simp] theorem State.updCore_pmc (s : State) (c : CoreId) (f : Core → Core) : (s.updCore c f).pmc = s.pmc := rfl
@[simp] theorem State.updCore_host (s : State) (c : CoreId) (f : Core → Core) : (s.updCore c f).host = s.host := rfl
@[simp] theorem State.updCore_atoms (s : State) (c : CoreId) (f : Core → Core) : (s.updCore c f).atoms = s.atoms := rfl
@[simp] theorem State.updCore_reqs (s : State) (c : CoreId) (f : Core → Core) : (s.updCore c f).reqs = s.reqs := rfl
@[simp] theorem State.updCore_reqNo (s : State) (c : CoreId) (f : Core → Core) : (s.updCore c f).reqNo = s.reqNo := rfl
@[simp] theorem State.updCore_touched (s : State) (c : CoreId) (f : Core → Core) : (s.updCore c f).touched = s.touched := rfl
@[simp] theorem State.updCore_hostLines (s : State) (c : CoreId) (f : Core → Core) : (s.updCore c f).hostLines = s.hostLines := rfl
@[simp] theorem State.updCore_roundNo (s : State) (c : CoreId) (f : Core → Core) : (s.updCore c f).roundNo = s.roundNo := rfl
@[simp] theorem State.updCore_ords (s : State) (c : CoreId) (f : Core → Core) : (s.updCore c f).ords = s.ords := rfl
@[simp] theorem State.updCore_aborts (s : State) (c : CoreId) (f : Core → Core) : (s.updCore c f).aborts = s.aborts := rfl
@[simp] theorem State.updCore_aborted (s : State) (c : CoreId) (f : Core → Core) : (s.updCore c f).aborted = s.aborted := rfl
@[simp] theorem State.updCore_noticed (s : State) (c : CoreId) (f : Core → Core) : (s.updCore c f).noticed = s.noticed := rfl
@[simp] theorem State.updCore_landed (s : State) (c : CoreId) (f : Core → Core) : (s.updCore c f).landed = s.landed := rfl
@[simp] theorem State.updCore_spoiled (s : State) (c : CoreId) (f : Core → Core) : (s.updCore c f).spoiled = s.spoiled := rfl
@[simp] theorem State.updCore_badLinks (s : State) (c : CoreId) (f : Core → Core) : (s.updCore c f).badLinks = s.badLinks := rfl
@[simp] theorem State.updCore_posted (s : State) (c : CoreId) (f : Core → Core) : (s.updCore c f).posted = s.posted := rfl
@[simp] theorem State.updCore_grants (s : State) (c : CoreId) (f : Core → Core) : (s.updCore c f).grants = s.grants := rfl
@[simp] theorem State.updCore_notices (s : State) (c : CoreId) (f : Core → Core) : (s.updCore c f).notices = s.notices := rfl
@[simp] theorem State.updCore_sent (s : State) (c : CoreId) (f : Core → Core) : (s.updCore c f).sent = s.sent := rfl
-- State.updDie
@[simp] theorem State.updDie_cursor (s : State) (d : DieId) (f : Die → Die) : (s.updDie d f).cursor = s.cursor := rfl
@[simp] theorem State.updDie_cur (s : State) (d : DieId) (f : Die → Die) : (s.updDie d f).cur = s.cur := rfl
@[simp] theorem State.updDie_inputs (s : State) (d : DieId) (f : Die → Die) : (s.updDie d f).inputs = s.inputs := rfl
@[simp] theorem State.updDie_draws (s : State) (d : DieId) (f : Die → Die) : (s.updDie d f).draws = s.draws := rfl
@[simp] theorem State.updDie_now (s : State) (d : DieId) (f : Die → Die) : (s.updDie d f).now = s.now := rfl
@[simp] theorem State.updDie_mcNow (s : State) (d : DieId) (f : Die → Die) : (s.updDie d f).mcNow = s.mcNow := rfl
@[simp] theorem State.updDie_gcnt (s : State) (d : DieId) (f : Die → Die) : (s.updDie d f).gcnt = s.gcnt := rfl
@[simp] theorem State.updDie_frac (s : State) (d : DieId) (f : Die → Die) : (s.updDie d f).frac = s.frac := rfl
@[simp] theorem State.updDie_groupSkew (s : State) (d : DieId) (f : Die → Die) : (s.updDie d f).groupSkew = s.groupSkew := rfl
@[simp] theorem State.updDie_ceiling (s : State) (d : DieId) (f : Die → Die) : (s.updDie d f).ceiling = s.ceiling := rfl
@[simp] theorem State.updDie_shake (s : State) (d : DieId) (f : Die → Die) : (s.updDie d f).shake = s.shake := rfl
@[simp] theorem State.updDie_cores (s : State) (d : DieId) (f : Die → Die) : (s.updDie d f).cores = s.cores := rfl
@[simp] theorem State.updDie_hbms (s : State) (d : DieId) (f : Die → Die) : (s.updDie d f).hbms = s.hbms := rfl
@[simp] theorem State.updDie_parts (s : State) (d : DieId) (f : Die → Die) : (s.updDie d f).parts = s.parts := rfl
@[simp] theorem State.updDie_pmc (s : State) (d : DieId) (f : Die → Die) : (s.updDie d f).pmc = s.pmc := rfl
@[simp] theorem State.updDie_host (s : State) (d : DieId) (f : Die → Die) : (s.updDie d f).host = s.host := rfl
@[simp] theorem State.updDie_atoms (s : State) (d : DieId) (f : Die → Die) : (s.updDie d f).atoms = s.atoms := rfl
@[simp] theorem State.updDie_reqs (s : State) (d : DieId) (f : Die → Die) : (s.updDie d f).reqs = s.reqs := rfl
@[simp] theorem State.updDie_reqNo (s : State) (d : DieId) (f : Die → Die) : (s.updDie d f).reqNo = s.reqNo := rfl
@[simp] theorem State.updDie_touched (s : State) (d : DieId) (f : Die → Die) : (s.updDie d f).touched = s.touched := rfl
@[simp] theorem State.updDie_hostLines (s : State) (d : DieId) (f : Die → Die) : (s.updDie d f).hostLines = s.hostLines := rfl
@[simp] theorem State.updDie_roundNo (s : State) (d : DieId) (f : Die → Die) : (s.updDie d f).roundNo = s.roundNo := rfl
@[simp] theorem State.updDie_ords (s : State) (d : DieId) (f : Die → Die) : (s.updDie d f).ords = s.ords := rfl
@[simp] theorem State.updDie_aborts (s : State) (d : DieId) (f : Die → Die) : (s.updDie d f).aborts = s.aborts := rfl
@[simp] theorem State.updDie_aborted (s : State) (d : DieId) (f : Die → Die) : (s.updDie d f).aborted = s.aborted := rfl
@[simp] theorem State.updDie_noticed (s : State) (d : DieId) (f : Die → Die) : (s.updDie d f).noticed = s.noticed := rfl
@[simp] theorem State.updDie_landed (s : State) (d : DieId) (f : Die → Die) : (s.updDie d f).landed = s.landed := rfl
@[simp] theorem State.updDie_spoiled (s : State) (d : DieId) (f : Die → Die) : (s.updDie d f).spoiled = s.spoiled := rfl
@[simp] theorem State.updDie_badLinks (s : State) (d : DieId) (f : Die → Die) : (s.updDie d f).badLinks = s.badLinks := rfl
@[simp] theorem State.updDie_posted (s : State) (d : DieId) (f : Die → Die) : (s.updDie d f).posted = s.posted := rfl
@[simp] theorem State.updDie_grants (s : State) (d : DieId) (f : Die → Die) : (s.updDie d f).grants = s.grants := rfl
@[simp] theorem State.updDie_notices (s : State) (d : DieId) (f : Die → Die) : (s.updDie d f).notices = s.notices := rfl
@[simp] theorem State.updDie_sent (s : State) (d : DieId) (f : Die → Die) : (s.updDie d f).sent = s.sent := rfl
-- State.updPart
@[simp] theorem State.updPart_cursor (s : State) (p : PartId) (f : Part → Part) : (s.updPart p f).cursor = s.cursor := rfl
@[simp] theorem State.updPart_cur (s : State) (p : PartId) (f : Part → Part) : (s.updPart p f).cur = s.cur := rfl
@[simp] theorem State.updPart_inputs (s : State) (p : PartId) (f : Part → Part) : (s.updPart p f).inputs = s.inputs := rfl
@[simp] theorem State.updPart_draws (s : State) (p : PartId) (f : Part → Part) : (s.updPart p f).draws = s.draws := rfl
@[simp] theorem State.updPart_now (s : State) (p : PartId) (f : Part → Part) : (s.updPart p f).now = s.now := rfl
@[simp] theorem State.updPart_mcNow (s : State) (p : PartId) (f : Part → Part) : (s.updPart p f).mcNow = s.mcNow := rfl
@[simp] theorem State.updPart_gcnt (s : State) (p : PartId) (f : Part → Part) : (s.updPart p f).gcnt = s.gcnt := rfl
@[simp] theorem State.updPart_frac (s : State) (p : PartId) (f : Part → Part) : (s.updPart p f).frac = s.frac := rfl
@[simp] theorem State.updPart_groupSkew (s : State) (p : PartId) (f : Part → Part) : (s.updPart p f).groupSkew = s.groupSkew := rfl
@[simp] theorem State.updPart_ceiling (s : State) (p : PartId) (f : Part → Part) : (s.updPart p f).ceiling = s.ceiling := rfl
@[simp] theorem State.updPart_shake (s : State) (p : PartId) (f : Part → Part) : (s.updPart p f).shake = s.shake := rfl
@[simp] theorem State.updPart_cores (s : State) (p : PartId) (f : Part → Part) : (s.updPart p f).cores = s.cores := rfl
@[simp] theorem State.updPart_dies (s : State) (p : PartId) (f : Part → Part) : (s.updPart p f).dies = s.dies := rfl
@[simp] theorem State.updPart_hbms (s : State) (p : PartId) (f : Part → Part) : (s.updPart p f).hbms = s.hbms := rfl
@[simp] theorem State.updPart_pmc (s : State) (p : PartId) (f : Part → Part) : (s.updPart p f).pmc = s.pmc := rfl
@[simp] theorem State.updPart_host (s : State) (p : PartId) (f : Part → Part) : (s.updPart p f).host = s.host := rfl
@[simp] theorem State.updPart_atoms (s : State) (p : PartId) (f : Part → Part) : (s.updPart p f).atoms = s.atoms := rfl
@[simp] theorem State.updPart_reqs (s : State) (p : PartId) (f : Part → Part) : (s.updPart p f).reqs = s.reqs := rfl
@[simp] theorem State.updPart_reqNo (s : State) (p : PartId) (f : Part → Part) : (s.updPart p f).reqNo = s.reqNo := rfl
@[simp] theorem State.updPart_touched (s : State) (p : PartId) (f : Part → Part) : (s.updPart p f).touched = s.touched := rfl
@[simp] theorem State.updPart_hostLines (s : State) (p : PartId) (f : Part → Part) : (s.updPart p f).hostLines = s.hostLines := rfl
@[simp] theorem State.updPart_roundNo (s : State) (p : PartId) (f : Part → Part) : (s.updPart p f).roundNo = s.roundNo := rfl
@[simp] theorem State.updPart_ords (s : State) (p : PartId) (f : Part → Part) : (s.updPart p f).ords = s.ords := rfl
@[simp] theorem State.updPart_aborts (s : State) (p : PartId) (f : Part → Part) : (s.updPart p f).aborts = s.aborts := rfl
@[simp] theorem State.updPart_aborted (s : State) (p : PartId) (f : Part → Part) : (s.updPart p f).aborted = s.aborted := rfl
@[simp] theorem State.updPart_noticed (s : State) (p : PartId) (f : Part → Part) : (s.updPart p f).noticed = s.noticed := rfl
@[simp] theorem State.updPart_landed (s : State) (p : PartId) (f : Part → Part) : (s.updPart p f).landed = s.landed := rfl
@[simp] theorem State.updPart_spoiled (s : State) (p : PartId) (f : Part → Part) : (s.updPart p f).spoiled = s.spoiled := rfl
@[simp] theorem State.updPart_badLinks (s : State) (p : PartId) (f : Part → Part) : (s.updPart p f).badLinks = s.badLinks := rfl
@[simp] theorem State.updPart_posted (s : State) (p : PartId) (f : Part → Part) : (s.updPart p f).posted = s.posted := rfl
@[simp] theorem State.updPart_grants (s : State) (p : PartId) (f : Part → Part) : (s.updPart p f).grants = s.grants := rfl
@[simp] theorem State.updPart_notices (s : State) (p : PartId) (f : Part → Part) : (s.updPart p f).notices = s.notices := rfl
@[simp] theorem State.updPart_sent (s : State) (p : PartId) (f : Part → Part) : (s.updPart p f).sent = s.sent := rfl
-- State.updStack
@[simp] theorem State.updStack_cursor (s : State) (k : StackId) (f : Stack → Stack) : (s.updStack k f).cursor = s.cursor := rfl
@[simp] theorem State.updStack_cur (s : State) (k : StackId) (f : Stack → Stack) : (s.updStack k f).cur = s.cur := rfl
@[simp] theorem State.updStack_inputs (s : State) (k : StackId) (f : Stack → Stack) : (s.updStack k f).inputs = s.inputs := rfl
@[simp] theorem State.updStack_draws (s : State) (k : StackId) (f : Stack → Stack) : (s.updStack k f).draws = s.draws := rfl
@[simp] theorem State.updStack_now (s : State) (k : StackId) (f : Stack → Stack) : (s.updStack k f).now = s.now := rfl
@[simp] theorem State.updStack_mcNow (s : State) (k : StackId) (f : Stack → Stack) : (s.updStack k f).mcNow = s.mcNow := rfl
@[simp] theorem State.updStack_gcnt (s : State) (k : StackId) (f : Stack → Stack) : (s.updStack k f).gcnt = s.gcnt := rfl
@[simp] theorem State.updStack_frac (s : State) (k : StackId) (f : Stack → Stack) : (s.updStack k f).frac = s.frac := rfl
@[simp] theorem State.updStack_groupSkew (s : State) (k : StackId) (f : Stack → Stack) : (s.updStack k f).groupSkew = s.groupSkew := rfl
@[simp] theorem State.updStack_ceiling (s : State) (k : StackId) (f : Stack → Stack) : (s.updStack k f).ceiling = s.ceiling := rfl
@[simp] theorem State.updStack_shake (s : State) (k : StackId) (f : Stack → Stack) : (s.updStack k f).shake = s.shake := rfl
@[simp] theorem State.updStack_cores (s : State) (k : StackId) (f : Stack → Stack) : (s.updStack k f).cores = s.cores := rfl
@[simp] theorem State.updStack_dies (s : State) (k : StackId) (f : Stack → Stack) : (s.updStack k f).dies = s.dies := rfl
@[simp] theorem State.updStack_parts (s : State) (k : StackId) (f : Stack → Stack) : (s.updStack k f).parts = s.parts := rfl
@[simp] theorem State.updStack_pmc (s : State) (k : StackId) (f : Stack → Stack) : (s.updStack k f).pmc = s.pmc := rfl
@[simp] theorem State.updStack_host (s : State) (k : StackId) (f : Stack → Stack) : (s.updStack k f).host = s.host := rfl
@[simp] theorem State.updStack_atoms (s : State) (k : StackId) (f : Stack → Stack) : (s.updStack k f).atoms = s.atoms := rfl
@[simp] theorem State.updStack_reqs (s : State) (k : StackId) (f : Stack → Stack) : (s.updStack k f).reqs = s.reqs := rfl
@[simp] theorem State.updStack_reqNo (s : State) (k : StackId) (f : Stack → Stack) : (s.updStack k f).reqNo = s.reqNo := rfl
@[simp] theorem State.updStack_touched (s : State) (k : StackId) (f : Stack → Stack) : (s.updStack k f).touched = s.touched := rfl
@[simp] theorem State.updStack_hostLines (s : State) (k : StackId) (f : Stack → Stack) : (s.updStack k f).hostLines = s.hostLines := rfl
@[simp] theorem State.updStack_roundNo (s : State) (k : StackId) (f : Stack → Stack) : (s.updStack k f).roundNo = s.roundNo := rfl
@[simp] theorem State.updStack_ords (s : State) (k : StackId) (f : Stack → Stack) : (s.updStack k f).ords = s.ords := rfl
@[simp] theorem State.updStack_aborts (s : State) (k : StackId) (f : Stack → Stack) : (s.updStack k f).aborts = s.aborts := rfl
@[simp] theorem State.updStack_aborted (s : State) (k : StackId) (f : Stack → Stack) : (s.updStack k f).aborted = s.aborted := rfl
@[simp] theorem State.updStack_noticed (s : State) (k : StackId) (f : Stack → Stack) : (s.updStack k f).noticed = s.noticed := rfl
@[simp] theorem State.updStack_landed (s : State) (k : StackId) (f : Stack → Stack) : (s.updStack k f).landed = s.landed := rfl
@[simp] theorem State.updStack_spoiled (s : State) (k : StackId) (f : Stack → Stack) : (s.updStack k f).spoiled = s.spoiled := rfl
@[simp] theorem State.updStack_badLinks (s : State) (k : StackId) (f : Stack → Stack) : (s.updStack k f).badLinks = s.badLinks := rfl
@[simp] theorem State.updStack_posted (s : State) (k : StackId) (f : Stack → Stack) : (s.updStack k f).posted = s.posted := rfl
@[simp] theorem State.updStack_grants (s : State) (k : StackId) (f : Stack → Stack) : (s.updStack k f).grants = s.grants := rfl
@[simp] theorem State.updStack_notices (s : State) (k : StackId) (f : Stack → Stack) : (s.updStack k f).notices = s.notices := rfl
@[simp] theorem State.updStack_sent (s : State) (k : StackId) (f : Stack → Stack) : (s.updStack k f).sent = s.sent := rfl
-- State.updPmc
@[simp] theorem State.updPmc_cursor (s : State) (f : Pmc → Pmc) : (s.updPmc f).cursor = s.cursor := rfl
@[simp] theorem State.updPmc_cur (s : State) (f : Pmc → Pmc) : (s.updPmc f).cur = s.cur := rfl
@[simp] theorem State.updPmc_inputs (s : State) (f : Pmc → Pmc) : (s.updPmc f).inputs = s.inputs := rfl
@[simp] theorem State.updPmc_draws (s : State) (f : Pmc → Pmc) : (s.updPmc f).draws = s.draws := rfl
@[simp] theorem State.updPmc_now (s : State) (f : Pmc → Pmc) : (s.updPmc f).now = s.now := rfl
@[simp] theorem State.updPmc_mcNow (s : State) (f : Pmc → Pmc) : (s.updPmc f).mcNow = s.mcNow := rfl
@[simp] theorem State.updPmc_gcnt (s : State) (f : Pmc → Pmc) : (s.updPmc f).gcnt = s.gcnt := rfl
@[simp] theorem State.updPmc_frac (s : State) (f : Pmc → Pmc) : (s.updPmc f).frac = s.frac := rfl
@[simp] theorem State.updPmc_groupSkew (s : State) (f : Pmc → Pmc) : (s.updPmc f).groupSkew = s.groupSkew := rfl
@[simp] theorem State.updPmc_ceiling (s : State) (f : Pmc → Pmc) : (s.updPmc f).ceiling = s.ceiling := rfl
@[simp] theorem State.updPmc_shake (s : State) (f : Pmc → Pmc) : (s.updPmc f).shake = s.shake := rfl
@[simp] theorem State.updPmc_cores (s : State) (f : Pmc → Pmc) : (s.updPmc f).cores = s.cores := rfl
@[simp] theorem State.updPmc_dies (s : State) (f : Pmc → Pmc) : (s.updPmc f).dies = s.dies := rfl
@[simp] theorem State.updPmc_hbms (s : State) (f : Pmc → Pmc) : (s.updPmc f).hbms = s.hbms := rfl
@[simp] theorem State.updPmc_parts (s : State) (f : Pmc → Pmc) : (s.updPmc f).parts = s.parts := rfl
@[simp] theorem State.updPmc_host (s : State) (f : Pmc → Pmc) : (s.updPmc f).host = s.host := rfl
@[simp] theorem State.updPmc_atoms (s : State) (f : Pmc → Pmc) : (s.updPmc f).atoms = s.atoms := rfl
@[simp] theorem State.updPmc_reqs (s : State) (f : Pmc → Pmc) : (s.updPmc f).reqs = s.reqs := rfl
@[simp] theorem State.updPmc_reqNo (s : State) (f : Pmc → Pmc) : (s.updPmc f).reqNo = s.reqNo := rfl
@[simp] theorem State.updPmc_touched (s : State) (f : Pmc → Pmc) : (s.updPmc f).touched = s.touched := rfl
@[simp] theorem State.updPmc_hostLines (s : State) (f : Pmc → Pmc) : (s.updPmc f).hostLines = s.hostLines := rfl
@[simp] theorem State.updPmc_roundNo (s : State) (f : Pmc → Pmc) : (s.updPmc f).roundNo = s.roundNo := rfl
@[simp] theorem State.updPmc_ords (s : State) (f : Pmc → Pmc) : (s.updPmc f).ords = s.ords := rfl
@[simp] theorem State.updPmc_aborts (s : State) (f : Pmc → Pmc) : (s.updPmc f).aborts = s.aborts := rfl
@[simp] theorem State.updPmc_aborted (s : State) (f : Pmc → Pmc) : (s.updPmc f).aborted = s.aborted := rfl
@[simp] theorem State.updPmc_noticed (s : State) (f : Pmc → Pmc) : (s.updPmc f).noticed = s.noticed := rfl
@[simp] theorem State.updPmc_landed (s : State) (f : Pmc → Pmc) : (s.updPmc f).landed = s.landed := rfl
@[simp] theorem State.updPmc_spoiled (s : State) (f : Pmc → Pmc) : (s.updPmc f).spoiled = s.spoiled := rfl
@[simp] theorem State.updPmc_badLinks (s : State) (f : Pmc → Pmc) : (s.updPmc f).badLinks = s.badLinks := rfl
@[simp] theorem State.updPmc_posted (s : State) (f : Pmc → Pmc) : (s.updPmc f).posted = s.posted := rfl
@[simp] theorem State.updPmc_grants (s : State) (f : Pmc → Pmc) : (s.updPmc f).grants = s.grants := rfl
@[simp] theorem State.updPmc_notices (s : State) (f : Pmc → Pmc) : (s.updPmc f).notices = s.notices := rfl
@[simp] theorem State.updPmc_sent (s : State) (f : Pmc → Pmc) : (s.updPmc f).sent = s.sent := rfl
-- State.updConfl
@[simp] theorem State.updConfl_cursor (s : State) (f : Confl → Confl) : (s.updConfl f).cursor = s.cursor := rfl
@[simp] theorem State.updConfl_cur (s : State) (f : Confl → Confl) : (s.updConfl f).cur = s.cur := rfl
@[simp] theorem State.updConfl_inputs (s : State) (f : Confl → Confl) : (s.updConfl f).inputs = s.inputs := rfl
@[simp] theorem State.updConfl_draws (s : State) (f : Confl → Confl) : (s.updConfl f).draws = s.draws := rfl
@[simp] theorem State.updConfl_now (s : State) (f : Confl → Confl) : (s.updConfl f).now = s.now := rfl
@[simp] theorem State.updConfl_mcNow (s : State) (f : Confl → Confl) : (s.updConfl f).mcNow = s.mcNow := rfl
@[simp] theorem State.updConfl_gcnt (s : State) (f : Confl → Confl) : (s.updConfl f).gcnt = s.gcnt := rfl
@[simp] theorem State.updConfl_frac (s : State) (f : Confl → Confl) : (s.updConfl f).frac = s.frac := rfl
@[simp] theorem State.updConfl_groupSkew (s : State) (f : Confl → Confl) : (s.updConfl f).groupSkew = s.groupSkew := rfl
@[simp] theorem State.updConfl_ceiling (s : State) (f : Confl → Confl) : (s.updConfl f).ceiling = s.ceiling := rfl
@[simp] theorem State.updConfl_shake (s : State) (f : Confl → Confl) : (s.updConfl f).shake = s.shake := rfl
@[simp] theorem State.updConfl_cores (s : State) (f : Confl → Confl) : (s.updConfl f).cores = s.cores := rfl
@[simp] theorem State.updConfl_dies (s : State) (f : Confl → Confl) : (s.updConfl f).dies = s.dies := rfl
@[simp] theorem State.updConfl_hbms (s : State) (f : Confl → Confl) : (s.updConfl f).hbms = s.hbms := rfl
@[simp] theorem State.updConfl_parts (s : State) (f : Confl → Confl) : (s.updConfl f).parts = s.parts := rfl
@[simp] theorem State.updConfl_host (s : State) (f : Confl → Confl) : (s.updConfl f).host = s.host := rfl
@[simp] theorem State.updConfl_atoms (s : State) (f : Confl → Confl) : (s.updConfl f).atoms = s.atoms := rfl
@[simp] theorem State.updConfl_reqs (s : State) (f : Confl → Confl) : (s.updConfl f).reqs = s.reqs := rfl
@[simp] theorem State.updConfl_reqNo (s : State) (f : Confl → Confl) : (s.updConfl f).reqNo = s.reqNo := rfl
@[simp] theorem State.updConfl_touched (s : State) (f : Confl → Confl) : (s.updConfl f).touched = s.touched := rfl
@[simp] theorem State.updConfl_hostLines (s : State) (f : Confl → Confl) : (s.updConfl f).hostLines = s.hostLines := rfl
@[simp] theorem State.updConfl_roundNo (s : State) (f : Confl → Confl) : (s.updConfl f).roundNo = s.roundNo := rfl
@[simp] theorem State.updConfl_ords (s : State) (f : Confl → Confl) : (s.updConfl f).ords = s.ords := rfl
@[simp] theorem State.updConfl_aborts (s : State) (f : Confl → Confl) : (s.updConfl f).aborts = s.aborts := rfl
@[simp] theorem State.updConfl_aborted (s : State) (f : Confl → Confl) : (s.updConfl f).aborted = s.aborted := rfl
@[simp] theorem State.updConfl_noticed (s : State) (f : Confl → Confl) : (s.updConfl f).noticed = s.noticed := rfl
@[simp] theorem State.updConfl_landed (s : State) (f : Confl → Confl) : (s.updConfl f).landed = s.landed := rfl
@[simp] theorem State.updConfl_spoiled (s : State) (f : Confl → Confl) : (s.updConfl f).spoiled = s.spoiled := rfl
@[simp] theorem State.updConfl_badLinks (s : State) (f : Confl → Confl) : (s.updConfl f).badLinks = s.badLinks := rfl
@[simp] theorem State.updConfl_posted (s : State) (f : Confl → Confl) : (s.updConfl f).posted = s.posted := rfl
@[simp] theorem State.updConfl_grants (s : State) (f : Confl → Confl) : (s.updConfl f).grants = s.grants := rfl
@[simp] theorem State.updConfl_notices (s : State) (f : Confl → Confl) : (s.updConfl f).notices = s.notices := rfl
@[simp] theorem State.updConfl_sent (s : State) (f : Confl → Confl) : (s.updConfl f).sent = s.sent := rfl
@[simp] theorem State.updPmc_pmc (s : State) (f : Pmc → Pmc) : (s.updPmc f).pmc = f s.pmc := rfl
@[simp] theorem State.updConfl_pmc (s : State) (f : Confl → Confl) : (s.updConfl f).pmc = { s.pmc with cfl := f s.pmc.cfl } := rfl
-- State.draw
@[simp] theorem State.draw_fst (s : State) : s.draw.1 = s.draws := rfl
@[simp] theorem State.draw_snd_cursor (s : State) : s.draw.2.cursor = s.cursor := rfl
@[simp] theorem State.draw_snd_cur (s : State) : s.draw.2.cur = s.cur := rfl
@[simp] theorem State.draw_snd_inputs (s : State) : s.draw.2.inputs = s.inputs := rfl
@[simp] theorem State.draw_snd_draws (s : State) : s.draw.2.draws = s.draws + 1 := rfl
@[simp] theorem State.draw_snd_now (s : State) : s.draw.2.now = s.now := rfl
@[simp] theorem State.draw_snd_mcNow (s : State) : s.draw.2.mcNow = s.mcNow := rfl
@[simp] theorem State.draw_snd_gcnt (s : State) : s.draw.2.gcnt = s.gcnt := rfl
@[simp] theorem State.draw_snd_frac (s : State) : s.draw.2.frac = s.frac := rfl
@[simp] theorem State.draw_snd_groupSkew (s : State) : s.draw.2.groupSkew = s.groupSkew := rfl
@[simp] theorem State.draw_snd_ceiling (s : State) : s.draw.2.ceiling = s.ceiling := rfl
@[simp] theorem State.draw_snd_shake (s : State) : s.draw.2.shake = s.shake := rfl
@[simp] theorem State.draw_snd_cores (s : State) : s.draw.2.cores = s.cores := rfl
@[simp] theorem State.draw_snd_dies (s : State) : s.draw.2.dies = s.dies := rfl
@[simp] theorem State.draw_snd_hbms (s : State) : s.draw.2.hbms = s.hbms := rfl
@[simp] theorem State.draw_snd_parts (s : State) : s.draw.2.parts = s.parts := rfl
@[simp] theorem State.draw_snd_pmc (s : State) : s.draw.2.pmc = s.pmc := rfl
@[simp] theorem State.draw_snd_host (s : State) : s.draw.2.host = s.host := rfl
@[simp] theorem State.draw_snd_atoms (s : State) : s.draw.2.atoms = s.atoms := rfl
@[simp] theorem State.draw_snd_reqs (s : State) : s.draw.2.reqs = s.reqs := rfl
@[simp] theorem State.draw_snd_reqNo (s : State) : s.draw.2.reqNo = s.reqNo := rfl
@[simp] theorem State.draw_snd_touched (s : State) : s.draw.2.touched = s.touched := rfl
@[simp] theorem State.draw_snd_hostLines (s : State) : s.draw.2.hostLines = s.hostLines := rfl
@[simp] theorem State.draw_snd_roundNo (s : State) : s.draw.2.roundNo = s.roundNo := rfl
@[simp] theorem State.draw_snd_ords (s : State) : s.draw.2.ords = s.ords := rfl
@[simp] theorem State.draw_snd_aborts (s : State) : s.draw.2.aborts = s.aborts := rfl
@[simp] theorem State.draw_snd_aborted (s : State) : s.draw.2.aborted = s.aborted := rfl
@[simp] theorem State.draw_snd_noticed (s : State) : s.draw.2.noticed = s.noticed := rfl
@[simp] theorem State.draw_snd_landed (s : State) : s.draw.2.landed = s.landed := rfl
@[simp] theorem State.draw_snd_spoiled (s : State) : s.draw.2.spoiled = s.spoiled := rfl
@[simp] theorem State.draw_snd_badLinks (s : State) : s.draw.2.badLinks = s.badLinks := rfl
@[simp] theorem State.draw_snd_posted (s : State) : s.draw.2.posted = s.posted := rfl
@[simp] theorem State.draw_snd_grants (s : State) : s.draw.2.grants = s.grants := rfl
@[simp] theorem State.draw_snd_notices (s : State) : s.draw.2.notices = s.notices := rfl
@[simp] theorem State.draw_snd_sent (s : State) : s.draw.2.sent = s.sent := rfl
-- one of many, changed and not
@[simp] theorem State.updCore_at (s : State) (i : CoreId) (f : Core → Core) : (s.updCore i f).cores[i.val] = f s.cores[i.val] := by
  simp [State.updCore]
theorem State.updCore_other (s : State) (i j : CoreId) (f : Core → Core) (h : j ≠ i) : (s.updCore i f).cores[j] = s.cores[j] := by
  have h2 : i.val ≠ j.val := fun e => h (Fin.ext e.symm)
  simp [State.updCore, h2]
@[simp] theorem State.updDie_at (s : State) (i : DieId) (f : Die → Die) : (s.updDie i f).dies[i.val] = f s.dies[i.val] := by
  simp [State.updDie]
theorem State.updDie_other (s : State) (i j : DieId) (f : Die → Die) (h : j ≠ i) : (s.updDie i f).dies[j] = s.dies[j] := by
  have h2 : i.val ≠ j.val := fun e => h (Fin.ext e.symm)
  simp [State.updDie, h2]
@[simp] theorem State.updPart_at (s : State) (i : PartId) (f : Part → Part) : (s.updPart i f).parts[i.val] = f s.parts[i.val] := by
  simp [State.updPart]
theorem State.updPart_other (s : State) (i j : PartId) (f : Part → Part) (h : j ≠ i) : (s.updPart i f).parts[j] = s.parts[j] := by
  have h2 : i.val ≠ j.val := fun e => h (Fin.ext e.symm)
  simp [State.updPart, h2]
@[simp] theorem State.updStack_at (s : State) (i : StackId) (f : Stack → Stack) : (s.updStack i f).hbms[i.val] = f s.hbms[i.val] := by
  simp [State.updStack]
theorem State.updStack_other (s : State) (i j : StackId) (f : Stack → Stack) (h : j ≠ i) : (s.updStack i f).hbms[j] = s.hbms[j] := by
  have h2 : i.val ≠ j.val := fun e => h (Fin.ext e.symm)
  simp [State.updStack, h2]
-- Core.onCtx
@[simp] theorem Core.onCtx_run (c : Core) (f : TaskCtx → TaskCtx) : (c.onCtx f).run = c.run := rfl
@[simp] theorem Core.onCtx_queue (c : Core) (f : TaskCtx → TaskCtx) : (c.onCtx f).queue = c.queue := rfl
@[simp] theorem Core.onCtx_pool (c : Core) (f : TaskCtx → TaskCtx) : (c.onCtx f).pool = c.pool := rfl
@[simp] theorem Core.onCtx_rows (c : Core) (f : TaskCtx → TaskCtx) : (c.onCtx f).rows = c.rows := rfl
@[simp] theorem Core.onCtx_imem (c : Core) (f : TaskCtx → TaskCtx) : (c.onCtx f).imem = c.imem := rfl
@[simp] theorem Core.onCtx_ccnt (c : Core) (f : TaskCtx → TaskCtx) : (c.onCtx f).ccnt = c.ccnt := rfl
@[simp] theorem Core.onCtx_cyc (c : Core) (f : TaskCtx → TaskCtx) : (c.onCtx f).cyc = c.cyc := rfl
@[simp] theorem Core.onCtx_gskew (c : Core) (f : TaskCtx → TaskCtx) : (c.onCtx f).gskew = c.gskew := rfl
@[simp] theorem Core.onCtx_ghold (c : Core) (f : TaskCtx → TaskCtx) : (c.onCtx f).ghold = c.ghold := rfl
@[simp] theorem Core.onCtx_aligned (c : Core) (f : TaskCtx → TaskCtx) : (c.onCtx f).aligned = c.aligned := rfl
@[simp] theorem Core.onCtx_alignAsk (c : Core) (f : TaskCtx → TaskCtx) : (c.onCtx f).alignAsk = c.alignAsk := rfl
@[simp] theorem Core.onCtx_splitTo (c : Core) (f : TaskCtx → TaskCtx) : (c.onCtx f).splitTo = c.splitTo := rfl
@[simp] theorem Core.onCtx_weights (c : Core) (f : TaskCtx → TaskCtx) : (c.onCtx f).weights = c.weights := rfl
@[simp] theorem Core.onCtx_weight (c : Core) (f : TaskCtx → TaskCtx) : (c.onCtx f).weight = c.weight := rfl
@[simp] theorem Core.onCtx_frzRun (c : Core) (f : TaskCtx → TaskCtx) : (c.onCtx f).frzRun = c.frzRun := rfl
@[simp] theorem Core.onCtx_frozen (c : Core) (f : TaskCtx → TaskCtx) : (c.onCtx f).frozen = c.frozen := rfl
@[simp] theorem Core.onCtx_stalled (c : Core) (f : TaskCtx → TaskCtx) : (c.onCtx f).stalled = c.stalled := rfl
@[simp] theorem Core.onCtx_sub (c : Core) (f : TaskCtx → TaskCtx) : (c.onCtx f).sub = c.sub := rfl
@[simp] theorem Core.onCtx_subW (c : Core) (f : TaskCtx → TaskCtx) : (c.onCtx f).subW = c.subW := rfl
@[simp] theorem Core.onCtx_pred (c : Core) (f : TaskCtx → TaskCtx) : (c.onCtx f).pred = c.pred := rfl
@[simp] theorem Core.onCtx_limHit (c : Core) (f : TaskCtx → TaskCtx) : (c.onCtx f).limHit = c.limHit := rfl
@[simp] theorem Core.onCtx_limFrz (c : Core) (f : TaskCtx → TaskCtx) : (c.onCtx f).limFrz = c.limFrz := rfl
@[simp] theorem Core.onCtx_limCyc (c : Core) (f : TaskCtx → TaskCtx) : (c.onCtx f).limCyc = c.limCyc := rfl
@[simp] theorem Core.onCtx_limLow (c : Core) (f : TaskCtx → TaskCtx) : (c.onCtx f).limLow = c.limLow := rfl
@[simp] theorem Core.onCtx_seqNo (c : Core) (f : TaskCtx → TaskCtx) : (c.onCtx f).seqNo = c.seqNo := rfl
@[simp] theorem Core.onCtx_bundles (c : Core) (f : TaskCtx → TaskCtx) : (c.onCtx f).bundles = c.bundles := rfl
@[simp] theorem Core.onCtx_gone (c : Core) (f : TaskCtx → TaskCtx) : (c.onCtx f).gone = c.gone := rfl
@[simp] theorem Core.onCtx_next (c : Core) (f : TaskCtx → TaskCtx) : (c.onCtx f).next = c.next := rfl
@[simp] theorem Core.onCtx_bound (c : Core) (f : TaskCtx → TaskCtx) : (c.onCtx f).bound = c.bound := rfl
@[simp] theorem Core.onCtx_hold (c : Core) (f : TaskCtx → TaskCtx) : (c.onCtx f).hold = c.hold := rfl
@[simp] theorem Core.onCtx_flights (c : Core) (f : TaskCtx → TaskCtx) : (c.onCtx f).flights = c.flights := rfl
@[simp] theorem Core.onCtx_access (c : Core) (f : TaskCtx → TaskCtx) : (c.onCtx f).access = c.access := rfl
@[simp] theorem Core.onCtx_stores (c : Core) (f : TaskCtx → TaskCtx) : (c.onCtx f).stores = c.stores := rfl
@[simp] theorem Core.onCtx_undo (c : Core) (f : TaskCtx → TaskCtx) : (c.onCtx f).undo = c.undo := rfl
@[simp] theorem Core.onCtx_ctlHold (c : Core) (f : TaskCtx → TaskCtx) : (c.onCtx f).ctlHold = c.ctlHold := rfl
@[simp] theorem Core.onCtx_waitFrom (c : Core) (f : TaskCtx → TaskCtx) : (c.onCtx f).waitFrom = c.waitFrom := rfl
@[simp] theorem Core.onCtx_ret (c : Core) (f : TaskCtx → TaskCtx) : (c.onCtx f).ret = c.ret := rfl
@[simp] theorem Core.onCtx_ptrap (c : Core) (f : TaskCtx → TaskCtx) : (c.onCtx f).ptrap = c.ptrap := rfl
@[simp] theorem Core.onCtx_itraps (c : Core) (f : TaskCtx → TaskCtx) : (c.onCtx f).itraps = c.itraps := rfl
@[simp] theorem Core.onCtx_reports (c : Core) (f : TaskCtx → TaskCtx) : (c.onCtx f).reports = c.reports := rfl
@[simp] theorem Core.onCtx_orders (c : Core) (f : TaskCtx → TaskCtx) : (c.onCtx f).orders = c.orders := rfl
@[simp] theorem Core.onCtx_dropsNow (c : Core) (f : TaskCtx → TaskCtx) : (c.onCtx f).dropsNow = c.dropsNow := rfl
@[simp] theorem Core.onCtx_grants (c : Core) (f : TaskCtx → TaskCtx) : (c.onCtx f).grants = c.grants := rfl
@[simp] theorem Core.onCtx_portBusy (c : Core) (f : TaskCtx → TaskCtx) : (c.onCtx f).portBusy = c.portBusy := rfl
@[simp] theorem Core.onCtx_endWrites (c : Core) (f : TaskCtx → TaskCtx) : (c.onCtx f).endWrites = c.endWrites := rfl
@[simp] theorem Core.onCtx_credits (c : Core) (f : TaskCtx → TaskCtx) : (c.onCtx f).credits = c.credits := rfl
@[simp] theorem Core.onCtx_cbNew (c : Core) (f : TaskCtx → TaskCtx) : (c.onCtx f).cbNew = c.cbNew := rfl
@[simp] theorem Core.onCtx_reached (c : Core) (f : TaskCtx → TaskCtx) : (c.onCtx f).reached = c.reached := rfl
@[simp] theorem Core.onCtx_preempt (c : Core) (f : TaskCtx → TaskCtx) : (c.onCtx f).preempt = c.preempt := rfl
@[simp] theorem Core.onCtx_expired (c : Core) (f : TaskCtx → TaskCtx) : (c.onCtx f).expired = c.expired := rfl
@[simp] theorem Core.onCtx_switch (c : Core) (f : TaskCtx → TaskCtx) : (c.onCtx f).switch = c.switch := rfl
@[simp] theorem Core.onCtx_moved (c : Core) (f : TaskCtx → TaskCtx) : (c.onCtx f).moved = c.moved := rfl
@[simp] theorem Core.onCtx_cutLeft (c : Core) (f : TaskCtx → TaskCtx) : (c.onCtx f).cutLeft = c.cutLeft := rfl
@[simp] theorem Core.onCtx_upsets (c : Core) (f : TaskCtx → TaskCtx) : (c.onCtx f).upsets = c.upsets := rfl
@[simp] theorem Core.onCtx_tlb (c : Core) (f : TaskCtx → TaskCtx) : (c.onCtx f).tlb = c.tlb := rfl
@[simp] theorem Core.onCtx_ceTlb (c : Core) (f : TaskCtx → TaskCtx) : (c.onCtx f).ceTlb = c.ceTlb := rfl
@[simp] theorem Core.onCtx_power (c : Core) (f : TaskCtx → TaskCtx) : (c.onCtx f).power = c.power := rfl
@[simp] theorem Core.onCtx_idleAt (c : Core) (f : TaskCtx → TaskCtx) : (c.onCtx f).idleAt = c.idleAt := rfl
@[simp] theorem Core.onCtx_halted (c : Core) (f : TaskCtx → TaskCtx) : (c.onCtx f).halted = c.halted := rfl
@[simp] theorem Core.onCtx_haltReq (c : Core) (f : TaskCtx → TaskCtx) : (c.onCtx f).haltReq = c.haltReq := rfl
@[simp] theorem Core.onCtx_stepReq (c : Core) (f : TaskCtx → TaskCtx) : (c.onCtx f).stepReq = c.stepReq := rfl
@[simp] theorem Core.onCtx_wake (c : Core) (f : TaskCtx → TaskCtx) : (c.onCtx f).wake = c.wake := rfl
@[simp] theorem Core.onCtx_ev (c : Core) (f : TaskCtx → TaskCtx) : (c.onCtx f).ev = c.ev := rfl
-- Core.onSpr
@[simp] theorem Core.onSpr_run (c : Core) (f : Sprs → Sprs) : (c.onSpr f).run = c.run := rfl
@[simp] theorem Core.onSpr_queue (c : Core) (f : Sprs → Sprs) : (c.onSpr f).queue = c.queue := rfl
@[simp] theorem Core.onSpr_pool (c : Core) (f : Sprs → Sprs) : (c.onSpr f).pool = c.pool := rfl
@[simp] theorem Core.onSpr_rows (c : Core) (f : Sprs → Sprs) : (c.onSpr f).rows = c.rows := rfl
@[simp] theorem Core.onSpr_imem (c : Core) (f : Sprs → Sprs) : (c.onSpr f).imem = c.imem := rfl
@[simp] theorem Core.onSpr_ccnt (c : Core) (f : Sprs → Sprs) : (c.onSpr f).ccnt = c.ccnt := rfl
@[simp] theorem Core.onSpr_cyc (c : Core) (f : Sprs → Sprs) : (c.onSpr f).cyc = c.cyc := rfl
@[simp] theorem Core.onSpr_gskew (c : Core) (f : Sprs → Sprs) : (c.onSpr f).gskew = c.gskew := rfl
@[simp] theorem Core.onSpr_ghold (c : Core) (f : Sprs → Sprs) : (c.onSpr f).ghold = c.ghold := rfl
@[simp] theorem Core.onSpr_aligned (c : Core) (f : Sprs → Sprs) : (c.onSpr f).aligned = c.aligned := rfl
@[simp] theorem Core.onSpr_alignAsk (c : Core) (f : Sprs → Sprs) : (c.onSpr f).alignAsk = c.alignAsk := rfl
@[simp] theorem Core.onSpr_splitTo (c : Core) (f : Sprs → Sprs) : (c.onSpr f).splitTo = c.splitTo := rfl
@[simp] theorem Core.onSpr_weights (c : Core) (f : Sprs → Sprs) : (c.onSpr f).weights = c.weights := rfl
@[simp] theorem Core.onSpr_weight (c : Core) (f : Sprs → Sprs) : (c.onSpr f).weight = c.weight := rfl
@[simp] theorem Core.onSpr_frzRun (c : Core) (f : Sprs → Sprs) : (c.onSpr f).frzRun = c.frzRun := rfl
@[simp] theorem Core.onSpr_frozen (c : Core) (f : Sprs → Sprs) : (c.onSpr f).frozen = c.frozen := rfl
@[simp] theorem Core.onSpr_stalled (c : Core) (f : Sprs → Sprs) : (c.onSpr f).stalled = c.stalled := rfl
@[simp] theorem Core.onSpr_sub (c : Core) (f : Sprs → Sprs) : (c.onSpr f).sub = c.sub := rfl
@[simp] theorem Core.onSpr_subW (c : Core) (f : Sprs → Sprs) : (c.onSpr f).subW = c.subW := rfl
@[simp] theorem Core.onSpr_pred (c : Core) (f : Sprs → Sprs) : (c.onSpr f).pred = c.pred := rfl
@[simp] theorem Core.onSpr_limHit (c : Core) (f : Sprs → Sprs) : (c.onSpr f).limHit = c.limHit := rfl
@[simp] theorem Core.onSpr_limFrz (c : Core) (f : Sprs → Sprs) : (c.onSpr f).limFrz = c.limFrz := rfl
@[simp] theorem Core.onSpr_limCyc (c : Core) (f : Sprs → Sprs) : (c.onSpr f).limCyc = c.limCyc := rfl
@[simp] theorem Core.onSpr_limLow (c : Core) (f : Sprs → Sprs) : (c.onSpr f).limLow = c.limLow := rfl
@[simp] theorem Core.onSpr_seqNo (c : Core) (f : Sprs → Sprs) : (c.onSpr f).seqNo = c.seqNo := rfl
@[simp] theorem Core.onSpr_bundles (c : Core) (f : Sprs → Sprs) : (c.onSpr f).bundles = c.bundles := rfl
@[simp] theorem Core.onSpr_gone (c : Core) (f : Sprs → Sprs) : (c.onSpr f).gone = c.gone := rfl
@[simp] theorem Core.onSpr_next (c : Core) (f : Sprs → Sprs) : (c.onSpr f).next = c.next := rfl
@[simp] theorem Core.onSpr_bound (c : Core) (f : Sprs → Sprs) : (c.onSpr f).bound = c.bound := rfl
@[simp] theorem Core.onSpr_hold (c : Core) (f : Sprs → Sprs) : (c.onSpr f).hold = c.hold := rfl
@[simp] theorem Core.onSpr_flights (c : Core) (f : Sprs → Sprs) : (c.onSpr f).flights = c.flights := rfl
@[simp] theorem Core.onSpr_access (c : Core) (f : Sprs → Sprs) : (c.onSpr f).access = c.access := rfl
@[simp] theorem Core.onSpr_stores (c : Core) (f : Sprs → Sprs) : (c.onSpr f).stores = c.stores := rfl
@[simp] theorem Core.onSpr_undo (c : Core) (f : Sprs → Sprs) : (c.onSpr f).undo = c.undo := rfl
@[simp] theorem Core.onSpr_ctlHold (c : Core) (f : Sprs → Sprs) : (c.onSpr f).ctlHold = c.ctlHold := rfl
@[simp] theorem Core.onSpr_waitFrom (c : Core) (f : Sprs → Sprs) : (c.onSpr f).waitFrom = c.waitFrom := rfl
@[simp] theorem Core.onSpr_ret (c : Core) (f : Sprs → Sprs) : (c.onSpr f).ret = c.ret := rfl
@[simp] theorem Core.onSpr_ptrap (c : Core) (f : Sprs → Sprs) : (c.onSpr f).ptrap = c.ptrap := rfl
@[simp] theorem Core.onSpr_itraps (c : Core) (f : Sprs → Sprs) : (c.onSpr f).itraps = c.itraps := rfl
@[simp] theorem Core.onSpr_reports (c : Core) (f : Sprs → Sprs) : (c.onSpr f).reports = c.reports := rfl
@[simp] theorem Core.onSpr_orders (c : Core) (f : Sprs → Sprs) : (c.onSpr f).orders = c.orders := rfl
@[simp] theorem Core.onSpr_dropsNow (c : Core) (f : Sprs → Sprs) : (c.onSpr f).dropsNow = c.dropsNow := rfl
@[simp] theorem Core.onSpr_grants (c : Core) (f : Sprs → Sprs) : (c.onSpr f).grants = c.grants := rfl
@[simp] theorem Core.onSpr_portBusy (c : Core) (f : Sprs → Sprs) : (c.onSpr f).portBusy = c.portBusy := rfl
@[simp] theorem Core.onSpr_endWrites (c : Core) (f : Sprs → Sprs) : (c.onSpr f).endWrites = c.endWrites := rfl
@[simp] theorem Core.onSpr_credits (c : Core) (f : Sprs → Sprs) : (c.onSpr f).credits = c.credits := rfl
@[simp] theorem Core.onSpr_cbNew (c : Core) (f : Sprs → Sprs) : (c.onSpr f).cbNew = c.cbNew := rfl
@[simp] theorem Core.onSpr_reached (c : Core) (f : Sprs → Sprs) : (c.onSpr f).reached = c.reached := rfl
@[simp] theorem Core.onSpr_preempt (c : Core) (f : Sprs → Sprs) : (c.onSpr f).preempt = c.preempt := rfl
@[simp] theorem Core.onSpr_expired (c : Core) (f : Sprs → Sprs) : (c.onSpr f).expired = c.expired := rfl
@[simp] theorem Core.onSpr_switch (c : Core) (f : Sprs → Sprs) : (c.onSpr f).switch = c.switch := rfl
@[simp] theorem Core.onSpr_moved (c : Core) (f : Sprs → Sprs) : (c.onSpr f).moved = c.moved := rfl
@[simp] theorem Core.onSpr_cutLeft (c : Core) (f : Sprs → Sprs) : (c.onSpr f).cutLeft = c.cutLeft := rfl
@[simp] theorem Core.onSpr_upsets (c : Core) (f : Sprs → Sprs) : (c.onSpr f).upsets = c.upsets := rfl
@[simp] theorem Core.onSpr_tlb (c : Core) (f : Sprs → Sprs) : (c.onSpr f).tlb = c.tlb := rfl
@[simp] theorem Core.onSpr_ceTlb (c : Core) (f : Sprs → Sprs) : (c.onSpr f).ceTlb = c.ceTlb := rfl
@[simp] theorem Core.onSpr_power (c : Core) (f : Sprs → Sprs) : (c.onSpr f).power = c.power := rfl
@[simp] theorem Core.onSpr_idleAt (c : Core) (f : Sprs → Sprs) : (c.onSpr f).idleAt = c.idleAt := rfl
@[simp] theorem Core.onSpr_halted (c : Core) (f : Sprs → Sprs) : (c.onSpr f).halted = c.halted := rfl
@[simp] theorem Core.onSpr_haltReq (c : Core) (f : Sprs → Sprs) : (c.onSpr f).haltReq = c.haltReq := rfl
@[simp] theorem Core.onSpr_stepReq (c : Core) (f : Sprs → Sprs) : (c.onSpr f).stepReq = c.stepReq := rfl
@[simp] theorem Core.onSpr_wake (c : Core) (f : Sprs → Sprs) : (c.onSpr f).wake = c.wake := rfl
@[simp] theorem Core.onSpr_ev (c : Core) (f : Sprs → Sprs) : (c.onSpr f).ev = c.ev := rfl
-- Core.onMxe
@[simp] theorem Core.onMxe_run (c : Core) (f : Mxe → Mxe) : (c.onMxe f).run = c.run := rfl
@[simp] theorem Core.onMxe_queue (c : Core) (f : Mxe → Mxe) : (c.onMxe f).queue = c.queue := rfl
@[simp] theorem Core.onMxe_pool (c : Core) (f : Mxe → Mxe) : (c.onMxe f).pool = c.pool := rfl
@[simp] theorem Core.onMxe_rows (c : Core) (f : Mxe → Mxe) : (c.onMxe f).rows = c.rows := rfl
@[simp] theorem Core.onMxe_imem (c : Core) (f : Mxe → Mxe) : (c.onMxe f).imem = c.imem := rfl
@[simp] theorem Core.onMxe_ccnt (c : Core) (f : Mxe → Mxe) : (c.onMxe f).ccnt = c.ccnt := rfl
@[simp] theorem Core.onMxe_cyc (c : Core) (f : Mxe → Mxe) : (c.onMxe f).cyc = c.cyc := rfl
@[simp] theorem Core.onMxe_gskew (c : Core) (f : Mxe → Mxe) : (c.onMxe f).gskew = c.gskew := rfl
@[simp] theorem Core.onMxe_ghold (c : Core) (f : Mxe → Mxe) : (c.onMxe f).ghold = c.ghold := rfl
@[simp] theorem Core.onMxe_aligned (c : Core) (f : Mxe → Mxe) : (c.onMxe f).aligned = c.aligned := rfl
@[simp] theorem Core.onMxe_alignAsk (c : Core) (f : Mxe → Mxe) : (c.onMxe f).alignAsk = c.alignAsk := rfl
@[simp] theorem Core.onMxe_splitTo (c : Core) (f : Mxe → Mxe) : (c.onMxe f).splitTo = c.splitTo := rfl
@[simp] theorem Core.onMxe_weights (c : Core) (f : Mxe → Mxe) : (c.onMxe f).weights = c.weights := rfl
@[simp] theorem Core.onMxe_weight (c : Core) (f : Mxe → Mxe) : (c.onMxe f).weight = c.weight := rfl
@[simp] theorem Core.onMxe_frzRun (c : Core) (f : Mxe → Mxe) : (c.onMxe f).frzRun = c.frzRun := rfl
@[simp] theorem Core.onMxe_frozen (c : Core) (f : Mxe → Mxe) : (c.onMxe f).frozen = c.frozen := rfl
@[simp] theorem Core.onMxe_stalled (c : Core) (f : Mxe → Mxe) : (c.onMxe f).stalled = c.stalled := rfl
@[simp] theorem Core.onMxe_sub (c : Core) (f : Mxe → Mxe) : (c.onMxe f).sub = c.sub := rfl
@[simp] theorem Core.onMxe_subW (c : Core) (f : Mxe → Mxe) : (c.onMxe f).subW = c.subW := rfl
@[simp] theorem Core.onMxe_pred (c : Core) (f : Mxe → Mxe) : (c.onMxe f).pred = c.pred := rfl
@[simp] theorem Core.onMxe_limHit (c : Core) (f : Mxe → Mxe) : (c.onMxe f).limHit = c.limHit := rfl
@[simp] theorem Core.onMxe_limFrz (c : Core) (f : Mxe → Mxe) : (c.onMxe f).limFrz = c.limFrz := rfl
@[simp] theorem Core.onMxe_limCyc (c : Core) (f : Mxe → Mxe) : (c.onMxe f).limCyc = c.limCyc := rfl
@[simp] theorem Core.onMxe_limLow (c : Core) (f : Mxe → Mxe) : (c.onMxe f).limLow = c.limLow := rfl
@[simp] theorem Core.onMxe_seqNo (c : Core) (f : Mxe → Mxe) : (c.onMxe f).seqNo = c.seqNo := rfl
@[simp] theorem Core.onMxe_bundles (c : Core) (f : Mxe → Mxe) : (c.onMxe f).bundles = c.bundles := rfl
@[simp] theorem Core.onMxe_gone (c : Core) (f : Mxe → Mxe) : (c.onMxe f).gone = c.gone := rfl
@[simp] theorem Core.onMxe_next (c : Core) (f : Mxe → Mxe) : (c.onMxe f).next = c.next := rfl
@[simp] theorem Core.onMxe_bound (c : Core) (f : Mxe → Mxe) : (c.onMxe f).bound = c.bound := rfl
@[simp] theorem Core.onMxe_hold (c : Core) (f : Mxe → Mxe) : (c.onMxe f).hold = c.hold := rfl
@[simp] theorem Core.onMxe_flights (c : Core) (f : Mxe → Mxe) : (c.onMxe f).flights = c.flights := rfl
@[simp] theorem Core.onMxe_access (c : Core) (f : Mxe → Mxe) : (c.onMxe f).access = c.access := rfl
@[simp] theorem Core.onMxe_stores (c : Core) (f : Mxe → Mxe) : (c.onMxe f).stores = c.stores := rfl
@[simp] theorem Core.onMxe_undo (c : Core) (f : Mxe → Mxe) : (c.onMxe f).undo = c.undo := rfl
@[simp] theorem Core.onMxe_ctlHold (c : Core) (f : Mxe → Mxe) : (c.onMxe f).ctlHold = c.ctlHold := rfl
@[simp] theorem Core.onMxe_waitFrom (c : Core) (f : Mxe → Mxe) : (c.onMxe f).waitFrom = c.waitFrom := rfl
@[simp] theorem Core.onMxe_ret (c : Core) (f : Mxe → Mxe) : (c.onMxe f).ret = c.ret := rfl
@[simp] theorem Core.onMxe_ptrap (c : Core) (f : Mxe → Mxe) : (c.onMxe f).ptrap = c.ptrap := rfl
@[simp] theorem Core.onMxe_itraps (c : Core) (f : Mxe → Mxe) : (c.onMxe f).itraps = c.itraps := rfl
@[simp] theorem Core.onMxe_reports (c : Core) (f : Mxe → Mxe) : (c.onMxe f).reports = c.reports := rfl
@[simp] theorem Core.onMxe_orders (c : Core) (f : Mxe → Mxe) : (c.onMxe f).orders = c.orders := rfl
@[simp] theorem Core.onMxe_dropsNow (c : Core) (f : Mxe → Mxe) : (c.onMxe f).dropsNow = c.dropsNow := rfl
@[simp] theorem Core.onMxe_grants (c : Core) (f : Mxe → Mxe) : (c.onMxe f).grants = c.grants := rfl
@[simp] theorem Core.onMxe_portBusy (c : Core) (f : Mxe → Mxe) : (c.onMxe f).portBusy = c.portBusy := rfl
@[simp] theorem Core.onMxe_endWrites (c : Core) (f : Mxe → Mxe) : (c.onMxe f).endWrites = c.endWrites := rfl
@[simp] theorem Core.onMxe_credits (c : Core) (f : Mxe → Mxe) : (c.onMxe f).credits = c.credits := rfl
@[simp] theorem Core.onMxe_cbNew (c : Core) (f : Mxe → Mxe) : (c.onMxe f).cbNew = c.cbNew := rfl
@[simp] theorem Core.onMxe_reached (c : Core) (f : Mxe → Mxe) : (c.onMxe f).reached = c.reached := rfl
@[simp] theorem Core.onMxe_preempt (c : Core) (f : Mxe → Mxe) : (c.onMxe f).preempt = c.preempt := rfl
@[simp] theorem Core.onMxe_expired (c : Core) (f : Mxe → Mxe) : (c.onMxe f).expired = c.expired := rfl
@[simp] theorem Core.onMxe_switch (c : Core) (f : Mxe → Mxe) : (c.onMxe f).switch = c.switch := rfl
@[simp] theorem Core.onMxe_moved (c : Core) (f : Mxe → Mxe) : (c.onMxe f).moved = c.moved := rfl
@[simp] theorem Core.onMxe_cutLeft (c : Core) (f : Mxe → Mxe) : (c.onMxe f).cutLeft = c.cutLeft := rfl
@[simp] theorem Core.onMxe_upsets (c : Core) (f : Mxe → Mxe) : (c.onMxe f).upsets = c.upsets := rfl
@[simp] theorem Core.onMxe_tlb (c : Core) (f : Mxe → Mxe) : (c.onMxe f).tlb = c.tlb := rfl
@[simp] theorem Core.onMxe_ceTlb (c : Core) (f : Mxe → Mxe) : (c.onMxe f).ceTlb = c.ceTlb := rfl
@[simp] theorem Core.onMxe_power (c : Core) (f : Mxe → Mxe) : (c.onMxe f).power = c.power := rfl
@[simp] theorem Core.onMxe_idleAt (c : Core) (f : Mxe → Mxe) : (c.onMxe f).idleAt = c.idleAt := rfl
@[simp] theorem Core.onMxe_halted (c : Core) (f : Mxe → Mxe) : (c.onMxe f).halted = c.halted := rfl
@[simp] theorem Core.onMxe_haltReq (c : Core) (f : Mxe → Mxe) : (c.onMxe f).haltReq = c.haltReq := rfl
@[simp] theorem Core.onMxe_stepReq (c : Core) (f : Mxe → Mxe) : (c.onMxe f).stepReq = c.stepReq := rfl
@[simp] theorem Core.onMxe_wake (c : Core) (f : Mxe → Mxe) : (c.onMxe f).wake = c.wake := rfl
@[simp] theorem Core.onMxe_ev (c : Core) (f : Mxe → Mxe) : (c.onMxe f).ev = c.ev := rfl
-- Core.onAf
@[simp] theorem Core.onAf_run (c : Core) (f : Af → Af) : (c.onAf f).run = c.run := rfl
@[simp] theorem Core.onAf_queue (c : Core) (f : Af → Af) : (c.onAf f).queue = c.queue := rfl
@[simp] theorem Core.onAf_pool (c : Core) (f : Af → Af) : (c.onAf f).pool = c.pool := rfl
@[simp] theorem Core.onAf_rows (c : Core) (f : Af → Af) : (c.onAf f).rows = c.rows := rfl
@[simp] theorem Core.onAf_imem (c : Core) (f : Af → Af) : (c.onAf f).imem = c.imem := rfl
@[simp] theorem Core.onAf_ccnt (c : Core) (f : Af → Af) : (c.onAf f).ccnt = c.ccnt := rfl
@[simp] theorem Core.onAf_cyc (c : Core) (f : Af → Af) : (c.onAf f).cyc = c.cyc := rfl
@[simp] theorem Core.onAf_gskew (c : Core) (f : Af → Af) : (c.onAf f).gskew = c.gskew := rfl
@[simp] theorem Core.onAf_ghold (c : Core) (f : Af → Af) : (c.onAf f).ghold = c.ghold := rfl
@[simp] theorem Core.onAf_aligned (c : Core) (f : Af → Af) : (c.onAf f).aligned = c.aligned := rfl
@[simp] theorem Core.onAf_alignAsk (c : Core) (f : Af → Af) : (c.onAf f).alignAsk = c.alignAsk := rfl
@[simp] theorem Core.onAf_splitTo (c : Core) (f : Af → Af) : (c.onAf f).splitTo = c.splitTo := rfl
@[simp] theorem Core.onAf_weights (c : Core) (f : Af → Af) : (c.onAf f).weights = c.weights := rfl
@[simp] theorem Core.onAf_weight (c : Core) (f : Af → Af) : (c.onAf f).weight = c.weight := rfl
@[simp] theorem Core.onAf_frzRun (c : Core) (f : Af → Af) : (c.onAf f).frzRun = c.frzRun := rfl
@[simp] theorem Core.onAf_frozen (c : Core) (f : Af → Af) : (c.onAf f).frozen = c.frozen := rfl
@[simp] theorem Core.onAf_stalled (c : Core) (f : Af → Af) : (c.onAf f).stalled = c.stalled := rfl
@[simp] theorem Core.onAf_sub (c : Core) (f : Af → Af) : (c.onAf f).sub = c.sub := rfl
@[simp] theorem Core.onAf_subW (c : Core) (f : Af → Af) : (c.onAf f).subW = c.subW := rfl
@[simp] theorem Core.onAf_pred (c : Core) (f : Af → Af) : (c.onAf f).pred = c.pred := rfl
@[simp] theorem Core.onAf_limHit (c : Core) (f : Af → Af) : (c.onAf f).limHit = c.limHit := rfl
@[simp] theorem Core.onAf_limFrz (c : Core) (f : Af → Af) : (c.onAf f).limFrz = c.limFrz := rfl
@[simp] theorem Core.onAf_limCyc (c : Core) (f : Af → Af) : (c.onAf f).limCyc = c.limCyc := rfl
@[simp] theorem Core.onAf_limLow (c : Core) (f : Af → Af) : (c.onAf f).limLow = c.limLow := rfl
@[simp] theorem Core.onAf_seqNo (c : Core) (f : Af → Af) : (c.onAf f).seqNo = c.seqNo := rfl
@[simp] theorem Core.onAf_bundles (c : Core) (f : Af → Af) : (c.onAf f).bundles = c.bundles := rfl
@[simp] theorem Core.onAf_gone (c : Core) (f : Af → Af) : (c.onAf f).gone = c.gone := rfl
@[simp] theorem Core.onAf_next (c : Core) (f : Af → Af) : (c.onAf f).next = c.next := rfl
@[simp] theorem Core.onAf_bound (c : Core) (f : Af → Af) : (c.onAf f).bound = c.bound := rfl
@[simp] theorem Core.onAf_hold (c : Core) (f : Af → Af) : (c.onAf f).hold = c.hold := rfl
@[simp] theorem Core.onAf_flights (c : Core) (f : Af → Af) : (c.onAf f).flights = c.flights := rfl
@[simp] theorem Core.onAf_access (c : Core) (f : Af → Af) : (c.onAf f).access = c.access := rfl
@[simp] theorem Core.onAf_stores (c : Core) (f : Af → Af) : (c.onAf f).stores = c.stores := rfl
@[simp] theorem Core.onAf_undo (c : Core) (f : Af → Af) : (c.onAf f).undo = c.undo := rfl
@[simp] theorem Core.onAf_ctlHold (c : Core) (f : Af → Af) : (c.onAf f).ctlHold = c.ctlHold := rfl
@[simp] theorem Core.onAf_waitFrom (c : Core) (f : Af → Af) : (c.onAf f).waitFrom = c.waitFrom := rfl
@[simp] theorem Core.onAf_ret (c : Core) (f : Af → Af) : (c.onAf f).ret = c.ret := rfl
@[simp] theorem Core.onAf_ptrap (c : Core) (f : Af → Af) : (c.onAf f).ptrap = c.ptrap := rfl
@[simp] theorem Core.onAf_itraps (c : Core) (f : Af → Af) : (c.onAf f).itraps = c.itraps := rfl
@[simp] theorem Core.onAf_reports (c : Core) (f : Af → Af) : (c.onAf f).reports = c.reports := rfl
@[simp] theorem Core.onAf_orders (c : Core) (f : Af → Af) : (c.onAf f).orders = c.orders := rfl
@[simp] theorem Core.onAf_dropsNow (c : Core) (f : Af → Af) : (c.onAf f).dropsNow = c.dropsNow := rfl
@[simp] theorem Core.onAf_grants (c : Core) (f : Af → Af) : (c.onAf f).grants = c.grants := rfl
@[simp] theorem Core.onAf_portBusy (c : Core) (f : Af → Af) : (c.onAf f).portBusy = c.portBusy := rfl
@[simp] theorem Core.onAf_endWrites (c : Core) (f : Af → Af) : (c.onAf f).endWrites = c.endWrites := rfl
@[simp] theorem Core.onAf_credits (c : Core) (f : Af → Af) : (c.onAf f).credits = c.credits := rfl
@[simp] theorem Core.onAf_cbNew (c : Core) (f : Af → Af) : (c.onAf f).cbNew = c.cbNew := rfl
@[simp] theorem Core.onAf_reached (c : Core) (f : Af → Af) : (c.onAf f).reached = c.reached := rfl
@[simp] theorem Core.onAf_preempt (c : Core) (f : Af → Af) : (c.onAf f).preempt = c.preempt := rfl
@[simp] theorem Core.onAf_expired (c : Core) (f : Af → Af) : (c.onAf f).expired = c.expired := rfl
@[simp] theorem Core.onAf_switch (c : Core) (f : Af → Af) : (c.onAf f).switch = c.switch := rfl
@[simp] theorem Core.onAf_moved (c : Core) (f : Af → Af) : (c.onAf f).moved = c.moved := rfl
@[simp] theorem Core.onAf_cutLeft (c : Core) (f : Af → Af) : (c.onAf f).cutLeft = c.cutLeft := rfl
@[simp] theorem Core.onAf_upsets (c : Core) (f : Af → Af) : (c.onAf f).upsets = c.upsets := rfl
@[simp] theorem Core.onAf_tlb (c : Core) (f : Af → Af) : (c.onAf f).tlb = c.tlb := rfl
@[simp] theorem Core.onAf_ceTlb (c : Core) (f : Af → Af) : (c.onAf f).ceTlb = c.ceTlb := rfl
@[simp] theorem Core.onAf_power (c : Core) (f : Af → Af) : (c.onAf f).power = c.power := rfl
@[simp] theorem Core.onAf_idleAt (c : Core) (f : Af → Af) : (c.onAf f).idleAt = c.idleAt := rfl
@[simp] theorem Core.onAf_halted (c : Core) (f : Af → Af) : (c.onAf f).halted = c.halted := rfl
@[simp] theorem Core.onAf_haltReq (c : Core) (f : Af → Af) : (c.onAf f).haltReq = c.haltReq := rfl
@[simp] theorem Core.onAf_stepReq (c : Core) (f : Af → Af) : (c.onAf f).stepReq = c.stepReq := rfl
@[simp] theorem Core.onAf_wake (c : Core) (f : Af → Af) : (c.onAf f).wake = c.wake := rfl
@[simp] theorem Core.onAf_ev (c : Core) (f : Af → Af) : (c.onAf f).ev = c.ev := rfl
-- Core.onQueue
@[simp] theorem Core.onQueue_run (c : Core) (q : BitVec 3) (f : Queue → Queue) : (c.onQueue q f).run = c.run := rfl
@[simp] theorem Core.onQueue_queue (c : Core) (q : BitVec 3) (f : Queue → Queue) : (c.onQueue q f).queue = c.queue := rfl
@[simp] theorem Core.onQueue_pool (c : Core) (q : BitVec 3) (f : Queue → Queue) : (c.onQueue q f).pool = c.pool := rfl
@[simp] theorem Core.onQueue_rows (c : Core) (q : BitVec 3) (f : Queue → Queue) : (c.onQueue q f).rows = c.rows := rfl
@[simp] theorem Core.onQueue_imem (c : Core) (q : BitVec 3) (f : Queue → Queue) : (c.onQueue q f).imem = c.imem := rfl
@[simp] theorem Core.onQueue_ccnt (c : Core) (q : BitVec 3) (f : Queue → Queue) : (c.onQueue q f).ccnt = c.ccnt := rfl
@[simp] theorem Core.onQueue_cyc (c : Core) (q : BitVec 3) (f : Queue → Queue) : (c.onQueue q f).cyc = c.cyc := rfl
@[simp] theorem Core.onQueue_gskew (c : Core) (q : BitVec 3) (f : Queue → Queue) : (c.onQueue q f).gskew = c.gskew := rfl
@[simp] theorem Core.onQueue_ghold (c : Core) (q : BitVec 3) (f : Queue → Queue) : (c.onQueue q f).ghold = c.ghold := rfl
@[simp] theorem Core.onQueue_aligned (c : Core) (q : BitVec 3) (f : Queue → Queue) : (c.onQueue q f).aligned = c.aligned := rfl
@[simp] theorem Core.onQueue_alignAsk (c : Core) (q : BitVec 3) (f : Queue → Queue) : (c.onQueue q f).alignAsk = c.alignAsk := rfl
@[simp] theorem Core.onQueue_splitTo (c : Core) (q : BitVec 3) (f : Queue → Queue) : (c.onQueue q f).splitTo = c.splitTo := rfl
@[simp] theorem Core.onQueue_weights (c : Core) (q : BitVec 3) (f : Queue → Queue) : (c.onQueue q f).weights = c.weights := rfl
@[simp] theorem Core.onQueue_weight (c : Core) (q : BitVec 3) (f : Queue → Queue) : (c.onQueue q f).weight = c.weight := rfl
@[simp] theorem Core.onQueue_frzRun (c : Core) (q : BitVec 3) (f : Queue → Queue) : (c.onQueue q f).frzRun = c.frzRun := rfl
@[simp] theorem Core.onQueue_frozen (c : Core) (q : BitVec 3) (f : Queue → Queue) : (c.onQueue q f).frozen = c.frozen := rfl
@[simp] theorem Core.onQueue_stalled (c : Core) (q : BitVec 3) (f : Queue → Queue) : (c.onQueue q f).stalled = c.stalled := rfl
@[simp] theorem Core.onQueue_sub (c : Core) (q : BitVec 3) (f : Queue → Queue) : (c.onQueue q f).sub = c.sub := rfl
@[simp] theorem Core.onQueue_subW (c : Core) (q : BitVec 3) (f : Queue → Queue) : (c.onQueue q f).subW = c.subW := rfl
@[simp] theorem Core.onQueue_pred (c : Core) (q : BitVec 3) (f : Queue → Queue) : (c.onQueue q f).pred = c.pred := rfl
@[simp] theorem Core.onQueue_limHit (c : Core) (q : BitVec 3) (f : Queue → Queue) : (c.onQueue q f).limHit = c.limHit := rfl
@[simp] theorem Core.onQueue_limFrz (c : Core) (q : BitVec 3) (f : Queue → Queue) : (c.onQueue q f).limFrz = c.limFrz := rfl
@[simp] theorem Core.onQueue_limCyc (c : Core) (q : BitVec 3) (f : Queue → Queue) : (c.onQueue q f).limCyc = c.limCyc := rfl
@[simp] theorem Core.onQueue_limLow (c : Core) (q : BitVec 3) (f : Queue → Queue) : (c.onQueue q f).limLow = c.limLow := rfl
@[simp] theorem Core.onQueue_seqNo (c : Core) (q : BitVec 3) (f : Queue → Queue) : (c.onQueue q f).seqNo = c.seqNo := rfl
@[simp] theorem Core.onQueue_bundles (c : Core) (q : BitVec 3) (f : Queue → Queue) : (c.onQueue q f).bundles = c.bundles := rfl
@[simp] theorem Core.onQueue_gone (c : Core) (q : BitVec 3) (f : Queue → Queue) : (c.onQueue q f).gone = c.gone := rfl
@[simp] theorem Core.onQueue_next (c : Core) (q : BitVec 3) (f : Queue → Queue) : (c.onQueue q f).next = c.next := rfl
@[simp] theorem Core.onQueue_bound (c : Core) (q : BitVec 3) (f : Queue → Queue) : (c.onQueue q f).bound = c.bound := rfl
@[simp] theorem Core.onQueue_hold (c : Core) (q : BitVec 3) (f : Queue → Queue) : (c.onQueue q f).hold = c.hold := rfl
@[simp] theorem Core.onQueue_flights (c : Core) (q : BitVec 3) (f : Queue → Queue) : (c.onQueue q f).flights = c.flights := rfl
@[simp] theorem Core.onQueue_access (c : Core) (q : BitVec 3) (f : Queue → Queue) : (c.onQueue q f).access = c.access := rfl
@[simp] theorem Core.onQueue_stores (c : Core) (q : BitVec 3) (f : Queue → Queue) : (c.onQueue q f).stores = c.stores := rfl
@[simp] theorem Core.onQueue_undo (c : Core) (q : BitVec 3) (f : Queue → Queue) : (c.onQueue q f).undo = c.undo := rfl
@[simp] theorem Core.onQueue_ctlHold (c : Core) (q : BitVec 3) (f : Queue → Queue) : (c.onQueue q f).ctlHold = c.ctlHold := rfl
@[simp] theorem Core.onQueue_waitFrom (c : Core) (q : BitVec 3) (f : Queue → Queue) : (c.onQueue q f).waitFrom = c.waitFrom := rfl
@[simp] theorem Core.onQueue_ret (c : Core) (q : BitVec 3) (f : Queue → Queue) : (c.onQueue q f).ret = c.ret := rfl
@[simp] theorem Core.onQueue_ptrap (c : Core) (q : BitVec 3) (f : Queue → Queue) : (c.onQueue q f).ptrap = c.ptrap := rfl
@[simp] theorem Core.onQueue_itraps (c : Core) (q : BitVec 3) (f : Queue → Queue) : (c.onQueue q f).itraps = c.itraps := rfl
@[simp] theorem Core.onQueue_reports (c : Core) (q : BitVec 3) (f : Queue → Queue) : (c.onQueue q f).reports = c.reports := rfl
@[simp] theorem Core.onQueue_orders (c : Core) (q : BitVec 3) (f : Queue → Queue) : (c.onQueue q f).orders = c.orders := rfl
@[simp] theorem Core.onQueue_dropsNow (c : Core) (q : BitVec 3) (f : Queue → Queue) : (c.onQueue q f).dropsNow = c.dropsNow := rfl
@[simp] theorem Core.onQueue_grants (c : Core) (q : BitVec 3) (f : Queue → Queue) : (c.onQueue q f).grants = c.grants := rfl
@[simp] theorem Core.onQueue_portBusy (c : Core) (q : BitVec 3) (f : Queue → Queue) : (c.onQueue q f).portBusy = c.portBusy := rfl
@[simp] theorem Core.onQueue_endWrites (c : Core) (q : BitVec 3) (f : Queue → Queue) : (c.onQueue q f).endWrites = c.endWrites := rfl
@[simp] theorem Core.onQueue_credits (c : Core) (q : BitVec 3) (f : Queue → Queue) : (c.onQueue q f).credits = c.credits := rfl
@[simp] theorem Core.onQueue_cbNew (c : Core) (q : BitVec 3) (f : Queue → Queue) : (c.onQueue q f).cbNew = c.cbNew := rfl
@[simp] theorem Core.onQueue_reached (c : Core) (q : BitVec 3) (f : Queue → Queue) : (c.onQueue q f).reached = c.reached := rfl
@[simp] theorem Core.onQueue_preempt (c : Core) (q : BitVec 3) (f : Queue → Queue) : (c.onQueue q f).preempt = c.preempt := rfl
@[simp] theorem Core.onQueue_expired (c : Core) (q : BitVec 3) (f : Queue → Queue) : (c.onQueue q f).expired = c.expired := rfl
@[simp] theorem Core.onQueue_switch (c : Core) (q : BitVec 3) (f : Queue → Queue) : (c.onQueue q f).switch = c.switch := rfl
@[simp] theorem Core.onQueue_moved (c : Core) (q : BitVec 3) (f : Queue → Queue) : (c.onQueue q f).moved = c.moved := rfl
@[simp] theorem Core.onQueue_cutLeft (c : Core) (q : BitVec 3) (f : Queue → Queue) : (c.onQueue q f).cutLeft = c.cutLeft := rfl
@[simp] theorem Core.onQueue_upsets (c : Core) (q : BitVec 3) (f : Queue → Queue) : (c.onQueue q f).upsets = c.upsets := rfl
@[simp] theorem Core.onQueue_tlb (c : Core) (q : BitVec 3) (f : Queue → Queue) : (c.onQueue q f).tlb = c.tlb := rfl
@[simp] theorem Core.onQueue_ceTlb (c : Core) (q : BitVec 3) (f : Queue → Queue) : (c.onQueue q f).ceTlb = c.ceTlb := rfl
@[simp] theorem Core.onQueue_power (c : Core) (q : BitVec 3) (f : Queue → Queue) : (c.onQueue q f).power = c.power := rfl
@[simp] theorem Core.onQueue_idleAt (c : Core) (q : BitVec 3) (f : Queue → Queue) : (c.onQueue q f).idleAt = c.idleAt := rfl
@[simp] theorem Core.onQueue_halted (c : Core) (q : BitVec 3) (f : Queue → Queue) : (c.onQueue q f).halted = c.halted := rfl
@[simp] theorem Core.onQueue_haltReq (c : Core) (q : BitVec 3) (f : Queue → Queue) : (c.onQueue q f).haltReq = c.haltReq := rfl
@[simp] theorem Core.onQueue_stepReq (c : Core) (q : BitVec 3) (f : Queue → Queue) : (c.onQueue q f).stepReq = c.stepReq := rfl
@[simp] theorem Core.onQueue_wake (c : Core) (q : BitVec 3) (f : Queue → Queue) : (c.onQueue q f).wake = c.wake := rfl
@[simp] theorem Core.onQueue_ev (c : Core) (q : BitVec 3) (f : Queue → Queue) : (c.onQueue q f).ev = c.ev := rfl
-- Core.setCb
@[simp] theorem Core.setCb_run (c : Core) (i : BitVec 5) (b : CircBuf) : (c.setCb i b).run = c.run := rfl
@[simp] theorem Core.setCb_queue (c : Core) (i : BitVec 5) (b : CircBuf) : (c.setCb i b).queue = c.queue := rfl
@[simp] theorem Core.setCb_pool (c : Core) (i : BitVec 5) (b : CircBuf) : (c.setCb i b).pool = c.pool := rfl
@[simp] theorem Core.setCb_rows (c : Core) (i : BitVec 5) (b : CircBuf) : (c.setCb i b).rows = c.rows := rfl
@[simp] theorem Core.setCb_imem (c : Core) (i : BitVec 5) (b : CircBuf) : (c.setCb i b).imem = c.imem := rfl
@[simp] theorem Core.setCb_ccnt (c : Core) (i : BitVec 5) (b : CircBuf) : (c.setCb i b).ccnt = c.ccnt := rfl
@[simp] theorem Core.setCb_cyc (c : Core) (i : BitVec 5) (b : CircBuf) : (c.setCb i b).cyc = c.cyc := rfl
@[simp] theorem Core.setCb_gskew (c : Core) (i : BitVec 5) (b : CircBuf) : (c.setCb i b).gskew = c.gskew := rfl
@[simp] theorem Core.setCb_ghold (c : Core) (i : BitVec 5) (b : CircBuf) : (c.setCb i b).ghold = c.ghold := rfl
@[simp] theorem Core.setCb_aligned (c : Core) (i : BitVec 5) (b : CircBuf) : (c.setCb i b).aligned = c.aligned := rfl
@[simp] theorem Core.setCb_alignAsk (c : Core) (i : BitVec 5) (b : CircBuf) : (c.setCb i b).alignAsk = c.alignAsk := rfl
@[simp] theorem Core.setCb_splitTo (c : Core) (i : BitVec 5) (b : CircBuf) : (c.setCb i b).splitTo = c.splitTo := rfl
@[simp] theorem Core.setCb_weights (c : Core) (i : BitVec 5) (b : CircBuf) : (c.setCb i b).weights = c.weights := rfl
@[simp] theorem Core.setCb_weight (c : Core) (i : BitVec 5) (b : CircBuf) : (c.setCb i b).weight = c.weight := rfl
@[simp] theorem Core.setCb_frzRun (c : Core) (i : BitVec 5) (b : CircBuf) : (c.setCb i b).frzRun = c.frzRun := rfl
@[simp] theorem Core.setCb_frozen (c : Core) (i : BitVec 5) (b : CircBuf) : (c.setCb i b).frozen = c.frozen := rfl
@[simp] theorem Core.setCb_stalled (c : Core) (i : BitVec 5) (b : CircBuf) : (c.setCb i b).stalled = c.stalled := rfl
@[simp] theorem Core.setCb_sub (c : Core) (i : BitVec 5) (b : CircBuf) : (c.setCb i b).sub = c.sub := rfl
@[simp] theorem Core.setCb_subW (c : Core) (i : BitVec 5) (b : CircBuf) : (c.setCb i b).subW = c.subW := rfl
@[simp] theorem Core.setCb_pred (c : Core) (i : BitVec 5) (b : CircBuf) : (c.setCb i b).pred = c.pred := rfl
@[simp] theorem Core.setCb_limHit (c : Core) (i : BitVec 5) (b : CircBuf) : (c.setCb i b).limHit = c.limHit := rfl
@[simp] theorem Core.setCb_limFrz (c : Core) (i : BitVec 5) (b : CircBuf) : (c.setCb i b).limFrz = c.limFrz := rfl
@[simp] theorem Core.setCb_limCyc (c : Core) (i : BitVec 5) (b : CircBuf) : (c.setCb i b).limCyc = c.limCyc := rfl
@[simp] theorem Core.setCb_limLow (c : Core) (i : BitVec 5) (b : CircBuf) : (c.setCb i b).limLow = c.limLow := rfl
@[simp] theorem Core.setCb_seqNo (c : Core) (i : BitVec 5) (b : CircBuf) : (c.setCb i b).seqNo = c.seqNo := rfl
@[simp] theorem Core.setCb_bundles (c : Core) (i : BitVec 5) (b : CircBuf) : (c.setCb i b).bundles = c.bundles := rfl
@[simp] theorem Core.setCb_gone (c : Core) (i : BitVec 5) (b : CircBuf) : (c.setCb i b).gone = c.gone := rfl
@[simp] theorem Core.setCb_next (c : Core) (i : BitVec 5) (b : CircBuf) : (c.setCb i b).next = c.next := rfl
@[simp] theorem Core.setCb_bound (c : Core) (i : BitVec 5) (b : CircBuf) : (c.setCb i b).bound = c.bound := rfl
@[simp] theorem Core.setCb_hold (c : Core) (i : BitVec 5) (b : CircBuf) : (c.setCb i b).hold = c.hold := rfl
@[simp] theorem Core.setCb_flights (c : Core) (i : BitVec 5) (b : CircBuf) : (c.setCb i b).flights = c.flights := rfl
@[simp] theorem Core.setCb_access (c : Core) (i : BitVec 5) (b : CircBuf) : (c.setCb i b).access = c.access := rfl
@[simp] theorem Core.setCb_stores (c : Core) (i : BitVec 5) (b : CircBuf) : (c.setCb i b).stores = c.stores := rfl
@[simp] theorem Core.setCb_undo (c : Core) (i : BitVec 5) (b : CircBuf) : (c.setCb i b).undo = c.undo := rfl
@[simp] theorem Core.setCb_ctlHold (c : Core) (i : BitVec 5) (b : CircBuf) : (c.setCb i b).ctlHold = c.ctlHold := rfl
@[simp] theorem Core.setCb_waitFrom (c : Core) (i : BitVec 5) (b : CircBuf) : (c.setCb i b).waitFrom = c.waitFrom := rfl
@[simp] theorem Core.setCb_ret (c : Core) (i : BitVec 5) (b : CircBuf) : (c.setCb i b).ret = c.ret := rfl
@[simp] theorem Core.setCb_ptrap (c : Core) (i : BitVec 5) (b : CircBuf) : (c.setCb i b).ptrap = c.ptrap := rfl
@[simp] theorem Core.setCb_itraps (c : Core) (i : BitVec 5) (b : CircBuf) : (c.setCb i b).itraps = c.itraps := rfl
@[simp] theorem Core.setCb_reports (c : Core) (i : BitVec 5) (b : CircBuf) : (c.setCb i b).reports = c.reports := rfl
@[simp] theorem Core.setCb_orders (c : Core) (i : BitVec 5) (b : CircBuf) : (c.setCb i b).orders = c.orders := rfl
@[simp] theorem Core.setCb_dropsNow (c : Core) (i : BitVec 5) (b : CircBuf) : (c.setCb i b).dropsNow = c.dropsNow := rfl
@[simp] theorem Core.setCb_grants (c : Core) (i : BitVec 5) (b : CircBuf) : (c.setCb i b).grants = c.grants := rfl
@[simp] theorem Core.setCb_portBusy (c : Core) (i : BitVec 5) (b : CircBuf) : (c.setCb i b).portBusy = c.portBusy := rfl
@[simp] theorem Core.setCb_endWrites (c : Core) (i : BitVec 5) (b : CircBuf) : (c.setCb i b).endWrites = c.endWrites := rfl
@[simp] theorem Core.setCb_credits (c : Core) (i : BitVec 5) (b : CircBuf) : (c.setCb i b).credits = c.credits := rfl
@[simp] theorem Core.setCb_cbNew (c : Core) (i : BitVec 5) (b : CircBuf) : (c.setCb i b).cbNew = c.cbNew := rfl
@[simp] theorem Core.setCb_reached (c : Core) (i : BitVec 5) (b : CircBuf) : (c.setCb i b).reached = c.reached := rfl
@[simp] theorem Core.setCb_preempt (c : Core) (i : BitVec 5) (b : CircBuf) : (c.setCb i b).preempt = c.preempt := rfl
@[simp] theorem Core.setCb_expired (c : Core) (i : BitVec 5) (b : CircBuf) : (c.setCb i b).expired = c.expired := rfl
@[simp] theorem Core.setCb_switch (c : Core) (i : BitVec 5) (b : CircBuf) : (c.setCb i b).switch = c.switch := rfl
@[simp] theorem Core.setCb_moved (c : Core) (i : BitVec 5) (b : CircBuf) : (c.setCb i b).moved = c.moved := rfl
@[simp] theorem Core.setCb_cutLeft (c : Core) (i : BitVec 5) (b : CircBuf) : (c.setCb i b).cutLeft = c.cutLeft := rfl
@[simp] theorem Core.setCb_upsets (c : Core) (i : BitVec 5) (b : CircBuf) : (c.setCb i b).upsets = c.upsets := rfl
@[simp] theorem Core.setCb_tlb (c : Core) (i : BitVec 5) (b : CircBuf) : (c.setCb i b).tlb = c.tlb := rfl
@[simp] theorem Core.setCb_ceTlb (c : Core) (i : BitVec 5) (b : CircBuf) : (c.setCb i b).ceTlb = c.ceTlb := rfl
@[simp] theorem Core.setCb_power (c : Core) (i : BitVec 5) (b : CircBuf) : (c.setCb i b).power = c.power := rfl
@[simp] theorem Core.setCb_idleAt (c : Core) (i : BitVec 5) (b : CircBuf) : (c.setCb i b).idleAt = c.idleAt := rfl
@[simp] theorem Core.setCb_halted (c : Core) (i : BitVec 5) (b : CircBuf) : (c.setCb i b).halted = c.halted := rfl
@[simp] theorem Core.setCb_haltReq (c : Core) (i : BitVec 5) (b : CircBuf) : (c.setCb i b).haltReq = c.haltReq := rfl
@[simp] theorem Core.setCb_stepReq (c : Core) (i : BitVec 5) (b : CircBuf) : (c.setCb i b).stepReq = c.stepReq := rfl
@[simp] theorem Core.setCb_wake (c : Core) (i : BitVec 5) (b : CircBuf) : (c.setCb i b).wake = c.wake := rfl
@[simp] theorem Core.setCb_ev (c : Core) (i : BitVec 5) (b : CircBuf) : (c.setCb i b).ev = c.ev := rfl
-- Core.mark
@[simp] theorem Core.mark_ctx (c : Core) (sl : Slot) : (c.mark sl).ctx = c.ctx := rfl
@[simp] theorem Core.mark_run (c : Core) (sl : Slot) : (c.mark sl).run = c.run := rfl
@[simp] theorem Core.mark_queue (c : Core) (sl : Slot) : (c.mark sl).queue = c.queue := rfl
@[simp] theorem Core.mark_pool (c : Core) (sl : Slot) : (c.mark sl).pool = c.pool := rfl
@[simp] theorem Core.mark_rows (c : Core) (sl : Slot) : (c.mark sl).rows = c.rows := rfl
@[simp] theorem Core.mark_imem (c : Core) (sl : Slot) : (c.mark sl).imem = c.imem := rfl
@[simp] theorem Core.mark_ccnt (c : Core) (sl : Slot) : (c.mark sl).ccnt = c.ccnt := rfl
@[simp] theorem Core.mark_cyc (c : Core) (sl : Slot) : (c.mark sl).cyc = c.cyc := rfl
@[simp] theorem Core.mark_gskew (c : Core) (sl : Slot) : (c.mark sl).gskew = c.gskew := rfl
@[simp] theorem Core.mark_ghold (c : Core) (sl : Slot) : (c.mark sl).ghold = c.ghold := rfl
@[simp] theorem Core.mark_aligned (c : Core) (sl : Slot) : (c.mark sl).aligned = c.aligned := rfl
@[simp] theorem Core.mark_alignAsk (c : Core) (sl : Slot) : (c.mark sl).alignAsk = c.alignAsk := rfl
@[simp] theorem Core.mark_splitTo (c : Core) (sl : Slot) : (c.mark sl).splitTo = c.splitTo := rfl
@[simp] theorem Core.mark_weights (c : Core) (sl : Slot) : (c.mark sl).weights = c.weights := rfl
@[simp] theorem Core.mark_weight (c : Core) (sl : Slot) : (c.mark sl).weight = c.weight := rfl
@[simp] theorem Core.mark_frzRun (c : Core) (sl : Slot) : (c.mark sl).frzRun = c.frzRun := rfl
@[simp] theorem Core.mark_frozen (c : Core) (sl : Slot) : (c.mark sl).frozen = c.frozen := rfl
@[simp] theorem Core.mark_stalled (c : Core) (sl : Slot) : (c.mark sl).stalled = c.stalled := rfl
@[simp] theorem Core.mark_sub (c : Core) (sl : Slot) : (c.mark sl).sub = c.sub := rfl
@[simp] theorem Core.mark_subW (c : Core) (sl : Slot) : (c.mark sl).subW = c.subW := rfl
@[simp] theorem Core.mark_pred (c : Core) (sl : Slot) : (c.mark sl).pred = c.pred := rfl
@[simp] theorem Core.mark_limHit (c : Core) (sl : Slot) : (c.mark sl).limHit = c.limHit := rfl
@[simp] theorem Core.mark_limFrz (c : Core) (sl : Slot) : (c.mark sl).limFrz = c.limFrz := rfl
@[simp] theorem Core.mark_limCyc (c : Core) (sl : Slot) : (c.mark sl).limCyc = c.limCyc := rfl
@[simp] theorem Core.mark_limLow (c : Core) (sl : Slot) : (c.mark sl).limLow = c.limLow := rfl
@[simp] theorem Core.mark_seqNo (c : Core) (sl : Slot) : (c.mark sl).seqNo = c.seqNo := rfl
@[simp] theorem Core.mark_gone (c : Core) (sl : Slot) : (c.mark sl).gone = c.gone := rfl
@[simp] theorem Core.mark_bound (c : Core) (sl : Slot) : (c.mark sl).bound = c.bound := rfl
@[simp] theorem Core.mark_hold (c : Core) (sl : Slot) : (c.mark sl).hold = c.hold := rfl
@[simp] theorem Core.mark_flights (c : Core) (sl : Slot) : (c.mark sl).flights = c.flights := rfl
@[simp] theorem Core.mark_access (c : Core) (sl : Slot) : (c.mark sl).access = c.access := rfl
@[simp] theorem Core.mark_stores (c : Core) (sl : Slot) : (c.mark sl).stores = c.stores := rfl
@[simp] theorem Core.mark_undo (c : Core) (sl : Slot) : (c.mark sl).undo = c.undo := rfl
@[simp] theorem Core.mark_ctlHold (c : Core) (sl : Slot) : (c.mark sl).ctlHold = c.ctlHold := rfl
@[simp] theorem Core.mark_ret (c : Core) (sl : Slot) : (c.mark sl).ret = c.ret := rfl
@[simp] theorem Core.mark_ptrap (c : Core) (sl : Slot) : (c.mark sl).ptrap = c.ptrap := rfl
@[simp] theorem Core.mark_itraps (c : Core) (sl : Slot) : (c.mark sl).itraps = c.itraps := rfl
@[simp] theorem Core.mark_reports (c : Core) (sl : Slot) : (c.mark sl).reports = c.reports := rfl
@[simp] theorem Core.mark_orders (c : Core) (sl : Slot) : (c.mark sl).orders = c.orders := rfl
@[simp] theorem Core.mark_dropsNow (c : Core) (sl : Slot) : (c.mark sl).dropsNow = c.dropsNow := rfl
@[simp] theorem Core.mark_grants (c : Core) (sl : Slot) : (c.mark sl).grants = c.grants := rfl
@[simp] theorem Core.mark_portBusy (c : Core) (sl : Slot) : (c.mark sl).portBusy = c.portBusy := rfl
@[simp] theorem Core.mark_endWrites (c : Core) (sl : Slot) : (c.mark sl).endWrites = c.endWrites := rfl
@[simp] theorem Core.mark_credits (c : Core) (sl : Slot) : (c.mark sl).credits = c.credits := rfl
@[simp] theorem Core.mark_cbNew (c : Core) (sl : Slot) : (c.mark sl).cbNew = c.cbNew := rfl
@[simp] theorem Core.mark_reached (c : Core) (sl : Slot) : (c.mark sl).reached = c.reached := rfl
@[simp] theorem Core.mark_preempt (c : Core) (sl : Slot) : (c.mark sl).preempt = c.preempt := rfl
@[simp] theorem Core.mark_expired (c : Core) (sl : Slot) : (c.mark sl).expired = c.expired := rfl
@[simp] theorem Core.mark_switch (c : Core) (sl : Slot) : (c.mark sl).switch = c.switch := rfl
@[simp] theorem Core.mark_moved (c : Core) (sl : Slot) : (c.mark sl).moved = c.moved := rfl
@[simp] theorem Core.mark_cutLeft (c : Core) (sl : Slot) : (c.mark sl).cutLeft = c.cutLeft := rfl
@[simp] theorem Core.mark_upsets (c : Core) (sl : Slot) : (c.mark sl).upsets = c.upsets := rfl
@[simp] theorem Core.mark_tlb (c : Core) (sl : Slot) : (c.mark sl).tlb = c.tlb := rfl
@[simp] theorem Core.mark_ceTlb (c : Core) (sl : Slot) : (c.mark sl).ceTlb = c.ceTlb := rfl
@[simp] theorem Core.mark_power (c : Core) (sl : Slot) : (c.mark sl).power = c.power := rfl
@[simp] theorem Core.mark_idleAt (c : Core) (sl : Slot) : (c.mark sl).idleAt = c.idleAt := rfl
@[simp] theorem Core.mark_halted (c : Core) (sl : Slot) : (c.mark sl).halted = c.halted := rfl
@[simp] theorem Core.mark_haltReq (c : Core) (sl : Slot) : (c.mark sl).haltReq = c.haltReq := rfl
@[simp] theorem Core.mark_stepReq (c : Core) (sl : Slot) : (c.mark sl).stepReq = c.stepReq := rfl
@[simp] theorem Core.mark_wake (c : Core) (sl : Slot) : (c.mark sl).wake = c.wake := rfl
@[simp] theorem Core.mark_ev (c : Core) (sl : Slot) : (c.mark sl).ev = c.ev := rfl
-- Core.accUntil
@[simp] theorem Core.accUntil_ctx (c : Core) (q t : Nat) : (c.accUntil q t).ctx = c.ctx := rfl
@[simp] theorem Core.accUntil_run (c : Core) (q t : Nat) : (c.accUntil q t).run = c.run := rfl
@[simp] theorem Core.accUntil_queue (c : Core) (q t : Nat) : (c.accUntil q t).queue = c.queue := rfl
@[simp] theorem Core.accUntil_pool (c : Core) (q t : Nat) : (c.accUntil q t).pool = c.pool := rfl
@[simp] theorem Core.accUntil_rows (c : Core) (q t : Nat) : (c.accUntil q t).rows = c.rows := rfl
@[simp] theorem Core.accUntil_imem (c : Core) (q t : Nat) : (c.accUntil q t).imem = c.imem := rfl
@[simp] theorem Core.accUntil_ccnt (c : Core) (q t : Nat) : (c.accUntil q t).ccnt = c.ccnt := rfl
@[simp] theorem Core.accUntil_cyc (c : Core) (q t : Nat) : (c.accUntil q t).cyc = c.cyc := rfl
@[simp] theorem Core.accUntil_gskew (c : Core) (q t : Nat) : (c.accUntil q t).gskew = c.gskew := rfl
@[simp] theorem Core.accUntil_ghold (c : Core) (q t : Nat) : (c.accUntil q t).ghold = c.ghold := rfl
@[simp] theorem Core.accUntil_aligned (c : Core) (q t : Nat) : (c.accUntil q t).aligned = c.aligned := rfl
@[simp] theorem Core.accUntil_alignAsk (c : Core) (q t : Nat) : (c.accUntil q t).alignAsk = c.alignAsk := rfl
@[simp] theorem Core.accUntil_splitTo (c : Core) (q t : Nat) : (c.accUntil q t).splitTo = c.splitTo := rfl
@[simp] theorem Core.accUntil_weights (c : Core) (q t : Nat) : (c.accUntil q t).weights = c.weights := rfl
@[simp] theorem Core.accUntil_weight (c : Core) (q t : Nat) : (c.accUntil q t).weight = c.weight := rfl
@[simp] theorem Core.accUntil_frzRun (c : Core) (q t : Nat) : (c.accUntil q t).frzRun = c.frzRun := rfl
@[simp] theorem Core.accUntil_frozen (c : Core) (q t : Nat) : (c.accUntil q t).frozen = c.frozen := rfl
@[simp] theorem Core.accUntil_stalled (c : Core) (q t : Nat) : (c.accUntil q t).stalled = c.stalled := rfl
@[simp] theorem Core.accUntil_sub (c : Core) (q t : Nat) : (c.accUntil q t).sub = c.sub := rfl
@[simp] theorem Core.accUntil_subW (c : Core) (q t : Nat) : (c.accUntil q t).subW = c.subW := rfl
@[simp] theorem Core.accUntil_pred (c : Core) (q t : Nat) : (c.accUntil q t).pred = c.pred := rfl
@[simp] theorem Core.accUntil_limHit (c : Core) (q t : Nat) : (c.accUntil q t).limHit = c.limHit := rfl
@[simp] theorem Core.accUntil_limFrz (c : Core) (q t : Nat) : (c.accUntil q t).limFrz = c.limFrz := rfl
@[simp] theorem Core.accUntil_limCyc (c : Core) (q t : Nat) : (c.accUntil q t).limCyc = c.limCyc := rfl
@[simp] theorem Core.accUntil_limLow (c : Core) (q t : Nat) : (c.accUntil q t).limLow = c.limLow := rfl
@[simp] theorem Core.accUntil_seqNo (c : Core) (q t : Nat) : (c.accUntil q t).seqNo = c.seqNo := rfl
@[simp] theorem Core.accUntil_gone (c : Core) (q t : Nat) : (c.accUntil q t).gone = c.gone := rfl
@[simp] theorem Core.accUntil_next (c : Core) (q t : Nat) : (c.accUntil q t).next = c.next := rfl
@[simp] theorem Core.accUntil_bound (c : Core) (q t : Nat) : (c.accUntil q t).bound = c.bound := rfl
@[simp] theorem Core.accUntil_hold (c : Core) (q t : Nat) : (c.accUntil q t).hold = c.hold := rfl
@[simp] theorem Core.accUntil_flights (c : Core) (q t : Nat) : (c.accUntil q t).flights = c.flights := rfl
@[simp] theorem Core.accUntil_access (c : Core) (q t : Nat) : (c.accUntil q t).access = c.access := rfl
@[simp] theorem Core.accUntil_stores (c : Core) (q t : Nat) : (c.accUntil q t).stores = c.stores := rfl
@[simp] theorem Core.accUntil_undo (c : Core) (q t : Nat) : (c.accUntil q t).undo = c.undo := rfl
@[simp] theorem Core.accUntil_ctlHold (c : Core) (q t : Nat) : (c.accUntil q t).ctlHold = c.ctlHold := rfl
@[simp] theorem Core.accUntil_waitFrom (c : Core) (q t : Nat) : (c.accUntil q t).waitFrom = c.waitFrom := rfl
@[simp] theorem Core.accUntil_ret (c : Core) (q t : Nat) : (c.accUntil q t).ret = c.ret := rfl
@[simp] theorem Core.accUntil_ptrap (c : Core) (q t : Nat) : (c.accUntil q t).ptrap = c.ptrap := rfl
@[simp] theorem Core.accUntil_itraps (c : Core) (q t : Nat) : (c.accUntil q t).itraps = c.itraps := rfl
@[simp] theorem Core.accUntil_reports (c : Core) (q t : Nat) : (c.accUntil q t).reports = c.reports := rfl
@[simp] theorem Core.accUntil_orders (c : Core) (q t : Nat) : (c.accUntil q t).orders = c.orders := rfl
@[simp] theorem Core.accUntil_dropsNow (c : Core) (q t : Nat) : (c.accUntil q t).dropsNow = c.dropsNow := rfl
@[simp] theorem Core.accUntil_grants (c : Core) (q t : Nat) : (c.accUntil q t).grants = c.grants := rfl
@[simp] theorem Core.accUntil_portBusy (c : Core) (q t : Nat) : (c.accUntil q t).portBusy = c.portBusy := rfl
@[simp] theorem Core.accUntil_endWrites (c : Core) (q t : Nat) : (c.accUntil q t).endWrites = c.endWrites := rfl
@[simp] theorem Core.accUntil_credits (c : Core) (q t : Nat) : (c.accUntil q t).credits = c.credits := rfl
@[simp] theorem Core.accUntil_cbNew (c : Core) (q t : Nat) : (c.accUntil q t).cbNew = c.cbNew := rfl
@[simp] theorem Core.accUntil_reached (c : Core) (q t : Nat) : (c.accUntil q t).reached = c.reached := rfl
@[simp] theorem Core.accUntil_preempt (c : Core) (q t : Nat) : (c.accUntil q t).preempt = c.preempt := rfl
@[simp] theorem Core.accUntil_expired (c : Core) (q t : Nat) : (c.accUntil q t).expired = c.expired := rfl
@[simp] theorem Core.accUntil_switch (c : Core) (q t : Nat) : (c.accUntil q t).switch = c.switch := rfl
@[simp] theorem Core.accUntil_moved (c : Core) (q t : Nat) : (c.accUntil q t).moved = c.moved := rfl
@[simp] theorem Core.accUntil_cutLeft (c : Core) (q t : Nat) : (c.accUntil q t).cutLeft = c.cutLeft := rfl
@[simp] theorem Core.accUntil_upsets (c : Core) (q t : Nat) : (c.accUntil q t).upsets = c.upsets := rfl
@[simp] theorem Core.accUntil_tlb (c : Core) (q t : Nat) : (c.accUntil q t).tlb = c.tlb := rfl
@[simp] theorem Core.accUntil_ceTlb (c : Core) (q t : Nat) : (c.accUntil q t).ceTlb = c.ceTlb := rfl
@[simp] theorem Core.accUntil_power (c : Core) (q t : Nat) : (c.accUntil q t).power = c.power := rfl
@[simp] theorem Core.accUntil_idleAt (c : Core) (q t : Nat) : (c.accUntil q t).idleAt = c.idleAt := rfl
@[simp] theorem Core.accUntil_halted (c : Core) (q t : Nat) : (c.accUntil q t).halted = c.halted := rfl
@[simp] theorem Core.accUntil_haltReq (c : Core) (q t : Nat) : (c.accUntil q t).haltReq = c.haltReq := rfl
@[simp] theorem Core.accUntil_stepReq (c : Core) (q t : Nat) : (c.accUntil q t).stepReq = c.stepReq := rfl
@[simp] theorem Core.accUntil_wake (c : Core) (q t : Nat) : (c.accUntil q t).wake = c.wake := rfl
@[simp] theorem Core.accUntil_ev (c : Core) (q t : Nat) : (c.accUntil q t).ev = c.ev := rfl
-- Core.reqTrap
@[simp] theorem Core.reqTrap_ctx (c : Core) (r : TrapReq) : (c.reqTrap r).ctx = c.ctx := rfl
@[simp] theorem Core.reqTrap_run (c : Core) (r : TrapReq) : (c.reqTrap r).run = c.run := rfl
@[simp] theorem Core.reqTrap_queue (c : Core) (r : TrapReq) : (c.reqTrap r).queue = c.queue := rfl
@[simp] theorem Core.reqTrap_pool (c : Core) (r : TrapReq) : (c.reqTrap r).pool = c.pool := rfl
@[simp] theorem Core.reqTrap_rows (c : Core) (r : TrapReq) : (c.reqTrap r).rows = c.rows := rfl
@[simp] theorem Core.reqTrap_imem (c : Core) (r : TrapReq) : (c.reqTrap r).imem = c.imem := rfl
@[simp] theorem Core.reqTrap_ccnt (c : Core) (r : TrapReq) : (c.reqTrap r).ccnt = c.ccnt := rfl
@[simp] theorem Core.reqTrap_cyc (c : Core) (r : TrapReq) : (c.reqTrap r).cyc = c.cyc := rfl
@[simp] theorem Core.reqTrap_gskew (c : Core) (r : TrapReq) : (c.reqTrap r).gskew = c.gskew := rfl
@[simp] theorem Core.reqTrap_ghold (c : Core) (r : TrapReq) : (c.reqTrap r).ghold = c.ghold := rfl
@[simp] theorem Core.reqTrap_aligned (c : Core) (r : TrapReq) : (c.reqTrap r).aligned = c.aligned := rfl
@[simp] theorem Core.reqTrap_alignAsk (c : Core) (r : TrapReq) : (c.reqTrap r).alignAsk = c.alignAsk := rfl
@[simp] theorem Core.reqTrap_splitTo (c : Core) (r : TrapReq) : (c.reqTrap r).splitTo = c.splitTo := rfl
@[simp] theorem Core.reqTrap_weights (c : Core) (r : TrapReq) : (c.reqTrap r).weights = c.weights := rfl
@[simp] theorem Core.reqTrap_weight (c : Core) (r : TrapReq) : (c.reqTrap r).weight = c.weight := rfl
@[simp] theorem Core.reqTrap_frzRun (c : Core) (r : TrapReq) : (c.reqTrap r).frzRun = c.frzRun := rfl
@[simp] theorem Core.reqTrap_frozen (c : Core) (r : TrapReq) : (c.reqTrap r).frozen = c.frozen := rfl
@[simp] theorem Core.reqTrap_stalled (c : Core) (r : TrapReq) : (c.reqTrap r).stalled = c.stalled := rfl
@[simp] theorem Core.reqTrap_sub (c : Core) (r : TrapReq) : (c.reqTrap r).sub = c.sub := rfl
@[simp] theorem Core.reqTrap_subW (c : Core) (r : TrapReq) : (c.reqTrap r).subW = c.subW := rfl
@[simp] theorem Core.reqTrap_pred (c : Core) (r : TrapReq) : (c.reqTrap r).pred = c.pred := rfl
@[simp] theorem Core.reqTrap_limHit (c : Core) (r : TrapReq) : (c.reqTrap r).limHit = c.limHit := rfl
@[simp] theorem Core.reqTrap_limFrz (c : Core) (r : TrapReq) : (c.reqTrap r).limFrz = c.limFrz := rfl
@[simp] theorem Core.reqTrap_limCyc (c : Core) (r : TrapReq) : (c.reqTrap r).limCyc = c.limCyc := rfl
@[simp] theorem Core.reqTrap_limLow (c : Core) (r : TrapReq) : (c.reqTrap r).limLow = c.limLow := rfl
@[simp] theorem Core.reqTrap_seqNo (c : Core) (r : TrapReq) : (c.reqTrap r).seqNo = c.seqNo := rfl
@[simp] theorem Core.reqTrap_bundles (c : Core) (r : TrapReq) : (c.reqTrap r).bundles = c.bundles := rfl
@[simp] theorem Core.reqTrap_gone (c : Core) (r : TrapReq) : (c.reqTrap r).gone = c.gone := rfl
@[simp] theorem Core.reqTrap_next (c : Core) (r : TrapReq) : (c.reqTrap r).next = c.next := rfl
@[simp] theorem Core.reqTrap_bound (c : Core) (r : TrapReq) : (c.reqTrap r).bound = c.bound := rfl
@[simp] theorem Core.reqTrap_hold (c : Core) (r : TrapReq) : (c.reqTrap r).hold = c.hold := rfl
@[simp] theorem Core.reqTrap_flights (c : Core) (r : TrapReq) : (c.reqTrap r).flights = c.flights := rfl
@[simp] theorem Core.reqTrap_access (c : Core) (r : TrapReq) : (c.reqTrap r).access = c.access := rfl
@[simp] theorem Core.reqTrap_stores (c : Core) (r : TrapReq) : (c.reqTrap r).stores = c.stores := rfl
@[simp] theorem Core.reqTrap_undo (c : Core) (r : TrapReq) : (c.reqTrap r).undo = c.undo := rfl
@[simp] theorem Core.reqTrap_ctlHold (c : Core) (r : TrapReq) : (c.reqTrap r).ctlHold = c.ctlHold := rfl
@[simp] theorem Core.reqTrap_waitFrom (c : Core) (r : TrapReq) : (c.reqTrap r).waitFrom = c.waitFrom := rfl
@[simp] theorem Core.reqTrap_ret (c : Core) (r : TrapReq) : (c.reqTrap r).ret = c.ret := rfl
@[simp] theorem Core.reqTrap_itraps (c : Core) (r : TrapReq) : (c.reqTrap r).itraps = c.itraps := rfl
@[simp] theorem Core.reqTrap_reports (c : Core) (r : TrapReq) : (c.reqTrap r).reports = c.reports := rfl
@[simp] theorem Core.reqTrap_orders (c : Core) (r : TrapReq) : (c.reqTrap r).orders = c.orders := rfl
@[simp] theorem Core.reqTrap_dropsNow (c : Core) (r : TrapReq) : (c.reqTrap r).dropsNow = c.dropsNow := rfl
@[simp] theorem Core.reqTrap_grants (c : Core) (r : TrapReq) : (c.reqTrap r).grants = c.grants := rfl
@[simp] theorem Core.reqTrap_portBusy (c : Core) (r : TrapReq) : (c.reqTrap r).portBusy = c.portBusy := rfl
@[simp] theorem Core.reqTrap_endWrites (c : Core) (r : TrapReq) : (c.reqTrap r).endWrites = c.endWrites := rfl
@[simp] theorem Core.reqTrap_credits (c : Core) (r : TrapReq) : (c.reqTrap r).credits = c.credits := rfl
@[simp] theorem Core.reqTrap_cbNew (c : Core) (r : TrapReq) : (c.reqTrap r).cbNew = c.cbNew := rfl
@[simp] theorem Core.reqTrap_reached (c : Core) (r : TrapReq) : (c.reqTrap r).reached = c.reached := rfl
@[simp] theorem Core.reqTrap_preempt (c : Core) (r : TrapReq) : (c.reqTrap r).preempt = c.preempt := rfl
@[simp] theorem Core.reqTrap_expired (c : Core) (r : TrapReq) : (c.reqTrap r).expired = c.expired := rfl
@[simp] theorem Core.reqTrap_switch (c : Core) (r : TrapReq) : (c.reqTrap r).switch = c.switch := rfl
@[simp] theorem Core.reqTrap_moved (c : Core) (r : TrapReq) : (c.reqTrap r).moved = c.moved := rfl
@[simp] theorem Core.reqTrap_cutLeft (c : Core) (r : TrapReq) : (c.reqTrap r).cutLeft = c.cutLeft := rfl
@[simp] theorem Core.reqTrap_upsets (c : Core) (r : TrapReq) : (c.reqTrap r).upsets = c.upsets := rfl
@[simp] theorem Core.reqTrap_tlb (c : Core) (r : TrapReq) : (c.reqTrap r).tlb = c.tlb := rfl
@[simp] theorem Core.reqTrap_ceTlb (c : Core) (r : TrapReq) : (c.reqTrap r).ceTlb = c.ceTlb := rfl
@[simp] theorem Core.reqTrap_power (c : Core) (r : TrapReq) : (c.reqTrap r).power = c.power := rfl
@[simp] theorem Core.reqTrap_idleAt (c : Core) (r : TrapReq) : (c.reqTrap r).idleAt = c.idleAt := rfl
@[simp] theorem Core.reqTrap_halted (c : Core) (r : TrapReq) : (c.reqTrap r).halted = c.halted := rfl
@[simp] theorem Core.reqTrap_haltReq (c : Core) (r : TrapReq) : (c.reqTrap r).haltReq = c.haltReq := rfl
@[simp] theorem Core.reqTrap_stepReq (c : Core) (r : TrapReq) : (c.reqTrap r).stepReq = c.stepReq := rfl
@[simp] theorem Core.reqTrap_wake (c : Core) (r : TrapReq) : (c.reqTrap r).wake = c.wake := rfl
@[simp] theorem Core.reqTrap_ev (c : Core) (r : TrapReq) : (c.reqTrap r).ev = c.ev := rfl
-- Core.reqImp
@[simp] theorem Core.reqImp_ctx (c : Core) (t : ImpTrap) : (c.reqImp t).ctx = c.ctx := rfl
@[simp] theorem Core.reqImp_run (c : Core) (t : ImpTrap) : (c.reqImp t).run = c.run := rfl
@[simp] theorem Core.reqImp_queue (c : Core) (t : ImpTrap) : (c.reqImp t).queue = c.queue := rfl
@[simp] theorem Core.reqImp_pool (c : Core) (t : ImpTrap) : (c.reqImp t).pool = c.pool := rfl
@[simp] theorem Core.reqImp_rows (c : Core) (t : ImpTrap) : (c.reqImp t).rows = c.rows := rfl
@[simp] theorem Core.reqImp_imem (c : Core) (t : ImpTrap) : (c.reqImp t).imem = c.imem := rfl
@[simp] theorem Core.reqImp_ccnt (c : Core) (t : ImpTrap) : (c.reqImp t).ccnt = c.ccnt := rfl
@[simp] theorem Core.reqImp_cyc (c : Core) (t : ImpTrap) : (c.reqImp t).cyc = c.cyc := rfl
@[simp] theorem Core.reqImp_gskew (c : Core) (t : ImpTrap) : (c.reqImp t).gskew = c.gskew := rfl
@[simp] theorem Core.reqImp_ghold (c : Core) (t : ImpTrap) : (c.reqImp t).ghold = c.ghold := rfl
@[simp] theorem Core.reqImp_aligned (c : Core) (t : ImpTrap) : (c.reqImp t).aligned = c.aligned := rfl
@[simp] theorem Core.reqImp_alignAsk (c : Core) (t : ImpTrap) : (c.reqImp t).alignAsk = c.alignAsk := rfl
@[simp] theorem Core.reqImp_splitTo (c : Core) (t : ImpTrap) : (c.reqImp t).splitTo = c.splitTo := rfl
@[simp] theorem Core.reqImp_weights (c : Core) (t : ImpTrap) : (c.reqImp t).weights = c.weights := rfl
@[simp] theorem Core.reqImp_weight (c : Core) (t : ImpTrap) : (c.reqImp t).weight = c.weight := rfl
@[simp] theorem Core.reqImp_frzRun (c : Core) (t : ImpTrap) : (c.reqImp t).frzRun = c.frzRun := rfl
@[simp] theorem Core.reqImp_frozen (c : Core) (t : ImpTrap) : (c.reqImp t).frozen = c.frozen := rfl
@[simp] theorem Core.reqImp_stalled (c : Core) (t : ImpTrap) : (c.reqImp t).stalled = c.stalled := rfl
@[simp] theorem Core.reqImp_sub (c : Core) (t : ImpTrap) : (c.reqImp t).sub = c.sub := rfl
@[simp] theorem Core.reqImp_subW (c : Core) (t : ImpTrap) : (c.reqImp t).subW = c.subW := rfl
@[simp] theorem Core.reqImp_pred (c : Core) (t : ImpTrap) : (c.reqImp t).pred = c.pred := rfl
@[simp] theorem Core.reqImp_limHit (c : Core) (t : ImpTrap) : (c.reqImp t).limHit = c.limHit := rfl
@[simp] theorem Core.reqImp_limFrz (c : Core) (t : ImpTrap) : (c.reqImp t).limFrz = c.limFrz := rfl
@[simp] theorem Core.reqImp_limCyc (c : Core) (t : ImpTrap) : (c.reqImp t).limCyc = c.limCyc := rfl
@[simp] theorem Core.reqImp_limLow (c : Core) (t : ImpTrap) : (c.reqImp t).limLow = c.limLow := rfl
@[simp] theorem Core.reqImp_seqNo (c : Core) (t : ImpTrap) : (c.reqImp t).seqNo = c.seqNo := rfl
@[simp] theorem Core.reqImp_bundles (c : Core) (t : ImpTrap) : (c.reqImp t).bundles = c.bundles := rfl
@[simp] theorem Core.reqImp_gone (c : Core) (t : ImpTrap) : (c.reqImp t).gone = c.gone := rfl
@[simp] theorem Core.reqImp_next (c : Core) (t : ImpTrap) : (c.reqImp t).next = c.next := rfl
@[simp] theorem Core.reqImp_bound (c : Core) (t : ImpTrap) : (c.reqImp t).bound = c.bound := rfl
@[simp] theorem Core.reqImp_hold (c : Core) (t : ImpTrap) : (c.reqImp t).hold = c.hold := rfl
@[simp] theorem Core.reqImp_flights (c : Core) (t : ImpTrap) : (c.reqImp t).flights = c.flights := rfl
@[simp] theorem Core.reqImp_access (c : Core) (t : ImpTrap) : (c.reqImp t).access = c.access := rfl
@[simp] theorem Core.reqImp_stores (c : Core) (t : ImpTrap) : (c.reqImp t).stores = c.stores := rfl
@[simp] theorem Core.reqImp_undo (c : Core) (t : ImpTrap) : (c.reqImp t).undo = c.undo := rfl
@[simp] theorem Core.reqImp_ctlHold (c : Core) (t : ImpTrap) : (c.reqImp t).ctlHold = c.ctlHold := rfl
@[simp] theorem Core.reqImp_waitFrom (c : Core) (t : ImpTrap) : (c.reqImp t).waitFrom = c.waitFrom := rfl
@[simp] theorem Core.reqImp_ret (c : Core) (t : ImpTrap) : (c.reqImp t).ret = c.ret := rfl
@[simp] theorem Core.reqImp_ptrap (c : Core) (t : ImpTrap) : (c.reqImp t).ptrap = c.ptrap := rfl
@[simp] theorem Core.reqImp_reports (c : Core) (t : ImpTrap) : (c.reqImp t).reports = c.reports := rfl
@[simp] theorem Core.reqImp_orders (c : Core) (t : ImpTrap) : (c.reqImp t).orders = c.orders := rfl
@[simp] theorem Core.reqImp_dropsNow (c : Core) (t : ImpTrap) : (c.reqImp t).dropsNow = c.dropsNow := rfl
@[simp] theorem Core.reqImp_grants (c : Core) (t : ImpTrap) : (c.reqImp t).grants = c.grants := rfl
@[simp] theorem Core.reqImp_portBusy (c : Core) (t : ImpTrap) : (c.reqImp t).portBusy = c.portBusy := rfl
@[simp] theorem Core.reqImp_endWrites (c : Core) (t : ImpTrap) : (c.reqImp t).endWrites = c.endWrites := rfl
@[simp] theorem Core.reqImp_credits (c : Core) (t : ImpTrap) : (c.reqImp t).credits = c.credits := rfl
@[simp] theorem Core.reqImp_cbNew (c : Core) (t : ImpTrap) : (c.reqImp t).cbNew = c.cbNew := rfl
@[simp] theorem Core.reqImp_reached (c : Core) (t : ImpTrap) : (c.reqImp t).reached = c.reached := rfl
@[simp] theorem Core.reqImp_preempt (c : Core) (t : ImpTrap) : (c.reqImp t).preempt = c.preempt := rfl
@[simp] theorem Core.reqImp_expired (c : Core) (t : ImpTrap) : (c.reqImp t).expired = c.expired := rfl
@[simp] theorem Core.reqImp_switch (c : Core) (t : ImpTrap) : (c.reqImp t).switch = c.switch := rfl
@[simp] theorem Core.reqImp_moved (c : Core) (t : ImpTrap) : (c.reqImp t).moved = c.moved := rfl
@[simp] theorem Core.reqImp_cutLeft (c : Core) (t : ImpTrap) : (c.reqImp t).cutLeft = c.cutLeft := rfl
@[simp] theorem Core.reqImp_upsets (c : Core) (t : ImpTrap) : (c.reqImp t).upsets = c.upsets := rfl
@[simp] theorem Core.reqImp_tlb (c : Core) (t : ImpTrap) : (c.reqImp t).tlb = c.tlb := rfl
@[simp] theorem Core.reqImp_ceTlb (c : Core) (t : ImpTrap) : (c.reqImp t).ceTlb = c.ceTlb := rfl
@[simp] theorem Core.reqImp_power (c : Core) (t : ImpTrap) : (c.reqImp t).power = c.power := rfl
@[simp] theorem Core.reqImp_idleAt (c : Core) (t : ImpTrap) : (c.reqImp t).idleAt = c.idleAt := rfl
@[simp] theorem Core.reqImp_halted (c : Core) (t : ImpTrap) : (c.reqImp t).halted = c.halted := rfl
@[simp] theorem Core.reqImp_haltReq (c : Core) (t : ImpTrap) : (c.reqImp t).haltReq = c.haltReq := rfl
@[simp] theorem Core.reqImp_stepReq (c : Core) (t : ImpTrap) : (c.reqImp t).stepReq = c.stepReq := rfl
@[simp] theorem Core.reqImp_wake (c : Core) (t : ImpTrap) : (c.reqImp t).wake = c.wake := rfl
@[simp] theorem Core.reqImp_ev (c : Core) (t : ImpTrap) : (c.reqImp t).ev = c.ev := rfl
-- Core.endWrite
@[simp] theorem Core.endWrite_ctx (c : Core) (bs : List (Nat × Byte)) (p : Bool) : (c.endWrite bs p).ctx = c.ctx := rfl
@[simp] theorem Core.endWrite_run (c : Core) (bs : List (Nat × Byte)) (p : Bool) : (c.endWrite bs p).run = c.run := rfl
@[simp] theorem Core.endWrite_queue (c : Core) (bs : List (Nat × Byte)) (p : Bool) : (c.endWrite bs p).queue = c.queue := rfl
@[simp] theorem Core.endWrite_pool (c : Core) (bs : List (Nat × Byte)) (p : Bool) : (c.endWrite bs p).pool = c.pool := rfl
@[simp] theorem Core.endWrite_rows (c : Core) (bs : List (Nat × Byte)) (p : Bool) : (c.endWrite bs p).rows = c.rows := rfl
@[simp] theorem Core.endWrite_imem (c : Core) (bs : List (Nat × Byte)) (p : Bool) : (c.endWrite bs p).imem = c.imem := rfl
@[simp] theorem Core.endWrite_ccnt (c : Core) (bs : List (Nat × Byte)) (p : Bool) : (c.endWrite bs p).ccnt = c.ccnt := rfl
@[simp] theorem Core.endWrite_cyc (c : Core) (bs : List (Nat × Byte)) (p : Bool) : (c.endWrite bs p).cyc = c.cyc := rfl
@[simp] theorem Core.endWrite_gskew (c : Core) (bs : List (Nat × Byte)) (p : Bool) : (c.endWrite bs p).gskew = c.gskew := rfl
@[simp] theorem Core.endWrite_ghold (c : Core) (bs : List (Nat × Byte)) (p : Bool) : (c.endWrite bs p).ghold = c.ghold := rfl
@[simp] theorem Core.endWrite_aligned (c : Core) (bs : List (Nat × Byte)) (p : Bool) : (c.endWrite bs p).aligned = c.aligned := rfl
@[simp] theorem Core.endWrite_alignAsk (c : Core) (bs : List (Nat × Byte)) (p : Bool) : (c.endWrite bs p).alignAsk = c.alignAsk := rfl
@[simp] theorem Core.endWrite_splitTo (c : Core) (bs : List (Nat × Byte)) (p : Bool) : (c.endWrite bs p).splitTo = c.splitTo := rfl
@[simp] theorem Core.endWrite_weights (c : Core) (bs : List (Nat × Byte)) (p : Bool) : (c.endWrite bs p).weights = c.weights := rfl
@[simp] theorem Core.endWrite_weight (c : Core) (bs : List (Nat × Byte)) (p : Bool) : (c.endWrite bs p).weight = c.weight := rfl
@[simp] theorem Core.endWrite_frzRun (c : Core) (bs : List (Nat × Byte)) (p : Bool) : (c.endWrite bs p).frzRun = c.frzRun := rfl
@[simp] theorem Core.endWrite_frozen (c : Core) (bs : List (Nat × Byte)) (p : Bool) : (c.endWrite bs p).frozen = c.frozen := rfl
@[simp] theorem Core.endWrite_stalled (c : Core) (bs : List (Nat × Byte)) (p : Bool) : (c.endWrite bs p).stalled = c.stalled := rfl
@[simp] theorem Core.endWrite_sub (c : Core) (bs : List (Nat × Byte)) (p : Bool) : (c.endWrite bs p).sub = c.sub := rfl
@[simp] theorem Core.endWrite_subW (c : Core) (bs : List (Nat × Byte)) (p : Bool) : (c.endWrite bs p).subW = c.subW := rfl
@[simp] theorem Core.endWrite_pred (c : Core) (bs : List (Nat × Byte)) (p : Bool) : (c.endWrite bs p).pred = c.pred := rfl
@[simp] theorem Core.endWrite_limHit (c : Core) (bs : List (Nat × Byte)) (p : Bool) : (c.endWrite bs p).limHit = c.limHit := rfl
@[simp] theorem Core.endWrite_limFrz (c : Core) (bs : List (Nat × Byte)) (p : Bool) : (c.endWrite bs p).limFrz = c.limFrz := rfl
@[simp] theorem Core.endWrite_limCyc (c : Core) (bs : List (Nat × Byte)) (p : Bool) : (c.endWrite bs p).limCyc = c.limCyc := rfl
@[simp] theorem Core.endWrite_limLow (c : Core) (bs : List (Nat × Byte)) (p : Bool) : (c.endWrite bs p).limLow = c.limLow := rfl
@[simp] theorem Core.endWrite_seqNo (c : Core) (bs : List (Nat × Byte)) (p : Bool) : (c.endWrite bs p).seqNo = c.seqNo := rfl
@[simp] theorem Core.endWrite_bundles (c : Core) (bs : List (Nat × Byte)) (p : Bool) : (c.endWrite bs p).bundles = c.bundles := rfl
@[simp] theorem Core.endWrite_gone (c : Core) (bs : List (Nat × Byte)) (p : Bool) : (c.endWrite bs p).gone = c.gone := rfl
@[simp] theorem Core.endWrite_next (c : Core) (bs : List (Nat × Byte)) (p : Bool) : (c.endWrite bs p).next = c.next := rfl
@[simp] theorem Core.endWrite_bound (c : Core) (bs : List (Nat × Byte)) (p : Bool) : (c.endWrite bs p).bound = c.bound := rfl
@[simp] theorem Core.endWrite_hold (c : Core) (bs : List (Nat × Byte)) (p : Bool) : (c.endWrite bs p).hold = c.hold := rfl
@[simp] theorem Core.endWrite_flights (c : Core) (bs : List (Nat × Byte)) (p : Bool) : (c.endWrite bs p).flights = c.flights := rfl
@[simp] theorem Core.endWrite_access (c : Core) (bs : List (Nat × Byte)) (p : Bool) : (c.endWrite bs p).access = c.access := rfl
@[simp] theorem Core.endWrite_stores (c : Core) (bs : List (Nat × Byte)) (p : Bool) : (c.endWrite bs p).stores = c.stores := rfl
@[simp] theorem Core.endWrite_undo (c : Core) (bs : List (Nat × Byte)) (p : Bool) : (c.endWrite bs p).undo = c.undo := rfl
@[simp] theorem Core.endWrite_ctlHold (c : Core) (bs : List (Nat × Byte)) (p : Bool) : (c.endWrite bs p).ctlHold = c.ctlHold := rfl
@[simp] theorem Core.endWrite_waitFrom (c : Core) (bs : List (Nat × Byte)) (p : Bool) : (c.endWrite bs p).waitFrom = c.waitFrom := rfl
@[simp] theorem Core.endWrite_ret (c : Core) (bs : List (Nat × Byte)) (p : Bool) : (c.endWrite bs p).ret = c.ret := rfl
@[simp] theorem Core.endWrite_ptrap (c : Core) (bs : List (Nat × Byte)) (p : Bool) : (c.endWrite bs p).ptrap = c.ptrap := rfl
@[simp] theorem Core.endWrite_itraps (c : Core) (bs : List (Nat × Byte)) (p : Bool) : (c.endWrite bs p).itraps = c.itraps := rfl
@[simp] theorem Core.endWrite_reports (c : Core) (bs : List (Nat × Byte)) (p : Bool) : (c.endWrite bs p).reports = c.reports := rfl
@[simp] theorem Core.endWrite_orders (c : Core) (bs : List (Nat × Byte)) (p : Bool) : (c.endWrite bs p).orders = c.orders := rfl
@[simp] theorem Core.endWrite_dropsNow (c : Core) (bs : List (Nat × Byte)) (p : Bool) : (c.endWrite bs p).dropsNow = c.dropsNow := rfl
@[simp] theorem Core.endWrite_grants (c : Core) (bs : List (Nat × Byte)) (p : Bool) : (c.endWrite bs p).grants = c.grants := rfl
@[simp] theorem Core.endWrite_portBusy (c : Core) (bs : List (Nat × Byte)) (p : Bool) : (c.endWrite bs p).portBusy = c.portBusy := rfl
@[simp] theorem Core.endWrite_credits (c : Core) (bs : List (Nat × Byte)) (p : Bool) : (c.endWrite bs p).credits = c.credits := rfl
@[simp] theorem Core.endWrite_cbNew (c : Core) (bs : List (Nat × Byte)) (p : Bool) : (c.endWrite bs p).cbNew = c.cbNew := rfl
@[simp] theorem Core.endWrite_reached (c : Core) (bs : List (Nat × Byte)) (p : Bool) : (c.endWrite bs p).reached = c.reached := rfl
@[simp] theorem Core.endWrite_preempt (c : Core) (bs : List (Nat × Byte)) (p : Bool) : (c.endWrite bs p).preempt = c.preempt := rfl
@[simp] theorem Core.endWrite_expired (c : Core) (bs : List (Nat × Byte)) (p : Bool) : (c.endWrite bs p).expired = c.expired := rfl
@[simp] theorem Core.endWrite_switch (c : Core) (bs : List (Nat × Byte)) (p : Bool) : (c.endWrite bs p).switch = c.switch := rfl
@[simp] theorem Core.endWrite_moved (c : Core) (bs : List (Nat × Byte)) (p : Bool) : (c.endWrite bs p).moved = c.moved := rfl
@[simp] theorem Core.endWrite_cutLeft (c : Core) (bs : List (Nat × Byte)) (p : Bool) : (c.endWrite bs p).cutLeft = c.cutLeft := rfl
@[simp] theorem Core.endWrite_upsets (c : Core) (bs : List (Nat × Byte)) (p : Bool) : (c.endWrite bs p).upsets = c.upsets := rfl
@[simp] theorem Core.endWrite_tlb (c : Core) (bs : List (Nat × Byte)) (p : Bool) : (c.endWrite bs p).tlb = c.tlb := rfl
@[simp] theorem Core.endWrite_ceTlb (c : Core) (bs : List (Nat × Byte)) (p : Bool) : (c.endWrite bs p).ceTlb = c.ceTlb := rfl
@[simp] theorem Core.endWrite_power (c : Core) (bs : List (Nat × Byte)) (p : Bool) : (c.endWrite bs p).power = c.power := rfl
@[simp] theorem Core.endWrite_idleAt (c : Core) (bs : List (Nat × Byte)) (p : Bool) : (c.endWrite bs p).idleAt = c.idleAt := rfl
@[simp] theorem Core.endWrite_halted (c : Core) (bs : List (Nat × Byte)) (p : Bool) : (c.endWrite bs p).halted = c.halted := rfl
@[simp] theorem Core.endWrite_haltReq (c : Core) (bs : List (Nat × Byte)) (p : Bool) : (c.endWrite bs p).haltReq = c.haltReq := rfl
@[simp] theorem Core.endWrite_stepReq (c : Core) (bs : List (Nat × Byte)) (p : Bool) : (c.endWrite bs p).stepReq = c.stepReq := rfl
@[simp] theorem Core.endWrite_wake (c : Core) (bs : List (Nat × Byte)) (p : Bool) : (c.endWrite bs p).wake = c.wake := rfl
@[simp] theorem Core.endWrite_ev (c : Core) (bs : List (Nat × Byte)) (p : Bool) : (c.endWrite bs p).ev = c.ev := rfl
-- Core.reach
@[simp] theorem Core.reach_ctx (c : Core) (sl : Slot) (v : Bool) (a n l : Nat) (op : AccOp) : (c.reach sl v a n l op).ctx = c.ctx := rfl
@[simp] theorem Core.reach_run (c : Core) (sl : Slot) (v : Bool) (a n l : Nat) (op : AccOp) : (c.reach sl v a n l op).run = c.run := rfl
@[simp] theorem Core.reach_queue (c : Core) (sl : Slot) (v : Bool) (a n l : Nat) (op : AccOp) : (c.reach sl v a n l op).queue = c.queue := rfl
@[simp] theorem Core.reach_pool (c : Core) (sl : Slot) (v : Bool) (a n l : Nat) (op : AccOp) : (c.reach sl v a n l op).pool = c.pool := rfl
@[simp] theorem Core.reach_rows (c : Core) (sl : Slot) (v : Bool) (a n l : Nat) (op : AccOp) : (c.reach sl v a n l op).rows = c.rows := rfl
@[simp] theorem Core.reach_imem (c : Core) (sl : Slot) (v : Bool) (a n l : Nat) (op : AccOp) : (c.reach sl v a n l op).imem = c.imem := rfl
@[simp] theorem Core.reach_ccnt (c : Core) (sl : Slot) (v : Bool) (a n l : Nat) (op : AccOp) : (c.reach sl v a n l op).ccnt = c.ccnt := rfl
@[simp] theorem Core.reach_cyc (c : Core) (sl : Slot) (v : Bool) (a n l : Nat) (op : AccOp) : (c.reach sl v a n l op).cyc = c.cyc := rfl
@[simp] theorem Core.reach_gskew (c : Core) (sl : Slot) (v : Bool) (a n l : Nat) (op : AccOp) : (c.reach sl v a n l op).gskew = c.gskew := rfl
@[simp] theorem Core.reach_ghold (c : Core) (sl : Slot) (v : Bool) (a n l : Nat) (op : AccOp) : (c.reach sl v a n l op).ghold = c.ghold := rfl
@[simp] theorem Core.reach_aligned (c : Core) (sl : Slot) (v : Bool) (a n l : Nat) (op : AccOp) : (c.reach sl v a n l op).aligned = c.aligned := rfl
@[simp] theorem Core.reach_alignAsk (c : Core) (sl : Slot) (v : Bool) (a n l : Nat) (op : AccOp) : (c.reach sl v a n l op).alignAsk = c.alignAsk := rfl
@[simp] theorem Core.reach_splitTo (c : Core) (sl : Slot) (v : Bool) (a n l : Nat) (op : AccOp) : (c.reach sl v a n l op).splitTo = c.splitTo := rfl
@[simp] theorem Core.reach_weights (c : Core) (sl : Slot) (v : Bool) (a n l : Nat) (op : AccOp) : (c.reach sl v a n l op).weights = c.weights := rfl
@[simp] theorem Core.reach_weight (c : Core) (sl : Slot) (v : Bool) (a n l : Nat) (op : AccOp) : (c.reach sl v a n l op).weight = c.weight := rfl
@[simp] theorem Core.reach_frzRun (c : Core) (sl : Slot) (v : Bool) (a n l : Nat) (op : AccOp) : (c.reach sl v a n l op).frzRun = c.frzRun := rfl
@[simp] theorem Core.reach_frozen (c : Core) (sl : Slot) (v : Bool) (a n l : Nat) (op : AccOp) : (c.reach sl v a n l op).frozen = c.frozen := rfl
@[simp] theorem Core.reach_stalled (c : Core) (sl : Slot) (v : Bool) (a n l : Nat) (op : AccOp) : (c.reach sl v a n l op).stalled = c.stalled := rfl
@[simp] theorem Core.reach_sub (c : Core) (sl : Slot) (v : Bool) (a n l : Nat) (op : AccOp) : (c.reach sl v a n l op).sub = c.sub := rfl
@[simp] theorem Core.reach_subW (c : Core) (sl : Slot) (v : Bool) (a n l : Nat) (op : AccOp) : (c.reach sl v a n l op).subW = c.subW := rfl
@[simp] theorem Core.reach_pred (c : Core) (sl : Slot) (v : Bool) (a n l : Nat) (op : AccOp) : (c.reach sl v a n l op).pred = c.pred := rfl
@[simp] theorem Core.reach_limHit (c : Core) (sl : Slot) (v : Bool) (a n l : Nat) (op : AccOp) : (c.reach sl v a n l op).limHit = c.limHit := rfl
@[simp] theorem Core.reach_limFrz (c : Core) (sl : Slot) (v : Bool) (a n l : Nat) (op : AccOp) : (c.reach sl v a n l op).limFrz = c.limFrz := rfl
@[simp] theorem Core.reach_limCyc (c : Core) (sl : Slot) (v : Bool) (a n l : Nat) (op : AccOp) : (c.reach sl v a n l op).limCyc = c.limCyc := rfl
@[simp] theorem Core.reach_limLow (c : Core) (sl : Slot) (v : Bool) (a n l : Nat) (op : AccOp) : (c.reach sl v a n l op).limLow = c.limLow := rfl
@[simp] theorem Core.reach_seqNo (c : Core) (sl : Slot) (v : Bool) (a n l : Nat) (op : AccOp) : (c.reach sl v a n l op).seqNo = c.seqNo := rfl
@[simp] theorem Core.reach_gone (c : Core) (sl : Slot) (v : Bool) (a n l : Nat) (op : AccOp) : (c.reach sl v a n l op).gone = c.gone := rfl
@[simp] theorem Core.reach_next (c : Core) (sl : Slot) (v : Bool) (a n l : Nat) (op : AccOp) : (c.reach sl v a n l op).next = c.next := rfl
@[simp] theorem Core.reach_bound (c : Core) (sl : Slot) (v : Bool) (a n l : Nat) (op : AccOp) : (c.reach sl v a n l op).bound = c.bound := rfl
@[simp] theorem Core.reach_hold (c : Core) (sl : Slot) (v : Bool) (a n l : Nat) (op : AccOp) : (c.reach sl v a n l op).hold = c.hold := rfl
@[simp] theorem Core.reach_flights (c : Core) (sl : Slot) (v : Bool) (a n l : Nat) (op : AccOp) : (c.reach sl v a n l op).flights = c.flights := rfl
@[simp] theorem Core.reach_stores (c : Core) (sl : Slot) (v : Bool) (a n l : Nat) (op : AccOp) : (c.reach sl v a n l op).stores = c.stores := rfl
@[simp] theorem Core.reach_undo (c : Core) (sl : Slot) (v : Bool) (a n l : Nat) (op : AccOp) : (c.reach sl v a n l op).undo = c.undo := rfl
@[simp] theorem Core.reach_ctlHold (c : Core) (sl : Slot) (v : Bool) (a n l : Nat) (op : AccOp) : (c.reach sl v a n l op).ctlHold = c.ctlHold := rfl
@[simp] theorem Core.reach_waitFrom (c : Core) (sl : Slot) (v : Bool) (a n l : Nat) (op : AccOp) : (c.reach sl v a n l op).waitFrom = c.waitFrom := rfl
@[simp] theorem Core.reach_ret (c : Core) (sl : Slot) (v : Bool) (a n l : Nat) (op : AccOp) : (c.reach sl v a n l op).ret = c.ret := rfl
@[simp] theorem Core.reach_ptrap (c : Core) (sl : Slot) (v : Bool) (a n l : Nat) (op : AccOp) : (c.reach sl v a n l op).ptrap = c.ptrap := rfl
@[simp] theorem Core.reach_itraps (c : Core) (sl : Slot) (v : Bool) (a n l : Nat) (op : AccOp) : (c.reach sl v a n l op).itraps = c.itraps := rfl
@[simp] theorem Core.reach_reports (c : Core) (sl : Slot) (v : Bool) (a n l : Nat) (op : AccOp) : (c.reach sl v a n l op).reports = c.reports := rfl
@[simp] theorem Core.reach_orders (c : Core) (sl : Slot) (v : Bool) (a n l : Nat) (op : AccOp) : (c.reach sl v a n l op).orders = c.orders := rfl
@[simp] theorem Core.reach_dropsNow (c : Core) (sl : Slot) (v : Bool) (a n l : Nat) (op : AccOp) : (c.reach sl v a n l op).dropsNow = c.dropsNow := rfl
@[simp] theorem Core.reach_grants (c : Core) (sl : Slot) (v : Bool) (a n l : Nat) (op : AccOp) : (c.reach sl v a n l op).grants = c.grants := rfl
@[simp] theorem Core.reach_portBusy (c : Core) (sl : Slot) (v : Bool) (a n l : Nat) (op : AccOp) : (c.reach sl v a n l op).portBusy = c.portBusy := rfl
@[simp] theorem Core.reach_endWrites (c : Core) (sl : Slot) (v : Bool) (a n l : Nat) (op : AccOp) : (c.reach sl v a n l op).endWrites = c.endWrites := rfl
@[simp] theorem Core.reach_credits (c : Core) (sl : Slot) (v : Bool) (a n l : Nat) (op : AccOp) : (c.reach sl v a n l op).credits = c.credits := rfl
@[simp] theorem Core.reach_cbNew (c : Core) (sl : Slot) (v : Bool) (a n l : Nat) (op : AccOp) : (c.reach sl v a n l op).cbNew = c.cbNew := rfl
@[simp] theorem Core.reach_reached (c : Core) (sl : Slot) (v : Bool) (a n l : Nat) (op : AccOp) : (c.reach sl v a n l op).reached = c.reached := rfl
@[simp] theorem Core.reach_preempt (c : Core) (sl : Slot) (v : Bool) (a n l : Nat) (op : AccOp) : (c.reach sl v a n l op).preempt = c.preempt := rfl
@[simp] theorem Core.reach_expired (c : Core) (sl : Slot) (v : Bool) (a n l : Nat) (op : AccOp) : (c.reach sl v a n l op).expired = c.expired := rfl
@[simp] theorem Core.reach_switch (c : Core) (sl : Slot) (v : Bool) (a n l : Nat) (op : AccOp) : (c.reach sl v a n l op).switch = c.switch := rfl
@[simp] theorem Core.reach_moved (c : Core) (sl : Slot) (v : Bool) (a n l : Nat) (op : AccOp) : (c.reach sl v a n l op).moved = c.moved := rfl
@[simp] theorem Core.reach_cutLeft (c : Core) (sl : Slot) (v : Bool) (a n l : Nat) (op : AccOp) : (c.reach sl v a n l op).cutLeft = c.cutLeft := rfl
@[simp] theorem Core.reach_upsets (c : Core) (sl : Slot) (v : Bool) (a n l : Nat) (op : AccOp) : (c.reach sl v a n l op).upsets = c.upsets := rfl
@[simp] theorem Core.reach_tlb (c : Core) (sl : Slot) (v : Bool) (a n l : Nat) (op : AccOp) : (c.reach sl v a n l op).tlb = c.tlb := rfl
@[simp] theorem Core.reach_ceTlb (c : Core) (sl : Slot) (v : Bool) (a n l : Nat) (op : AccOp) : (c.reach sl v a n l op).ceTlb = c.ceTlb := rfl
@[simp] theorem Core.reach_power (c : Core) (sl : Slot) (v : Bool) (a n l : Nat) (op : AccOp) : (c.reach sl v a n l op).power = c.power := rfl
@[simp] theorem Core.reach_idleAt (c : Core) (sl : Slot) (v : Bool) (a n l : Nat) (op : AccOp) : (c.reach sl v a n l op).idleAt = c.idleAt := rfl
@[simp] theorem Core.reach_halted (c : Core) (sl : Slot) (v : Bool) (a n l : Nat) (op : AccOp) : (c.reach sl v a n l op).halted = c.halted := rfl
@[simp] theorem Core.reach_haltReq (c : Core) (sl : Slot) (v : Bool) (a n l : Nat) (op : AccOp) : (c.reach sl v a n l op).haltReq = c.haltReq := rfl
@[simp] theorem Core.reach_stepReq (c : Core) (sl : Slot) (v : Bool) (a n l : Nat) (op : AccOp) : (c.reach sl v a n l op).stepReq = c.stepReq := rfl
@[simp] theorem Core.reach_wake (c : Core) (sl : Slot) (v : Bool) (a n l : Nat) (op : AccOp) : (c.reach sl v a n l op).wake = c.wake := rfl
@[simp] theorem Core.reach_ev (c : Core) (sl : Slot) (v : Bool) (a n l : Nat) (op : AccOp) : (c.reach sl v a n l op).ev = c.ev := rfl
@[simp] theorem Core.onCtx_ctx (c : Core) (f : TaskCtx → TaskCtx) : (c.onCtx f).ctx = f c.ctx := rfl
@[simp] theorem Core.reqImp_itraps (c : Core) (t : ImpTrap) : (c.reqImp t).itraps = c.itraps ++ [t] := rfl
-- the context under Core.onSpr
@[simp] theorem Core.onSpr_ctx_s (c : Core) (f : Sprs → Sprs) : (c.onSpr f).ctx.s = c.ctx.s := rfl
@[simp] theorem Core.onSpr_ctx_v (c : Core) (f : Sprs → Sprs) : (c.onSpr f).ctx.v = c.ctx.v := rfl
@[simp] theorem Core.onSpr_ctx_p (c : Core) (f : Sprs → Sprs) : (c.onSpr f).ctx.p = c.ctx.p := rfl
@[simp] theorem Core.onSpr_ctx_cf (c : Core) (f : Sprs → Sprs) : (c.onSpr f).ctx.cf = c.ctx.cf := rfl
@[simp] theorem Core.onSpr_ctx_bt (c : Core) (f : Sprs → Sprs) : (c.onSpr f).ctx.bt = c.ctx.bt := rfl
@[simp] theorem Core.onSpr_ctx_as (c : Core) (f : Sprs → Sprs) : (c.onSpr f).ctx.as = c.ctx.as := rfl
@[simp] theorem Core.onSpr_ctx_md (c : Core) (f : Sprs → Sprs) : (c.onSpr f).ctx.md = c.ctx.md := rfl
@[simp] theorem Core.onSpr_ctx_ad (c : Core) (f : Sprs → Sprs) : (c.onSpr f).ctx.ad = c.ctx.ad := rfl
@[simp] theorem Core.onSpr_ctx_ed (c : Core) (f : Sprs → Sprs) : (c.onSpr f).ctx.ed = c.ctx.ed := rfl
@[simp] theorem Core.onSpr_ctx_cb (c : Core) (f : Sprs → Sprs) : (c.onSpr f).ctx.cb = c.ctx.cb := rfl
@[simp] theorem Core.onSpr_ctx_h (c : Core) (f : Sprs → Sprs) : (c.onSpr f).ctx.h = c.ctx.h := rfl
@[simp] theorem Core.onSpr_ctx_pat (c : Core) (f : Sprs → Sprs) : (c.onSpr f).ctx.pat = c.ctx.pat := rfl
@[simp] theorem Core.onSpr_ctx_spr (c : Core) (f : Sprs → Sprs) : (c.onSpr f).ctx.spr = f c.ctx.spr := rfl
@[simp] theorem Core.onSpr_ctx_domIn (c : Core) (f : Sprs → Sprs) : (c.onSpr f).ctx.domIn = c.ctx.domIn := rfl
@[simp] theorem Core.onSpr_ctx_rq (c : Core) (f : Sprs → Sprs) : (c.onSpr f).ctx.rq = c.ctx.rq := rfl
@[simp] theorem Core.onSpr_ctx_pc (c : Core) (f : Sprs → Sprs) : (c.onSpr f).ctx.pc = c.ctx.pc := rfl
@[simp] theorem Core.onSpr_ctx_loops (c : Core) (f : Sprs → Sprs) : (c.onSpr f).ctx.loops = c.ctx.loops := rfl
@[simp] theorem Core.onSpr_ctx_held (c : Core) (f : Sprs → Sprs) : (c.onSpr f).ctx.held = c.ctx.held := rfl
@[simp] theorem Core.onSpr_ctx_xfers (c : Core) (f : Sprs → Sprs) : (c.onSpr f).ctx.xfers = c.ctx.xfers := rfl
@[simp] theorem Core.onSpr_ctx_replay (c : Core) (f : Sprs → Sprs) : (c.onSpr f).ctx.replay = c.ctx.replay := rfl
@[simp] theorem Core.onSpr_ctx_beat (c : Core) (f : Sprs → Sprs) : (c.onSpr f).ctx.beat = c.ctx.beat := rfl
@[simp] theorem Core.onSpr_ctx_queues (c : Core) (f : Sprs → Sprs) : (c.onSpr f).ctx.queues = c.ctx.queues := rfl
@[simp] theorem Core.onSpr_ctx_mxe (c : Core) (f : Sprs → Sprs) : (c.onSpr f).ctx.mxe = c.ctx.mxe := rfl
@[simp] theorem Core.onSpr_ctx_af (c : Core) (f : Sprs → Sprs) : (c.onSpr f).ctx.af = c.ctx.af := rfl
@[simp] theorem Core.onSpr_ctx_tags (c : Core) (f : Sprs → Sprs) : (c.onSpr f).ctx.tags = c.ctx.tags := rfl
@[simp] theorem Core.onSpr_ctx_viewLog (c : Core) (f : Sprs → Sprs) : (c.onSpr f).ctx.viewLog = c.ctx.viewLog := rfl
@[simp] theorem Core.onSpr_ctx_round (c : Core) (f : Sprs → Sprs) : (c.onSpr f).ctx.round = c.ctx.round := rfl
@[simp] theorem Core.onSpr_ctx_retry (c : Core) (f : Sprs → Sprs) : (c.onSpr f).ctx.retry = c.ctx.retry := rfl
@[simp] theorem Core.onSpr_ctx_lostBase (c : Core) (f : Sprs → Sprs) : (c.onSpr f).ctx.lostBase = c.ctx.lostBase := rfl
@[simp] theorem Core.onSpr_ctx_launch (c : Core) (f : Sprs → Sprs) : (c.onSpr f).ctx.launch = c.ctx.launch := rfl
@[simp] theorem Core.onSpr_ctx_traps (c : Core) (f : Sprs → Sprs) : (c.onSpr f).ctx.traps = c.ctx.traps := rfl
-- the context under Core.onMxe
@[simp] theorem Core.onMxe_ctx_s (c : Core) (f : Mxe → Mxe) : (c.onMxe f).ctx.s = c.ctx.s := rfl
@[simp] theorem Core.onMxe_ctx_v (c : Core) (f : Mxe → Mxe) : (c.onMxe f).ctx.v = c.ctx.v := rfl
@[simp] theorem Core.onMxe_ctx_p (c : Core) (f : Mxe → Mxe) : (c.onMxe f).ctx.p = c.ctx.p := rfl
@[simp] theorem Core.onMxe_ctx_cf (c : Core) (f : Mxe → Mxe) : (c.onMxe f).ctx.cf = c.ctx.cf := rfl
@[simp] theorem Core.onMxe_ctx_bt (c : Core) (f : Mxe → Mxe) : (c.onMxe f).ctx.bt = c.ctx.bt := rfl
@[simp] theorem Core.onMxe_ctx_as (c : Core) (f : Mxe → Mxe) : (c.onMxe f).ctx.as = c.ctx.as := rfl
@[simp] theorem Core.onMxe_ctx_md (c : Core) (f : Mxe → Mxe) : (c.onMxe f).ctx.md = c.ctx.md := rfl
@[simp] theorem Core.onMxe_ctx_ad (c : Core) (f : Mxe → Mxe) : (c.onMxe f).ctx.ad = c.ctx.ad := rfl
@[simp] theorem Core.onMxe_ctx_ed (c : Core) (f : Mxe → Mxe) : (c.onMxe f).ctx.ed = c.ctx.ed := rfl
@[simp] theorem Core.onMxe_ctx_cb (c : Core) (f : Mxe → Mxe) : (c.onMxe f).ctx.cb = c.ctx.cb := rfl
@[simp] theorem Core.onMxe_ctx_h (c : Core) (f : Mxe → Mxe) : (c.onMxe f).ctx.h = c.ctx.h := rfl
@[simp] theorem Core.onMxe_ctx_pat (c : Core) (f : Mxe → Mxe) : (c.onMxe f).ctx.pat = c.ctx.pat := rfl
@[simp] theorem Core.onMxe_ctx_spr (c : Core) (f : Mxe → Mxe) : (c.onMxe f).ctx.spr = c.ctx.spr := rfl
@[simp] theorem Core.onMxe_ctx_domIn (c : Core) (f : Mxe → Mxe) : (c.onMxe f).ctx.domIn = c.ctx.domIn := rfl
@[simp] theorem Core.onMxe_ctx_rq (c : Core) (f : Mxe → Mxe) : (c.onMxe f).ctx.rq = c.ctx.rq := rfl
@[simp] theorem Core.onMxe_ctx_pc (c : Core) (f : Mxe → Mxe) : (c.onMxe f).ctx.pc = c.ctx.pc := rfl
@[simp] theorem Core.onMxe_ctx_loops (c : Core) (f : Mxe → Mxe) : (c.onMxe f).ctx.loops = c.ctx.loops := rfl
@[simp] theorem Core.onMxe_ctx_held (c : Core) (f : Mxe → Mxe) : (c.onMxe f).ctx.held = c.ctx.held := rfl
@[simp] theorem Core.onMxe_ctx_xfers (c : Core) (f : Mxe → Mxe) : (c.onMxe f).ctx.xfers = c.ctx.xfers := rfl
@[simp] theorem Core.onMxe_ctx_replay (c : Core) (f : Mxe → Mxe) : (c.onMxe f).ctx.replay = c.ctx.replay := rfl
@[simp] theorem Core.onMxe_ctx_beat (c : Core) (f : Mxe → Mxe) : (c.onMxe f).ctx.beat = c.ctx.beat := rfl
@[simp] theorem Core.onMxe_ctx_queues (c : Core) (f : Mxe → Mxe) : (c.onMxe f).ctx.queues = c.ctx.queues := rfl
@[simp] theorem Core.onMxe_ctx_mxe (c : Core) (f : Mxe → Mxe) : (c.onMxe f).ctx.mxe = f c.ctx.mxe := rfl
@[simp] theorem Core.onMxe_ctx_af (c : Core) (f : Mxe → Mxe) : (c.onMxe f).ctx.af = c.ctx.af := rfl
@[simp] theorem Core.onMxe_ctx_tags (c : Core) (f : Mxe → Mxe) : (c.onMxe f).ctx.tags = c.ctx.tags := rfl
@[simp] theorem Core.onMxe_ctx_viewLog (c : Core) (f : Mxe → Mxe) : (c.onMxe f).ctx.viewLog = c.ctx.viewLog := rfl
@[simp] theorem Core.onMxe_ctx_round (c : Core) (f : Mxe → Mxe) : (c.onMxe f).ctx.round = c.ctx.round := rfl
@[simp] theorem Core.onMxe_ctx_retry (c : Core) (f : Mxe → Mxe) : (c.onMxe f).ctx.retry = c.ctx.retry := rfl
@[simp] theorem Core.onMxe_ctx_lostBase (c : Core) (f : Mxe → Mxe) : (c.onMxe f).ctx.lostBase = c.ctx.lostBase := rfl
@[simp] theorem Core.onMxe_ctx_launch (c : Core) (f : Mxe → Mxe) : (c.onMxe f).ctx.launch = c.ctx.launch := rfl
@[simp] theorem Core.onMxe_ctx_traps (c : Core) (f : Mxe → Mxe) : (c.onMxe f).ctx.traps = c.ctx.traps := rfl
-- the context under Core.onAf
@[simp] theorem Core.onAf_ctx_s (c : Core) (f : Af → Af) : (c.onAf f).ctx.s = c.ctx.s := rfl
@[simp] theorem Core.onAf_ctx_v (c : Core) (f : Af → Af) : (c.onAf f).ctx.v = c.ctx.v := rfl
@[simp] theorem Core.onAf_ctx_p (c : Core) (f : Af → Af) : (c.onAf f).ctx.p = c.ctx.p := rfl
@[simp] theorem Core.onAf_ctx_cf (c : Core) (f : Af → Af) : (c.onAf f).ctx.cf = c.ctx.cf := rfl
@[simp] theorem Core.onAf_ctx_bt (c : Core) (f : Af → Af) : (c.onAf f).ctx.bt = c.ctx.bt := rfl
@[simp] theorem Core.onAf_ctx_as (c : Core) (f : Af → Af) : (c.onAf f).ctx.as = c.ctx.as := rfl
@[simp] theorem Core.onAf_ctx_md (c : Core) (f : Af → Af) : (c.onAf f).ctx.md = c.ctx.md := rfl
@[simp] theorem Core.onAf_ctx_ad (c : Core) (f : Af → Af) : (c.onAf f).ctx.ad = c.ctx.ad := rfl
@[simp] theorem Core.onAf_ctx_ed (c : Core) (f : Af → Af) : (c.onAf f).ctx.ed = c.ctx.ed := rfl
@[simp] theorem Core.onAf_ctx_cb (c : Core) (f : Af → Af) : (c.onAf f).ctx.cb = c.ctx.cb := rfl
@[simp] theorem Core.onAf_ctx_h (c : Core) (f : Af → Af) : (c.onAf f).ctx.h = c.ctx.h := rfl
@[simp] theorem Core.onAf_ctx_pat (c : Core) (f : Af → Af) : (c.onAf f).ctx.pat = c.ctx.pat := rfl
@[simp] theorem Core.onAf_ctx_spr (c : Core) (f : Af → Af) : (c.onAf f).ctx.spr = c.ctx.spr := rfl
@[simp] theorem Core.onAf_ctx_domIn (c : Core) (f : Af → Af) : (c.onAf f).ctx.domIn = c.ctx.domIn := rfl
@[simp] theorem Core.onAf_ctx_rq (c : Core) (f : Af → Af) : (c.onAf f).ctx.rq = c.ctx.rq := rfl
@[simp] theorem Core.onAf_ctx_pc (c : Core) (f : Af → Af) : (c.onAf f).ctx.pc = c.ctx.pc := rfl
@[simp] theorem Core.onAf_ctx_loops (c : Core) (f : Af → Af) : (c.onAf f).ctx.loops = c.ctx.loops := rfl
@[simp] theorem Core.onAf_ctx_held (c : Core) (f : Af → Af) : (c.onAf f).ctx.held = c.ctx.held := rfl
@[simp] theorem Core.onAf_ctx_xfers (c : Core) (f : Af → Af) : (c.onAf f).ctx.xfers = c.ctx.xfers := rfl
@[simp] theorem Core.onAf_ctx_replay (c : Core) (f : Af → Af) : (c.onAf f).ctx.replay = c.ctx.replay := rfl
@[simp] theorem Core.onAf_ctx_beat (c : Core) (f : Af → Af) : (c.onAf f).ctx.beat = c.ctx.beat := rfl
@[simp] theorem Core.onAf_ctx_queues (c : Core) (f : Af → Af) : (c.onAf f).ctx.queues = c.ctx.queues := rfl
@[simp] theorem Core.onAf_ctx_mxe (c : Core) (f : Af → Af) : (c.onAf f).ctx.mxe = c.ctx.mxe := rfl
@[simp] theorem Core.onAf_ctx_af (c : Core) (f : Af → Af) : (c.onAf f).ctx.af = f c.ctx.af := rfl
@[simp] theorem Core.onAf_ctx_tags (c : Core) (f : Af → Af) : (c.onAf f).ctx.tags = c.ctx.tags := rfl
@[simp] theorem Core.onAf_ctx_viewLog (c : Core) (f : Af → Af) : (c.onAf f).ctx.viewLog = c.ctx.viewLog := rfl
@[simp] theorem Core.onAf_ctx_round (c : Core) (f : Af → Af) : (c.onAf f).ctx.round = c.ctx.round := rfl
@[simp] theorem Core.onAf_ctx_retry (c : Core) (f : Af → Af) : (c.onAf f).ctx.retry = c.ctx.retry := rfl
@[simp] theorem Core.onAf_ctx_lostBase (c : Core) (f : Af → Af) : (c.onAf f).ctx.lostBase = c.ctx.lostBase := rfl
@[simp] theorem Core.onAf_ctx_launch (c : Core) (f : Af → Af) : (c.onAf f).ctx.launch = c.ctx.launch := rfl
@[simp] theorem Core.onAf_ctx_traps (c : Core) (f : Af → Af) : (c.onAf f).ctx.traps = c.ctx.traps := rfl
-- the context under Core.onQueue
@[simp] theorem Core.onQueue_ctx_s (c : Core) (q : BitVec 3) (f : Queue → Queue) : (c.onQueue q f).ctx.s = c.ctx.s := rfl
@[simp] theorem Core.onQueue_ctx_v (c : Core) (q : BitVec 3) (f : Queue → Queue) : (c.onQueue q f).ctx.v = c.ctx.v := rfl
@[simp] theorem Core.onQueue_ctx_p (c : Core) (q : BitVec 3) (f : Queue → Queue) : (c.onQueue q f).ctx.p = c.ctx.p := rfl
@[simp] theorem Core.onQueue_ctx_cf (c : Core) (q : BitVec 3) (f : Queue → Queue) : (c.onQueue q f).ctx.cf = c.ctx.cf := rfl
@[simp] theorem Core.onQueue_ctx_bt (c : Core) (q : BitVec 3) (f : Queue → Queue) : (c.onQueue q f).ctx.bt = c.ctx.bt := rfl
@[simp] theorem Core.onQueue_ctx_as (c : Core) (q : BitVec 3) (f : Queue → Queue) : (c.onQueue q f).ctx.as = c.ctx.as := rfl
@[simp] theorem Core.onQueue_ctx_md (c : Core) (q : BitVec 3) (f : Queue → Queue) : (c.onQueue q f).ctx.md = c.ctx.md := rfl
@[simp] theorem Core.onQueue_ctx_ad (c : Core) (q : BitVec 3) (f : Queue → Queue) : (c.onQueue q f).ctx.ad = c.ctx.ad := rfl
@[simp] theorem Core.onQueue_ctx_ed (c : Core) (q : BitVec 3) (f : Queue → Queue) : (c.onQueue q f).ctx.ed = c.ctx.ed := rfl
@[simp] theorem Core.onQueue_ctx_cb (c : Core) (q : BitVec 3) (f : Queue → Queue) : (c.onQueue q f).ctx.cb = c.ctx.cb := rfl
@[simp] theorem Core.onQueue_ctx_h (c : Core) (q : BitVec 3) (f : Queue → Queue) : (c.onQueue q f).ctx.h = c.ctx.h := rfl
@[simp] theorem Core.onQueue_ctx_pat (c : Core) (q : BitVec 3) (f : Queue → Queue) : (c.onQueue q f).ctx.pat = c.ctx.pat := rfl
@[simp] theorem Core.onQueue_ctx_spr (c : Core) (q : BitVec 3) (f : Queue → Queue) : (c.onQueue q f).ctx.spr = c.ctx.spr := rfl
@[simp] theorem Core.onQueue_ctx_domIn (c : Core) (q : BitVec 3) (f : Queue → Queue) : (c.onQueue q f).ctx.domIn = c.ctx.domIn := rfl
@[simp] theorem Core.onQueue_ctx_rq (c : Core) (q : BitVec 3) (f : Queue → Queue) : (c.onQueue q f).ctx.rq = c.ctx.rq := rfl
@[simp] theorem Core.onQueue_ctx_pc (c : Core) (q : BitVec 3) (f : Queue → Queue) : (c.onQueue q f).ctx.pc = c.ctx.pc := rfl
@[simp] theorem Core.onQueue_ctx_loops (c : Core) (q : BitVec 3) (f : Queue → Queue) : (c.onQueue q f).ctx.loops = c.ctx.loops := rfl
@[simp] theorem Core.onQueue_ctx_held (c : Core) (q : BitVec 3) (f : Queue → Queue) : (c.onQueue q f).ctx.held = c.ctx.held := rfl
@[simp] theorem Core.onQueue_ctx_xfers (c : Core) (q : BitVec 3) (f : Queue → Queue) : (c.onQueue q f).ctx.xfers = c.ctx.xfers := rfl
@[simp] theorem Core.onQueue_ctx_replay (c : Core) (q : BitVec 3) (f : Queue → Queue) : (c.onQueue q f).ctx.replay = c.ctx.replay := rfl
@[simp] theorem Core.onQueue_ctx_beat (c : Core) (q : BitVec 3) (f : Queue → Queue) : (c.onQueue q f).ctx.beat = c.ctx.beat := rfl
@[simp] theorem Core.onQueue_ctx_mxe (c : Core) (q : BitVec 3) (f : Queue → Queue) : (c.onQueue q f).ctx.mxe = c.ctx.mxe := rfl
@[simp] theorem Core.onQueue_ctx_af (c : Core) (q : BitVec 3) (f : Queue → Queue) : (c.onQueue q f).ctx.af = c.ctx.af := rfl
@[simp] theorem Core.onQueue_ctx_tags (c : Core) (q : BitVec 3) (f : Queue → Queue) : (c.onQueue q f).ctx.tags = c.ctx.tags := rfl
@[simp] theorem Core.onQueue_ctx_viewLog (c : Core) (q : BitVec 3) (f : Queue → Queue) : (c.onQueue q f).ctx.viewLog = c.ctx.viewLog := rfl
@[simp] theorem Core.onQueue_ctx_round (c : Core) (q : BitVec 3) (f : Queue → Queue) : (c.onQueue q f).ctx.round = c.ctx.round := rfl
@[simp] theorem Core.onQueue_ctx_retry (c : Core) (q : BitVec 3) (f : Queue → Queue) : (c.onQueue q f).ctx.retry = c.ctx.retry := rfl
@[simp] theorem Core.onQueue_ctx_lostBase (c : Core) (q : BitVec 3) (f : Queue → Queue) : (c.onQueue q f).ctx.lostBase = c.ctx.lostBase := rfl
@[simp] theorem Core.onQueue_ctx_launch (c : Core) (q : BitVec 3) (f : Queue → Queue) : (c.onQueue q f).ctx.launch = c.ctx.launch := rfl
@[simp] theorem Core.onQueue_ctx_traps (c : Core) (q : BitVec 3) (f : Queue → Queue) : (c.onQueue q f).ctx.traps = c.ctx.traps := rfl

end Sys2Proof.Machine
end

