-- ==== Sys2Proof/Laws/Issue.lean ====
section
/-!
SUPPORT. What the shared operations of an issuing word do, said once: an issue, a result, a trap, a pool access.
-/
namespace Sys2Proof.Machine

open Host

theorem Slot.num_lt (sl : Slot) : sl.num < 8 := by cases sl <;> decide

theorem Slot.num_inj {a b : Slot} (h : a.num = b.num) : a = b := by
  cases a <;> cases b <;> first | rfl | exact absurd h (by decide)

-- a slot goes on to its next word

theorem Core.mark_nextSeq (c : Core) (sl : Slot) : (c.mark sl).nextSeq sl = c.nextSeq sl + 1 := by
  have := Slot.num_lt sl
  simp [Core.mark, Core.nextSeq, this]

theorem Core.mark_nextSeq_other (c : Core) {sl q : Slot} (h : q ≠ sl) : (c.mark sl).nextSeq q = c.nextSeq q := by
  have h1 := Slot.num_lt sl
  have h2 : sl.num ≠ q.num := fun e => h (Slot.num_inj e).symm
  simp [Core.mark, Core.nextSeq, h2]

theorem Core.mark_bare (c : Core) (sl : Slot) : (c.mark sl).bundles.map BundleRec.bare = c.bundles.map BundleRec.bare := by
  simp only [Core.mark, List.map_map]
  refine List.map_congr_left fun b _ => ?_
  simp only [Function.comp]
  split <;> rfl

theorem Core.accUntil_bare (c : Core) (q t : Nat) : (c.accUntil q t).bundles.map BundleRec.bare = c.bundles.map BundleRec.bare := by
  simp only [Core.accUntil, List.map_map]
  refine List.map_congr_left fun b _ => ?_
  simp only [Function.comp]
  split <;> rfl

-- one core changes

theorem OnlyCore.updCore (s : State) (c : CoreId) (f : Core → Core) : OnlyCore c s (s.updCore c f) :=
  ⟨rfl, fun d h => State.updCore_other s c d f h⟩

@[simp] theorem State.updCore_me (s : State) (f : Core → Core) : (s.updCore s.cur.core f).me = f s.me := by
  simp [State.me]

/-- An issuing word whose effect on its core leaves the words of the slots and the bundles alone. -/
theorem issues_of (s : State) (f : Core → Core) (h1 : (f s.me).next = s.me.next)
    (h2 : (f s.me).bundles.map BundleRec.bare = s.me.bundles.map BundleRec.bare) : Issues s (s.issue f) (f s.me) := by
  have hm : (s.issue f).me = (f s.me).mark s.cur.slot := by simp [State.issue]
  refine ⟨OnlyCore.updCore _ _ _, ⟨?_, fun sl h => ?_, ?_⟩, ?_⟩
  · rw [hm, Core.mark_nextSeq]; simp [Core.nextSeq, h1]
  · rw [hm, Core.mark_nextSeq_other _ h]; simp [Core.nextSeq, h1]
  · rw [hm, Core.mark_bare, h2]
  · rw [hm]; rfl

theorem Issues.congr {s t : State} {c d : Core} (h : Issues s t c) (e : c.withIssue t.me = d.withIssue t.me) : Issues s t d :=
  ⟨h.1, h.2.1, h.2.2.trans e⟩

-- results

/-- A result goes into flight, and nothing else but a trap request, that only where two slots' writes are to land together (R61). -/
theorem Core.fly_spec (c : Core) (f : Flight) : ∃ p, c.fly f = c.plus f p ∧ (c.noMeeting f = true → p = c.ptrap) := by
  unfold Core.fly Core.collide
  dsimp only
  split
  · exact ⟨c.ptrap, rfl, fun _ => rfl⟩
  · next g hg =>
    refine ⟨_, rfl, fun hn => ?_⟩
    have h1 := List.find?_some hg
    have h2 := List.all_eq_true.mp hn g (List.mem_of_find?_eq_some hg)
    rw [h1] at h2
    simp at h2

theorem Core.plus_next (c : Core) (f : Flight) (p : Option TrapReq) : (c.plus f p).next = c.next := rfl
theorem Core.plus_bundles (c : Core) (f : Flight) (p : Option TrapReq) : (c.plus f p).bundles = c.bundles := rfl

/-- A word whose effect is one result. -/
theorem delivers_fly (s : State) (r : Reg) (mask : Payload) (v lat : Nat) (k : Kinds) (p : Bool) :
    Delivers s (s.issue fun c => c.fly (s.resultOf r mask v lat k p)) r mask v lat k p := by
  obtain ⟨q, hq, hn⟩ := Core.fly_spec s.me (s.resultOf r mask v lat k p)
  have h := issues_of s (fun c => c.fly (s.resultOf r mask v lat k p)) (by simp only [hq]; rfl) (by simp only [hq]; rfl)
  exact ⟨q, by rw [← hq]; exact h, hn⟩

/-- The effect of a word on its core decides its issue: only its value at the issuing core counts. -/
theorem State.issue_congr (s : State) {f g : Core → Core} (h : f s.me = g s.me) : s.issue f = s.issue g := by
  simp only [State.issue, State.updCore]
  have h' : f s.cores[s.cur.core] = g s.cores[s.cur.core] := h
  rw [h']

theorem delivers_result (s : State) (sl : Slot) (hs : s.cur.slot = sl) (r : Reg) (bits v lat : Nat) (k : Kinds) (p : Bool) :
    Delivers s (s.issue fun c => c.result sl r bits v lat k p) r (lowMask bits) v lat k p := by
  subst hs
  have h := delivers_fly s r (lowMask bits) v lat k p
  rwa [State.issue_congr s (g := fun c => c.result s.cur.slot r bits v lat k p) rfl] at h

-- traps

/-- A word that raises a precise trap does nothing else. -/
theorem trapNow_spec (s : State) (cause : Nat) (i0 i1 : Word) : TrapsWith s (s.trapNow cause i0 i1) (BitVec.ofNat 8 cause) i0 i1 :=
  issues_of s (fun c => c.reqTrap ⟨s.myRec.seq, BitVec.ofNat 8 cause, i0, i1⟩) rfl rfl

theorem illegal_spec (s : State) (extra : Word) : TrapsIllegal s (s.illegal extra) extra := trapNow_spec s 1 _ _

-- pool accesses

theorem loads_fly (s : State) (r : Reg) (mask : Payload) (lat : Nat) (view : Bool) (a n acc : Nat) (op : AccOp) :
    Loads s (s.issue fun c => (c.fly (s.resultOf r mask 0 lat 0 false)).reach s.cur.slot view a n acc op) r mask lat
      (s.accessOf view a n acc op) := by
  obtain ⟨q, hq, hn⟩ := Core.fly_spec s.me (s.resultOf r mask 0 lat 0 false)
  refine ⟨q, (issues_of s (fun c => (c.fly (s.resultOf r mask 0 lat 0 false)).reach s.cur.slot view a n acc op) ?_ ?_).congr ?_, hn⟩
  · simp only [hq]; rfl
  · simp only [hq]; exact Core.accUntil_bare _ _ _
  · simp only [hq]; rfl

/-- A load of `loadTo`. -/
theorem loadTo_spec (s : State) (r : Reg) (as : BitVec 4) (a : Word) (n bits acc lat : Nat) (mask : Payload) (op : AccOp) :
    ∃ t, loadTo s r as a n bits acc lat mask op = .next t ∧
      Loads s t r (mask &&& lowMask bits) lat (s.accessOf (s.me.ras as).view a.toNat n acc op) := by
  refine ⟨_, rfl, ?_⟩
  have h := loads_fly s r (mask &&& lowMask bits) lat (s.me.ras as).view a.toNat n acc op
  rwa [State.issue_congr s (g := fun c =>
    (c.fly { seq := s.myRec.seq, slot := s.cur.slot, bundle := s.myRec.pc, reg := r, val := 0, mask := mask &&& lowMask bits, due := c.cyc + lat,
             kinds := 0, pend := false }).reach s.cur.slot (c.ras as).view a.toNat n acc op) rfl] at h

theorem stores_reach (s : State) (view : Bool) (a n acc : Nat) (op : AccOp) :
    Stores s (s.issue fun c => c.reach s.cur.slot view a n acc op) [s.accessOf view a n acc op] :=
  (issues_of s (fun c => c.reach s.cur.slot view a n acc op) rfl (Core.accUntil_bare _ _ _)).congr rfl

-- waits

theorem waits_same (s : State) : Waits s s := ⟨⟨rfl, fun _ _ => rfl⟩, rfl⟩

theorem waits_waitSince (s : State) (sl : Slot) : Waits s (s.updCore s.cur.core fun c => c.waitSince sl) := by
  refine ⟨OnlyCore.updCore _ _ _, ?_⟩
  simp only [State.updCore_me, Core.waitSince]
  split <;> rfl

end Sys2Proof.Machine
end

