-- ==== Sys2Proof/Laws/Memory.lean ====
section
/-!
SUPPORT. Memories: a read after a write, and that every operation on a memory keeps the canonical form.
-/
namespace Sys2Proof.Machine

-- rising lists

theorem rising_cons {a : Nat} {l : List Nat} : rising (a :: l) = true ↔ (∀ x ∈ l.head?, a < x) ∧ rising l = true := by
  cases l <;> simp [rising]

theorem rising_tail {a : Nat} {l : List Nat} (h : rising (a :: l) = true) : rising l = true := (rising_cons.mp h).2

/-- A rising list lies above its head. -/
theorem rising_lt {a : Nat} {l : List Nat} (h : rising (a :: l) = true) : ∀ x ∈ l, a < x := by
  induction l generalizing a with
  | nil => simp
  | cons b r ih =>
    have h1 := rising_cons.mp h
    intro x hx
    rcases List.mem_cons.mp hx with rfl | hx
    · exact h1.1 x (by simp)
    · exact Nat.lt_trans (h1.1 b (by simp)) (ih h1.2 x hx)

theorem rising_of_forall {a : Nat} {l : List Nat} (h : rising l = true) (hl : ∀ x ∈ l, a < x) : rising (a :: l) = true := by
  refine rising_cons.mpr ⟨fun x hx => hl x ?_, h⟩
  cases l <;> simp_all

theorem rising_filter (p : Nat → Bool) {l : List Nat} (h : rising l = true) : rising (l.filter p) = true := by
  induction l with
  | nil => exact h
  | cons a r ih =>
    rw [List.filter_cons]
    split
    · exact rising_of_forall (ih (rising_tail h)) fun x hx => rising_lt h x (List.mem_filter.mp hx).1
    · exact ih (rising_tail h)

theorem rising_map (f : Nat → Nat) {l : List Nat} (hf : ∀ x y, x ∈ l → y ∈ l → x < y → f x < f y) (h : rising l = true) :
    rising (l.map f) = true := by
  induction l with
  | nil => exact h
  | cons a r ih =>
    refine rising_of_forall (ih (fun x y hx hy => hf x y (by simp [hx]) (by simp [hy])) (rising_tail h)) fun x hx => ?_
    obtain ⟨y, hy, rfl⟩ := List.mem_map.mp hx
    exact hf a y (by simp) (by simp [hy]) (rising_lt h y hy)

theorem putNat_mem {on : Bool} {a x : Nat} {l : List Nat} (h : x ∈ putNat on a l) : x = a ∨ x ∈ l := by
  induction l with
  | nil => cases on <;> simp_all [putNat]
  | cons b r ih =>
    simp only [putNat] at h
    split at h
    · cases on <;> simp_all
    · split at h
      · cases on <;> simp_all
      · rcases List.mem_cons.mp h with rfl | h
        · simp
        · rcases ih h with rfl | h <;> simp_all

theorem putNat_rising (on : Bool) (a : Nat) {l : List Nat} (h : rising l = true) : rising (putNat on a l) = true := by
  induction l with
  | nil => cases on <;> simp [putNat, rising]
  | cons b r ih =>
    simp only [putNat]
    split
    · next hab =>
      cases on
      · exact h
      · exact rising_cons.mpr ⟨by simp [hab], h⟩
    · split
      · cases on
        · exact rising_tail h
        · exact h
      · refine rising_of_forall (ih (rising_tail h)) fun x hx => ?_
        rcases putNat_mem hx with rfl | hx
        · omega
        · exact rising_lt h x hx

-- cells

/-- The canonical form of a list of cells. -/
def cellsWf (l : List Host.Cell) : Bool := rising (l.map (·.1)) && l.all fun c => c.2 != unlistedByte

theorem Mem.wf_iff (m : Mem) : m.wf = true ↔ cellsWf m.cells = true ∧ rising m.poison = true := by
  simp [Mem.wf, cellsWf]

theorem cellsWf_iff (l : List Host.Cell) :
    cellsWf l = true ↔ rising (l.map (·.1)) = true ∧ ∀ c ∈ l, c.2 ≠ unlistedByte := by
  simp [cellsWf]

theorem putCell_mem {a : Nat} {b : Byte} {c : Host.Cell} {l : List Host.Cell} (h : c ∈ putCell a b l) :
    (c = (a, b) ∧ b ≠ unlistedByte) ∨ c ∈ l := by
  induction l with
  | nil => simp only [putCell] at h; split at h <;> simp_all
  | cons x r ih =>
    simp only [putCell] at h
    split at h
    · split at h <;> simp_all
    · split at h
      · next hax =>
        split at h
        · exact .inr (by simp [h])
        · next hb =>
          rcases List.mem_cons.mp h with h | h
          · exact .inl ⟨by rw [h, hax], hb⟩
          · exact .inr (by simp [h])
      · rcases List.mem_cons.mp h with rfl | h
        · simp
        · rcases ih h with h | h <;> simp_all

theorem putCell_wf (a : Nat) (b : Byte) {l : List Host.Cell} (h : cellsWf l = true) : cellsWf (putCell a b l) = true := by
  rw [cellsWf_iff] at h ⊢
  refine ⟨?_, fun c hc => ?_⟩
  · have h1 := h.1
    clear h
    induction l with
    | nil => simp only [putCell]; split <;> simp [rising]
    | cons x r ih =>
      simp only [List.map_cons] at h1
      simp only [putCell]
      split
      · next hab => split
                    · exact h1
                    · exact rising_cons.mpr ⟨by simp [hab], h1⟩
      · split
        · next hab hax =>
          split
          · exact rising_tail h1
          · subst hax; exact h1
        · refine rising_of_forall (ih (rising_tail h1)) fun y hy => ?_
          obtain ⟨c, hc, rfl⟩ := List.mem_map.mp hy
          rcases putCell_mem hc with ⟨rfl, -⟩ | hc
          · simp only; omega
          · exact rising_lt h1 _ (List.mem_map.mpr ⟨c, hc, rfl⟩)
  · rcases putCell_mem hc with ⟨rfl, hb⟩ | hc
    · exact hb
    · exact h.2 c hc

theorem cellsWf_filter (p : Host.Cell → Bool) {l : List Host.Cell} (h : cellsWf l = true) : cellsWf (l.filter p) = true := by
  rw [cellsWf_iff] at h ⊢
  refine ⟨?_, fun c hc => h.2 c (List.mem_filter.mp hc).1⟩
  have h1 := h.1
  clear h
  induction l with
  | nil => exact h1
  | cons x r ih =>
    simp only [List.map_cons] at h1
    rw [List.filter_cons]
    split
    · refine rising_of_forall (ih (rising_tail h1)) fun y hy => ?_
      obtain ⟨c, hc, rfl⟩ := List.mem_map.mp hy
      exact rising_lt h1 _ (List.mem_map.mpr ⟨c, (List.mem_filter.mp hc).1, rfl⟩)
    · exact ih (rising_tail h1)

-- read after write

/-- Below its first entry a canonical list holds nothing. -/
theorem getCell_below {a : Nat} {l : List Host.Cell} (h : ∀ c ∈ l, a < c.1) : getCell a l = unlistedByte := by
  induction l with
  | nil => rfl
  | cons x r ih =>
    have hx := h x (by simp)
    have : ¬ a = x.1 := by omega
    simp only [getCell, this, if_false]
    exact ih fun c hc => h c (by simp [hc])

theorem getCell_putCell {a x : Nat} {b : Byte} {l : List Host.Cell} (h : rising (l.map (·.1)) = true) :
    getCell x (putCell a b l) = if x = a then b else getCell x l := by
  induction l with
  | nil =>
    by_cases hb : b = unlistedByte <;> by_cases hx : x = a <;> simp_all [putCell, getCell]
  | cons y r ih =>
    obtain ⟨y1, y2⟩ := y
    simp only [List.map_cons] at h
    have hr : ∀ c ∈ r, y1 < c.1 := fun c hc => rising_lt h _ (List.mem_map.mpr ⟨c, hc, rfl⟩)
    have ih := ih (rising_tail h)
    simp only [putCell]
    split
    · next hlt =>
      by_cases hx : x = a
      · subst hx
        have h0 : getCell x ((y1, y2) :: r) = unlistedByte :=
          getCell_below fun c hc => (List.mem_cons.mp hc).elim (fun e => e ▸ hlt) fun hc => Nat.lt_trans hlt (hr c hc)
        split
        · next hb => rw [h0]; simp [hb]
        · simp [getCell]
      · split <;> simp [getCell, hx]
    · split
      · next hlt heq =>
        subst heq
        by_cases hx : x = a
        · subst hx
          split
          · next hb => rw [getCell_below hr]; simp [hb]
          · simp [getCell]
        · split <;> simp [getCell, hx]
      · next hlt hne =>
        by_cases hxy : x = y1
        · subst hxy
          have : ¬ x = a := fun e => hne e.symm
          simp [getCell, this]
        · simp [getCell, hxy, ih]

-- memories

theorem Mem.empty_wf : Mem.empty.wf = true := rfl

/-- Writing a byte keeps the canonical form. -/
theorem Mem.write_wf {m : Mem} (a : Nat) (b : Byte) (p : Bool) (h : m.wf = true) : (m.write a b p).wf = true := by
  rw [Mem.wf_iff] at h ⊢
  exact ⟨putCell_wf a b h.1, putNat_rising p a h.2⟩

/-- A byte reads as it was written last; every other byte reads as before. -/
theorem Mem.read_write {m : Mem} (h : m.wf = true) (a x : Nat) (b : Byte) (p : Bool) :
    (m.write a b p).read x = if x = a then b else m.read x := by
  rw [Mem.wf_iff, cellsWf_iff] at h
  exact getCell_putCell h.1.1

theorem List.foldl_keeps {α β : Type} (P : β → Prop) (f : β → α → β) (l : List α) (hf : ∀ b a, a ∈ l → P b → P (f b a)) {b : β} (h : P b) :
    P (l.foldl f b) := by
  induction l generalizing b with
  | nil => exact h
  | cons a r ih => exact ih (fun b x hx => hf b x (by simp [hx])) (hf b a (by simp) h)

theorem Mem.writeAll_wf {m : Mem} (bs : List (Nat × Byte)) (p : Bool) (h : m.wf = true) : (m.writeAll bs p).wf = true :=
  List.foldl_keeps (fun m => Mem.wf m = true) _ bs (fun _ x _ h => Mem.write_wf x.1 x.2 p h) h

/-- A byte outside the written addresses reads as before. -/
theorem Mem.read_writeAll_other {m : Mem} (h : m.wf = true) (bs : List (Nat × Byte)) (p : Bool) (x : Nat) (hx : ∀ b ∈ bs, b.1 ≠ x) :
    (m.writeAll bs p).read x = m.read x := by
  induction bs generalizing m with
  | nil => rfl
  | cons b r ih =>
    have h1 : ¬ x = b.1 := fun e => hx b (by simp) e.symm
    have h2 := ih (Mem.write_wf b.1 b.2 p h) fun y hy => hx y (by simp [hy])
    simp only [Mem.writeAll, List.foldl_cons] at h2 ⊢
    rw [h2, Mem.read_write h, if_neg h1]

/-- Cells put one after another, and poison left alone. -/
theorem Mem.putCells_wf {m : Mem} (bs : List (Nat × Byte)) (h : m.wf = true) :
    (bs.foldl (fun (m : Mem) x => (⟨putCell x.1 x.2 m.cells, m.poison⟩ : Mem)) m).wf = true :=
  List.foldl_keeps (fun m => Mem.wf m = true) _ bs
    (fun m x _ h => by rw [Mem.wf_iff] at h ⊢; exact ⟨putCell_wf x.1 x.2 h.1, h.2⟩) h

/-- Poison marked at places that a list names, and cells left alone. -/
theorem Mem.marks_wf {m : Mem} {α : Type} (f : α → Nat) (on : Bool) (l : List α) (h : m.wf = true) :
    (l.foldl (fun (m : Mem) i => (⟨m.cells, putNat on (f i) m.poison⟩ : Mem)) m).wf = true :=
  List.foldl_keeps (fun m => Mem.wf m = true) _ l
    (fun m x _ h => by rw [Mem.wf_iff] at h ⊢; exact ⟨h.1, putNat_rising on _ h.2⟩) h

theorem Mem.writeHbm_wf {m : Mem} (bs : List (Nat × Byte)) (p : Bool) (h : m.wf = true) : (m.writeHbm bs p).wf = true := by
  refine List.foldl_keeps (fun m => Mem.wf m = true) _ _ (fun m g _ h => ?_) (Mem.putCells_wf bs h)
  show Mem.wf (if p then _ else if _ then _ else m) = true
  split
  · exact Mem.marks_wf _ true _ h
  · split
    · exact Mem.marks_wf _ false _ h
    · exact h

theorem Mem.writeMarked_wf {m : Mem} (a : Nat) (bs : List (Byte × Bool)) (h : m.wf = true) : (m.writeMarked a bs).wf = true :=
  List.foldl_keeps (fun m => Mem.wf m = true) _ _ (fun _ _ _ h => Mem.write_wf _ _ _ h) h

theorem Mem.part_wf {m : Mem} (rs : List (Nat × Nat)) (h : m.wf = true) : (m.part rs).wf = true := by
  rw [Mem.wf_iff] at h ⊢
  exact ⟨cellsWf_filter _ h.1, rising_filter _ h.2⟩

/-- Cells put into a canonical list. -/
theorem cells_put_wf {α : Type} (f : α → Host.Cell) (xs : List α) {l : List Host.Cell} (h : cellsWf l = true) :
    cellsWf (xs.foldl (fun l x => putCell (f x).1 (f x).2 l) l) = true :=
  List.foldl_keeps (fun l => cellsWf l = true) _ xs (fun _ x _ h => putCell_wf (f x).1 (f x).2 h) h

theorem putNats_rising {α : Type} (f : α → Nat) (xs : List α) {l : List Nat} (h : rising l = true) :
    rising (xs.foldl (fun l x => putNat true (f x) l) l) = true :=
  List.foldl_keeps (fun l => rising l = true) _ xs (fun _ x _ h => putNat_rising true (f x) h) h

/-- Putting a part back keeps the canonical form, whatever is put. -/
theorem Mem.putBack_wf {m : Mem} (rs : List (Nat × Nat)) (x : Mem) (h : m.wf = true) : (m.putBack rs x).wf = true := by
  rw [Mem.wf_iff] at h ⊢
  exact ⟨cells_put_wf id x.cells (cellsWf_filter _ h.1), putNats_rising id x.poison (rising_filter _ h.2)⟩

/-- So does copying bytes in. -/
theorem Mem.copyIn_wf {m : Mem} (dst : Nat) (x : Mem) (src n : Nat) (h : m.wf = true) : (m.copyIn dst x src n).wf = true :=
  Mem.putBack_wf _ _ h

theorem Mem.up_wf {m : Mem} (o : Nat) (h : m.wf = true) : (m.up o).wf = true := by
  rw [Mem.wf_iff, cellsWf_iff] at h ⊢
  refine ⟨⟨?_, fun c hc => ?_⟩, rising_map _ (fun x y _ _ hxy => by omega) h.2⟩
  · have : (m.up o).cells.map (·.1) = (m.cells.map (·.1)).map (· + o) := by simp [Mem.up]
    rw [this]
    exact rising_map _ (fun x y _ _ hxy => by omega) h.1.1
  · obtain ⟨x, hx, rfl⟩ := List.mem_map.mp hc
    exact h.1.2 x hx

theorem Mem.down_wf {m : Mem} (o : Nat) (h : m.wf = true) : (m.down o).wf = true := by
  rw [Mem.wf_iff] at h
  have hc := (cellsWf_iff _).mp (cellsWf_filter (fun x => decide (o ≤ x.1)) h.1)
  rw [Mem.wf_iff, cellsWf_iff]
  refine ⟨⟨?_, fun c hm => ?_⟩, ?_⟩
  · have : (m.down o).cells.map (·.1) = ((m.cells.filter fun x => decide (o ≤ x.1)).map (·.1)).map (· - o) := by simp [Mem.down]
    rw [this]
    refine rising_map _ (fun x y hx _ hxy => ?_) hc.1
    obtain ⟨z, hz, rfl⟩ := List.mem_map.mp hx
    have := (List.mem_filter.mp hz).2
    simp only [decide_eq_true_eq] at this
    omega
  · obtain ⟨x, hx, rfl⟩ := List.mem_map.mp hm
    exact hc.2 x hx
  · refine rising_map _ (fun x y hx _ hxy => ?_) (rising_filter _ h.2)
    have := (List.mem_filter.mp hx).2
    simp only [decide_eq_true_eq] at this
    omega

-- the rows memory

theorem writeRow_wf {m : Mem} (base lo n v : Nat) (bad : List Nat) (h : m.wf = true) : (writeRow m base lo n v bad).wf = true := by
  refine List.foldl_keeps (fun m => Mem.wf m = true) _ bad (fun m g _ h => Mem.marks_wf _ true _ h) ?_
  refine List.foldl_keeps (fun m => Mem.wf m = true) _ _ (fun m g _ h => Mem.marks_wf _ false _ h) ?_
  refine List.foldl_keeps (fun m => Mem.wf m = true) _ _ (fun m i _ h => ?_) h
  show Mem.wf (if _ then _ else m) = true
  split
  · rw [Mem.wf_iff] at h ⊢
    exact ⟨putCell_wf _ _ h.1, h.2⟩
  · exact h

theorem writeRegion_wf {m : Mem} (w : Vector Word 6) (bits : Nat) (h : m.wf = true) : (writeRegion m w bits).wf = true :=
  List.foldl_keeps (fun m => Mem.wf m = true) _ _ (fun _ _ _ h => writeRow_wf _ _ _ _ _ h) h

theorem writeAfBytes_wf {m : Mem} (bs : List (Nat × Byte)) (p : Bool) (h : m.wf = true) : (writeAfBytes m bs p).wf = true := by
  refine List.foldl_keeps (fun m => Mem.wf m = true) _ _ (fun m g _ h => ?_) (Mem.putCells_wf bs h)
  show Mem.wf (if p then _ else if _ then _ else m) = true
  split
  · exact Mem.marks_wf _ true _ h
  · split
    · exact Mem.marks_wf _ false _ h
    · exact h

theorem creditWord_wf {m : Mem} (a n : Nat) (p l : Bool) (h : m.wf = true) : (creditWord m a n p l).wf = true :=
  Mem.writeAll_wf _ _ h

-- stacks, and the images that checkpoints save and load

theorem Stack.write_wf {k : Stack} (bs : List (Nat × Byte)) (p : Bool) (h : k.bytes.wf = true) : (k.write bs p).bytes.wf = true := by
  unfold Stack.write
  dsimp only
  split
  · exact Mem.writeHbm_wf _ _ h
  · exact Mem.writeHbm_wf _ _ (Mem.writeHbm_wf _ _ h)

theorem Stack.copyRows_wf {k : Stack} (now : Nat) (h : k.bytes.wf = true) : (k.copyRows now).bytes.wf = true := by
  unfold Stack.copyRows
  dsimp only
  split
  · split
    · exact h
    · refine List.foldl_keeps (fun m => Mem.wf m = true) _ _ (fun m r _ h => ?_) h
      show Mem.wf (match k.parkAddr _ with | some dst => _ | none => m) = true
      split
      · exact Mem.copyIn_wf _ _ _ _ h
      · exact h
  · exact h

theorem State.capture_wf {s : State} (l : Nat) (h : s.pmc.ckptimg.wf = true) : (s.capture l).pmc.ckptimg.wf = true := by
  unfold State.capture
  split
  · exact h
  · dsimp only
    split
    · exact Mem.copyIn_wf _ _ _ _ h
    · exact h

theorem saveLine_wf {s : State} (l : Nat) (h : s.host.wf = true) : (saveLine s l).host.wf = true := by
  unfold saveLine
  dsimp only
  split
  · exact Mem.copyIn_wf _ _ _ _ h
  · split
    · exact Mem.copyIn_wf _ _ _ _ h
    · exact h

end Sys2Proof.Machine
end

