-- ==== Sys2Proof/Tests/Slice0.lean ====
section
/-!
SUPPORT. Tests: the checks of well-formedness, words that the spec works out, single steps on small states, and states that meet the hypotheses of
the statements.
-/
namespace Sys2Proof.Tests

open Sys2Proof.Machine Host

set_option Elab.async false

-- well-formedness: one ill-formed term for each check, refused

theorem test_wf_loop : (Instr.loop 3 0).wf = false ∧ (Instr.loopReg 3 0).wf = false ∧ (Instr.loop 3 1).wf = true := by decide
theorem test_wf_loopx : (Instr.loopx 0).wf = false ∧ (Instr.loopx 7).wf = false ∧ (Instr.loopx 6).wf = true := by decide
theorem test_wf_spr : (Instr.movsr 5 0x02B).wf = false ∧ (Instr.movsr 5 0x02A).wf = true ∧ (Instr.movrs 5 0x002).wf = false ∧
    (Instr.movrs 5 0x046).wf = true := by decide
theorem test_wf_control : (Instr.align 2).wf = false ∧ (Instr.phase 6).wf = false ∧ (Instr.spawn 4 96).wf = false ∧ (Instr.spawn 4 95).wf = true := by decide
theorem test_wf_shift : (Instr.shli 1 2 64).wf = false ∧ (Instr.shri 1 2 (-1)).wf = false ∧ (Instr.sari 1 2 63).wf = true := by decide
theorem test_wf_load : (Instr.ld 1 2 .d true 0).wf = false ∧ (Instr.ld 1 2 .w true 0).wf = true := by decide
theorem test_wf_vector_num : (Instr.vadd .w256 .e4m3 1 2 3).wf = false ∧ (Instr.vaddsc .w256 .e5m2 1 2 3).wf = false ∧
    (Instr.vand .w256 .e4m3 1 2 3).wf = true := by decide
theorem test_wf_vector_int : (Instr.vminu .w256 .f32 1 2 3).wf = false ∧ (Instr.vshl .w256 .f16 1 2 3).wf = false ∧
    (Instr.viota .w256 .bf16 1 2).wf = false := by decide
theorem test_wf_vcmp : (Instr.vcmp .w256 .i8 .eq 0 1 2).wf = false ∧ (Instr.vcmp .w256 .e4m3 .eq 1 1 2).wf = false := by decide
theorem test_wf_vunary : (Instr.vunary .w256 .e4m3 .abs 1 2 0).wf = false ∧ (Instr.vunary .w256 .f32 .clz 1 2 0).wf = false := by decide
theorem test_wf_vector_types : (Instr.vsfu .w256 .f16 .rcp 1 2 0).wf = false ∧ (Instr.vred .w256 .i16 .sum 1 2 0).wf = false ∧
    (Instr.vdot4 .w256 .i16 1 2 3).wf = false ∧ (Instr.vdot2 .w256 .f32 1 2 3).wf = false ∧ (Instr.vdot16 .w256 .f16 1 2 3).wf = false := by decide
theorem test_wf_index : (Instr.vext .w256 .f32 1 2 8).wf = false ∧ (Instr.vins .w256 .i8 1 2 32).wf = false ∧
    (Instr.vext .w256 .f32 1 2 7).wf = true := by decide
theorem test_wf_xn : (Instr.xnet 0 1 3).wf = false ∧ (Instr.xcvt .f32 .f32 .rne false 1 2).wf = false ∧ (Instr.xcvth .bf16 .f16 .rne false 1 2).wf = false ∧
    (Instr.xmx .f16 .e4m3 .rne false 1 2).wf = false ∧ (Instr.xmxd .i8 .f32 .rne false 1 2).wf = false ∧ (Instr.xplane .f32 7 .rup 1 2).wf = false ∧
    (Instr.xunplane .e4m3 7 .rne false 1 2).wf = false := by decide
theorem test_wf_ar : (Instr.adset 1 6 2).wf = false ∧ (Instr.arop 1 2 .shl 3 .b8 false 8).wf = false ∧ (Instr.arop 1 2 .add 3 .b8 false 1).wf = false ∧
    (Instr.arop 1 2 .shl 3 .b8 false 7).wf = true := by decide
theorem test_wf_ae : (Instr.pinv 1 2 .all).wf = false ∧ (Instr.pinv 0 2 .all).wf = true := by decide
theorem test_wf_events : (Instr.afBlockPerform 0 64).wf = false ∧ (Instr.atomicPerform 0 16).wf = false ∧ (Instr.stackTempSample 0 ⟨[1, 2, 3], [], []⟩).wf = false ∧
    (Instr.sensorSample ⟨[], [], [], 0, 0⟩).wf = false ∧ (Instr.postReceived ⟨64, 0, 0, 0, none, none, false⟩).wf = false ∧
    (Instr.postReceived ⟨0, 0, 73, 0, none, none, false⟩).wf = false ∧ (Instr.grantReceived 73 0 0 0 []).wf = false := by decide

/-- The word decodes to the instruction. -/
def reads (sl : Slot) (w : SWord) (i : Instr) : Bool := match decodeWord sl w with | .ok j => j == i | .error _ => false

/-- The word is refused for the reason. -/
def refuses (sl : Slot) (w : SWord) (r : Reject) : Bool := match decodeWord sl w with | .ok _ => false | .error x => x == r

-- decoding: words that the spec works out (the tables "Encodings worked out" of its chapters, and n48 to n74)

theorem test_decode_ctl :
    reads .ctl 0x80800000 .halt = true ∧ reads .ctl 0x01000000 .yield = true ∧ reads .ctl 0x01800080 (.trap 1) = true ∧
    reads .ctl 0x02000000 .rett = true ∧ reads .ctl 0x0290000C (.pbt 1 12) = true ∧ reads .ctl 0x03920000 (.br 1 1 false) = true ∧
    reads .ctl 0x03A08000 (.brAlways 2) = true ∧ reads .ctl 0x05A22418 (.cmpi 2 .lt 9 24) = true ∧
    reads .ctl 0x85905801 (.cmpi 1 .eq 22 1) = true ∧ reads .ctl 0x07810007 (.loop 16 7) = true ∧
    reads .ctl 0x87D1002F (.loopReg 17 47) = true ∧ reads .ctl 0x28AE0380 (.movsr 23 7) = true ∧
    reads .ctl 0x09040600 (.movrs 2 0x00C) = true ∧ reads .ctl 0x0A800080 (.align 1) = true ∧ reads .ctl 0x0A280000 (.waitg 20) = true ∧
    reads .ctl 0x0B200000 (.phase 2) = true ∧ reads .ctl 0x0BA82C00 (.spawn 20 11) = true ∧ reads .ctl 0x0C000000 (.abeat 0) = true := by
  decide
theorem test_decode_sca :
    reads .sca 0x008A30E0 (.add 5 6 7) = true ∧ reads .sca 0x06B0C8A0 (.divu 24 25 5) = true ∧ reads .sca 0x0F47103F (.sari 35 34 63) = true ∧
    reads .sca 0x0FA817EB (.movi 20 0x17EB) = true ∧ reads .sca 0x102B8998 (.movk 21 0x18998) = true ∧
    reads .sca 0x8A0AC804 (.sel 5 25 0 1) = true ∧ reads .sca 0x14133C00 (.aset 2 3 15) = true ∧ reads .sca 0x148A4C00 (.aget 5 2 3) = true ∧
    reads .sca 0x122A5000 (.ld 21 2 .w false 0) = true ∧ reads .sca 0x32B0F801 (.st 24 7 .d 1) = true ∧
    reads .sca 0x130A3300 (.lda 5 1 .w .package) = true ∧ reads .sca 0x19A8AAC0 (.fma 20 21 22) = true ∧
    reads .sca 0x1C0C3808 (.fcvtfi 6 7 true) = true := by decide
theorem test_decode_vector :
    reads .va 0x00D41083 (.vadd .w1024 .f32 1 2 3) = true ∧ reads .vb 0x05A830C3 (.vxor .w512 .i32 3 3 3) = true ∧
    reads .va 0x0B1490C4 (.vcmp .w256 .f32 .ne 1 3 4) = true ∧ reads .va 0x0C944140 (.vsfu .w256 .f32 .rcp 4 5 0) = true ∧
    reads .va 0x0D347080 (.vred .w512 .f32 .sum 7 2 0) = true ∧ reads .va 0x0F383042 (.vdot16 .w512 .e4m3 3 1 2) = true ∧
    reads .va 0x0FC48250 (.vcompress .w1024 .i16 8 9 2) = true ∧ reads .va 0x11145183 (.vext .w256 .f32 5 6 3) = true ∧
    reads .va 0x12400802 (.vld .w1024 0 1 2) = true ∧ reads .vb 0x12800800 (.vst .w256 0 1 0) = true := by decide
theorem test_decode_xn :
    reads .xn 0x00B29400 (.xnet 3 10 20) = true ∧ reads .xn 0x01AB1081 (.xcvt .f32 .e4m3 .rne true 2 1) = true ∧
    reads .xn 0x02298242 (.xcvth .f32 .bf16 .rne false 9 2) = true ∧ reads .xn 0x02AD0185 (.xmx .f32 .e2m1 .rne false 6 5) = true ∧
    reads .xn 0x03328206 (.xmxd .e4m3 .f32 .rne false 8 6) = true ∧ reads .xn 0x03ABA103 (.xplane .f32 7 .rtz 4 3) = true ∧
    reads .xn 0x042BA144 (.xunplane .f32 7 .rtz false 5 4) = true ∧ reads .xn 0x048E0000 (.xrng 7) = true := by decide
theorem test_decode_mx :
    reads .mx 0x00826C00 (.mdset 0 2 27) = true ∧ reads .mx 0x01001C00 (.mloadw 0 0 .f16) = true ∧ reads .mx 0x02004000 (.mmaz 0 1) = true ∧
    reads .mx 0x02888680 (.mouter 1 2 3 4) = true ∧ reads .mx 0x03100000 (.mcommit 1) = true ∧ reads .mx 0x03A00000 (.mwaitb 2) = true ∧
    reads .mx 0x04019800 (.mout 0 3 .bf16 .rne) = true ∧ reads .mx 0x04880000 (.mzero 1) = true ∧
    reads .mx 0x05080000 (.mshape 1) = true := by decide
theorem test_decode_ar :
    reads .ar 0x0092C800 (.adset 1 1 25) = true ∧ reads .ar 0x01001000 (.ast 0 0 2) = true ∧ reads .ar 0x01881000 (.ald 2 0 2) = true ∧
    reads .ar 0x82100200 (.astv 4 0 1) = true ∧ reads .ar 0x02FC8A00 (.aldv 31 1 5) = true ∧ reads .ar 0x03040878 (.amvm 1 0 1 0 7 true) = true ∧
    reads .ar 0x03FD2442 (.arop 31 2 .shl 2 .b8 true 1) = true ∧ reads .ar 0x039C86C0 (.arop 7 1 .add 3 .b16 true 0) = true ∧
    reads .ar 0x040C0400 (.aacc 6 0 0 true) = true := by decide
theorem test_decode_ae_engine :
    reads .ae 0x00888000 (.edld 1 1) = true ∧ reads .ae 0x01162400 (.edset 2 6 9) = true ∧ reads .ae 0x01910000 (.cpy 1 1) = true ∧
    reads .ae 0x02010000 (.cpym 0 1) = true ∧ reads .ae 0x02920000 (.put 1 2) = true ∧ reads .ae 0x03235000 (.putr 2 3 .maxI32) = true ∧
    reads .ae 0x0301F000 (.putrVerb 0 1) = true ∧ reads .ae 0x03A30000 (.red 2 3 .addF32) = true ∧ reads .ae 0x04143000 (.zip 1 4 3) = true ∧
    reads .ae 0x04811800 (.fold 0 1 1 true) = true ∧ reads .ae 0x05250800 (.scan 2 5 0 true) = true ∧ reads .ae 0x85880000 (.vbdef 1 0) = true ∧
    reads .ae 0x06018000 (.qfence 3) = true ∧ reads .ae 0x86861730 (.flag 0 24 23 .cluster) = true ∧ reads .ae 0x07000000 (.qwait 0) = true ∧
    reads .ae 0x078C4000 (.qstat 6 1) = true := by decide
theorem test_decode_ae_other :
    reads .ae 0x080E4240 (.probe 7 8 2 1) = true ∧ reads .ae 0x08804040 (.pinv 8 1 .addr) = true ∧ reads .ae 0x09004060 (.ppin 8 1 true) = true ∧
    reads .ae 0x09AAC000 (.awinit 21 24) = true ∧ reads .ae 0x0A2AC960 (.await 21 25 1 12) = true ∧
    reads .ae 0x8ACBC0A8 (.atom .swap32 30 1 20 false) = true ∧ reads .ae 0x0B08A30F (.atomc true 5 6 7 true) = true ∧
    reads .ae 0x0BB40000 (.fence .package .release) = true ∧ reads .ae 0x0C01C000 (.xfence 3 true) = true ∧ reads .ae 0x0C800000 .vjoin = true ∧
    reads .ae 0x0E083000 (.cbc 2 48) = true ∧ reads .ae 0x0E843000 (.cbwf 1 48) = true ∧ reads .ae 0x0F083000 (.cbwe 2 48) = true ∧
    reads .ae 0x0F8ED000 (.round 7 3 0x40) = true ∧ reads .ae 0x10010000 (.rabort 2) = true := by decide

/-- Words that the spec calls illegal (the last table of the bundles' chapter). -/
theorem test_decode_illegal :
    refuses .sca 0x0B800000 .badOp = true ∧ refuses .va 0x00E00000 .badCode = true ∧ refuses .ctl 0x050C0000 .badCode = true ∧
    refuses .xn 0x00800100 .badCode = true ∧ refuses .ae 0x0AF80000 .badCode = true ∧ refuses .va 0x0B148000 .p0Dest = true := by decide

/-- Words decoded from a table word: the first slot of the order whose map holds it. -/
theorem test_decode_table_word : decodeTableWord 32 0x1000_8000 = some (.movk 0 0x8000) ∧ decodeTableWord 0 0x0080_0000 = none ∧
    decodeTableWord 32 0x0080_0000 = some .halt := by decide

-- single steps on small states

/-- Core 0 with one bundle dispatched at bundle 5, set up by f, and the turn of one of its slots. -/
def turn (sl : Slot) (f : Machine.Core → Machine.Core) : State :=
  { State.reset.updCore 0 fun c => f { c with run := .running, bundles := [{ emptyRec with pc := 5 }], seqNo := 1, cyc := 100 } with cur := ⟨0, sl⟩ }

/-- Registers set: scalar, vector, predicate. -/
def sets (xs : List (BitVec 6 × Word)) (vs : List (BitVec 6 × Vec) := []) (ps : List (BitVec 3 × Pred) := []) (c : Machine.Core) : Machine.Core :=
  let c := xs.foldl (fun c x => c.setReg (.s x.1) (x.2.setWidth 2048)) c
  let c := vs.foldl (fun c x => c.setReg (.v x.1) (x.2.setWidth 2048)) c
  ps.foldl (fun c x => c.setReg (.p x.1) (x.2.setWidth 2048)) c

/-- Core 0 afterwards, where there is a next state. -/
def after (o : Outcome State Fault Refusal) : Option Machine.Core := match o with | .next t => some t.cores[0] | _ => none

/-- The results on their way after an instruction: register, value, cycles to go, events. -/
def results (i : Instr) (s : State) : Option (List (Reg × Nat × Nat × Nat)) :=
  (after (exec i s)).map fun c => c.flights.map fun f => (f.reg, f.val.toNat, f.due - c.cyc, f.kinds.toNat)

/-- The results on their way are these. -/
def gives (i : Instr) (s : State) (r : List (Reg × Nat × Nat × Nat)) : Bool := results i s == some r

/-- The precise trap asked for after an instruction: cause and record. -/
def trapped (i : Instr) (s : State) : Option (Nat × Nat × Nat) :=
  (after (exec i s)).bind fun c => c.ptrap.map fun t => (t.cause.toNat, t.info0.toNat, t.info1.toNat)

-- S1 (R102–R106, R110–R113)

theorem test_add_wraps : gives (.add 5 6 7) (turn .sca (sets [(6, -1), (7, 2)])) [(.s 5, 1, 1, 0)] = true := by decide +kernel
theorem test_s0_reads_zero : gives (.sub 5 0 7) (turn .sca (sets [(0, 9), (7, 1)])) [(.s 5, 2 ^ 64 - 1, 1, 0)] = true := by decide +kernel
theorem test_shift_amount_mod_64 : gives (.shl 5 6 7) (turn .sca (sets [(6, 3), (7, 65)])) [(.s 5, 6, 1, 0)] = true ∧
    gives (.sar 5 6 7) (turn .sca (sets [(6, -8), (7, 1)])) [(.s 5, 2 ^ 64 - 4, 1, 0)] = true := by decide +kernel
theorem test_logic : gives (.and 5 6 7) (turn .sca (sets [(6, 0xC), (7, 0xA)])) [(.s 5, 8, 1, 0)] = true ∧
    gives (.or 5 6 7) (turn .sca (sets [(6, 0xC), (7, 0xA)])) [(.s 5, 14, 1, 0)] = true ∧
    gives (.xor 5 6 7) (turn .sca (sets [(6, 0xC), (7, 0xA)])) [(.s 5, 6, 1, 0)] = true := by decide +kernel
theorem test_multiplies : gives (.mul 5 6 7) (turn .sca (sets [(6, -1), (7, -1)])) [(.s 5, 1, 3, 0)] = true ∧
    gives (.mulh 5 6 7) (turn .sca (sets [(6, -1), (7, -1)])) [(.s 5, 0, 3, 0)] = true ∧
    gives (.mulhu 5 6 7) (turn .sca (sets [(6, -1), (7, -1)])) [(.s 5, 2 ^ 64 - 2, 3, 0)] = true := by decide +kernel
/-- R103: −2^63 / −1 gives −2^63 and remainder 0 without an event; a divisor of 0 all ones, and the dividend, with div-zero. -/
theorem test_divides : gives (.div 5 6 7) (turn .sca (sets [(6, 0x8000000000000000), (7, -1)])) [(.s 5, 2 ^ 63, 18, 0)] = true ∧
    gives (.rem 5 6 7) (turn .sca (sets [(6, 0x8000000000000000), (7, -1)])) [(.s 5, 0, 18, 0)] = true ∧
    gives (.divu 5 6 0) (turn .sca (sets [(6, 9)])) [(.s 5, 2 ^ 64 - 1, 18, 2)] = true ∧
    gives (.remu 5 6 0) (turn .sca (sets [(6, 9)])) [(.s 5, 9, 18, 2)] = true := by decide +kernel
theorem test_min_max : gives (.min 5 6 7) (turn .sca (sets [(6, -1), (7, 1)])) [(.s 5, 2 ^ 64 - 1, 1, 0)] = true ∧
    gives (.minu 5 6 7) (turn .sca (sets [(6, -1), (7, 1)])) [(.s 5, 1, 1, 0)] = true ∧
    gives (.max 5 6 7) (turn .sca (sets [(6, -1), (7, 1)])) [(.s 5, 1, 1, 0)] = true ∧
    gives (.maxu 5 6 7) (turn .sca (sets [(6, -1), (7, 1)])) [(.s 5, 2 ^ 64 - 1, 1, 0)] = true := by decide +kernel
theorem test_sel_clz_popc : gives (.sel 5 6 7 1) (turn .sca (sets [(6, 4), (7, 9)])) [(.s 5, 9, 1, 0)] = true ∧
    gives (.clz 5 0) (turn .sca (sets [])) [(.s 5, 64, 1, 0)] = true ∧ gives (.popc 5 6) (turn .sca (sets [(6, 0xFF)])) [(.s 5, 8, 1, 0)] = true := by
  decide +kernel
/-- R105: the immediate is sign-extended. -/
theorem test_immediates : gives (.addi 5 6 0x7FF) (turn .sca (sets [(6, 5)])) [(.s 5, 4, 1, 0)] = true ∧
    gives (.andi 5 6 0x7FF) (turn .sca (sets [(6, 5)])) [(.s 5, 5, 1, 0)] = true ∧
    gives (.sari 5 6 63) (turn .sca (sets [(6, -9)])) [(.s 5, 2 ^ 64 - 1, 1, 0)] = true := by decide +kernel
/-- The two constants of the scalar chapter: MOVI 0x17EB, then MOVK 0x11DB. -/
theorem test_movi_movk : gives (.movi 20 0x17EB) (turn .sca (sets [])) [(.s 20, 0x17EB, 1, 0)] = true ∧
    gives (.movk 20 0x11DB) (turn .sca (sets [(20, 0x17EB)])) [(.s 20, 0x2FD611DB, 1, 0)] = true := by decide +kernel
/-- R111: −2^−149 added to 2^−126, and −∞ to +∞; R113: a NaN converts to 0 with invalid. -/
theorem test_float : gives (.fadd 5 6 7) (turn .sca (sets [(6, 0x00800000), (7, 0x80000001)])) [(.s 5, 0x007FFFFF, 4, 0)] = true ∧
    gives (.fadd 5 6 7) (turn .sca (sets [(6, 0x7F800000), (7, 0xFF800000)])) [(.s 5, 0x7FC00000, 4, 1)] = true ∧
    gives (.fcvtfi 5 6 true) (turn .sca (sets [(6, 0x7FC00000)])) [(.s 5, 0, 4, 1)] = true ∧
    gives (.fneg 5 6) (turn .sca (sets [(6, 0x7FA00000)])) [(.s 5, 0xFFA00000, 4, 0)] = true := by decide +kernel
theorem test_float_compare : gives (.fcmp 5 6 7 .eq) (turn .sca (sets [(6, 0x80000000), (7, 0)])) [(.s 5, 1, 4, 0)] = true ∧
    gives (.fcmp 5 6 7 .lt) (turn .sca (sets [(6, 0x7FC00000), (7, 0)])) [(.s 5, 0, 4, 1)] = true := by decide +kernel

-- the pool (R98, R99, R107)

/-- as3 of the case after R101: base 0x0004_0000, st1 512, st2 −8. -/
def stream3 (c : Machine.Core) : Machine.Core :=
  c.onCtx fun x => { x with as := x.as.set 3 ⟨0x40000, #v[512, 0xFFFFFFF8, 0, 0, 0, 0], false⟩ }

/-- The tag of that case, LIDX1 = 3 and LIDX2 = 5. -/
def twoLevels (c : Machine.Core) : Machine.Core := { c with bundles := [{ emptyRec with pc := 5, tag := ⟨[3, 5], 9, true, true, 0⟩ }] }

theorem test_stream_address :
    (after (exec (.ld 5 3 .d false 2) (turn .sca fun c => twoLevels (stream3 c)))).map (fun c => c.access.map fun a => (a.addr, a.len, a.due - c.cyc)) =
      some [(0x405E8, 8, 2)] := by decide +kernel
/-- R99: a misaligned address, with the slot, bit 4 and the address in TINFO0. -/
theorem test_misaligned : trapped (.st 5 3 .d 0) (turn .sca fun c => (stream3 c).onCtx fun x => { x with as := x.as.set 3 ⟨0x40004, Vector.replicate 6 0, false⟩ }) =
    some (1, 0x4000400000011, 0) := by decide +kernel
theorem test_store_bytes :
    (after (exec (.st 5 3 .h 0) (turn .sca fun c => stream3 (sets [(5, 0x1234)] [] [] c)))).map (fun c => c.access.map fun a => (a.addr, a.op)) =
      some [(0x40000, .store [some 0x34, some 0x12])] := by decide +kernel
theorem test_aset_aget : gives (.aset 3 1 6) (turn .sca (sets [(6, 7)])) [(.asf 3 1, 7, 1, 0)] = true ∧
    gives (.aget 5 3 2) (turn .sca stream3) [(.s 5, 2 ^ 64 - 8, 1, 0)] = true := by decide +kernel

-- S0

theorem test_compare_and_flags : gives (.cmpi 2 .lt 9 24) (turn .ctl (sets [(9, -1)])) [(.cf 2, 1, 1, 0)] = true ∧
    gives (.cmp 2 .ltu 9 8) (turn .ctl (sets [(9, -1)])) [(.cf 2, 0, 1, 0)] = true ∧ gives (.cfop 1 2 3 .andn) (turn .ctl id) [(.cf 1, 0, 1, 0)] = true := by
  decide +kernel
theorem test_pbt : gives (.pbt 1 12) (turn .ctl id) [(.bt 1, 17, 1, 0)] = true := by decide +kernel
theorem test_vall_p0 : gives (.vall 1 0 .w1024) (turn .ctl id) [(.cf 1, 1, 2, 0)] = true ∧ gives (.vany 1 1 .w256) (turn .ctl id) [(.cf 1, 0, 2, 0)] = true := by
  decide +kernel
/-- R88: a count of 0 pushes nothing, and a seventh level is the loop-depth trap. -/
theorem test_loop_depth : trapped (.loop 3 2) (turn .ctl fun c => { c with bundles := [{ emptyRec with pc := 5, loopsBefore := List.replicate 6 ⟨0, 9, 0, 50⟩ }] }) =
    some (7, 0x300020000, 0) := by decide +kernel
/-- R90: a write of DOM0 without TASKINFO.P. -/
theorem test_privileged_write : trapped (.movrs 5 0x040) (turn .ctl id) = some (0x14, 0x400000, 0) := by decide +kernel
theorem test_movsr_counters : gives (.movsr 5 0x014) (turn .ctl id) [(.s 5, 72, 2, 0)] = true := by decide +kernel
theorem test_trap_word : (after (exec (.trap 1) (turn .ctl id))).map (fun c => c.itraps.map fun t => (t.cause.toNat, t.info0.toNat)) = some [(0x10, 1)] := by
  decide +kernel
theorem test_halt : (after (exec .halt (turn .ctl id))).map (·.run) = some .halting := by decide +kernel
theorem test_waitc : (after (exec (.waitc 0) (turn .ctl id))).map (·.ctlHold) = some 101 := by decide +kernel

-- S2, S3, S4

theorem test_vadd_i8_wraps : gives (.vadd .w256 .i8 1 2 3) (turn .va (sets [] [(2, 0xFF01), (3, 0x0102)])) [(.v 1, 0x0003, 2, 0)] = true := by decide +kernel
theorem test_vadds_saturates : gives (.vadds .w256 .i8 1 2 3) (turn .va (sets [] [(2, 0x7F), (3, 1)])) [(.v 1, 0x7F, 2, 0x20)] = true := by decide +kernel
theorem test_vbcast : gives (.vbcast .w256 .i32 1 5) (turn .va (sets [(5, 15)])) [(.v 1, 15 * 0x0000000100000001000000010000000100000001000000010000000100000001, 2, 0)] = true := by
  decide +kernel
theorem test_vcmp_unsigned : gives (.vcmp .w256 .i8 .ltuUn 1 2 3) (turn .va (sets [] [(2, 0x01), (3, 0xFF)])) [(.p 1, 1, 2, 0)] = true ∧
    gives (.vcmp .w256 .i8 .lt 1 2 3) (turn .va (sets [] [(2, 0x01), (3, 0xFF)])) [(.p 1, 0, 2, 0)] = true := by decide +kernel
/-- The worked values of R129: RCP(1.0) and RSQRT(4.0) are not exact. -/
theorem test_special_functions :
    gives (.vsfu .w256 .f32 .rcp 1 2 1) (turn .va (sets [] [(2, 0x3F800000)] [(1, 1)])) [(.v 1, 0x3F7FFFF0, 12, 0x10)] = true ∧
    gives (.vsfu .w256 .f32 .rsqrt 1 2 1) (turn .va (sets [] [(2, 0x40800000)] [(1, 1)])) [(.v 1, 0x3EFFFFCB, 12, 0x10)] = true := by decide +kernel
theorem test_vred_sum : gives (.vred .w256 .i32 .sum 7 2 0) (turn .va (sets [] [(2, 0xFFFFFFFF00000003)])) [(.s 7, 2, 8, 0)] = true := by decide +kernel
theorem test_vdot4 : gives (.vdot4 .w256 .i8 1 2 3) (turn .va (sets [] [(1, 10), (2, 0x01020304), (3, 0xFF010101)])) [(.v 1, 18, 4, 0)] = true := by decide +kernel
theorem test_viota : gives (.viota .w256 .i32 1 1) (turn .va (sets [] [] [(1, 0x1111)])) [(.v 1, 0x0000000400000004000000040000000400000003000000020000000100000000, 2, 0)] = true := by decide +kernel
theorem test_vcompress_counts : gives (.vcompress .w256 .i32 1 2 1) (turn .va (sets [] [(2, 0x0000000900000005)] [(1, 0x10)])) [(.v 1, 9, 4, 0), (.spr 0x010, 1, 4, 0)] = true := by decide +kernel
theorem test_vext_sign : gives (.vext .w256 .i8 5 2 1) (turn .va (sets [] [(2, 0x8000)])) [(.s 5, 2 ^ 64 - 128, 4, 0)] = true := by decide +kernel
/-- R136: the lowest failing index gives the address. -/
theorem test_gather_fails : trapped (.vgather .w256 .i32 1 2 3) (turn .va fun c => stream3 (sets [] [(2, 0x0000000200000000)] [] c)) =
    some (1, 0x4000200000012, 0) := by decide +kernel
/-- R115: v32 in the 32-register file. -/
theorem test_small_file : trapped (.vmov .w256 .i32 32 1) (turn .va fun c => c.onSpr fun x => { x with pw := 1 }) = some (1, 2, 0) := by decide +kernel
/-- Conversions of the table after R151: 0.3 and 500 to E4M3. -/
theorem test_convert_e4m3 : gives (.xcvt .f32 .e4m3 .rne false 1 2) (turn .xn (sets [] [(2, 0x43FA00003E99999A)])) [(.v 1, 0x7E2A, 4, 0x14)] = true := by
  decide +kernel
/-- And −200.5 and 300 to I8. -/
theorem test_convert_i8 : gives (.xcvt .f32 .i8 .rne true 1 2) (turn .xn (sets [] [(2, 0xC3488000)])) [(.v 1, 0x80, 4, 0x20)] = true ∧
    gives (.xcvt .i32 .i8 .rne false 1 2) (turn .xn (sets [] [(2, 300)])) [(.v 1, 44, 4, 0)] = true := by decide +kernel
/-- The block worked after R155: its events, exponent and planes. -/
theorem test_xplane : gives (.xplane .f32 7 .rtz 1 2) (turn .xn (sets [] [(2, 0xC0B000003C23D70ABF40000040400000)])) [(.v 1, 0x81 * 2 ^ 1016 + 0x2 * 2 ^ 64 + 0x8 * 2 ^ 96 + 0x3 * 2 ^ 128 + 0xB * 2 ^ 160 + 0x2 * 2 ^ 192 + 0xA * 2 ^ 224, 6, 0x50)] = true := by decide +kernel
/-- A pattern with SRC = j XOR 2 swaps the halves of every 32-bit element. -/
theorem test_xnet_swap :
    (results (.xnet 3 10 20) (turn .xn fun c => (sets [] [(20, 0x44332211)] [] c).onCtx fun x =>
      { x with pat := x.pat.set 3 (Vector.ofFn fun j => BitVec.ofNat 16 (j.val ^^^ 2)) })) = some [(.v 10, 0x22114433, 3, 0)] := by decide +kernel
theorem test_xrng_waits : (after (exec (.xrng 7) (turn .xn id))).map (fun c => (c.flights.length, c.nextSeq .xn)) = some (0, 0) := by decide +kernel

-- S5, S6, S7

theorem test_mdset : gives (.mdset 0 2 27) (turn .mx (sets [(27, 64)])) [(.md 0 2, 64, 1, 0)] = true := by decide +kernel
theorem test_adset : gives (.adset 1 1 25) (turn .ar (sets [(25, 1)])) [(.ad 1 1, 1, 1, 0)] = true := by decide +kernel
/-- A beat field that names another beat: the beat-mismatch trap; where a check of the word fails too, the illegal trap, the lower of the two (R54). -/
theorem test_beat_mismatch :
    let s := fun (w : Vector Word 6) => turn .ar fun c =>
      ({ c with bundles := [{ emptyRec with pc := 5, tag := ⟨[], 0, true, true, 6⟩ }] } : Machine.Core).onCtx fun x => { x with ad := x.ad.set 1 w }
    (trapped (.aldv 5 1 5) (s #v[63, 504, 8, 960, 64, 8])).map (·.1) = some 0x0A ∧ (trapped (.aldv 5 1 5) (s (Vector.replicate 6 0))).map (·.1) = some 0x01 := by
  decide +kernel
theorem test_cbset_checks : trapped (.cbset 1 2 5) (turn .ae id) = some (1, 7, 0) ∧
    gives (.cbset 1 2 5) (turn .ae (sets [(5, 1023)])) [(.cb 1 2, 1023, 1, 0)] = true := by decide +kernel
theorem test_qstat : gives (.qstat 6 1) (turn .ae fun c => c.onQueue 1 fun q => { q with done := 3, halted := true, cause := 2 }) [(.s 6, 3 * 2 ^ 32 + 2 ^ 16 + 2 ^ 9, 4, 0)] = true := by decide +kernel
/-- AWINIT: target 256, count, generation and status 0, in this cycle. -/
theorem test_awinit : (after (exec (.awinit 21 24) (turn .ae (sets [(21, 0x20300), (24, 256)])))).map (fun c => c.endWrites.map fun w => (w.1, w.2.1.toNat)) =
    some (((List.range 16).map fun i => (0x20300 + i, if i = 1 then 1 else 0))) := by decide +kernel
theorem test_cbp_full : trapped (.cbp 2 48) (turn .ae id) = some (1, 7, 0) := by decide +kernel
/-- The second descriptor of the worked program of the memory chapter. -/
def copyDesc : Vector Word 8 := #v[0x20080, 0x20180, 0x0001000100800000, 1, 1, 0, 0x40610000, 0]
theorem test_cpy_hands_off : (after (exec (.cpy 1 1) (turn .ae fun c => c.onCtx fun x => { x with ed := x.ed.set 1 copyDesc }))).map (fun c =>
    ((c.rq 1).entries.map fun e => e.kind, c.orders)) = some ([.cpy], 1) := by decide +kernel
theorem test_phase_refused : trapped (.phase 2) (turn .ctl id) = some (1, 0, 0) := by decide +kernel

-- the machine

theorem test_nop_anywhere : (allSlots.all fun sl => (results .nop (turn sl id)) == some []) = true := by decide +kernel

/-- A word placed for the next step issues in it. -/
theorem test_placed_word : (after (step (State.reset.withFetchWord 32 0x0FA817EB))).map (fun c => c.flights.map fun f => (f.reg, f.val.toNat))
    = some [(.s 20, 0x17EB)] := by decide +kernel

/-- A landing result: the low bits of its mask alone. -/
theorem test_landing_mask :
    let full := fun (c : Machine.Core) => c.setReg (.v 1) (BitVec.ofNat 2048 (2 ^ 1024 - 1))
    (after (exec (.resultLanding 0) (turn .ctl fun c => { full c with flights := [⟨0, .va, 5, .v 1, 0x5, lowMask 256, 100, 0, false⟩] }))).map
      (fun c => (c.rv 1).toNat) = some ((2 ^ 1024 - 2 ^ 256) + 5) := by decide +kernel

/-- R80: the handler's address, the cause and the return position. -/
theorem test_trap_entry : (after (exec (.preciseTrapEntry 0) (turn .ctl fun c => { (c.onSpr fun x => { x with tvec := 0x402D }) with
      ptrap := some ⟨0, 0x0E, 7, 8⟩ }))).map (fun c => (c.ctx.pc.toNat, c.ctx.spr.tcause.toNat, c.ctx.spr.tepc.toNat, c.ctx.spr.tvec.toNat)) =
    some (0x2D, 0x0E, 5, 0xC02D) := by decide +kernel

/-- R372: the address worked out for a partition's space in stack 2 stands at pseudo-channel 134, bank 4, row 1,000, column 576. -/
def placed : State :=
  ({ State.reset with hbms := State.reset.hbms.set 2 { Stack.reset with pat := (Stack.reset.pat.set 32 0x83000BD0000003E8).set 40 0x83000BD0000003E8 } }).updPart 3
    fun x => { x with pctl := 0x8000000000000001, hbmpart := 0x1010100 }
theorem placed_slices : placed.slices 3 = [(2, 4, 1000, 3024), (2, 5, 1000, 3024)] := by decide +kernel
theorem test_hbm_place : placed.hbmPlace 3 0x41A40 = some (2, stackAddr 134 4 1000 576) := by
  unfold State.hbmPlace State.hbmSize
  rw [show placed.slices (3 : PartId).val = _ from placed_slices]
  decide +kernel

-- states and operands that meet the hypotheses of the statements, clause by clause

/-- Core 0's registers in a turn. -/
def spr (f : Sprs → Sprs) (c : Machine.Core) : Machine.Core := c.onSpr f
def ctx (f : TaskCtx → TaskCtx) (c : Machine.Core) : Machine.Core := c.onCtx f

theorem witness_IntegerResults : (63 : BitVec 11).toNat ≤ 63 ∧ (0 : BitVec 11).toNat ≤ 63 := by decide
theorem witness_MultipliesAndDivides : (turn .sca (sets [(7, -1)])).me.rs 7 ≠ 0 ∧ (turn .sca id).me.rs 0 = 0 := by decide +kernel
theorem witness_FloatResults :
    (fmtF32.decode 0x7FC00000).isNan = true ∧ (fmtF32.decode 0x7F800000).isNan = false ∧ (fmtF32.decode 0).isNan = false ∧
    (match fmtF32.decode 0x5F000000 with | .fin neg m e => decide (neg = false ∧ (2 ^ 63 - 1 : Int) < (roundMag .rne neg 0 m e 0).1) | _ => false) = true ∧
    (match fmtF32.decode 0xDF000001 with | .fin neg m e => decide (neg = true ∧ -((roundMag .rtz neg 0 m e 0).1 : Int) < -(2 ^ 63)) | _ => false) = true ∧
    (match fmtF32.decode 0xDF000000 with | .fin neg m e => decide (neg = true ∧ -(2 ^ 63) ≤ -((roundMag .rtz neg 0 m e 0).1 : Int)) | _ => false) = true := by
  decide +kernel
theorem witness_RepresentedValuesRoundToThemselves :
    fmtE4M3 ∈ [fmtF32, fmtF16, fmtBF16, fmtE4M3, fmtE5M2, fmtE3M2, fmtE2M3, fmtE2M1] ∧ 255 < 256 ∧ 0x7E < 2 ^ fmtE4M3.bits ∧
    (fmtE4M3.decode 0x7E).isNan = false := by decide +kernel
theorem witness_RoundingChoosesANeighbour : 255 < 256 ∧ 0 < 1 ∧ 2 ^ 1 ∣ 6 ∧ 2 * (5 % 2 ^ 1) = 2 ^ 1 ∧ Rnd.rne = .rne := by decide

-- an aligned end of the scratchpad, and the address above it
theorem witness_ScalarAccesses :
    let s := turn .sca (ctx fun x => { x with as := x.as.set 1 ⟨0xFFDFF8, Vector.replicate 6 0, false⟩ })
    (s.streamAt 1 0 8).toNat % 8 = 0 ∧ (s.streamAt 1 0 8).toNat + 8 ≤ s.me.scratch ∧ ¬ ((s.streamAt 1 1 8).toNat + 8 ≤ s.me.scratch) ∧
    (SSize.w = .d → true = false) := by decide +kernel
theorem witness_TargetsAndFlags : (turn .ctl id).cur.slot = .ctl := by decide
theorem witness_SpecialRegisters :
    (turn .ctl id).cur.slot = .ctl ∧ (0x014 : BitVec 10) ≠ 0x006 ∧ sprWritable 0x046 = true ∧ sprWritable 0x034 = true ∧
    (turn .ctl id).me.ctx.spr.taskinfo.getLsbD 63 = false ∧
    (turn .ctl (spr fun x => { x with taskinfo := 0x8000000000000000 })).me.ctx.spr.taskinfo.getLsbD 63 = true ∧
    (({ State.reset with parts := State.reset.parts.set 3 { Part.reset with pctl := 0x8000000000000001 } } : State).partOf 0) = some 3 := by decide +kernel

/-- A transfer of the bundle whose turn it is. -/
def pending : Xfer := { seq := 0, pc := 5, left := 3, readAt := none, bt := none, cond := none, tgt := none, res := none, done := false }
theorem witness_TransfersIssue :
    let s := turn .ctl (ctx fun x => { x with xfers := [pending] })
    s.cur.slot = .ctl ∧ (s.me.ctx.xfers.any fun x => x.seq = s.myRec.seq) = true := by decide +kernel

/-- A turn of CTL with a loop stack before its bundle. -/
def inLoops (ls : List LoopLevel) (f : Machine.Core → Machine.Core := id) : State :=
  turn .ctl fun c => f { c with bundles := [{ emptyRec with pc := 5, loopsBefore := ls }] }
theorem witness_LoopWords_pass :
    let s := inLoops [⟨0, 3, 4, 7⟩] (sets [(6, 0xFFFFFFFF)])
    (∀ l ∈ s.myRec.loopsBefore.head?, s.myRec.pc.toNat + (2 : BitVec 12).toNat ≤ l.stop.toNat) ∧ s.myRec.loopsBefore.length ≠ 6 ∧
    (s.me.rs 6).toNat < 2 ^ 32 ∧ (1 : BitVec 3).toNat ≤ s.myRec.loopsBefore.length := by decide +kernel
theorem witness_LoopWords_trap :
    let s := inLoops (List.replicate 6 ⟨0, 3, 4, 7⟩) (sets [(6, 0x100000000), (7, 1)])
    (∃ l ∈ s.myRec.loopsBefore.head?, l.stop.toNat < s.myRec.pc.toNat + (3 : BitVec 12).toNat) ∧
    ¬ (∃ l ∈ s.myRec.loopsBefore.head?, l.stop.toNat < s.myRec.pc.toNat + (2 : BitVec 12).toNat) ∧ 2 ^ 32 ≤ (s.me.rs 6).toNat ∧
    s.myRec.loopsBefore.length = 6 ∧ (1 : BitVec 10).toNat ≠ 0 ∧ (s.me.rs 7).toNat ≠ 0 ∧ (s.me.rs 7).toNat < 2 ^ 32 ∧
    (inLoops []).myRec.loopsBefore.length < (1 : BitVec 3).toNat := by decide +kernel

/-- A queued task of a priority. -/
def queued (state : QState) (prio : Nat) : QTask := QTask.enters state [BitVec.ofNat 64 (prio * 2 ^ 28)] []
theorem witness_SequencerWords :
    let s := turn .ctl fun c => { c with queue := [queued .ready 0] }
    s.cur.slot = .ctl ∧ s.me.ret = none ∧
    (∃ t ∈ s.me.queue, fld s.me.ctx.spr.taskinfo 29 28 ≤ fld (t.launch.getD 0 0) 29 28 ∧ (t.state = .ready ∨ t.state = .suspended)) ∧
    ¬ (∃ t ∈ (turn .ctl id).me.queue, fld s.me.ctx.spr.taskinfo 29 28 ≤ fld (t.launch.getD 0 0) 29 28 ∧ (t.state = .ready ∨ t.state = .suspended)) := by
  decide +kernel
/-- A RETT whose bundle has retired, in a handler or not, its code region one bundle long. -/
def returning (tvec : BitVec 16) (tepc : Word) : State := turn .ctl fun c =>
  { (c.onSpr fun x => { x with tvec := tvec, tepc := tepc, taskinfo := 0x4000 }) with ret := some 7, gone := [⟨{ emptyRec with seq := 7 }, [], []⟩] }
theorem witness_ReturnFromTrap :
    let good := fun (s : State) => inRegion s.me.ctx.spr.taskinfo (s.me.ctx.spr.tepc.setWidth 14 : BitVec 14).toNat = true ∧ tepcXfers s.me.ctx.spr.tepc = []
    let s := returning 0x8000 0
    (s.me.ret = some 7 ∧ s.me.alive 7 = false ∧ s.me.ctx.spr.tvec.getLsbD 15 = true ∧ good s) ∧
    ((s.me.gone.find? fun g => g.b.seq = 7).isSome = true ∧ (returning 0 0).me.ctx.spr.tvec.getLsbD 15 = false) ∧
    inRegion (returning 0x8000 1).me.ctx.spr.taskinfo ((returning 0x8000 1).me.ctx.spr.tepc.setWidth 14 : BitVec 14).toNat = false := by decide +kernel

/-- A core at the boundary after bundle 5 with a CTL instruction, a count and a loop stack. -/
def crossing (i : Instr) (count : Option (BitVec 32)) (ls : List LoopLevel) (xs : List Xfer := []) : Machine.Core :=
  (turn .ctl fun c => { (c.onCtx fun x => { x with loops := ls, xfers := xs, pc := 5 }) with bound := some ⟨0, 5, i, count⟩ }).me
def quietly (i : Instr) : Bool := match i with | .loop _ _ | .loopReg _ _ | .loopx _ => false | _ => true
theorem witness_Boundaries_loops :
    (crossing (.loop 3 2) none []).landingXfer = none ∧ (3 : BitVec 10) ≠ 0 ∧ (2 : BitVec 12) ≠ 0 ∧ (crossing (.loop 3 2) none []).ctx.loops.length < 6 ∧
    (∀ l ∈ (crossing (.loop 0 2) none [⟨0, 2, 1, 9⟩]).ctx.loops.head?, l.stop ≠ (5 : BitVec 14) + (2 : BitVec 12).setWidth 14) ∧
    (crossing (.loopReg 6 2) (some 4) []).landingXfer = none ∧ (4 : BitVec 32) ≠ 0 ∧
    (∀ l ∈ ((crossing (.loopx 1) none [⟨0, 2, 1, 9⟩, ⟨0, 2, 1, 9⟩]).ctx.loops.drop 1).head?, l.stop ≠ (5 : BitVec 14)) := by decide +kernel
theorem witness_Boundaries_ends :
    quietly .nop = true ∧ (∀ l ∈ (crossing .nop none [⟨0, 2, 1, 9⟩]).ctx.loops.head?, l.stop ≠ (5 : BitVec 14)) ∧
    (crossing .nop none [⟨0, 2, 4, 5⟩]).ctx.loops = [⟨0, 2, 4, 5⟩] ∧ (0 : BitVec 32).toNat + 1 < (2 : BitVec 32).toNat ∧
    (2 : BitVec 32).toNat ≤ (1 : BitVec 32).toNat + 1 ∧ (crossing .nop none [⟨1, 2, 4, 5⟩, ⟨0, 2, 3, 5⟩]).landingXfer = none ∧
    (∀ m ∈ ([⟨0, 2, 3, 9⟩] : List LoopLevel).head?, m.stop ≠ (5 : BitVec 14)) := by decide +kernel
theorem witness_Boundaries_transfers :
    let x : Xfer := { pending with left := 0, res := some (some 9) }
    (crossing .nop none [] [x]).landingXfer = some x ∧ (crossing .nop none [] [{ x with res := some none }]).landingXfer = some { x with res := some none } := by
  decide +kernel

-- waiting words
theorem witness_WaitingWords :
    let b : CircBuf := ⟨0xFFDF00, 0x100, 1, 0, 0, 1⟩
    let s := turn .ae (ctx fun x => { x with cb := x.cb.set 2 b })
    (s.me.rcb 2).esize ≠ 0 ∧ (s.me.rcb 2).count ≠ 0 ∧ (s.me.rcb 2).base + (s.me.rcb 2).esize * (s.me.rcb 2).count ≤ s.me.scratch ∧
    (1 : BitVec 10).toNat ≤ (s.me.rcb 2).count ∧ (1 : BitVec 10).toNat ≤ (s.me.rcb 2).f ∧ ¬ ((2 : BitVec 10).toNat ≤ (s.me.rcb 2).count) ∧
    (s.me.rcb 3).esize = 0 ∧ ¬ ((1 : BitVec 10).toNat ≤ (s.me.rcb 2).count - (s.me.rcb 2).f) := by
  decide +kernel
theorem witness_WaitingWords_others :
    let full := turn .ae (fun c => c.onQueue 1 fun q => { q with entries := [newEntry .cpy (Vector.replicate 8 0) 5 0 0] })
    (full.me.rq 0).entries = [] ∧ ¬ ((full.me.rq 1).entries = [] ∨ (full.me.rq 1).halted = true) ∧
    (full.me.rs 0).toNat ≤ (full.gcnt + BitVec.ofInt 64 full.me.gskew).toNat ∧
    ¬ (((turn .ctl (sets [(6, 1)])).me.rs 6).toNat ≤ (State.reset.gcnt).toNat) ∧
    (-2 ≤ full.me.gskew ∧ full.me.gskew ≤ 2 ∧ -2 ≤ (full.dies[dieOf full.cur.core]).lskew ∧ (full.dies[dieOf full.cur.core]).lskew ≤ 2) ∧
    full.pmc.cfl.state = 0 ∧ ¬ (-2 ≤ (turn .ctl fun c => { c with gskew := -3 }).me.gskew) ∧
    (let g := fun (al : Bool) => { ((turn .ctl fun c => { c with gskew := 7 }).updDie 0 fun d => { d with aligned := al, lskew := 5 }) with
       groupSkew := 6
       pmc := { State.reset.pmc with cfl := { State.reset.pmc.cfl with state := 2, members := [(1, ⟨1, 0, 72, 0, none, none, false⟩)] } } }
     (g true).pmc.cfl.state = 2 ∧ (g true).pmc.cfl.members ≠ [] ∧ ((g true).dies[dieOf (g true).cur.core]).aligned = true ∧
       (g true).groupSkew - 2 ≤ (g true).me.gskew ∧ (g true).me.gskew ≤ (g true).groupSkew + 2 ∧
       (g true).groupSkew - 2 ≤ ((g true).dies[dieOf (g true).cur.core]).lskew ∧ ((g true).dies[dieOf (g true).cur.core]).lskew ≤ (g true).groupSkew + 2 ∧
       ((g false).dies[dieOf (g false).cur.core]).aligned = false ∧ (0 : BitVec 16) = 0 ∧ (1 : BitVec 16) ≠ 0) ∧
    (turn .ctl id).unperformed (turn .ctl id).cur.core (turn .ctl id).myRec.seq .system = false := by decide +kernel
/-- A batch with an operation of its own, and a number under which none was committed. -/
theorem witness_WaitingWords_batch :
    let s := turn .mx fun c => c.onMxe fun m => { m with numbers := m.numbers.set 1 (some 4) }
    s.me.ctx.mxe.numbers[0] = none ∧ s.me.ctx.mxe.numbers[1] = some 4 ∧ s.me.ctx.mxe.ops ++ s.me.ctx.mxe.running = [] := by decide +kernel
theorem witness_BeatCloses :
    let s := turn .ctl fun c => { c with next := c.next.set 6 1 }
    (s.me.nextSeq .ctl < s.me.nextSeq .ar ∧ s.me.ctx.af.words = [] ∧ s.me.ctx.af.active = []) ∧ holdsNoClose .nop = true ∧ holdsNoClose (.adset 0 0 0) = true ∧
    holdsNoClose (.aldv 31 0 0) = false := by decide +kernel

/-- An address stream and a circular buffer set, and bytes of the pool. -/
def stream (k : Fin 16) (a : Word) (c : Machine.Core) : Machine.Core := c.onCtx fun x => { x with as := x.as.set k ⟨a, Vector.replicate 6 0, false⟩ }
def buffer (k : Fin 32) (b : CircBuf) (c : Machine.Core) : Machine.Core := c.onCtx fun x => { x with cb := x.cb.set k b }
def holding (a n v : Nat) (c : Machine.Core) : Machine.Core := { c with pool := c.pool.writeAll (leBytes a n v) false }

theorem witness_EngineRegisters :
    let s := turn .ae (fun c => stream 1 0xFFDFC0 (stream 2 0x20 (buffer 1 ⟨0, 4, 8, 0, 0, 0⟩
      (sets [(3, 0xFFFFFF), (4, 0x1000000), (5, 1023), (6, 0x800000000), (7, 0x800000001)] [] [] c))))
    s.cur.slot = .ae ∧ s.reaches (s.streamAt 1 0 1) 64 64 ∧ ¬ s.reaches (s.streamAt 2 0 1) 64 64 ∧
    (s.me.rs 3).toNat < 2 ^ 24 ∧ ¬ ((s.me.rs 4).toNat < 2 ^ 24) ∧ (s.me.rs 4).toNat ≤ 2 ^ 24 ∧ (s.me.rs 5).toNat ≤ 1023 ∧
    (s.me.rs 6 &&& 0xFFFFFC00FC00FC00 = 0 ∧ fld (s.me.rs 6) 9 0 < (s.me.rcb 1).count ∧ fld (s.me.rs 6) 41 32 ≤ (s.me.rcb 1).count ∧
      fld (s.me.rs 6) 9 0 = (fld (s.me.rs 6) 25 16 + fld (s.me.rs 6) 41 32) % (s.me.rcb 1).count) ∧
    fld (s.me.rs 7) 9 0 ≠ (fld (s.me.rs 7) 25 16 + fld (s.me.rs 7) 41 32) % (s.me.rcb 1).count := by
  unfold State.reaches; decide +kernel

theorem witness_BuffersAndArrivalWords :
    let s := turn .ae fun c => stream 1 0xFFDFF8 (stream 2 0xFFE000 (stream 3 0x100 (holding 0xFFDFF8 8 0x30001 (holding 0x100 8 0x9000000000030001
      (buffer 1 ⟨0xFFDF00, 0x100, 1, 0, 0, 0⟩ (sets [(3, 0xFFDFF0), (4, 0x1FFFFFFFF), (5, 0xFFDFF8), (6, 0x100000000)] [] [] c))))))
    let verb := fun (a : Nat) => (⟨(List.range 35).map fun i => BitVec.ofNat 32 (leNat (s.me.pool.bytes (a + 4 * i) 4)), none⟩ : Verb)
    ((s.me.rcb 1).esize ≠ 0 ∧ (s.me.rcb 1).count ≠ 0 ∧ (s.me.rcb 1).base + (s.me.rcb 1).esize * (s.me.rcb 1).count ≤ s.me.scratch) ∧
    (s.me.rcb 1).f + (1 : BitVec 10).toNat ≤ (s.me.rcb 1).count ∧ ¬ ((s.me.rcb 1).f + (2 : BitVec 10).toNat ≤ (s.me.rcb 1).count) ∧
    (0 : BitVec 10).toNat ≤ (s.me.rcb 1).f ∧ ¬ ((1 : BitVec 10).toNat ≤ (s.me.rcb 1).f) ∧
    s.reaches (s.me.rs 3) 16 16 ∧ (s.me.rs 4).toNat % 2 ^ 32 ≠ 0 ∧ ¬ s.reaches (s.me.rs 5) 16 16 ∧ (s.me.rs 6).toNat % 2 ^ 32 = 0 ∧
    ¬ s.reaches (s.streamAt 2 0 1) 4 4 ∧ (verb 0x100).fault = some 1 ∧ s.reaches (s.streamAt 3 0 1) (4 * 1 + 4) 4 ∧
    (verb 0xFFDFF8).fault = none ∧ s.reaches (s.streamAt 1 0 1) (4 * (verb 0xFFDFF8).size) 4 ∧ 0 < (verb 0xFFDFF8).size := by
  unfold State.reaches; decide +kernel
/-- AWAIT, first tried two cycles ago: reached, not yet, and out of time. -/
theorem witness_BuffersAndArrivalWords_await :
    let s := turn .ae fun c => { holding 0x208 4 5 (sets [(3, 0x200), (4, 5), (5, 6), (6, 0x208)] [] [] c) with waitFrom := c.waitFrom.set 7 (some 98) }
    let gen := BitVec.ofNat 32 (leNat (s.me.pool.bytes ((s.me.rs 3).toNat + 8) 4))
    s.cur.slot = .ae ∧ s.reaches (s.me.rs 3) 16 16 ∧ awaitLate s.me 2 = false ∧ awaitLate s.me 1 = true ∧ awaitLate s.me 31 = false ∧
    (gen - (s.me.rs 4).setWidth 32).toNat < 2 ^ 31 ∧ ¬ ((gen - (s.me.rs 5).setWidth 32).toNat < 2 ^ 31) ∧ ¬ s.reaches (s.me.rs 6) 16 16 := by
  unfold State.reaches; decide +kernel

/-- A tag table of eight slots of blocks of 32 bytes, in two sets. -/
def tagged (slots : List TagSlot) (c : Machine.Core) : Machine.Core :=
  c.onCtx fun x => { x with tags := x.tags.set 1 ⟨0x8005000300000000, slots, [0, 0]⟩ }
def freeSlot : TagSlot := ⟨0, false, false, false⟩
theorem witness_SoftwareCache :
    let s := turn .ae fun c => tagged (⟨4, true, false, false⟩ :: ⟨6, true, true, false⟩ :: List.replicate 6 freeSlot)
      (sets [(3, 0x80), (4, 0xC0), (5, 0x100), (6, 0xFFFFFFFFFFFF), (7, 7), (8, 8)] [] [] c)
    let stuck := turn .ae fun c => tagged (List.replicate 8 ⟨9, true, false, true⟩) (sets [(3, 0x80)] [] [] c)
    let full := turn .ae fun c => (tagged (List.replicate 8 freeSlot) c).onQueue 7 fun q =>
      { q with entries := List.replicate 32 (newEntry .cpy (Vector.replicate 8 0) 5 0 0) }
    let t := s.me.ctx.tags[1]
    s.cur.slot = .ae ∧ (s.me.rs 6).toNat < 2 ^ 48 ∧ t.conf.getLsbD 63 = true ∧
    (t.hit ((s.me.rs 3).toNat / 2 ^ t.lb) = some 0 ∧ t.slots[0]? = some ⟨4, true, false, false⟩) ∧
    (t.hit ((s.me.rs 4).toNat / 2 ^ t.lb) = some 1 ∧ t.slots[1]? = some ⟨6, true, true, false⟩) ∧
    (t.hit ((s.me.rs 5).toNat / 2 ^ t.lb) = none ∧ t.pick ((s.me.rs 5).toNat / 2 ^ t.lb) = some 0 ∧ (s.me.rq 7).entries.length < 32) ∧
    ((stuck.me.ctx.tags[1]).hit ((stuck.me.rs 3).toNat / 2 ^ (stuck.me.ctx.tags[1]).lb) = none ∧
      (stuck.me.ctx.tags[1]).pick ((stuck.me.rs 3).toNat / 2 ^ (stuck.me.ctx.tags[1]).lb) = none) ∧
    ((full.me.ctx.tags[1]).hit 0 = none ∧ (full.me.ctx.tags[1]).pick 0 = some 0 ∧ 32 ≤ (full.me.rq 7).entries.length) ∧
    t.hit ((s.me.rs 6).toNat / 2 ^ t.lb) = none ∧ (s.me.rs 7).toNat < t.slots.length ∧ t.slots.length ≤ (s.me.rs 8).toNat := by
  decide +kernel

/-- A descriptor set, a verb that adds two F32s, a round that core 0 has joined. -/
def described (k : Fin 16) (w : Vector Word 8) (c : Machine.Core) : Machine.Core := c.onCtx fun x => { x with ed := x.ed.set k w }
def withVerb (c : Machine.Core) : Machine.Core := c.onCtx fun x => { x with h := x.h.set 2 (some ⟨[0x30001, 0], none⟩) }
def inRound (s : State) : State :=
  (s.updCore 0 fun c => c.onCtx fun x => { x with round := some (4, 1) }).updDie 0 fun x => { x with rounds := [⟨4, 1, 1, 1000, 0, [⟨0, 128, 0, 3, 0⟩], [], [], [0]⟩] }
def mmaMd : Vector Word 8 := #v[4, 8, 64, 0, 0, 32, 0, 0]
/-- Weights latched, and a buffer of eight rows. -/
def weighted (f : Nat) (c : Machine.Core) : Machine.Core :=
  (buffer 1 ⟨0x1000, 256, 8, 0, 0, f⟩ c).onCtx fun x => { x with md := x.md.set 1 mmaMd, mxe := { x.mxe with lk := 64, ln := 8 }, spr := { x.spr with shape := 1, pw := 0x40000 } }

theorem witness_QueueWords_copies :
    let cpym : Vector Word 8 := #v[0x20080, 0x20180, 0x0001000100800000, 1, 1, 0, 0, 0x46100000000]
    let red : Vector Word 8 := #v[0x20080, 0x20180, 0x0001000100800022, 4, 4, 0, 0, 7]
    let s := turn .ae fun c => described 1 copyDesc (described 2 cpym (described 3 red (weighted 0 c)))
    (s.me.rq 3).entries.length < 32 ∧
    (edCommon s.me (s.me.red 1) false false = true ∧ copyOk (s.me.red 1) = true ∧ noFollow (s.me.red 1) = true) ∧
    (edCommon s.me (s.me.red 2) false false = true ∧ copyOk (s.me.red 2) = true ∧ (descOf (s.me.red 2)).fo = true ∧ (descOf (s.me.red 2)).foOp ≤ 1 ∧
      mmaOk s.me (s.me.rmd (descOf (s.me.red 2)).foMd) (s.me.rcb (descOf (s.me.red 2)).foCb) s.me.ctx.spr.shape = true) ∧
    (edCommon s.me (s.me.red 3) false false = true ∧ redOk (s.me.red 3) .addI32 = true) := by decide +kernel
theorem witness_QueueWords_verbs :
    let ends := fun (h : Word) => (#v[0x20080, 0x20180, 0x0001000100200052, 4, 4, 0, 0, h * 0x1000000] : Vector Word 8)
    let s := turn .ae fun c => described 1 (ends 2) (withVerb c)
    edCommon s.me (s.me.red 1) false false = true ∧ edCommon s.me (s.me.red 1) true false = true ∧ verbOk s.me (s.me.red 1) 2 false = true ∧
    verbOk s.me (s.me.red 1) 2 true = true := by decide +kernel
theorem witness_QueueWords_puts :
    let put := fun (ty h : Word) => (#v[0x20080, 0x4000000000000080, 0x0001000100000000 + ty, 4, 4, 0, 0, h * 0x1000000] : Vector Word 8)
    let s := inRound (turn .ae fun c => described 1 (put 0x800000 0) (described 2 (put 0x200022 0) (described 3 (put 0x200052 2) (withVerb c))))
    (s.me.rq 3).entries.length < 32 ∧ (edCommon s.me (s.me.red 1) false true = true ∧ putOk s s.cur.core 3 (s.me.red 1) = true ∧
      (descOf (s.me.red 1)).handle = 0 ∧ (descOf (s.me.red 1)).ty = 0) ∧
    (edCommon s.me (s.me.red 2) false true = true ∧ putOk s s.cur.core 3 (s.me.red 2) = true ∧ (descOf (s.me.red 2)).handle = 0 ∧
      ((descOf (s.me.red 2)).size, (descOf (s.me.red 2)).ty) = redCodes .addI32) ∧
    (edCommon s.me (s.me.red 3) false true = true ∧ putOk s s.cur.core 3 (s.me.red 3) = true ∧
      s.me.rh (BitVec.ofNat 4 (descOf (s.me.red 3)).handle) = some ⟨[0x30001, 0], none⟩ ∧ (⟨[0x30001, 0], none⟩ : Verb).comm = true ∧
      verbFits (descOf (s.me.red 3)) ⟨[0x30001, 0], none⟩ = true) := by decide +kernel
theorem witness_QueueWords_others :
    let s := turn .ae (sets [(3, 0xFFDFF8)])
    let full := turn .ae fun c => (described 1 copyDesc c).onQueue 3 fun q => { q with entries := List.replicate 32 (newEntry .cpy (Vector.replicate 8 0) 5 0 0) }
    (s.me.rs 3).toNat / 2 ^ 60 ≤ 2 ∧ spClean (s.me.rs 3).toNat = true ∧ (s.me.rs 3).toNat % 8 = 0 ∧ (s.me.rs 3).toNat + 8 ≤ s.me.scratch ∧
    edCommon s.me (s.me.red 0) false false = false ∧ s.roundOf s.cur.core = none ∧ s.me.rh 0 = none ∧
    (edCommon full.me (full.me.red 1) false false = true ∧ copyOk (full.me.red 1) = true ∧ noFollow (full.me.red 1) = true ∧
      32 ≤ (full.me.rq 3).entries.length) := by decide +kernel

/-- A whole scratchpad, walked downwards. -/
theorem witness_ExtentCheckIsExact : 0 < 128 ∧ 0 < 1 ∧ extentOk 0xFFE000 0xFFDF80 128 [(131008, -128), (1, 0), (1, 0)] = true ∧
    extentOk 0xFFE000 0xFFDF80 128 [(131009, -128), (1, 0), (1, 0)] = false := by decide +kernel
theorem witness_FenceWords :
    let s := turn .ae id
    let full := turn .ae fun c => c.onQueue 3 fun q => { q with entries := List.replicate 32 (newEntry .cpy (Vector.replicate 8 0) 5 0 0) }
    (∀ j : Fin 8, (255 : BitVec 8).getLsbD j.val = true → (s.me.ctx.queues[j]).entries.length < 32) ∧
    (∃ j : Fin 8, (8 : BitVec 8).getLsbD j.val = true ∧ 32 ≤ (full.me.ctx.queues[j]).entries.length) := by decide +kernel

-- vectors

/-- The small register file. -/
def small (c : Machine.Core) : Machine.Core := c.onSpr fun x => { x with pw := x.pw ||| 1 }
/-- For VectorIntegers, VectorFloats, VectorCompares, Reductions, DotProducts and PermutingWords: the last registers of the small file and of the large
one, an element type of each class, the last element. -/
theorem witness_VectorWords :
    (turn .va small).hasV [31, 0, 31] ∧ (turn .va id).hasV [63, 0, 62] ∧ VType.i8.isInt = true ∧ VType.i32.isInt = true ∧ VType.bf16.isNum = true ∧
    VType.f32.isInt = false ∧ VType.i16.isNum = true ∧ VType.e4m3.isNum = false ∧ (31 : BitVec 6).toNat < VWidth.w1024.bits / (8 * VType.f32.bytes) := by
  unfold State.hasV; decide +kernel
theorem witness_MergingWords : (turn .va (sets [] [] [(1, 0x8001)])).hasV [63, 63] ∧ (VType.f16 = .f32 ∨ VType.f16 = .f16 ∨ VType.f16 = .bf16) := by
  unfold State.hasV; decide +kernel
theorem witness_VectorAccesses :
    let s := turn .va fun c => stream 1 0xFFEF80 (stream 2 0xFFF000 (small c))
    s.hasV [31] ∧ s.reaches (s.streamAt 1 0 128) 128 128 ∧ ¬ s.reaches (s.streamAt 2 0 128) 128 128 := by
  unfold State.hasV State.reaches; decide +kernel
theorem witness_GathersAndScatters :
    let s := turn .va fun c => stream 1 0xFFDFF8 (sets [] [(2, 4), (3, 0x0000000800000004)] [] c)
    let at_ := fun (r : BitVec 6) (i : Nat) => s.streamAt 1 0 1 + ((s.me.rv r).extractLsb' (32 * i) 32).signExtend 64
    s.hasV [1, 2] ∧ (∀ i < 8, s.reaches (at_ 2 i) 4 4) ∧ 1 < 8 ∧ ¬ s.reaches (at_ 3 1) 4 4 ∧ (∀ j < 1, s.reaches (at_ 3 j) 4 4) := by
  unfold State.hasV State.reaches; decide +kernel
theorem witness_SmallRegisterFile : (turn .va small).me.ctx.spr.pw.getLsbD 0 = true ∧ 32 ≤ (32 : BitVec 6).toNat ∧ 32 ≤ ((31 : BitVec 6) + 1).toNat := by
  decide +kernel
theorem witness_BitNetwork :
    let s := turn .xn fun c => stream 1 0xFFEF00 (stream 2 0xFFF000 (small c))
    s.hasV [31, 30, 30 + 1] ∧ s.reaches (s.streamAt 1 0 1) 256 256 ∧ ¬ s.reaches (s.streamAt 2 0 1) 256 256 := by
  unfold State.hasV State.reaches; decide +kernel
/-- With a random entry, and without one. -/
theorem witness_Conversions :
    (turn .xn small).hasV [31] ∧ (turn .xn id).me.ctx.rq = [] ∧ (turn .xn (ctx fun x => { x with rq := [5] })).me.ctx.rq = 5 :: [] ∧ Rnd.rtz ≠ .sr := by
  unfold State.hasV; decide +kernel

-- the matrix engine

/-- The tile of core 0's descriptor 1, its weights and its buffers. -/
def readyMx (f : Nat) (c : Machine.Core) : Machine.Core := stream 1 0x2000 (withVerb (buffer 2 ⟨0x8000, 1024, 1, 0, 0, 1⟩ (weighted f c)))
theorem witness_MatrixWords :
    let s := turn .mx (readyMx 4)
    let w := s.me.rmd 1
    s.cur.slot = .mx ∧ mOk w = true ∧ nOk w = true ∧ tileOk w s.me.ctx.spr.pw = true ∧ kOk w s.me.ctx.spr.shape = true ∧
    (s.me.rcb 2).holds (weightBytes .bf16 (mdK w) (mdN w)) s.me.scratch = true ∧ 1 ≤ (s.me.rcb 2).f ∧ s.me.ctx.mxe.ops.length < 16 ∧
    mmaOk s.me w (s.me.rcb 1) s.me.ctx.spr.shape = true ∧ mdM w ≤ (s.me.rcb 1).f ∧ 1 ≤ bandCount s.me.ctx.spr.shape := by decide +kernel
theorem witness_MatrixWords_more :
    let s := turn .mx fun c => (readyMx 4 c).onCtx fun x => { x with rq := [5] }
    let w := s.me.rmd 1
    let row := outStride w (outZ .f32)
    s.me.rh 2 = some ⟨[0x30001, 0], none⟩ ∧ Verb.kind ⟨[0x30001, 0], none⟩ = 0 ∧ (s.me.rcb 1).holds (4 * mdM w) s.me.scratch = true ∧
    (s.me.rcb 2).holds (4 * mdN w) s.me.scratch = true ∧ 1 ≤ (s.me.rcb 1).f ∧ s.me.ctx.mxe.accBusy (Tile.ofMd w 0) = none ∧ flagsOk w = true ∧
    fld w[6] 63 40 = 0 ∧ fld w[6] 31 25 = 0 ∧ row % outZ .f32 = 0 ∧ s.reaches (s.streamAt 1 0 1) ((mdM w - 1) * row + mdN w * outZ .f32) (outZ .f32) ∧
    s.me.ctx.rq = 5 :: [] ∧ (turn .mx (readyMx 4)).me.ctx.rq = [] := by unfold State.reaches; decide +kernel
theorem witness_EngineWordsThatStop_matrix :
    let few := turn .mx (readyMx 3)
    let busy := turn .mx fun c => (readyMx 4 c).onMxe fun m => { m with tiles := [⟨0, none, 0, 32, 4, 8⟩] }
    let full := turn .mx fun c => (readyMx 4 c).onMxe fun m =>
      { m with ops := List.replicate 16 (newOp .mzero (Vector.replicate 8 0) CircBuf.zero 0 1 5 5 0 0) }
    mmaOk few.me (few.me.rmd 0) (few.me.rcb 1) few.me.ctx.spr.shape = false ∧ mOk (few.me.rmd 0) = false ∧
    (mmaOk few.me (few.me.rmd 1) (few.me.rcb 1) few.me.ctx.spr.shape = true ∧ (few.me.rcb 1).f < mdM (few.me.rmd 1)) ∧
    (mOk (busy.me.rmd 1) = true ∧ nOk (busy.me.rmd 1) = true ∧ tileOk (busy.me.rmd 1) busy.me.ctx.spr.pw = true ∧
      (busy.me.ctx.mxe.accBusy (Tile.ofMd (busy.me.rmd 1) 0)).isSome = true) ∧
    (full.me.ctx.mxe.accBusy (Tile.ofMd (full.me.rmd 1) 0) = none ∧ 16 ≤ full.me.ctx.mxe.ops.length) := by decide +kernel

-- the array field

/-- AR's turn in a beat, with a region of 8 rows by 64 columns in array 1, one of another width, and a stream. -/
def inBeat (b : BitVec 16) (w : Vector Word 6) (c : Machine.Core) : Machine.Core :=
  (stream 1 0x40 { c with bundles := [{ emptyRec with pc := 5, tag := ⟨[], 0, true, true, b⟩ }] }).onCtx fun x => { x with ad := x.ad.set 1 w }
theorem witness_EngineWordsThatStop_beats :
    let s := turn .ar (inBeat 7 (Vector.replicate 6 1))
    (s.myRec.tag.beat.toNat = 7 ∧ ¬ ((6 : BitVec 5).toNat = 31 ∨ (6 : BitVec 5).toNat = s.myRec.tag.beat.toNat % 32)) ∧
    ((31 : BitVec 5).toNat = 31 ∧ s.myRec.tag.beat.toNat % 2 = 1) ∧
    ((turn .ar (inBeat 40 (Vector.replicate 6 1))).myRec.tag.beat.toNat % 32 = (8 : BitVec 5).toNat ∧
      (turn .ar (inBeat 40 (Vector.replicate 6 1))).myRec.tag.beat.toNat % 2 = 0) := by decide +kernel
theorem witness_ArrayWords_even :
    let s := turn .ar (inBeat 40 #v[63, 504, 8, 960, 64, 8])
    s.cur.slot = .ar ∧ ((8 : BitVec 5).toNat = 31 ∨ (8 : BitVec 5).toNat = s.myRec.tag.beat.toNat % 32) ∧ s.myRec.tag.beat.toNat % 2 = 0 ∧
    adOk (s.me.rad 1) = true ∧ adBits (s.me.rad 1) ≤ 1024 ∧ adCols (s.me.rad 1) % 8 = 0 ∧ 0 < adBits (s.me.rad 1) / 8 ∧
    s.reaches (s.streamAt 1 0 1) (adBits (s.me.rad 1) / 8) 1 ∧ (s.streamAt 1 0 1).toNat % 128 + adBits (s.me.rad 1) / 8 ≤ 128 ∧ s.hasV [63] := by
  unfold State.reaches State.hasV; decide +kernel
theorem witness_ArrayWords_odd :
    let s := turn .ar fun c => stream 1 0x100 (inBeat 41 #v[63, 504, 8, 960, 64, 8] c)
    ((31 : BitVec 5).toNat = 31 ∧ s.myRec.tag.beat.toNat % 2 = 1) ∧ adOk (s.me.rad 1) = true ∧ (s.me.rad 1)[5].toNat = 8 ∧
    adCols (s.me.rad 1) % 8 = 0 ∧ adCols (s.me.rad 1) / 8 ≤ 128 ∧ s.reaches (s.streamAt 1 0 1) (128 * ceilDiv (adRows (s.me.rad 1)) 32) 128 ∧
    (s.me.ctx.af.groups[3]).arrays.length < 8 ∧ s.me.ctx.af.words = [] ∧
    (adArr (s.me.rad 1) = adArr (s.me.rad 1) ∧ adCols (s.me.rad 1) % 32 = 0) := by
  unfold State.reaches; decide +kernel

-- atomics, rounds, phases

theorem witness_AtomicWords :
    let sye : Word := 0xA800000000030000
    let s := turn .ctl fun c => { sets [(3, 0xFFFFFFFFFFF8), (4, 0x1000000000000), (5, 4), (6, 0x10000)] [] [] c with
      tlb := [(0xFFFFFFFF, sye), (1, 0x8000000000010000), (2, 0xA000000000030000)] }
    (2 ^ 48 ≤ (s.me.rs 4).toNat ∧ (s.me.rs 5).toNat % 8 ≠ 0) ∧
    ((s.me.rs 3).toNat < 2 ^ 48 ∧ (s.me.rs 3).toNat % 8 = 0 ∧ cacheGet s.me.tlb ((s.me.rs 3).toNat / 65536) = some sye ∧ leafOk sye = true ∧
      leafKind sye = 2 ∧ leafW sye = true ∧ s.leafPlace s.cur.core sye ((s.me.rs 3).toNat % 65536) = .sye 0 false 0x3FFF8 ∧
      s.linkBad 0 (s.cur.core.val / 24) = false) ∧
    ((s.me.rs 6).toNat % 8 = 0 ∧ cacheGet s.me.tlb ((s.me.rs 6).toNat / 65536) = some 0x8000000000010000 ∧ leafOk 0x8000000000010000 = true ∧
      leafKind 0x8000000000010000 ≠ 2) ∧
    (leafOk 0xA000000000030000 = true ∧ leafKind 0xA000000000030000 = 2 ∧ leafW 0xA000000000030000 = false) := by decide +kernel

/-- Partition 3 with core 0's cluster and port 2, and a timetable of one window: core 0, queue 3, port 2, 128 bytes, opening at 0. -/
def partitioned (s : State) : State :=
  (s.updPart 3 fun x => { x with pctl := 0x8000000000004001 }).updDie 0 fun x =>
    { x with tables := (x.tables.writeAll (leBytes 0x1000 8 1) false).writeAll (leBytes 0x1008 8 (0x80000 + 0x400 + 0xC0 + 1)) false,
             ports := x.ports.set 2 { Port.reset with state := 2 } }
theorem witness_RoundWords :
    let s := partitioned (turn .ctl (sets [(3, 0), (4, 1)]))
    let r := inRound s
    let die := s.dies[dieOf s.cur.core]
    (s.me.rs 3).toNat ≤ (s.coreGcnt s.cur.core).toNat ∧ ¬ (s.me.rs 4).toNat ≤ (s.coreGcnt s.cur.core).toNat ∧ die.rounds = [] ∧
    die.timetable 1 = some (0, [⟨0, 128, 2, 3, 0⟩]) ∧ s.partOf s.cur.core = some 3 ∧
    ((die.ports.toArray.getD 2 Port.reset).state = 2 ∧ (s.parts[3]).ownsPort (6 * (dieOf s.cur.core).val + 2) = true ∧
      s.partOf (coreIx (24 * (dieOf s.cur.core).val + 0)) = some 3) ∧
    (let b := s.updDie 0 fun x => { x with rounds := [⟨4, 1, 2, 1000, 0, [⟨0, 128, 0, 3, 0⟩], [], [], [0]⟩] }
     (∀ y ∈ (b.dies[dieOf b.cur.core]).rounds, y.tag ≠ 9 ∧ y.tt ≠ 1) ∧ (b.dies[dieOf b.cur.core]).rounds.length < 8 ∧
       (b.dies[dieOf b.cur.core]).timetable 1 = some (0, [⟨0, 128, 2, 3, 0⟩])) ∧
    (r.dies[dieOf r.cur.core]).rounds.find? (fun x => x.tag = 4) = some ⟨4, 1, 1, 1000, 0, [⟨0, 128, 0, 3, 0⟩], [], [], [0]⟩ := by decide +kernel
theorem witness_PhaseAndSpawn :
    let entry := fun (v : Nat) (c : Machine.Core) => holding 0x100 16 v c
    let s := partitioned (turn .ctl fun c => ctx (fun x => { x with domIn := setAt x.domIn 5 0x8000000000000000 })
      (entry (2 ^ 62 + 0x4000) (sets [(3, 0x100), (4, 0x180), (5, 0xFFE000)] [] [] c)))
    let bad := partitioned (turn .ctl (entry (2 ^ 62)))
    let ws := fun (s : State) => (List.range 32).map fun i => s.me.pool.word (0x100 + 8 * i)
    let full := s.updCore 1 fun c => { c with queue := List.replicate 4 (queued .queued 0) }
    (getAt s.me.ctx.domIn 5).getLsbD 63 = true ∧ (getAt s.me.ctx.domIn 0).getLsbD 63 = false ∧ ¬ s.reaches (s.me.rs 4) 256 256 ∧
    s.reaches (s.me.rs 3) 256 256 ∧ ¬ s.reaches (s.me.rs 5) 256 256 ∧ s.partOf s.cur.core = some 3 ∧ s.partOf (coreIx 1) = some 3 ∧
    ((ws s).getD 0 0).getLsbD 62 = true ∧ ((ws s).getD 0 0).getLsbD 63 = false ∧ refusal (ws s) true ((s.parts[3]).pctl.getLsbD 62) false = none ∧
    (s.cores[coreIx 1]).queue.length < 4 ∧ 4 ≤ (full.cores[coreIx 1]).queue.length ∧
    refusal (ws bad) true ((bad.parts[3]).pctl.getLsbD 62) false = some 2 := by unfold State.reaches; decide +kernel

-- the pipeline's events

/-- A core in a one-bundle code region, its next bundle at 0. -/
def atBundle0 (f : Machine.Core → Machine.Core := id) : State :=
  turn .ctl fun c => f { (c.onCtx fun x => { x with pc := 0, spr := { x.spr with taskinfo := 0x4000 } }) with bundles := [] }
theorem witness_DispatchAndRetirement_dispatch :
    let code := fun (v : Nat) (c : Machine.Core) => { c with imem := c.imem.writeAll (leBytes 0 4 v) false }
    let words := fun (s : State) => BitVec.ofNat 256 (leNat ((s.me.imem.bytes 0 32)))
    let out := turn .ctl fun c => { c with bundles := [] }
    let bad := atBundle0 (code 0x1F800000)
    let spoilt := atBundle0 fun c => { c with imem := { c.imem with poison := [31] } }
    ((atBundle0).me.dispatchDue = true ∧ inRegion (atBundle0).me.ctx.spr.taskinfo 0 = true ∧ (atBundle0).me.imem.tainted 0 32 = false ∧
      (atBundle0).me.cross.ctx.pc = 0 ∧ bundleReject (words atBundle0) = none) ∧
    (out.me.dispatchDue = true ∧ inRegion out.me.ctx.spr.taskinfo 0 = false) ∧
    (spoilt.me.dispatchDue = true ∧ inRegion spoilt.me.ctx.spr.taskinfo 0 = true ∧ spoilt.me.imem.tainted 0 32 = true) ∧
    (bad.me.dispatchDue = true ∧ bad.me.imem.tainted 0 32 = false ∧ (bundleReject (words bad)).isSome = true) := by decide +kernel

/-- The oldest bundle issued whole. -/
def issuedAll (f : Machine.Core → Machine.Core := id) : State := turn .ctl fun c => f { c with bundles := [{ emptyRec with pc := 5, issued := 0xFF }] }
theorem witness_DispatchAndRetirement_retirement :
    let s := issuedAll
    let r := issuedAll fun c => { c with ret := some 0 }
    let t := issuedAll fun c => { (c.onSpr fun x => { x with tvec := 0x8000 }) with ret := some 0 }
    (retireDue s 0 = true ∧ s.me.bundles = [{ emptyRec with pc := 5, issued := 0xFF }] ∧ s.me.ret ≠ some 0) ∧
    (retireDue r 0 = true ∧ r.me.ret = some 0 ∧ r.me.ctx.spr.tvec.getLsbD 15 = false) ∧
    (retireDue t 0 = true ∧ t.me.ret = some 0 ∧ t.me.ctx.spr.tvec.getLsbD 15 = true) := by
  decide +kernel

/-- One result due, into a register of each kind that the statement names. -/
def landing (r : Reg) : State := turn .ctl fun c => { c with flights := [⟨0, .va, 5, r, 0x5, lowMask 64, 100, 0x20, false⟩] }
theorem witness_Landings :
    ([Reg.s 3, .s 0, .p 2, .p 0, .v 63, .cf 7, .bt 1, .md 15 7].all fun r =>
      !(landing r).me.frozen && (landing r).me.flights.filter (fun g => g.due ≤ (landing r).me.cyc) == [⟨0, .va, 5, r, 0x5, lowMask 64, 100, 0x20, false⟩] &&
        (landing r).me.reports.isEmpty && decide (r ∉ [Reg.spr 6, Reg.spr 7, Reg.spr 8])) = true ∧ (landing (.s 3)).me.ctx.spr.fela.getLsbD 63 = false ∧
    (0x20 : Kinds).getLsbD 5 = true ∧ (turn .ctl fun c => c.onSpr fun x => { x with felmask := 0x1FF, fela := 0x8000000000000000 }).me.ctx.spr.fela.getLsbD 63 = true := by
  decide +kernel
/-- An atomic's answer, a reduction's event and a place in the random queue. -/
def answered : Atomic := ⟨0, 7, some .addI32, false, 0, 5, 0, false, 0x10, 5, 0, 3, false, 90, 18, 0, [], some (100, 9, 0)⟩
theorem witness_Landings_others :
    (responseReady { turn .ctl id with atoms := [answered] } 0 = some (answered, 9, 0)) ∧
    returnDue (turn .ctl fun c => { c with ev := [(0, ⟨0x20, 7, 5, 0, .handoff 3⟩)] }) 0 = true ∧ (turn .ctl id).me.rngDue = true := by decide +kernel

theorem witness_TrapEntry :
    let trap : TrapReq := ⟨0, 0x0E, 7, 8⟩
    let s := turn .ctl fun c => { (c.onSpr fun x => { x with tvec := 0x402D }) with ptrap := some trap }
    let b := turn .ctl fun c => { c with ptrap := some trap }
    let soft : ImpTrap := ⟨0x10, 1, 0, none, none⟩
    let i := turn .ctl fun c => { (c.onSpr fun x => { x with tvec := 0x402D }) with itraps := [soft] }
    let e := turn .ctl fun c => { c with itraps := [soft] }
    (preciseDue s 0 = true ∧ s.me.ptrap = some trap ∧ s.me.cut.1.ctx.spr.tvec.getLsbD 14 = true ∧ s.me.cut.1.ctx.spr.tvec.getLsbD 15 = false) ∧
    (preciseDue b 0 = true ∧ b.me.ptrap = some trap ∧ b.me.cut.1.ctx.spr.tvec.getLsbD 14 = false ∧
      (∀ k < 6, (getAt b.me.cut.1.ctx.domIn k).getLsbD 63 = false) ∧ b.me.run = .running) ∧
    (impreciseDue i 0 = true ∧ i.me.nextTrap = some soft) ∧ (impreciseDue e 0 = true ∧ e.me.nextTrap = some soft ∧
      (∀ k < 6, (getAt e.me.cut.1.ctx.domIn k).getLsbD 63 = false)) := by decide +kernel

/-- Core 0's bundle with one word in a slot, that slot waiting since cycle 10. -/
def waits (sl : Slot) (k : Nat) (w : BitVec 256) (f : Machine.Core → Machine.Core := id) : State :=
  turn sl fun c => f { c with bundles := [{ emptyRec with pc := 5, words := w }], waitFrom := c.waitFrom.setIfInBounds k (some 10) }
def wordAt (sl : Slot) (i : Instr) : BitVec 256 := BitVec.ofNat 256 ((encode ⟨true, false, false⟩ i).toNat * 2 ^ (32 * sl.num))
theorem witness_CoreTimers :
    let a := waits .ae 7 (wordAt .ae (.await 3 4 1 2))
    let g := waits .ctl 0 (wordAt .ctl (.waitg 3))
    let o := waits .ctl 0 (wordAt .ctl (.abeat 89))
    (turn .ctl fun c => { c with ctlHold := 100 }).me.waitcDue = true ∧ (a.me.awaitDue = true ∧ a.me.nextInstr .ae = .await 3 4 1 2) ∧
    waitgDue g 0 = true ∧ (o.me.overrunDue = true ∧ o.me.overrun = some 89) ∧
    (turn .ctl fun c => { c with pred := 30721 }).me.limiterDue = true ∧
    (let b := turn .ctl fun c => c.onMxe fun m => { m with bands := m.bands.set 3 (.rising 0) }
     3 < 4 ∧ b.me.ctx.mxe.bands.toArray.getD 3 .off = .rising 0 ∧ 0 ≤ (b.coreGcnt 0).toNat) ∧
    (let b := turn .ctl fun c => c.onCtx fun x => { x with af := { x.af with closing := some 99 } }
     b.me.ctx.af.closing = some 99 ∧ 99 < b.me.cyc ∧ b.me.frozen = false) := by decide +kernel

-- the queues' events

/-- Queue 1 with one entry at its head. -/
def headed (e : Entry) (f : Machine.Core → Machine.Core := id) : State := turn .ctl fun c => f (c.onQueue 1 fun q => { q with entries := [e] })
/-- Four bytes from 0x20080 to an address, with word 6. -/
def copying (dst w6 : Word) : Entry := newEntry .cpy #v[0x20080, dst, 0x0001000100040000, 1, 1, 0, w6, 0] 5 0 0
theorem witness_QueueEvents_begin :
    let near := copying 0x20180 0
    let far := copying 0x2000000000010000 0
    let s := headed near
    let m := headed far
    let h := headed far fun c => { c with ceTlb := [(1, 0)] }
    (beginDue s 0 1 = true ∧ s.me.head 1 = some near ∧ (near.translate s.me.ceTlb).missing = [] ∧ (entryHalt s 0 (near.translate s.me.ceTlb)).isNone = true) ∧
    (beginDue m 0 1 = true ∧ m.me.head 1 = some far ∧ (far.translate m.me.ceTlb).missing ≠ []) ∧
    (beginDue h 0 1 = true ∧ h.me.head 1 = some far ∧ (far.translate h.me.ceTlb).missing = [] ∧ (entryHalt h 0 (far.translate h.me.ceTlb)).isSome = true ∧ h.me.ended = false) := by decide +kernel
theorem witness_QueueEvents_read :
    let e := { copying 0x20180 0 with began := some 100, ready := true, nextRead := 100 }
    let s := headed e
    let r := headed e fun c => { c with grants := [(bankOf false 0x20080, mxePort)] }
    (s.me.readDue 1 = true ∧ s.me.head 1 = some e ∧ e.take.cur.isSome = true ∧ e.take.want = [0x401] ∧ space e.desc.src = 0) ∧
    s.me.free (queueReads 1) [bankOf e.desc.sv (128 * 0x401)] = true ∧
    (r.me.readDue 1 = true ∧ r.me.free (queueReads 1) [bankOf e.desc.sv (128 * 0x401)] = false) := by decide +kernel
/-- A block of the entry's bytes, to an address. -/
def block (dst : Nat) : OutBlock := ⟨0, [(dst, 0), (dst + 1, 1)], [(0x20080, 0), (0x20081, 1)], 100, [], none, false, false⟩
def withBlock (e : Entry) (dst : Nat) : Entry := { e with began := some 90, ready := true, out := [block dst], got := [(0, 7, false), (1, 8, false)] }
theorem witness_QueueEvents_write :
    let e := withBlock (copying 0x20180 0x10000) 0x20180
    let s := headed e
    let banks := ((e.bytesOf (block 0x20180)).map fun y => bankOf e.desc.dv y.1).eraseDups
    let r := headed e fun c => { c with grants := [(bankOf false 0x20180, mxePort)] }
    (blockDue s 0 1 false = true ∧ s.me.head 1 = some e ∧ s.nextBlock s.me.cyc e = some (block 0x20180) ∧ (block 0x20180).await = [] ∧ e.isVerb = false ∧ e.isRed = false ∧
      e.isPut = false ∧ space e.desc.dst = 0 ∧ s.tableMet 0 e (block 0x20180) = false ∧ s.me.free (queueWrites 1) banks = true) ∧
    (blockDue r 0 1 false = true ∧ r.nextBlock r.me.cyc e = some (block 0x20180) ∧ r.me.free (queueWrites 1) banks = false) ∧
    e.desc.cred = true ∧ (e.bytesOf (block 0x20180)).length = 2 := by decide +kernel
/-- A block of one I32 of a ZIP, a FOLD of two elements and a SCAN, sequential and tree. -/
theorem witness_QueueEvents_verbs :
    let b : OutBlock := ⟨0, (List.range 4).map fun i => (0x20180 + i, i), (List.range 4).map fun i => (0x20080 + i, i), 100, [], none, false, false⟩
    let e := fun (k : EKind) => { newEntry k #v[0x20080, 0x20180, 0x0001000100200052, 4, 4, 0, 0, 0x2000000] 5 0 0 with
      verb := some ⟨[0x30001, 0], none⟩, began := some 90, ready := true, out := [b], got := (List.range 8).map fun i => (i, 1, false)
      dgot := (List.range 4).map fun i => (0x20180 + i, 2, false) }
    ([EKind.zip, .fold false, .fold true, .scan false, .scan true].all fun k =>
      let s := headed (e k)
      let f : Entry := { e k with got := (e k).got ++ s.harvest b }
      blockDue s 0 1 false && s.me.head 1 == some (e k) && s.nextBlock s.me.cyc (e k) == some b && (e k).isVerb && f.desc.c0 != 0 &&
        space f.desc.dst == 0 && f.parity b == none && !s.tableMet 0 f b && !f.desc.cred && b.outs.length / f.desc.es == 1 &&
        s.me.free (queueWrites 1) ((f.bytesOf b).map fun y => bankOf f.desc.dv y.1).eraseDups) = true := by decide +kernel
theorem witness_QueueEvents_completion :
    let done := fun (w6 : Word) => { copying 0x20180 w6 with began := some 80, lastWrite := some 99 }
    let f : FollowOn := ⟨true, mmaMd, 1, 0, 1, 64, 8⟩
    let e := done 0
    let b := done 0x8401
    let p := { e with follow := some f, cbpDone := true }
    let s := headed e
    let room := headed b (buffer 1 ⟨0x1000, 256, 8, 0, 0, 7⟩)
    let none_ := headed b (buffer 1 ⟨0x1000, 256, 8, 0, 0, 8⟩)
    (completionDue s 0 1 = true ∧ finishedHead s 0 1 = some e ∧ e.follow = none ∧ isFill e = false ∧ e.desc.cbpe = false ∧ e.desc.flag = false) ∧
    (completionDue room 0 1 = true ∧ finishedHead room 0 1 = some b ∧ b.cbpDone = false ∧ b.desc.cbpe = true ∧ b.desc.flag = false ∧
      (room.me.rcb b.desc.cb).f + b.desc.n ≤ (room.me.rcb b.desc.cb).count) ∧
    (completionDue none_ 0 1 = true ∧ (none_.me.rcb b.desc.cb).count < (none_.me.rcb b.desc.cb).f + b.desc.n ∧ none_.me.ended = false) ∧
    (followDue (headed p) 0 1 = true ∧ finishedHead (headed p) 0 1 = some p ∧ p.follow = some f) := by decide +kernel
theorem witness_QueueEvents_flags :
    let own := { newEntry (.flag 0x20180 7 .system) (Vector.replicate 8 0) 5 0 0 with began := some 90, ready := true, flagDue := some 0 }
    let w := fun (p : Place) => (⟨7, 0, 1, 3, 5, 0, p, .flag 7, true, [], 0, 0, 0, none, false⟩ : Req)
    let away := fun (p : Place) => { headed (copying 0x20180 0) with reqs := [w p] }
    let m := { newEntry (.marker 4) (Vector.replicate 8 0) 5 0 0 with began := some 99 }
    (ownFlagDue (headed own) 0 1 = true ∧ (headed own).flagReq 0 1 = none ∧ (headed own).me.head 1 = some own ∧
      (headed own).flagPlace 0 own = .pool (0 : CoreId).val 0x20180) ∧
    ([Place.host 0x20008, .hbm 2 0x40, .pool 9 0x80].all fun p =>
      (away p).flagReq 0 1 == some (w p) && !(away p).hostHolds (w p).at_ (w p).span) = true ∧
    (headed m).me.markerDue 1 = true := by decide +kernel
theorem witness_QueueEvents_array :
    let e := withBlock { copying 0x3000000000000100 0 with ed := #v[0x20080, 0x3000000000000100, 0x0001000100040000, 1, 1, 0, 0, 4] } 0x3000000000000100
    let beat := fun (b : BitVec 16) (n : Nat) (c : Machine.Core) =>
      c.onCtx fun x => { x with af := { x.af with openBeat := b, pending := List.replicate n ⟨0, 1, 0, 0, 4, 0, none, 0, none, false, 5, false, none⟩ } }
    (blockDue (headed e) 0 1 true = true ∧ (headed e).me.head 1 = some e ∧ (headed e).nextBlock (headed e).me.cyc e = some (block 0x3000000000000100) ∧ e.desc.beat = 4) ∧
    (headed e (beat 4 0)).me.afFate e.desc.beat = .enter ∧ (headed e (beat 2 7)).me.afFate e.desc.beat = .wait ∧
    (headed e (beat 2 8)).me.afFate e.desc.beat = .refuse ∧ (headed e (beat 5 0)).me.afFate e.desc.beat = .late := by decide +kernel

-- the engines' events

theorem witness_EngineUnitEvents_matrix :
    let op := fun (k : MKind) => newOp k mmaMd CircBuf.zero 1 1 5 5 0 0
    let queue := fun (o : MOp) => turn .ctl fun c => c.onMxe fun m => { m with ops := [o] }
    let runs := fun (o : MOp) => turn .ctl fun c => (weighted 4 c).onMxe fun m => { m with running := [{ o with begun := some 1, tiles := o.pieces }] }
    ((queue (op (.mshape 3))).me.mxeDue = true ∧ (queue (op (.mshape 3))).me.frozen = false ∧ (queue (op (.mshape 3))).me.ctx.mxe.ops = [op (.mshape 3)]) ∧
    ((queue (op .mzero)).me.mxeDue = true ∧ (queue (op .mzero)).me.ctx.mxe.ops = [op .mzero]) ∧
    (let o := { op .mzero with begun := some 1 }
     let s := turn .ctl fun c => (weighted 4 c).onMxe fun m => { m with running := [o] }
     let held := (s.me.pieceBanks o 0).map fun b => (b, receiver)
     o.writesTile = true ∧ s.me.pieceDue o o.tiles = true ∧
       s.me.free mxePort (s.me.pieceBanks o o.tiles) = true ∧ ({ s.me with grants := held } : Machine.Core).free mxePort (s.me.pieceBanks o o.tiles) = false) ∧
    (let b : CircBuf := ⟨0x1000, 256, 8, 0, 0, 4⟩
     let mma := { op (.mma false) with cb := b, begun := some 1 }
     let outer := { op (.mouter b ⟨[0x30001, 0], none⟩) with cb := b, begun := some 1, rows := [List.replicate 16 0, List.replicate 32 0] }
     let mout := { op (.mout .f32 .rne 0x2000 0) with begun := some 1, outs := [[(0x2000, 1)]], tiles := 1 }
     let held := fun (bs : List Nat) => ({ (runs mma).me with grants := bs.map fun y => (y, receiver) } : Machine.Core)
     ([{ mma with rows := [List.replicate 256 0] }, outer].all fun o => o.writesTile && (runs o).me.pieceDue o o.tiles) = true ∧
     (mma.reads[mma.rows.length]? = some (0x1000, 256, 24) ∧ mma.at_ 24 ≤ (runs mma).me.cyc ∧ (runs mma).me.free mxePort (runBanks 0x1000 256) = true ∧
       (held (runBanks 0x1000 256)).free mxePort (runBanks 0x1000 256) = false) ∧
     (mout.outs[mout.wrote]? = some [(0x2000, 1)] ∧ mout.wrote < mout.tiles ∧ mout.at_ (8 + mout.wrote) ≤ (runs mma).me.cyc ∧
       (runs mma).me.free mxePort (runBanks 0x2000 1) = true ∧ (held (runBanks 0x2000 1)).free mxePort (runBanks 0x2000 1) = false)) ∧
    (runs (op .mzero)).me.mxeReady = some { op .mzero with begun := some 1, tiles := 4 } := by decide +kernel
/-- One AR word in the field, handed off in cycle 90. -/
def arWord (w : ArWork) (start : Option Nat) : ArWord := ⟨w, #v[63, 504, 8, 960, 64, 8], 40, 5, 0, 3, 90, 0, start, none, [1, 2, 3, 4, 5, 6, 7, 8], 0⟩
def inField (w : ArWord) : State := turn .ctl fun c => c.onCtx fun x => { x with af := { x.af with words := [w] } }
theorem witness_EngineUnitEvents_array :
    let works : List ArWork := [.astv 7, .ast 0x40 false (some [1]), .ald 0x40 false, .aldv 31, .amvm 2 true 1 0x100 false 0 [] false,
      .arop .add #v[63, 504, 8, 960, 64, 8] .b8 true 0, .aacc 6 0 0 true]
    ((inField (arWord (.astv 7) none)).me.arNext 3 = some (arWord (.astv 7) none) ∧
      (inField (arWord (.astv 7) none)).me.arLandDue (arWord (.astv 7) none) = false) ∧
    (works.all fun w => (inField (arWord w (some 1))).me.arNext 3 == some (arWord w (some 1)) &&
      (inField (arWord w (some 1))).me.arLandDue (arWord w (some 1))) = true ∧
    (inField (arWord (.ald 0x40 false) (some 1))).me.free afPort [bankOf false 0x40] = true ∧
    (([0, 0] : List Int).all fun y => y = 0) = true ∧ (([0, 1] : List Int).all fun y => y = 0) = false := by decide +kernel
/-- An engine's block of bytes, or a read, at array 2. -/
theorem witness_EngineUnitEvents_blocks :
    let b := fun (bs : Option (List (Nat × Byte))) (t : Option Nat) => (⟨9, 1, 0, 0, 40, 0x20000, bs, 2, none, false, 5, false, t⟩ : AfBlock)
    let s := fun (x : AfBlock) => turn .ctl fun c => c.onCtx fun y => { y with af := { y.af with active := [x] } }
    let fresh := b none none
    let write := b (some [(0x20000, 7)]) (some 100)
    let read := b none (some 100)
    ((s fresh).me.afNext 2 = some fresh ∧ (s fresh).me.afDue fresh = false) ∧ ((s write).me.afNext 2 = some write ∧ (s write).me.afDue write = true) ∧
    ((s read).me.afNext 2 = some read ∧ (s read).me.afDue read = true ∧ read.bytes = none) := by decide +kernel

-- the units' events

/-- Request 7 of core 0's queue 1, due. -/
def request (p : Place) (k : ReqKind) : Req := ⟨7, 0, 1, 3, 5, 0, p, k, true, [], 0, 0, 0, none, false⟩
def asked (r : Req) (c : Machine.Core → Machine.Core := id) : State := { turn .ctl c with reqs := [r] }
theorem witness_ElsewhereEvents_requests :
    ([request (.host 0x100) (.read 8), request (.host 0x100) (.write [(0x100, 7)] false false none),
      request (.hbm 2 0x40) (.write [(0x40, 7)] false false none), request (.hbm 2 0x40) (.write [(0x40, 7)] false false (some (.pool 0 0x200))),
      request (.pool 9 0x80) (.write [(0x80, 7)] true false none), request (.pool 9 0x80) (.credit 4)].all fun r =>
        (asked r).reqOf 7 == some r && remoteDue (asked r) 7 && !(asked r).hostHolds r.at_ r.span) = true ∧
    (let r := request (.hbm 2 0x40) (.write [(0x40, 7)] false false none)
     let s := { asked r with hostLines := [(2, 1)] }
     remoteDue s 7 = true ∧ r.writes = true ∧ s.hostHolds r.at_ r.span = true) ∧
    (let r := request (.letable 0 0x1000) (.write [(0x1000, 7)] false false none)
     let e := { copying 0x2000000000010000 0 with order := 3 }
     let s := inRound (asked r fun c => c.onQueue 1 fun q => { q with entries := [e] })
     remoteDue s 7 = true ∧ s.tableUsed r.at_ = true ∧ (s.cores[coreIx 0]).head (BitVec.ofNat 3 1) = some e ∧ (s.cores[coreIx 0]).ended = false ∧
       ((s.cores[coreIx 0]).rq (BitVec.ofNat 3 1)).halted = false) ∧
    (let e := { copying 0x2000000000010000 0 with order := 3 }
     let s := asked (request (.host 0x100) (.read 8)) fun c => c.onQueue 1 fun q => { q with entries := [e] }
     remoteDue s 7 = true ∧ (s.cores[coreIx 0]).entryFed 1 3 = false) := by decide +kernel
theorem witness_ElsewhereEvents_walk_and_receive :
    let s := partitioned (turn .ctl id)
    let e := copying 0x2000000000050000 0
    let w := fun (q : Nat) => (s.updCore 0 fun x => x.onQueue 1 fun q => { q with entries := [e] }).updDie 0 fun x => { x with walks := [(0, q, 5, 0)] }
    let b : PeerBlock := ⟨0, 0x200, [7, 8], 4, 0, 0, none, [], none, some 0x300, false, (0x200, 2)⟩
    let far : PeerBlock := { b with core := 95 }
    let at_ := fun (b : PeerBlock) (gone : List (BitVec 8)) => { s.updPort 2 (fun y => { y with recv := [b] }) with aborted := gone }
    walkReady (w 8) 0 = some (0, 8, 5, 0) ∧ (walkReady (w 1) 0 = some (0, 1, 5, 0) ∧ ((w 1).cores[coreIx 0]).head (BitVec.ofNat 3 1) = some e ∧
      e.began = none) ∧ (recvReady (at_ b []) 2 = some b ∧ BitVec.ofNat 8 b.tag ∉ (at_ b []).aborted ∧ BitVec.ofNat 8 b.tag ∉ (at_ b []).spoiled ∧
      blockOk (at_ b []) 2 b = true ∧ b.op = none ∧ b.verb = []) ∧
    (recvReady (at_ b [4]) 2 = some b ∧ BitVec.ofNat 8 b.tag ∈ (at_ b [4]).aborted) ∧
    (recvReady (at_ far []) 2 = some far ∧ blockOk (at_ far []) 2 far = false) := by decide +kernel
theorem witness_ElsewhereEvents_reductions :
    let r := fun (k : Nat) => request (.hbm 2 0x80) (.red .addI32 [(0x80, 1), (0x81, 0), (0x82, 0), (0x83, 0)] false k 3 0 none)
    let e := { newEntry (.red .addI32) (Vector.replicate 8 0) 5 3 0 with began := some 90 }
    let wrong := { asked (r 0) (fun c => c.onQueue 1 fun q => { q with entries := [e] }) with ords := [⟨.hbm 2 0x80, 1, 2, 0, 0⟩] }
    (redDue (asked (r 0)) 7 = true ∧ redFate (asked (r 0)) (r 0) = .apply ∧ (asked (r 0)).hostHolds (r 0).at_ (r 0).span = false) ∧ (redDue (asked (r 2)) 7 = true ∧ redFate (asked (r 2)) (r 2) = .hold) ∧
    (redDue wrong 7 = true ∧ redFate wrong (r 0) = .discard ∧ (wrong.cores[coreIx 0]).head (BitVec.ofNat 3 1) = some e ∧ e.order = 3 ∧
      (wrong.cores[coreIx 0]).ended = false) := by decide +kernel
theorem witness_ElsewhereEvents_atomics :
    let a : Atomic := { answered with resp := none }
    let s := { turn .ctl id with atoms := [a] }
    let t := s.updDie 0 fun x => { x with sram := { x.sram with poison := [0x12] } }
    atomReady s 0 (syeBank 0x10) = some a ∧ (s.dies[0]).sram.tainted (0x10 / 8 * 8) 8 = false ∧ atomReady t 0 (syeBank 0x10) = some a ∧
    (t.dies[0]).sram.tainted (0x10 / 8 * 8) 8 = true := by decide +kernel

theorem witness_LinkEvents_windows :
    let r : Round := ⟨4, 1, 1, 0, 0, [⟨0, 4, 2, 1, 0⟩], [], [], [0]⟩
    let put := fun (T : Option Nat) => { newEntry .put #v[0x20080, 0x4000000000000080, 0x0001000100040000, 1, 1, 0, 0, 0] 5 0 0 with
      began := some 80, round := some (4, 1), stagedAt := T, staged := [block 0x4000000000000080] }
    let s := fun (es : List Entry) (g : Word) =>
      { ((turn .ctl fun c => c.onQueue 1 fun q => { q with entries := es }).updDie 0 fun x => { x with rounds := [r] }) with gcnt := g }
    (windowDue (s [] 0) 0 0 = true ∧ (s [] 0).windowAt 0 0 = some (r, 0) ∧ ((s [] 0).windowEntry 0 r 0).isNone = true) ∧
    (windowDue (s [put (some 0)] 0) 0 0 = true ∧ (s [put (some 0)] 0).windowEntry 0 r 0 = some (0, 1, put (some 0)) ∧ 0 ≤ r.opens 0 + r.slack) ∧
    (windowDue (s [put none] 1) 0 0 = true ∧ (s [put none] 1).windowEntry 0 r 0 = some (0, 1, put none) ∧ (put none).stagedAt = none) ∧
    (windowDue (s [put (some 1)] 1) 0 0 = true ∧ (s [put (some 1)] 1).windowEntry 0 r 0 = some (0, 1, put (some 1)) ∧ r.opens 0 + r.slack < 1) ∧
    roundEndDue ({ turn .ctl id with gcnt := 9 }.updDie 0 fun x => { x with rounds := [{ r with opened := [0], sends := [(0, 8)] }] }) 0 0 = true := by decide +kernel
/-- A port that is up, trained or failed; a buffer with room for one byte. A core that asks, behind its LE and ahead of it; a stamp at an LE's count, two
ticks before and after it, and three after; a die that follows the stamp's, and one that does not. -/
theorem witness_LinkEvents_ports :
    let s := fun (n : BitVec 2) (bs : List Byte) => (turn .ctl id).updPort 2 fun y => { y with state := n, recv := [⟨0, 0, bs, 4, 0, 0, none, [], none, none, false, (0, bs.length)⟩] }
    ((s 2 []).port 2).state = 2 ∧ ((s 1 []).port 2).state = 1 ∧ ((s 3 []).port 2).state = 3 ∧
    (((s 2 []).port 2).recv.map fun y => y.bytes.length).sum + [(7 : Byte)].length ≤ 524288 ∧
    (let g := ({ turn .ctl (fun c => { c with alignAsk := true, gskew := 1 }) with
       gcnt := 9, pmc := { State.reset.pmc with cfl := { State.reset.pmc.cfl with state := 2 } } }.updPort 2 fun y => { y with state := 2 }).updDie 0
         fun x => { x with aligned := true }
     let up := g.updPort 8 fun y => { y with state := 2 }
     (stampDue g 0 ⟨9, none⟩ = true ∧ 9 < (g.coreGcnt 0).toNat ∧ (g.coreGcnt 1).toNat ≤ 9) ∧
     ([(7 : Word), 9, 11].all fun n => stampDue g 0 ⟨n, some 2⟩ && decide (n.toNat ≤ g.leGcnt (dieOf 0) + 2) && decide (g.leGcnt (dieOf 0) ≤ n.toNat + 2)) = true ∧
     (stampDue g 0 ⟨12, some 2⟩ = true ∧ g.leGcnt (dieOf 0) + 2 < 12) ∧ (stampDue g 0 ⟨6, some 2⟩ = true ∧ 6 + 2 < g.leGcnt (dieOf 0)) ∧
     g.follows (dieOf 0) (dieOf 24) = true ∧ up.follows (dieOf 0) (dieOf 24) = false) := by
  decide +kernel
theorem witness_LinkEvents_full :
    ∃ b : PeerBlock, 524288 < (((turn .ctl id).port 2).recv.map fun y => y.bytes.length).sum + b.bytes.length := by
  have h : ∀ n, ∃ b : PeerBlock, n < (((turn .ctl id).port 2).recv.map fun y => y.bytes.length).sum + b.bytes.length := fun n =>
    ⟨⟨0, 0, List.replicate (n + 1) 7, 4, 0, 0, none, [], none, none, false, (0, n + 1)⟩, by rw [List.length_replicate]; omega⟩
  exact h 524288

/-- The Confluence part of a state, at a tick. -/
def confluence (f : Confl → Confl) (tick : Word) : State :=
  { State.reset with gcnt := tick, pmc := { State.reset.pmc with cflcfg := 0x000190C890000000, cfl := f State.reset.pmc.cfl } }
theorem witness_ConfluenceEvents_notices :
    let m := confluence (fun g => { g with state := 2 }) 10000
    let low := confluence (fun g => { g with notices := [(60, 4096), (50, 8192)] }) 4096
    let high := confluence (fun g => { g with notices := [(72, 4096)] }) 4096
    (postDue m = true ∧ isJoining m.pmc.cfl = false) ∧
    (let j := { confluence (fun g => { g with state := 1, granted := some 5 }) 10000 with dies := State.reset.dies.map fun d => { d with aligned := true } }
     postDue j = true ∧ isJoining j.pmc.cfl = true) ∧
    (low.shake = none ∧ low.pmc.cfl.ripe low.gcnt.toNat = [(60, 4096)] ∧ 60 < low.ceiling) ∧
    (high.pmc.cfl.ripe high.gcnt.toNat = [(72, 4096)] ∧ high.ceiling ≤ 72) ∧
    ({ low with shake := some (4096, 60) }).shake = some (4096, 60) ∧
    (let r := fun (ns : List (Nat × Nat)) => { confluence (fun g => { g with state := 2, notices := ns, posts := [⟨0, 0, 72, 500000, none, none, false⟩] }) 1000000 with
       ceiling := 60 }
     raiseDue (r []) = true ∧ isMember (r []).pmc.cfl = true ∧ (r []).pmc.cfl.state ≠ 3 ∧ (r []).pmc.cfl.joiners = [] ∧ (r []).pmc.cfl.leavers = [] ∧
       (r []).ceiling ≤ 72 ∧ (r []).shake = none ∧ raiseCode (r []).pmc.cfl 1000000 = some 72 ∧ (r []).pmc.cfl.notices = [] ∧
       (r [(50, 999000)]).pmc.cfl.notices = [(50, 999000)] ∧ 1000000 < 999000 + 2048) := by
  decide +kernel
theorem witness_ConfluenceEvents_members :
    let p : Post := ⟨1, 3, 70, 5, some (60, 4096), none, true⟩
    let q : Post := ⟨1, 3, 72, 4, none, none, false⟩
    let old : Post := { p with epoch := 2 }
    let ask : Join := ⟨0, 100, 200, 9, [0]⟩
    let asks : Post := ⟨0, 0, 70, 5, none, some ask, false⟩
    let m := confluence (fun g => { g with state := 2, members := [(1, p)] }) 100005
    let n := confluence (fun g => { g with state := 2, members := [(1, q)] }) 100
    let j := fun (n : Nat) => confluence (fun g => { g with state := 1, joinAt := some 5, joinTry := n }) 1000005
    (isMember m.pmc.cfl = true ∧ firstLoss m = some 100005 ∧ (m.pmc.cfl.members.filter fun y => lossTick m.pmc y = 100005) = [(1, p)]) ∧ (joinLate (j 2) = true ∧ (j 2).pmc.cfl.joinTry < 3) ∧ (joinLate (j 3) = true ∧ 3 ≤ (j 3).pmc.cfl.joinTry) ∧
    (p.member ≠ n.pmc.cfl.self ∧ p ∉ n.posted ∧ p.join = none ∧ isMember n.pmc.cfl = true ∧
      (n.pmc.cfl.members.find? fun m => m.1 = p.member) = some (p.member, q) ∧ q.epoch ≤ p.epoch ∧ q.tick < p.tick ∧
      old.epoch < q.epoch ∧ q.epoch ≤ old.epoch + 32768) ∧
    (let k := confluence (fun g => { g with state := 2, joiners := [⟨ask, 70, 0, 1, false, [], []⟩] }) 100
     p ∉ k.posted ∧ isMember k.pmc.cfl = true ∧ (k.pmc.cfl.members.find? fun m => m.1 = p.member) = none ∧
       k.pmc.cfl.joiners = [⟨ask, 70, 0, p.member, false, [], []⟩]) ∧ p ∈ ({ n with posted := [p] }).posted ∧
    (asks ∉ n.posted ∧ asks.join = some ask ∧ n.pmc.cfl.freeNumber ask.joiner = some 2 ∧ (ask.linked.filter (n.pmc.cfl.self :: n.pmc.cfl.members.map (·.1)).contains).min? = some n.pmc.cfl.self ∧ ask.group = fld n.pmc.cflcfg 63 56 ∧ ask.tsil = n.pmc.tsil ∧
      1000 * ask.lead = n.pmc.leadTicks ∧ (1 : Nat) ≠ fld n.pmc.cflcfg 63 56) ∧ (confluence id 0).pmc.cfl.granted = none ∧
    isMember (confluence id 0).pmc.cfl = false ∧ (1 : Word).getLsbD 0 = true ∧ (2 : Word).getLsbD 1 = true ∧ (j 0).pmc.cfl.state = 1 ∧
    (m.pmc.cfl.state ≠ 0 ∧ (confluence id 0).pmc.cfl.state = 0) := by decide +kernel
/-- A sample whose power calls for a code below the one the member is bound for. -/
theorem witness_ConfluenceEvents_sample :
    let s := confluence id 10000
    let x : Sensors := ⟨List.replicate 4 (List.replicate 16 50), List.replicate 4 (List.replicate 6 100), List.replicate 4 (List.replicate 6 1000), 900, 600⟩
    s.pmc.nextSample ≤ s.gcnt.toNat ∧ localLimit s.pmc s.ceiling x (newSuspects s.pmc ((x :: s.pmc.samples).take 8)).1 < s.pmc.cfl.bound := by
  decide +kernel

-- the events of tasks

/-- Partition 3 with a page table of one leaf, the first GiB of host memory at 0, and a start vector's first word at 0x4000. -/
def launching (v : Nat) : State :=
  let s := (placed.updPart 3 fun x => { x with pctl := 0x8000000000000001 })
  { s with hbms := s.hbms.set 2 { s.hbms[2] with bytes := Mem.empty.writeAll (leBytes (stackAddr 128 0 1000 0) 8 0xD000000000000000) false },
           host := Mem.empty.writeAll (leBytes 0x4000 8 v) false }
def vectorAt (s : State) : List (Byte × Bool) := s.virtBytes 3 (0x4000 + 256 * 0) 256
theorem walk_host (s : State) (h : Mem) (p : PartId) (va n : Nat) : ∀ l tb, ({ s with host := h }).walkFrom p va n l tb = s.walkFrom p va n l tb := by
  induction n with
  | zero => intros; rfl
  | succ n ih => intro l tb; simp only [State.walkFrom, ih]; rfl
theorem launching_walk : (launching 0).walkFrom 3 0 3 1 ((launching 0).parts[(3 : PartId)]).ptroot.toNat = 0xD000000000000001 := by decide +kernel
/-- Through a leaf of kind 1 at level 1 the vector's bytes are host memory's. -/
theorem host_reads (s : State) (p : PartId) (hw : s.walkFrom p 0 3 1 (s.parts[p]).ptroot.toNat = 0xD000000000000001) :
    s.virtBytes p (0x4000 + 256 * 0) 256 = (List.range 256).map fun i => ((s.host.bytes (0x4000 + i) 1).headD 0, s.host.tainted (0x4000 + i) 1) := by
  refine List.map_congr_left fun i hi => ?_
  have hi : i < 256 := by simpa using hi
  have h1 : (0x4000 + 256 * 0 + i) % 2 ^ 48 = 0x4000 + i := by omega
  have h2 : (0x4000 + i) / 65536 * 65536 = 0 := by omega
  have h3 : (0x4000 + i) % 65536 = 0x4000 + i := by omega
  have k1 : leafOk 0xD000000000000001 = true := by decide
  have k2 : leafKind 0xD000000000000001 = 1 := by decide
  have k3 : leafFrame 0xD000000000000001 = 0 := by decide
  have hp : s.virtPlace p (0x4000 + i) = some (.host (0x4000 + i)) := by
    unfold State.virtPlace
    rw [h2, hw, h3]
    simp only [k1, k2, k3, Bool.not_true, Bool.false_eq_true, ↓reduceIte, Nat.zero_add]
  rw [h1, hp]
  rfl
theorem launching_reads (v : Nat) : vectorAt (launching v) =
    (List.range 256).map fun i => (((launching v).host.bytes (0x4000 + i) 1).headD 0, (launching v).host.tainted (0x4000 + i) 1) :=
  host_reads _ 3 ((walk_host (launching 0) _ 3 0 3 1 _).trans launching_walk)
def wordsOf (bs : List (Byte × Bool)) : List Word := (List.range 32).map fun i => BitVec.ofNat 64 (leNat (((bs.drop (8 * i)).take 8).map fun y => y.1))
def verdict (s : State) (bs : List (Byte × Bool)) : Option Nat :=
  refusal (wordsOf bs) (s.partOf 0 == some 3) ((s.parts[3]).pctl.getLsbD 62) (s.cores[0]).queueFull
def vectorReads (bs : List (Byte × Bool)) : Bool := !bs.any (fun y => y.2) && ((wordsOf bs).getD 0 0).getLsbD 62
theorem witness_TaskEvents_launch :
    (vectorReads (vectorAt (launching (2 ^ 62 + 0x4000))) = true ∧ verdict (launching (2 ^ 62 + 0x4000)) (vectorAt (launching (2 ^ 62 + 0x4000))) = none) ∧
    (vectorReads (vectorAt (launching (2 ^ 62))) = true ∧ verdict (launching (2 ^ 62)) (vectorAt (launching (2 ^ 62))) = some 2) := by
  rw [launching_reads, launching_reads]
  decide +kernel
theorem witness_TaskEvents_launch_others :
    ((wordsOf ((State.reset).virtBytes 3 0x4000 256)).getD 0 0).getLsbD 62 = false ∧
    (placed.parts[3]).en = true ∧ (placed.parts[3]).resetEnd = none ∧ (placed.parts[0]).en = false ∧ (0x4001 : Word).getLsbD 0 = true := by decide +kernel

/-- Core 0 with a queue; idle, and running. -/
def idling (q : List QTask) : State := turn .ctl fun c => { c with run := .idle, bundles := [], queue := q }
def busyWith (q : List QTask) (f : Machine.Core → Machine.Core := id) : State := turn .ctl fun c => f { c with queue := q }
theorem witness_TaskEvents_queue :
    let suspended := queued .suspended 0
    let saved : QTask := { suspended with saved := some State.reset.cores[0].ctx, savedPool := some ([], Mem.empty), savedRows := some Mem.empty, savedMxe := true, savedTags := [2] }
    let light : QTask := { suspended with saved := some State.reset.cores[0].ctx }
    (taskStartDue (idling [queued .ready 0]) 0 = true ∧ (idling [queued .ready 0]).me.nextOf = some (0, queued .ready 0)) ∧
    (preloadDue (busyWith [queued .loading 0]) 0 = true ∧ (busyWith [queued .loading 0]).me.nextOf = some (0, queued .loading 0)) ∧
    (let k := QTask.enters .loading [0x4000] []
     let s := busyWith [k] (ctx fun x => { x with launch := [0x4000] })
     preloadDue s 0 = true ∧ s.me.nextOf = some (0, k) ∧ codeBarred s.me k = true ∧ stages s.me k = true) ∧
    (preemptDue (busyWith [queued .ready 2]) 0 = true ∧ (busyWith [queued .ready 2]).me.ptrap = none) ∧
    (taskResumeDue (idling [suspended]) 0 = true ∧ (idling [suspended]).me.nextOf = some (0, suspended) ∧ suspended.stale = false ∧ suspended.saved = none) ∧
    (taskResumeDue (idling [saved]) 0 = true ∧ (idling [saved]).me.nextOf = some (0, saved) ∧ saved.saved.isSome = true ∧ saved.stale = false) ∧
    (taskResumeDue (idling [light]) 0 = true ∧ (idling [light]).me.nextOf = some (0, light) ∧ light.savedMxe = false ∧ light.savedRows = none ∧
      light.savedPool = none) := by decide +kernel
theorem witness_TaskEvents_others :
    let s := busyWith [] (fun c => c.onSpr fun x => { x with tbudget := 0 })
    (s.me.moves = true ∧ s.me.run = .running ∧ s.me.expired = false ∧ s.me.ctx.spr.tbudget = 0) ∧
    taskEndDue (turn .ctl fun c => { c with run := .halting, bundles := [] }) 0 = true ∧
    taskRestartDue (turn .ctl fun c => { c with run := .restarting, bundles := [] }) 0 = true := by decide +kernel

-- the events of the host

/-- Partition 3 with one command, of a code, in its queue. -/
def commanded (code : Nat) (f : Part → Part := id) : State :=
  { placed.updPart 3 (fun x => f { x with cqbase := 0x1000, cqhwi := 1 }) with host := Mem.empty.writeAll (leBytes 0x1000 8 code) false }
theorem witness_HostEvents_queues :
    let full := (commanded 2 fun x => { x with dropRep := 3, eqdwi := 16 })
    ((commanded 2).cqReady 3 = true ∧ fld ((commanded 2).cqWord 3 0) 15 0 = 2 ∧ ((commanded 2).parts[3]).dropRep = 0 ∧ ((commanded 2).parts[3]).eqFull = false) ∧
    ((commanded 1).cqReady 3 = true ∧ fld ((commanded 1).cqWord 3 0) 15 0 = 1) ∧ (fld ((commanded 3).cqWord 3 0) 15 0 ≠ 1 ∧ fld ((commanded 3).cqWord 3 0) 15 0 ≠ 2) ∧
    ((full.parts[3]).dropRep ≠ 0 ∧ ((full.parts[3]).eqdwi - 1).toNat ≠ 2 ^ (full.parts[3]).eqn.toNat ∧
      ((full.parts[3]).eqdwi - 0).toNat = 2 ^ (full.parts[3]).eqn.toNat) := by decide +kernel
theorem witness_HostEvents_registers :
    let s := placed.updPart 3 fun x => { x with attctl := 0x8000000000000040, hmrange := 0x8000000001000000 }
    let x := s.parts[3]
    (8 : Word).getLsbD 8 = false ∧ 4 ≤ fld (16 : Word) 4 0 ∧ fld (16 : Word) 4 0 ≤ 16 ∧ x.attctl.getLsbD 63 = true ∧ (0x8000000000000040 : Word).getLsbD 63 = true ∧
    0x1C0000 ≤ (0x1C0000 : BitVec 26).toNat ∧ x.hostPa 0xFFF8 8 = some 0xFFF8 ∧ x.hostPa 0xFFFF 1 = some 0xFFFF ∧ (s.hbmPlace 3 0xFFFF).isSome = true ∧
    16777215 < 16777216 ∧ s.pmc.off = false := by
  decide +kernel

/-- A session of partition 3, and core 0 halted or not. -/
def debugged (halted : Bool) : State :=
  { placed.updCore 0 (fun c => { c with halted := halted, haltReq := !halted, run := .running }) with pmc := { State.reset.pmc with vendor := true } }
theorem witness_DebugEvents :
    (placed.session 3 = false ∧ (debugged true).session 3 = true) ∧ ((debugged true).relCore 3 (fld (0xE000000000000007 : Word) 6 0) = some 7) ∧
    ((debugged true).relCore 3 (fld (0xE000000000000008 : Word) 6 0) = none) ∧ (debugged true).relCore 3 ((debugged true).parts[3]).dbgcore.toNat = some 0 ∧
    ((debugged true).cores[0]).halted = true ∧ ((debugged false).cores[0]).halted = false ∧ haltDue (debugged false) 0 = true ∧
    (0x8000000000000000 : Word).getLsbD 63 = true ∧ ((0x4000000000000000 : Word).getLsbD 62 = true ∧ (0x4000000000000000 : Word).getLsbD 63 = false) ∧
    ((0x2000000000000000 : Word).getLsbD 61 = true ∧ (0x2000000000000000 : Word).getLsbD 62 = false ∧ (0x2000000000000000 : Word).getLsbD 63 = false) := by
  decide +kernel

-- the stacks' events

/-- A stack set up, after training, at a tick. -/
def trained (f : Stack → Stack) (tick : Word) : State :=
  let s := { State.reset with gcnt := tick, pmc := { State.reset.pmc with stage := 8 } }
  { s with hbms := s.hbms.set 2 (f Stack.reset) }
def stacked (s : State) : Stack := s.hbms[2]
theorem witness_StackEvents_times :
    let s := trained (fun k => { k with slots := [(31999000, 511)] }) 32000000
    let scrub := fun (T : Nat) => decide (scrubRow (T - 3900) ≠ scrubRow T)
    let t := trained (fun k => { k with hot := true, samples := [], cool := 7 }) 10000
    (s.hbmUp 2 = true ∧ (stacked s).slotPc = (511 : BitVec 9).toNat ∧ (stacked s).slotTick ≤ s.gcnt.toNat ∧ (stacked s).swapsNow 511 = []) ∧
    (stacked s).winEnd ≤ s.gcnt.toNat ∧ (t.hbmUp 2 = true ∧ (stacked t).nextTemp ≤ t.gcnt.toNat ∧ (stacked t).hot = true) ∧ (stacked s).hot = false ∧
    ((stacked s).refresh 511 = 3900 ∧ scrub 31999000 = false) := by decide +kernel
theorem witness_StackEvents_tables :
    let old := trained (fun k => { k with pat := k.pat.set 7 0x83000BD0000003E8 }) 0
    let park := trained (fun k => { k with pat := k.pat.set 7 0x8C0000100000004 }) 0
    let v : Word := 0x84000BD2000003E8
    (patRefused old 2 8 (v &&& 0x8F001FFF00001FFF) = false) ∧ (patRefused old 2 6 (v &&& 0x8F001FFF00001FFF) = true) ∧
    (patValid 0x8D00180100000000 = true ∧ 6144 < patLim 0x8D00180100000000) ∧ (stacked old).patGuarded = true ∧ (1 : Word).getLsbD 0 = true ∧
    512 ≤ fld ((0x2003 : Word) &&& 0xFFF3) 15 4 ∧ (stacked park).parkBase = none ∧ 13 ≤ patDom 0x8D00180100000000 ∧
    (stacked (trained (fun k => { k with pat := (k.pat.set 7 0x83000BD0000003E8).set 6 0x84000BD1000003E8 }) 0)).patGuarded = false := by decide +kernel
theorem witness_StackEvents_partitions :
    hbmpartRefused placed 3 (0x1010100 &&& 0x3FF03E30300) = false ∧ fld (placed.parts[3]).hbmpart 9 8 = fld ((0x1010100 : Word) &&& 0x3FF03E30300) 9 8 ∧
    hbmpartRefused placed 3 (0x3FF01010100 &&& 0x3FF03E30300) = true := by decide +kernel
theorem witness_StackEvents_tests :
    let at_ := fun (st : Nat) => trained (fun k => { k with bist := BitVec.ofNat 64 (st * 2 ^ 60), copied := 6144, pat := k.pat.set 7 0x8C00001000000004 }) 0
    (fld (stacked (at_ 1)).bist 62 60 = 1 ∧ fld (stacked (at_ 2)).bist 62 60 = 2 ∧ fld (stacked (at_ 3)).bist 62 60 = 3) ∧
    (¬ (1 ≤ fld (stacked (at_ 4)).bist 62 60 ∧ fld (stacked (at_ 4)).bist 62 60 ≤ 3) ∧ (stacked (at_ 4)).parkBase ≠ none) ∧
    (Stack.reset.parkBase = none ∧ fld Stack.reset.bist 62 60 = 0 ∧ State.reset.pmc.ckptbusy = false) ∧
    (let b := { State.reset with pmc := { State.reset.pmc with ckptbusy := true, ckptctl := 0x4000000000000000 } }
     b.pmc.ckptbusy = true ∧ b.ckptDue = true ∧ b.pmc.ckptctl.getLsbD 62 = true ∧ b.pmc.ckptat + b.ckptBound ≤ ({ b with gcnt := 49999996 }).gcnt.toNat + 4) ∧
    (0 ∈ [0] ∧ 0 < stackBytes) ∧ State.reset.pmc.ckptctl.getLsbD 62 = false := by decide +kernel

-- the events of the package

/-- The package READY, with two arguments. -/
def ready (a b : Word) (f : Pmc → Pmc := id) : State :=
  { placed with pmc := f { State.reset.pmc with stage := 8, args := (State.reset.pmc.args.set 0 a).set 1 b } }
theorem witness_PackageEvents_mailbox :
    let arg := fun (s : State) (i : Nat) => s.pmc.args.toArray.getD i 0
    (ready 0 0).pmc.accepts = true ∧ State.reset.pmc.accepts = false ∧ ((ready 0 0).pmc.a3 = false ∧ (ready 0 0).noTasks = true ∧ (ready 0 0).pmc.cfl.state = 0) ∧
    ((ready 0 0).updCore 0 fun c => { c with run := .running }).noTasks = false ∧ 12 ≤ (arg (ready 12 0) 0).toNat ∧ (arg (ready 11 0) 0).toNat < 12 ∧
    ((arg (ready 5 0x8000000000001000) 1).getLsbD 63 = true ∧ fld (arg (ready 5 0x8000000000001000) 1) 11 0 = 0) ∧
    (arg (ready 0 11) 0 = 0 ∧ (arg (ready 0 11) 1).toNat < 12 ∧ 12 ≤ (arg (ready 0 12) 1).toNat) ∧
    (pctlRefused (ready 3 0x8000000000000001) 3 0x8000000000000001 = false ∧
      (placed.parts[3]).pctl &&& 0x8000000FFFFFFFFF = (0x8000000000000001 : Word) &&& 0x8000000FFFFFFFFF ∧
      hbmpartRefused placed 3 (0x1010100 &&& 0x3FF03E30300) = false ∧ fld (placed.parts[3]).hbmpart 9 8 = fld ((0x1010100 : Word) &&& 0x3FF03E30300) 9 8) := by decide +kernel
/-- DEBUG and a PARTSET with an entry that is refused. Whether a token verifies is not for a proof to find out: its keys and what they sign are free. -/
theorem witness_PackageEvents_debug :
    let s := fun (a b : Word) (keys : List Byte) => (ready a b).updPart 3 fun x => { x with tenant := keys }
    let w : Word := 0x8000000000000001 &&& 0xC000000FFFFFFFFF
    ((s 1 3 [7]).pmc.accepts = true ∧ (s 1 3 [7]).pmc.maint = false ∧ ((s 1 3 [7]).parts[3]).en = true ∧ ((s 1 3 [7]).parts[3]).tenant ≠ []) ∧
    ((s 1 3 []).parts[3]).tenant = [] ∧ 12 ≤ (12 : Word).toNat ∧ (s 2 0 []).pmc.args.toArray.getD 0 0 = 2 ∧ 3 ≤ ((s 3 0 []).pmc.args.toArray.getD 0 0).toNat ∧
    ((s 3 0x8000000000000001 []).pmc.accepts = true ∧ pctlRefused (s 3 0x8000000000000001 []) 3 w = false ∧
      ((s 3 0x8000000000000001 []).parts[3]).pctl &&& 0x8000000FFFFFFFFF = w &&& 0x8000000FFFFFFFFF ∧
      patRefused (s 3 0x8000000000000001 []) 2 5 (0x8D00180100000000 &&& 0x8F001FFF00001FFF) = true) := by decide +kernel
theorem witness_PackageEvents_boot :
    let at_ := fun (n : BitVec 4) => ready 0 0 fun p => { p with stage := n }
    ((at_ 2).pmc.stage = 2 ∧ (at_ 2).pmc.off = false ∧ verifyImage ((at_ 2).pmc.bar2.bytes 0 (min 16777216 ((at_ 2).pmc.args.toArray.getD 0 0).toNat)) 0 = some 6) ∧
    (ready 0 0 fun p => { p with off := true }).pmc.off = true ∧ ((at_ 1).pmc.stage = 1 ∧ (at_ 4).pmc.stage = 4 ∧ (at_ 7).pmc.stage.toNat < 8 ∧ (at_ 7).pmc.stage ≠ 2) ∧
    verifyImage [] (at_ 1).pmc.fusectr.toNat = some 6 ∧ (511 < 512 ∧ 15 < 16 ∧ 6207 < 6208) := by
  decide +kernel
theorem witness_PackageEvents_power :
    let s := fun (p : CorePower) (t : Word) (q : List QTask) => { turn .ctl (fun c => { c with run := .idle, bundles := [], power := p, queue := q }) with gcnt := t }
    ((s .a0 0 []).me.power = .a0 ∧ (s .a0 0 []).me.workless = true) ∧
    ((s .a1 1000000 []).me.workless = true ∧ (s .a1 1000000 []).me.idleAt + 1000000 ≤ (s .a1 1000000 []).gcnt.toNat) ∧
    ((s .a1 0 [queued .queued 0]).me.power = .a1 ∧ (s .a2 0 [queued .queued 0]).me.power = .a2 ∧ (s .a2 0 [queued .queued 0]).me.queue ≠ []) ∧
    ((turn .ctl fun c => { c with power := .a1, wake := true }).me.power = .a1 ∧ (turn .ctl fun c => { c with power := .a1, wake := true }).me.wake = true) ∧
    (let r := fun (y : Option PartSet) => (ready 0 0).updPart 3 fun x => { x with resetEnd := some 0, resetTo := y }
     (r none).resetDone 3 = true ∧ ((r none).parts[3]).resetTo = none ∧ (r (some ⟨0, 0, 0, []⟩)).resetDone 3 = true) := by decide +kernel

-- decoding, steps and invariants

theorem witness_EncodingIsExact :
    (Instr.movi 63 0x1FFFF).wf = true ∧ (Instr.movi 63 0x1FFFF).home = some .sca ∧ (Instr.vld .w1024 15 63 0x7FF).wf = true ∧
    (Instr.vld .w1024 15 63 0x7FF).home = some .va ∧ reads .ae 0x01910000 (.cpy 1 1) = true := by decide +kernel
/-- SCA's turn with a MOVI; with F outside a first iteration; the turns of an AWAIT and a WAITG whose waits end apart. -/
theorem witness_StepRunsDecodedWord :
    let s := fun (w : BitVec 256) (first : Bool) =>
      { turn .sca (fun c => { c with bundles := [{ emptyRec with pc := 5, words := w, tag := ⟨[0], 1, first, false, 0⟩ }] }) with cursor := .issue 0 [.sca] }
    let w := BitVec.ofNat 256 (0x0FA817EB * 2 ^ (32 * Slot.sca.num))
    let x := (s w true).cores[coreIx 0]
    (s w true).cursor = .issue 0 [.sca] ∧ x.alive (x.nextSeq .sca) = true ∧ reads .sca ((x.wordRec .sca).word .sca) (.movi 20 0x17EB) = true ∧
    (x.wordRec .sca).tag.suppresses (frameOf ((x.wordRec .sca).word .sca)) = false ∧
    (let f := w ||| BitVec.ofNat 256 (2 ^ (32 * Slot.sca.num + 30))
     let y := (s f false).cores[coreIx 0]
     (y.wordRec .sca).tag.suppresses (frameOf ((y.wordRec .sca).word .sca)) = true ∧ reads .sca ((y.wordRec .sca).word .sca) (.movi 20 0x17EB) = true) := by
  decide +kernel
theorem witness_WordsLeaveMemoryToEvents :
    (Instr.st 5 3 .d 0).isWord = true ∧ (after (exec (.st 5 3 .d 0) (turn .sca stream3))).isSome = true ∧ (∀ k n, Instr.st 5 3 .d 0 ≠ .spawn k n) := by
  refine ⟨by decide +kernel, by decide +kernel, fun k n h => by cases h⟩
theorem witness_MemoryStaysCanonical : State.reset.memsWf = true ∧ (after (step State.reset)).isSome = true := by decide +kernel

end Sys2Proof.Tests
end

section
/-!
PROOF. Results and events land (R9, R56, R95, R116, R150, R161–R163, R290, R299). First what a register reads after a write of another, then what
a landing writes, what the events of one result leave in the flags and the log, and last the four events.
-/
namespace Sys2Proof.Machine

open Host

-- a register, after a write of another

/-- Each special register is written in a field of its own (R93). -/
theorem sprGet_sprPut_other (x : Sprs) {n m : Nat} (h : n ≠ m) (v : Word) : sprGet (sprPut x n v) m = sprGet x m := by
  unfold sprGet
  split
  -- a number at which no register is stored
  case h_35 => rfl
  all_goals
    unfold sprPut
    split <;> simp at h ⊢

/-- A register of a file whose key another has not reads as before the other is written. -/
theorem File.getElem_set_of_key_ne {k n : Nat} {α : Type} (w : File k α) {i j : BitVec k} (h : (n, j.toNat) ≠ (n, i.toNat)) (x : α) :
    (w.set i.toNat x)[j.toNat] = w[j.toNat] :=
  Vector.getElem_set_ne _ _ fun e => h (by rw [e])

/-- The registers' bits are the task context's alone. -/
theorem Core.getReg_ctx (c d : Core) (r : Reg) : ({ d with ctx := c.ctx } : Core).getReg r = c.getReg r := by cases r <;> rfl

theorem Core.getReg_congr {c d : Core} (h : c.ctx = d.ctx) (r : Reg) : c.getReg r = d.getReg r := by
  rw [← Core.getReg_ctx c d r, h]

theorem Core.setReg_s (c : Core) {i : BitVec 6} (h : i ≠ 0) (v : Payload) :
    c.setReg (.s i) v = c.onCtx fun x => { x with s := x.s.set i.toNat (v.truncate 64) } := if_neg h

theorem Core.setReg_p (c : Core) {i : BitVec 3} (h : i ≠ 0) (v : Payload) :
    c.setReg (.p i) v = c.onCtx fun x => { x with p := x.p.set i.toNat (v.truncate 128) } := if_neg h

theorem Core.getReg_setReg_other (c : Core) {q r : Reg} (h : Reg.key r ≠ Reg.key q) (v : Payload) :
    (c.setReg q v).getReg r = c.getReg r := by
  cases q with
  | s i =>
    by_cases hi : i = 0
    · simp only [Core.setReg, if_pos hi]
    · rw [Core.setReg_s c hi]
      cases r with
      | s j => simp [Core.getReg, Core.rs, File.getElem_set_of_key_ne _ h]
      | _ => rfl
  | v i =>
    cases r with
    | v j => simp [Core.setReg, Core.getReg, Core.rv, File.getElem_set_of_key_ne _ h]
    | _ => rfl
  | p i =>
    by_cases hi : i = 0
    · simp only [Core.setReg, if_pos hi]
    · rw [Core.setReg_p c hi]
      cases r with
      | p j => simp [Core.getReg, Core.rp, File.getElem_set_of_key_ne _ h]
      | _ => rfl
  | cf i =>
    cases r with
    | cf j =>
      have hj : (c.setReg (.cf i) v).rcf j = c.rcf j := File.getElem_set_of_key_ne _ h _
      simp only [Core.getReg]
      rw [hj]
    | _ => rfl
  | bt i =>
    cases r with
    | bt j => simp [Core.setReg, Core.getReg, Core.rbt, File.getElem_set_of_key_ne _ h]
    | _ => rfl
  | asf i f =>
    cases r with
    | asf j g =>
      have hj : (c.setReg (.asf i f) v).ras j = c.ras j := File.getElem_set_of_key_ne _ h _
      simp only [Core.getReg]
      rw [hj]
    | _ => rfl
  | md i f =>
    cases r with
    | md j g => simp [Core.setReg, Core.getReg, Core.rmd, File.getElem_set_of_key_ne _ h]
    | _ => rfl
  | ad i f =>
    cases r with
    | ad j g => simp [Core.setReg, Core.getReg, Core.rad, File.getElem_set_of_key_ne _ h]
    | _ => rfl
  | ed i =>
    cases r with
    | ed j => simp [Core.setReg, Core.getReg, Core.red, File.getElem_set_of_key_ne _ h]
    | edw j l => simp [Core.setReg, Core.getReg, Core.red, File.getElem_set_of_key_ne _ h]
    | _ => rfl
  | edw i k =>
    cases r with
    | ed j => simp [Core.setReg, Core.getReg, Core.red, File.getElem_set_of_key_ne _ h]
    | edw j l => simp [Core.setReg, Core.getReg, Core.red, File.getElem_set_of_key_ne _ h]
    | _ => rfl
  | cb i f =>
    cases r with
    | cb j g => simp [Core.setReg, Core.setCb, Core.getReg, Core.rcb, File.getElem_set_of_key_ne _ h]
    | _ => rfl
  | h i => rfl
  | spr n =>
    cases r with
    | spr m =>
      have hm : n.toNat ≠ m.toNat := fun e => h (congrArg (Prod.mk 11) e.symm)
      simp [Core.setReg, Core.getReg, sprGet_sprPut_other _ hm]
    | _ => rfl
  | pat k =>
    cases r with
    | pat j => simp [Core.setReg, Core.getReg, File.getElem_set_of_key_ne _ h]
    | _ => rfl

/-- A write of a register changes the task context alone. -/
theorem Core.setReg_eq (c : Core) (r : Reg) (v : Payload) : c.setReg r v = { c with ctx := (c.setReg r v).ctx } := by
  cases r with
  | s i =>
    by_cases hi : i = 0
    · simp only [Core.setReg, if_pos hi]
    · rw [Core.setReg_s _ hi]; rfl
  | p i =>
    by_cases hi : i = 0
    · simp only [Core.setReg, if_pos hi]
    · rw [Core.setReg_p _ hi]; rfl
  | _ => rfl

/-- A special register is no other's name (R62). -/
theorem Reg.key_ne_spr {r : Reg} {n : BitVec 10} (h : r ≠ .spr n) : Reg.key (.spr n) ≠ Reg.key r := by
  cases r with
  | spr m => exact fun e => h (congrArg Reg.spr (BitVec.eq_of_toNat_eq (Prod.mk.inj e).2.symm))
  | _ => exact fun e => absurd (Prod.mk.inj e).1 (by decide)

theorem Reg.spr_toNat_ne {r : Reg} {m n : BitVec 10} (hn : r = .spr n) (hm : r ≠ .spr m) : m.toNat ≠ n.toNat :=
  fun e => hm (hn.trans (congrArg Reg.spr (BitVec.eq_of_toNat_eq e.symm)))

-- landing: the register

/-- The bits of a register once a result has landed in the bits of its mask (R9). -/
def Core.merged (c : Core) (f : Flight) : Payload := (c.getReg f.reg &&& ~~~f.mask) ||| (f.val &&& f.mask)

theorem Core.merged_congr {c d : Core} (h : c.ctx = d.ctx) (f : Flight) : c.merged f = d.merged f := by
  simp only [Core.merged, Core.getReg_congr h]

theorem Core.put_eq (c : Core) (f : Flight) : c.put f = { c with ctx := (c.put f).ctx } := by
  unfold Core.put
  dsimp only
  rw [Core.setReg_eq]
  split
  · rfl
  · split <;> rfl

/-- Outside the special registers a landing writes its register and nothing more. -/
theorem Core.put_of_not_spr (c : Core) {f : Flight} (h : ∀ n, f.reg ≠ .spr n) : c.put f = c.setReg f.reg (c.merged f) := by
  have h1 : rngWrite f.reg = false := by
    unfold rngWrite
    split
    · exact absurd ‹_› (h _)
    · rfl
  simp only [Core.put, h1, h, Bool.false_eq_true, if_false, Core.merged]

/-- An update of the special registers shows in the special registers that it changes alone. -/
theorem Core.getReg_onSpr (c : Core) {g : Sprs → Sprs} {r : Reg}
    (h : ∀ n, r = .spr n → sprGet (g c.ctx.spr) n.toNat = sprGet c.ctx.spr n.toNat) : (c.onSpr g).getReg r = c.getReg r := by
  cases r with
  | spr n => exact congrArg (BitVec.setWidth 2048) (h n rfl)
  | _ => rfl

theorem sprGet_alatecnt_other (x : Sprs) (a : BitVec 32) {n : Nat} (h : 0x00E ≠ n) : sprGet { x with alatecnt := a } n = sprGet x n := by
  rw [← sprGet_sprPut_other x h (a.setWidth 64)]
  simp [sprPut]

theorem Core.getReg_put_other (c : Core) {f : Flight} {r : Reg} (h : Reg.key r ≠ Reg.key f.reg) : (c.put f).getReg r = c.getReg r := by
  rw [← Core.getReg_setReg_other c h (c.merged f)]
  unfold Core.put
  dsimp only
  split
  · cases r <;> rfl
  · split
    · next he =>
      refine Core.getReg_onSpr _ fun n hn => sprGet_alatecnt_other _ _ fun e => h ?_
      rw [hn, he]
      exact congrArg (Prod.mk 11) e.symm
    · rfl

/-- A landing in another register leaves a special register alone. -/
theorem Core.sprGet_put_other (c : Core) {f : Flight} {n : BitVec 10} (h : f.reg ≠ .spr n) :
    sprGet (c.put f).ctx.spr n.toNat = sprGet c.ctx.spr n.toNat := by
  have hw := congrArg (BitVec.setWidth 64) (c.getReg_put_other (Reg.key_ne_spr h))
  simpa [Core.getReg] using hw

theorem Core.fela_put (c : Core) {f : Flight} (h : f.reg ≠ .spr 6) : (c.put f).ctx.spr.fela = c.ctx.spr.fela := c.sprGet_put_other h
theorem Core.felb_put (c : Core) {f : Flight} (h : f.reg ≠ .spr 7) : (c.put f).ctx.spr.felb = c.ctx.spr.felb := c.sprGet_put_other h
theorem Core.felmask_put (c : Core) {f : Flight} (h : f.reg ≠ .spr 8) : (c.put f).ctx.spr.felmask = c.ctx.spr.felmask := by
  simpa [sprGet] using congrArg (BitVec.setWidth 9) (c.sprGet_put_other h)
theorem Core.fflags_put (c : Core) {f : Flight} (h : f.reg ≠ .spr 9) : (c.put f).ctx.spr.fflags = c.ctx.spr.fflags := by
  simpa [sprGet] using congrArg (BitVec.setWidth 9) (c.sprGet_put_other h)

/-- A landing writes its register and what goes with the register, and forgets the register's upset; its undo is kept while it may be needed. -/
theorem Core.land_eq (c : Core) (f : Flight) :
    ∃ u, c.land f = { c with ctx := (c.put f).ctx, upsets := c.upsets.written f.reg, undo := u } := by
  unfold Core.land
  dsimp only
  rw [Core.put_eq]
  split
  · exact ⟨_, rfl⟩
  · exact ⟨_, rfl⟩

-- landing: the events

theorem Core.sticky_eq (c : Core) (q : Option Nat) (k : Kinds) :
    ∃ u, c.sticky q k = { c with ctx := { c.ctx with spr := { c.ctx.spr with fflags := c.ctx.spr.fflags ||| k } }, undo := u } := by
  unfold Core.sticky
  split
  · next hk => exact ⟨c.undo, by simp [hk]⟩
  · dsimp only
    split
    · exact ⟨_, rfl⟩
    · exact ⟨_, rfl⟩

/-- What a landing result offers to the log for a kind (R162, R163). -/
def Flight.offer (f : Flight) (k : Nat) : Offer := ⟨[f.slot.num, 0, k, f.seq], k, f.slot.num, false, 0, f.bundle, some f.seq⟩

/-- Of one result's offers a lower kind ranks first. -/
theorem Flight.offer_rankLt (f : Flight) {j k : Nat} (h : j ≤ k) : rankLt (f.offer k).rank (f.offer j).rank = false := by
  simp [Flight.offer, rankLt]
  omega

theorem bestOffer_first {mask : Kinds} {o : Offer} {os : List Offer} (hm : mask.getLsbD o.kind = true)
    (h : ∀ p ∈ os, rankLt p.rank o.rank = false) : bestOffer mask (o :: os) = some o := by
  unfold bestOffer
  rw [List.filter_cons_of_pos (p := fun o : Offer => mask.getLsbD o.kind) hm, List.foldl_cons]
  refine List.foldl_keeps (· = some o) _ _ (fun b p hp hb => ?_) rfl
  have hp := h p (List.mem_filter.mp hp).1
  simp [hb, hp]

theorem bestOffer_masked {mask : Kinds} {o : Offer} (os : List Offer) (hm : ¬ mask.getLsbD o.kind = true) :
    bestOffer mask (o :: os) = bestOffer mask os := by
  unfold bestOffer
  rw [List.filter_cons_of_neg (p := fun o : Offer => mask.getLsbD o.kind) hm]

/-- Of one result's kinds in rising order the first that the mask records is offered. -/
theorem bestOffer_rising (f : Flight) (mask : Kinds) {ks : List Nat} (h : ks.Pairwise (· ≤ ·)) :
    bestOffer mask (ks.map f.offer) = (ks.find? fun k => mask.getLsbD k).map f.offer := by
  induction ks with
  | nil => rfl
  | cons k ks ih =>
    obtain ⟨hk, hks⟩ := List.pairwise_cons.mp h
    rw [List.map_cons]
    by_cases hm : mask.getLsbD k = true
    · rw [List.find?_cons_of_pos hm]
      refine bestOffer_first hm fun p hp => ?_
      obtain ⟨j, hj, rfl⟩ := List.mem_map.mp hp
      exact f.offer_rankLt (hk j hj)
    · rw [List.find?_cons_of_neg hm, bestOffer_masked _ hm, ih hks]

/-- The lowest kind of a result that a mask records. -/
def Flight.firstSeen (f : Flight) (mask : Kinds) : Option Nat :=
  (List.range 9).find? fun k => f.kinds.getLsbD k = true ∧ mask.getLsbD k = true

theorem Flight.firstSeen_eq_some {f : Flight} {mask : Kinds} {k : Nat} (h9 : k < 9)
    (hk : f.kinds.getLsbD k = true ∧ mask.getLsbD k = true) (hj : ∀ j < k, ¬ (f.kinds.getLsbD j = true ∧ mask.getLsbD j = true)) :
    f.firstSeen mask = some k := by
  refine List.find?_range_eq_some.mpr ⟨decide_eq_true hk, List.mem_range.mpr h9, fun j h => ?_⟩
  simp only [decide_eq_false (hj j h), Bool.not_false]

theorem Flight.firstSeen_eq_none {f : Flight} {mask : Kinds} (h : ∀ k < 9, ¬ (f.kinds.getLsbD k = true ∧ mask.getLsbD k = true)) :
    f.firstSeen mask = none := by
  simpa [Flight.firstSeen] using h

theorem bestOffer_flight (f : Flight) (mask : Kinds) : bestOffer mask (flightOffers f) = (f.firstSeen mask).map f.offer := by
  have hs : (kindBits f.kinds).Pairwise (· ≤ ·) := List.pairwise_le_range.filter _
  have ho : flightOffers f = (kindBits f.kinds).map f.offer := rfl
  rw [ho, bestOffer_rising f mask hs, kindBits, List.find?_filter]
  rfl

/-- FELA and FELB after the events of one result (R162, R163). -/
def Core.logWith (c : Core) (f : Flight) : Word × Word :=
  let x := c.ctx.spr
  if x.fela.getLsbD 63 then (x.fela, x.felb)
  else match f.firstSeen x.felmask with
    | none => (x.fela, x.felb)
    | some k => (felaOf (f.offer k), felbOf (f.offer k) c.ccnt)

/-- Nothing is recorded over a record, nor where the mask records none of the kinds. -/
theorem Core.logWith_kept {c : Core} {f : Flight} (h : c.ctx.spr.fela.getLsbD 63 = true ∨ f.firstSeen c.ctx.spr.felmask = none) :
    c.logWith f = (c.ctx.spr.fela, c.ctx.spr.felb) := by
  unfold Core.logWith
  dsimp only
  split
  · rfl
  · next hf => simp only [h.resolve_left hf]

theorem felaOf_offer (f : Flight) (k : Nat) : felaOf (f.offer k) = BitVec.ofNat 64 (2 ^ 63 + f.bundle.toNat) := by
  simp [felaOf, mkWord, Flight.offer]

theorem felbOf_offer (f : Flight) (k : Nat) (cycle : Word) :
    felbOf (f.offer k) cycle = BitVec.ofNat 64 (cycle.toNat % 2 ^ 32 * 2 ^ 32 + k * 16 + f.slot.num) := by
  have hs : f.slot.num % 8 = f.slot.num := Nat.mod_eq_of_lt (Slot.num_lt f.slot)
  simp [felbOf, mkWord, Flight.offer, fld, hs]

theorem Core.logWith_new {c : Core} {f : Flight} {k : Nat} (he : c.ctx.spr.fela.getLsbD 63 = false) (hk : f.firstSeen c.ctx.spr.felmask = some k) :
    c.logWith f = (felaOf (f.offer k), felbOf (f.offer k) c.ccnt) := by
  simp only [Core.logWith, he, hk, Bool.false_eq_true, if_false]

/-- The special registers with the flags and the log set. -/
def Sprs.withEvents (x : Sprs) (k : Kinds) (log : Word × Word) : Sprs := { x with fflags := k, fela := log.1, felb := log.2 }

theorem sprGet_withEvents_other (x : Sprs) (k : Kinds) (log : Word × Word) {n : Nat} (h6 : 6 ≠ n) (h7 : 7 ≠ n) (h9 : 9 ≠ n) :
    sprGet (x.withEvents k log) n = sprGet x n := by
  have hx : x.withEvents k log = sprPut (sprPut (sprPut x 6 log.1) 7 log.2) 9 (k.setWidth 64) := by
    simp [sprPut, Sprs.withEvents]
  rw [hx, sprGet_sprPut_other _ h9, sprGet_sprPut_other _ h7, sprGet_sprPut_other _ h6]

/-- The events of one result: its kinds are added to the flags, and the log takes what it takes (R161, R162). -/
theorem Core.raise_one (c : Core) (f : Flight) :
    ∃ u, c.raise [f] [] = { c.onSpr (fun x => x.withEvents (x.fflags ||| f.kinds) (c.logWith f)) with undo := u } := by
  obtain ⟨u, hu⟩ := c.sticky_eq (some f.seq) f.kinds
  simp only [Core.raise, List.foldl_cons, List.foldl_nil, List.flatMap_cons, List.flatMap_nil, List.append_nil, bestOffer_flight, hu]
  split
  · next he => exact ⟨u, by rw [Core.logWith_kept (.inl he)]; rfl⟩
  · next he =>
    cases hk : f.firstSeen c.ctx.spr.felmask with
    | none => exact ⟨u, by rw [Core.logWith_kept (.inr hk)]; rfl⟩
    | some k =>
      rw [Core.logWith_new (by simpa using he) hk]
      simp only [Option.map_some]
      split
      · exact ⟨_, rfl⟩
      · exact ⟨_, rfl⟩

-- landing: the whole

/-- The core without the flights that are due. -/
def Core.takeDue (c : Core) : Core := { c with flights := c.flights.filter fun g => c.cyc < g.due }

/-- The core with one result, the one due, in its register, and nothing raised yet. -/
def Core.landedReg (c : Core) (f : Flight) : Core := c.takeDue.put f

/-- The core with that result landed and its events raised. -/
def Core.landed (c : Core) (f : Flight) : Core :=
  (c.landedReg f).onSpr fun x => x.withEvents (x.fflags ||| f.kinds) ((c.landedReg f).logWith f)

theorem Core.landAll_eq {c : Core} {f : Flight} (hf : c.flights.filter (fun g => g.due ≤ c.cyc) = [f]) (hr : c.reports = []) :
    c.landAll = (c.takeDue.land f).raise [f] [] := by
  have ht : ({ c.takeDue with reports := [] } : Core) = c.takeDue := by rw [← hr]; rfl
  unfold Core.landAll
  rw [hf, hr, ← ht]
  rfl

/-- Where one result is due and no report has come, it lands, and only what an undo needs comes with it. -/
theorem Core.landAll_one {c : Core} {f : Flight} (hf : c.flights.filter (fun g => g.due ≤ c.cyc) = [f]) (hr : c.reports = []) :
    ∃ us u, c.landAll = { c.landed f with upsets := us, undo := u } := by
  obtain ⟨u, hland⟩ := c.takeDue.land_eq f
  obtain ⟨w, hraise⟩ := (c.takeDue.land f).raise_one f
  refine ⟨c.upsets.written f.reg, w, ?_⟩
  rw [Core.landAll_eq hf hr, hraise, hland]
  unfold Core.landed Core.landedReg
  rw [Core.put_eq]
  rfl

theorem Core.landedReg_eq (c : Core) (f : Flight) :
    c.landedReg f = { c with flights := c.flights.filter (fun g => c.cyc < g.due), ctx := (c.landedReg f).ctx } := Core.put_eq _ _

theorem Core.landed_eq (c : Core) (f : Flight) :
    c.landed f = { c with flights := c.flights.filter (fun g => c.cyc < g.due), ctx := (c.landed f).ctx } := by
  unfold Core.landed
  rw [Core.landedReg_eq]
  rfl

section Frame
variable (c : Core) (f : Flight)

theorem Core.landed_flights : (c.landed f).flights = c.flights.filter fun g => c.cyc < g.due := by rw [Core.landed_eq]
theorem Core.landed_pool : (c.landed f).pool = c.pool := by rw [Core.landed_eq]
theorem Core.landed_rows : (c.landed f).rows = c.rows := by rw [Core.landed_eq]
theorem Core.landed_imem : (c.landed f).imem = c.imem := by rw [Core.landed_eq]

end Frame

theorem Core.getReg_landedReg_other (c : Core) {f : Flight} {r : Reg} (h : Reg.key r ≠ Reg.key f.reg) :
    (c.landedReg f).getReg r = c.getReg r :=
  (Core.getReg_put_other _ h).trans (Core.getReg_congr rfl r)

theorem Core.getReg_landed_other (c : Core) {f : Flight} {r : Reg} (h : Reg.key r ≠ Reg.key f.reg)
    (hr : r ∉ [Reg.spr 6, Reg.spr 7, Reg.spr 9]) : (c.landed f).getReg r = c.getReg r := by
  simp only [List.mem_cons, List.not_mem_nil, or_false, not_or] at hr
  obtain ⟨h6, h7, h9⟩ := hr
  rw [← c.getReg_landedReg_other h]
  exact Core.getReg_onSpr _ fun n hn =>
    sprGet_withEvents_other _ _ _ (Reg.spr_toNat_ne hn h6) (Reg.spr_toNat_ne hn h7) (Reg.spr_toNat_ne hn h9)

theorem Core.landedReg_of_not_spr (c : Core) {f : Flight} (h : ∀ n, f.reg ≠ .spr n) :
    c.landedReg f = c.takeDue.setReg f.reg (c.merged f) :=
  (Core.put_of_not_spr _ h).trans (congrArg (Core.setReg _ f.reg) (Core.merged_congr rfl f))

section OwnRegister
variable (c : Core) (f : Flight)

theorem Core.landed_rs {i : BitVec 6} (h : f.reg = .s i) (hi : i ≠ 0) : (c.landed f).rs i = (c.merged f).setWidth 64 := by
  have hl := c.landedReg_of_not_spr (f := f) (by simp [h])
  rw [h, Core.setReg_s _ hi] at hl
  rw [Core.rs, if_neg hi]
  simp [Core.landed, hl]

theorem Core.landed_rp {i : BitVec 3} (h : f.reg = .p i) (hi : i ≠ 0) : (c.landed f).rp i = (c.merged f).setWidth 128 := by
  have hl := c.landedReg_of_not_spr (f := f) (by simp [h])
  rw [h, Core.setReg_p _ hi] at hl
  rw [Core.rp, if_neg hi]
  simp [Core.landed, hl]

theorem Core.landed_rv {i : BitVec 6} (h : f.reg = .v i) : (c.landed f).rv i = (c.merged f).setWidth 1024 := by
  have hl := c.landedReg_of_not_spr (f := f) (by simp [h])
  simp [Core.landed, hl, h, Core.setReg, Core.rv]

theorem Core.landed_rcf {i : BitVec 3} (h : f.reg = .cf i) : (c.landed f).rcf i = (c.merged f).getLsbD 0 := by
  have hl := c.landedReg_of_not_spr (f := f) (by simp [h])
  simp [Core.landed, hl, h, Core.setReg, Core.rcf]

theorem Core.landed_rbt {i : BitVec 3} (h : f.reg = .bt i) : (c.landed f).rbt i = (c.merged f).setWidth 64 := by
  have hl := c.landedReg_of_not_spr (f := f) (by simp [h])
  simp [Core.landed, hl, h, Core.setReg, Core.rbt]

theorem Core.landed_rmd {i : BitVec 4} {k : BitVec 3} (h : f.reg = .md i k) :
    getAt ((c.landed f).rmd i) k.toNat = (c.merged f).setWidth 64 := by
  have hl := c.landedReg_of_not_spr (f := f) (by simp [h])
  have hk : k.toNat < 8 := k.isLt
  simp [Core.landed, hl, h, Core.setReg, Core.rmd, getAt, setAt, hk]

theorem Core.landed_fflags (h : f.reg ≠ .spr 9) : (c.landed f).ctx.spr.fflags = c.ctx.spr.fflags ||| f.kinds :=
  congrArg (· ||| f.kinds) (Core.fflags_put _ h)

theorem Core.landed_log (h : f.reg ∉ [Reg.spr 6, Reg.spr 7, Reg.spr 8]) :
    ((c.landed f).ctx.spr.fela, (c.landed f).ctx.spr.felb) = c.logWith f := by
  simp only [List.mem_cons, List.not_mem_nil, or_false, not_or] at h
  obtain ⟨h6, h7, h8⟩ := h
  show (c.landedReg f).logWith f = c.logWith f
  have e6 : (c.landedReg f).ctx.spr.fela = c.ctx.spr.fela := Core.fela_put _ h6
  have e7 : (c.landedReg f).ctx.spr.felb = c.ctx.spr.felb := Core.felb_put _ h7
  have e8 : (c.landedReg f).ctx.spr.felmask = c.ctx.spr.felmask := Core.felmask_put _ h8
  have ec : (c.landedReg f).ccnt = c.ccnt := by rw [Core.landedReg_eq]
  simp only [Core.logWith, e6, e7, e8, ec]

end OwnRegister

-- the events

theorem exec_resultLanding (c : CoreId) (s : State) : exec (.resultLanding c) s = execResultLanding c s := rfl
theorem exec_atomicResponse (c : CoreId) (s : State) : exec (.atomicResponse c) s = execAtomicResponse c s := rfl
theorem exec_reductionEventReturn (c : CoreId) (s : State) : exec (.reductionEventReturn c) s = execReductionEventReturn c s := rfl
theorem exec_rngRefill (c : CoreId) (s : State) : exec (.rngRefill c) s = execRngRefill c s := rfl

/-- Where one result is due and no report has come, the event makes it land. -/
theorem resultLanding_makes {s : State} {c : CoreId} {f : Flight} (hm : (s.cores[c]).frozen = false)
    (hf : (s.cores[c]).flights.filter (fun g => g.due ≤ (s.cores[c]).cyc) = [f]) (hr : (s.cores[c]).reports = []) :
    ∃ us u, Completes (.resultLanding c) s fun t => Makes c s t { (s.cores[c]).landed f with upsets := us, undo := u } := by
  obtain ⟨us, u, hl⟩ := Core.landAll_one hf hr
  have hany : (s.cores[c]).flights.any (fun g => g.due ≤ (s.cores[c]).cyc) = true := by
    have hmem : f ∈ (s.cores[c]).flights.filter fun g => g.due ≤ (s.cores[c]).cyc := hf ▸ List.mem_singleton_self f
    exact List.any_eq_true.mpr ⟨f, List.mem_filter.mp hmem⟩
  have hd : (s.cores[c]).landingDue = true := by
    simp only [Core.landingDue, Core.moves, hm, hany, Bool.not_false, Bool.true_or, Bool.and_self]
  exact ⟨us, u, _, (exec_resultLanding c s).trans (event_due hd), makes_of_updCore hl⟩

/-- Reports come in order, those without a kind left out (R162). -/
theorem Core.foldl_report (c : Core) (rs : List Report) :
    rs.foldl (fun x r => x.report r) c = { c with reports := c.reports ++ rs.filter fun r => r.kinds != 0 } := by
  induction rs generalizing c with
  | nil => simp
  | cons r rs ih =>
    rw [List.foldl_cons, ih]
    by_cases hk : r.kinds = 0
    · simp [Core.report, hk]
    · rw [Core.report, if_neg hk, List.filter_cons_of_pos (by simpa using hk)]
      simp

/-- The result that an atomic's response brings for sd. -/
def Core.responseFlight (c : Core) (a : Atomic) (v : Word) : Flight :=
  { seq := c.seqNo + 2 ^ 32, slot := .ae, bundle := a.bundle, reg := .s a.sd, val := v.setWidth 2048, mask := lowMask 64, due := c.cyc,
    kinds := 0, pend := true }

theorem atomicResponse_completes {s : State} {c : CoreId} {a : Atomic} {v : Word} {k : Kinds} (h : responseReady s c = some (a, v, k)) :
    Completes (.atomicResponse c) s fun t =>
      ∃ f : Flight, f.reg = .s a.sd ∧ f.val = v.setWidth 2048 ∧ f.mask = lowMask 64 ∧ f.due = (s.cores[c]).cyc ∧ f.kinds = 0 ∧
        Makes c { s with atoms := s.atoms.filter fun y => y != a } t { s.cores[c] with
          flights := (s.cores[c]).flights ++ [f]
          reports := if k = 0 then (s.cores[c]).reports else (s.cores[c]).reports ++ [⟨k, 7, a.bundle, 0, .handoff a.order⟩] } := by
  refine ⟨_, (exec_atomicResponse c s).trans (event_due (by rw [h]; rfl)), ?_⟩
  simp only [h]
  refine ⟨(s.cores[c]).responseFlight a v, rfl, rfl, rfl, rfl, rfl, makes_of_updCore ?_⟩
  unfold Core.report
  split <;> rfl

theorem reductionEventReturn_completes {s : State} {c : CoreId} (h : returnDue s c = true) :
    Completes (.reductionEventReturn c) s fun t =>
      Makes c s t { s.cores[c] with
        ev := (s.cores[c]).ev.filter fun e => s.now < e.1
        reports := (s.cores[c]).reports ++ (((s.cores[c]).ev.filter fun e => e.1 ≤ s.now).map fun e => e.2).filter fun r => r.kinds != 0 } :=
  ⟨_, (exec_reductionEventReturn c s).trans (event_due h), makes_of_updCore (Core.foldl_report _ _)⟩

/-- The generator makes its entry where the queue has room for one (R150). -/
theorem rngRefill_completes {s : State} {c : CoreId} (h : (s.cores[c]).rngDue = true) :
    Completes (.rngRefill c) s fun t =>
      Makes c s t ((s.cores[c]).onCtx fun y =>
        { y with rq := y.rq ++ [rngEntry y.spr.rngkey y.spr.rngctr], spr := { y.spr with rngctr := y.spr.rngctr + 1 } }) ∧
      (t.cores[c]).ctx.rq.length ≤ 32 := by
  refine ⟨_, (exec_rngRefill c s).trans (event_due h), makes_updCore _ _ _, ?_⟩
  have hroom : (s.cores[c]).ctx.rq.length < 32 := by
    simp only [Core.rngDue, Bool.and_eq_true, decide_eq_true_eq] at h
    exact h.1.2
  rw [(makes_updCore s c _).2, Core.onCtx_ctx, List.length_append, List.length_singleton]
  exact hroom

/-- Settles O41: the one result due writes its register and raises its kinds; an atomic's response, reduction events that are home and the
random generator each do what their event says. -/
theorem landings : Obligations.Landings := by
  intro s c
  refine ⟨fun f hm hf hr => ?_, fun a v k h => atomicResponse_completes h, fun h => reductionEventReturn_completes h,
    fun h => rngRefill_completes h⟩
  obtain ⟨us, u, t, he, honly, hcore⟩ := resultLanding_makes hm hf hr
  refine ⟨t, he, honly, ?_⟩
  rw [hcore]
  let x := s.cores[c]
  refine ⟨x.landed_flights f, x.landed_pool f, x.landed_rows f, x.landed_imem f, fun r hk hr => x.getReg_landed_other hk hr, rfl, rfl,
    fun i h hi => x.landed_rs f h hi, fun i h hi => x.landed_rp f h hi, fun i h => x.landed_rv f h, fun i h => x.landed_rcf f h,
    fun i h => x.landed_rbt f h, fun i k h => x.landed_rmd f h, fun h => x.landed_fflags f h,
    fun h => ⟨fun k h9 hfree hk hlow => ?_, fun hkept => ?_⟩⟩
  · have hlog := (x.landed_log f h).trans (Core.logWith_new hfree (Flight.firstSeen_eq_some h9 hk hlow))
    rw [felaOf_offer, felbOf_offer] at hlog
    exact Prod.mk.inj hlog
  · exact Prod.mk.inj ((x.landed_log f h).trans (Core.logWith_kept (hkept.imp_right Flight.firstSeen_eq_none)))

end Sys2Proof.Machine
end

section
/-!
PROOF. The integer words of S1 (R102–R106): each is one scalar result, and what is left to say is that the model's expression of its value is
the rule's.
-/
namespace Sys2Proof.Machine

-- a word whose whole effect is one scalar result

/-- A scalar result: the word's whole effect is to deliver it (R9, R56). -/
theorem putS_completes {w : Instr} {s : State} {d : BitVec 6} {u v : Word} {lat : Nat} {k : Kinds} (h : exec w s = putS s d u lat k)
    (hv : u = v) : Completes w s fun t => Delivers s t (.s d) (lowMask 64) v.toNat lat k :=
  hv ▸ ⟨_, h, delivers_result s _ rfl _ _ _ _ _ _⟩

/-- A scalar result that is a number below 2^64. -/
theorem putS_ofNat_completes {w : Instr} {s : State} {d : BitVec 6} {n lat : Nat} {k : Kinds} (h : exec w s = putS s d (BitVec.ofNat 64 n) lat k)
    (hn : n < 2 ^ 64) : Completes w s fun t => Delivers s t (.s d) (lowMask 64) n lat k := by
  have hput := putS_completes h rfl
  rwa [BitVec.toNat_ofNat, Nat.mod_eq_of_lt hn] at hput

-- R102, R104, R105 and R106: the one-cycle integer words

theorem toNat_mod_64_eq_and (y : Word) : y.toNat % 64 = (y &&& 63).toNat := (Nat.and_two_pow_sub_one_eq_mod y.toNat 6).symm

theorem ite_slt_eq_ofInt_min (x y : Word) : (if x.slt y then x else y) = BitVec.ofInt 64 (min x.toInt y.toInt) := by
  split
  · next h => rw [Int.min_eq_left (Int.le_of_lt (BitVec.slt_iff_toInt_lt.mp h)), BitVec.ofInt_toInt]
  · next h => rw [Int.min_eq_right (Int.not_lt.mp (mt BitVec.slt_iff_toInt_lt.mpr h)), BitVec.ofInt_toInt]

theorem ite_slt_eq_ofInt_max (x y : Word) : (if x.slt y then y else x) = BitVec.ofInt 64 (max x.toInt y.toInt) := by
  split
  · next h => rw [Int.max_eq_right (Int.le_of_lt (BitVec.slt_iff_toInt_lt.mp h)), BitVec.ofInt_toInt]
  · next h => rw [Int.max_eq_left (Int.not_lt.mp (mt BitVec.slt_iff_toInt_lt.mpr h)), BitVec.ofInt_toInt]

theorem ite_ult_eq_ofNat_min (x y : Word) : (if x.ult y then x else y) = BitVec.ofNat 64 (min x.toNat y.toNat) := by
  split
  · next h => rw [Nat.min_eq_left (Nat.le_of_lt (BitVec.ult_iff_lt.mp h)), BitVec.ofNat_toNat, BitVec.setWidth_eq]
  · next h => rw [Nat.min_eq_right (Nat.not_lt.mp (mt BitVec.ult_iff_lt.mpr h)), BitVec.ofNat_toNat, BitVec.setWidth_eq]

theorem ite_ult_eq_ofNat_max (x y : Word) : (if x.ult y then y else x) = BitVec.ofNat 64 (max x.toNat y.toNat) := by
  split
  · next h => rw [Nat.max_eq_right (Nat.le_of_lt (BitVec.ult_iff_lt.mp h)), BitVec.ofNat_toNat, BitVec.setWidth_eq]
  · next h => rw [Nat.max_eq_left (Nat.not_lt.mp (mt BitVec.ult_iff_lt.mpr h)), BitVec.ofNat_toNat, BitVec.setWidth_eq]

/-- An amount 0–63 is its own sign extension. -/
theorem toNat_signExtend_of_le_63 {i : BitVec 11} (h : i.toNat ≤ 63) : (i.signExtend 64).toNat = i.toNat := by
  have hm : i.msb = false := BitVec.msb_eq_false_iff_two_mul_lt.mpr (by omega)
  rw [BitVec.signExtend_eq_setWidth_of_msb_false hm, BitVec.toNat_setWidth]
  omega

theorem shiftLeft_eq_ofNat (x : Word) (n : Nat) : x <<< n = BitVec.ofNat 64 (x.toNat * 2 ^ n) :=
  BitVec.eq_of_toNat_eq (by rw [BitVec.toNat_shiftLeft, BitVec.toNat_ofNat, Nat.shiftLeft_eq])

theorem ushiftRight_eq_ofNat (x : Word) (n : Nat) : x >>> n = BitVec.ofNat 64 (x.toNat / 2 ^ n) := by
  rw [← Nat.shiftRight_eq_div_pow, ← BitVec.toNat_ushiftRight, BitVec.ofNat_toNat, BitVec.setWidth_eq]

theorem sshiftRight_eq_ofInt (x : Word) (n : Nat) : x.sshiftRight n = BitVec.ofInt 64 (x.toInt / 2 ^ n) := by
  rw [BitVec.sshiftRight_eq, Int.shiftRight_eq_div_pow]
  norm_cast

/-- What CLZ counts: the number is below the power of two that it leaves, and at least half of that where it is not zero. -/
theorem clzNat_spec (w x : Nat) :
    clzNat w x ≤ w ∧ x % 2 ^ w < 2 ^ (w - clzNat w x) ∧ (clzNat w x < w → 2 ^ (w - 1 - clzNat w x) ≤ x % 2 ^ w) := by
  unfold clzNat
  split
  · next hz => simp [hz]
  · next hz =>
    have hlt : (x % 2 ^ w).log2 < w := (Nat.log2_lt hz).mpr (Nat.mod_lt _ (Nat.two_pow_pos w))
    have hlow : w - (w - 1 - (x % 2 ^ w).log2) = (x % 2 ^ w).log2 + 1 := by omega
    have hhigh : w - 1 - (w - 1 - (x % 2 ^ w).log2) = (x % 2 ^ w).log2 := by omega
    rw [hlow, hhigh]
    exact ⟨by omega, Nat.lt_log2_self, fun _ => Nat.log2_self_le hz⟩

theorem range_eq_map_val_finRange (n : Nat) : List.range n = (List.finRange n).map Fin.val := by
  refine List.ext_getElem (by rw [List.length_map, List.length_finRange, List.length_range]) fun i _ _ => ?_
  rw [List.getElem_map, List.getElem_finRange, List.getElem_range, Fin.val_cast]

theorem popNat_toNat {w : Nat} (x : BitVec w) : popNat w x.toNat = (List.finRange w).countP fun i => x[i] := by
  rw [popNat, ← List.countP_eq_length_filter, range_eq_map_val_finRange, List.countP_map]
  exact List.countP_congr fun i _ => iff_of_eq (congrArg (· = true) (BitVec.getElem_eq_testBit_toNat x i.val i.isLt).symm)

theorem popNat_le (w x : Nat) : popNat w x ≤ w := Nat.le_trans (List.length_filter_le _ _) (Nat.le_of_eq List.length_range)

/-- CLZ counts the leading zeros, 0–64 (R104). -/
theorem clz_completes (s : State) (d a : BitVec 6) : ∃ n, n ≤ 64 ∧ (s.me.rs a).toNat < 2 ^ (64 - n) ∧
    (n < 64 → 2 ^ (63 - n) ≤ (s.me.rs a).toNat) ∧ Completes (.clz d a) s fun t => Delivers s t (.s d) (lowMask 64) n 1 := by
  obtain ⟨hle, hlt, hge⟩ := clzNat_spec 64 (s.me.rs a).toNat
  rw [Nat.mod_eq_of_lt (s.me.rs a).isLt] at hlt hge
  exact ⟨_, hle, hlt, hge, putS_ofNat_completes rfl (by omega)⟩

/-- POPC counts the ones, 0–64 (R104). -/
theorem popc_completes (s : State) (d a : BitVec 6) :
    Completes (.popc d a) s fun t => Delivers s t (.s d) (lowMask 64) ((List.finRange 64).countP fun i => (s.me.rs a)[i]) 1 := by
  have hle := popNat_le 64 (s.me.rs a).toNat
  rw [← popNat_toNat]
  exact putS_ofNat_completes rfl (by omega)

/-- Settles O1: every word is one scalar result, whose value the model states as an equal expression. -/
theorem integerResults : Obligations.IntegerResults := by
  refine ⟨fun s d a b cf i j => ?_, fun s d a i hi => ?_, fun s d a => ⟨clz_completes s d a, popc_completes s d a⟩, fun d j => ⟨rfl, rfl⟩⟩
  · let x := s.me.rs a
    let y := s.me.rs b
    have hamount := toNat_mod_64_eq_and y
    have hold : s.me.rs d = BitVec.ofNat 64 (s.me.rs d).toNat := by rw [BitVec.ofNat_toNat, BitVec.setWidth_eq]
    exact ⟨
      -- ADD, SUB, AND, OR, XOR
      putS_completes rfl rfl, putS_completes rfl rfl, putS_completes rfl rfl, putS_completes rfl rfl, putS_completes rfl rfl,
      -- SHL, SHR, SAR
      putS_completes rfl (congrArg (x <<< ·) hamount), putS_completes rfl (congrArg (x >>> ·) hamount),
      putS_completes rfl (congrArg x.sshiftRight hamount),
      -- MIN, MAX, MINU, MAXU
      putS_completes rfl (ite_slt_eq_ofInt_min x y), putS_completes rfl (ite_slt_eq_ofInt_max x y),
      putS_completes rfl (ite_ult_eq_ofNat_min x y), putS_completes rfl (ite_ult_eq_ofNat_max x y),
      -- SEL, ADDI, ANDI, ORI, XORI
      putS_completes rfl rfl, putS_completes rfl rfl, putS_completes rfl rfl, putS_completes rfl rfl, putS_completes rfl rfl,
      -- MOVI, MOVK
      putS_completes rfl rfl, putS_completes rfl (congrArg (fun x : Word => x <<< 17 ||| j.setWidth 64) hold)⟩
  · let x := s.me.rs a
    have hn := toNat_signExtend_of_le_63 hi
    exact ⟨putS_completes rfl ((congrArg (x <<< ·) hn).trans (shiftLeft_eq_ofNat x _)),
      putS_completes rfl ((congrArg (x >>> ·) hn).trans (ushiftRight_eq_ofNat x _)),
      putS_completes rfl ((congrArg x.sshiftRight hn).trans (sshiftRight_eq_ofInt x _))⟩

-- R102 and R103: the multiplies and the divides

/-- Bits 127:64 of the 128-bit number that an integer is, modulo 2^128, are those of its floor by 2^64. -/
theorem extractLsb'_ofInt_high (z : Int) : (BitVec.ofInt 128 z).extractLsb' 64 64 = BitVec.ofInt 64 (z / 2 ^ 64) := by
  refine BitVec.eq_of_toNat_eq ?_
  rw [BitVec.extractLsb'_toNat, BitVec.toNat_ofInt, BitVec.toNat_ofInt, Nat.shiftRight_eq_div_pow]
  omega

/-- The signed 128-bit product (R102). -/
theorem mulh_eq_extractLsb' (x y : Word) :
    BitVec.ofInt 64 (x.toInt * y.toInt / 2 ^ 64) = (x.signExtend 128 * y.signExtend 128).extractLsb' 64 64 := by
  rw [← extractLsb'_ofInt_high, BitVec.ofInt_mul]
  rfl

/-- Unsigned operands do not overflow 128 bits. -/
theorem toNat_setWidth_mul (x y : Word) : (x.setWidth 128 * y.setWidth 128).toNat = x.toNat * y.toNat := by
  have hlt : x.toNat * y.toNat < 2 ^ 64 * 2 ^ 64 := Nat.mul_lt_mul'' x.isLt y.isLt
  rw [BitVec.toNat_mul, BitVec.toNat_setWidth_of_le (by omega), BitVec.toNat_setWidth_of_le (by omega), Nat.mod_eq_of_lt (by omega)]

theorem mul_eq_extractLsb' (x y : Word) : x * y = (x.setWidth 128 * y.setWidth 128).extractLsb' 0 64 := by
  refine BitVec.eq_of_toNat_eq ?_
  rw [BitVec.extractLsb'_toNat, toNat_setWidth_mul, BitVec.toNat_mul, Nat.shiftRight_zero]

theorem mulhu_eq_extractLsb' (x y : Word) :
    BitVec.ofNat 64 (x.toNat * y.toNat / 2 ^ 64) = (x.setWidth 128 * y.setWidth 128).extractLsb' 64 64 := by
  refine BitVec.eq_of_toNat_eq ?_
  rw [BitVec.extractLsb'_toNat, toNat_setWidth_mul, BitVec.toNat_ofNat, Nat.shiftRight_eq_div_pow]

theorem ofInt_tdiv_eq_sdiv (x y : Word) : BitVec.ofInt 64 (x.toInt.tdiv y.toInt) = x.sdiv y :=
  BitVec.eq_of_toInt_eq (by rw [BitVec.toInt_ofInt, BitVec.toInt_sdiv])

theorem ofInt_tmod_eq_srem (x y : Word) : BitVec.ofInt 64 (x.toInt.tmod y.toInt) = x.srem y := by
  rw [← BitVec.toInt_srem, BitVec.ofInt_toInt]

/-- A divide by another divisor than 0 delivers the quotient or the remainder, without an event (R103). -/
theorem divide_completes {w : Instr} {s : State} {d a b : BitVec 6} {z : Word → Word} {f : Word → Word → Word} {v : Word}
    (h : exec w s = divide s d a b z f) (hb : s.me.rs b ≠ 0) (hv : f (s.me.rs a) (s.me.rs b) = v) :
    Completes w s fun t => Delivers s t (.s d) (lowMask 64) v.toNat 18 :=
  putS_completes (h.trans (if_neg hb)) hv

/-- A divide by 0 delivers what its row states and raises div-zero (R103). -/
theorem divide_zero_completes {w : Instr} {s : State} {d a b : BitVec 6} {z : Word → Word} {f : Word → Word → Word} {v : Word}
    (h : exec w s = divide s d a b z f) (hb : s.me.rs b = 0) (hv : z (s.me.rs a) = v) :
    Completes w s fun t => Delivers s t (.s d) (lowMask 64) v.toNat 18 kDivZero :=
  putS_completes (h.trans (if_pos hb)) hv

theorem exec_div (d a b : BitVec 6) (s : State) : exec (.div d a b) s = execDiv d a b s := rfl
theorem exec_divu (d a b : BitVec 6) (s : State) : exec (.divu d a b) s = execDivu d a b s := rfl
theorem exec_rem (d a b : BitVec 6) (s : State) : exec (.rem d a b) s = execRem d a b s := rfl
theorem exec_remu (d a b : BitVec 6) (s : State) : exec (.remu d a b) s = execRemu d a b s := rfl

/-- Settles O2: the multiplies are bits of the 128-bit products, and each divide splits on its divisor alone, so that the most negative number by
−1 is a quotient and a remainder as any other, of `BitVec.sdiv` and `BitVec.srem`. -/
theorem multipliesAndDivides : Obligations.MultipliesAndDivides := by
  refine ⟨fun s d a b => ⟨putS_completes rfl (mul_eq_extractLsb' _ _), putS_completes rfl (mulh_eq_extractLsb' _ _),
    putS_completes rfl (mulhu_eq_extractLsb' _ _)⟩, fun s d a b => ⟨fun hb => ?_, fun hb => ?_⟩, fun d a b => ⟨rfl, rfl, rfl, rfl⟩⟩
  · exact ⟨divide_completes (exec_div ..) hb (ofInt_tdiv_eq_sdiv _ _), divide_completes (exec_divu ..) hb rfl,
      divide_completes (exec_rem ..) hb (ofInt_tmod_eq_srem _ _), divide_completes (exec_remu ..) hb rfl⟩
  · exact ⟨divide_zero_completes (exec_div ..) hb rfl, divide_zero_completes (exec_divu ..) hb rfl,
      divide_zero_completes (exec_rem ..) hb rfl, divide_zero_completes (exec_remu ..) hb rfl⟩

end Sys2Proof.Machine
end

section
/-!
PROOF. The binary32 words of S1 (R110–R113): what a rounding gives fits its format, what NaNs make of a comparison, and the words' results.
-/
namespace Sys2Proof

-- what a rounding gives fits its format (R140, R143)

theorem Fmt.sign_add_lt {f : Fmt} (neg : Bool) {m : Nat} (h : m < 2 ^ (f.ew + f.fw)) : f.sign neg + m < 2 ^ f.bits := by
  have hb : 2 ^ f.bits = 2 ^ (f.ew + f.fw) + 2 ^ (f.ew + f.fw) := by rw [Fmt.bits, Nat.add_assoc, Nat.pow_add, Nat.pow_one, Nat.two_mul]
  unfold Fmt.sign
  split <;> omega

/-- The largest magnitude and the NaN of a format are patterns of its bits. -/
def Fmt.Fits (f : Fmt) : Prop := f.top < 2 ^ (f.ew + f.fw) ∧ f.nan < 2 ^ f.bits

theorem fmtF32_fits : fmtF32.Fits := by unfold Fmt.Fits; decide

theorem Fmt.infBits_lt {f : Fmt} (hf : f.Fits) (neg : Bool) : f.infBits neg < 2 ^ f.bits := by
  refine Fmt.sign_add_lt neg ?_
  split
  · rw [Nat.pow_add]
    exact Nat.mul_lt_mul_of_pos_right (Nat.sub_lt (Nat.two_pow_pos _) Nat.one_pos) (Nat.two_pow_pos _)
  · exact hf.1

theorem Fmt.overflow_lt {f : Fmt} (hf : f.Fits) (mode : Rnd) (sat neg : Bool) : f.overflow mode sat neg < 2 ^ f.bits := by
  have htop := Fmt.sign_add_lt neg hf.1
  have hinf := Fmt.infBits_lt hf neg
  unfold Fmt.overflow
  split
  · exact htop
  · cases mode with
    | rne => exact hinf
    | sr => exact hinf
    | rtz => exact htop
    | rup => cases neg <;> assumption

/-- A magnitude above the largest overflows, and another stands beside its sign bit. -/
theorem Fmt.bounded_lt {f : Fmt} (hf : f.Fits) (mode : Rnd) (sat neg : Bool) (mag : Nat) (high low : Kinds) :
    (if f.top < mag then (f.overflow mode sat neg, high) else (f.sign neg + mag, low)).1 < 2 ^ f.bits := by
  split
  · exact Fmt.overflow_lt hf mode sat neg
  · next hle => exact Fmt.sign_add_lt neg (Nat.lt_of_le_of_lt (Nat.le_of_not_lt hle) hf.1)

/-- A rounding gives a pattern of the format's bits. -/
theorem Fmt.roundTo_lt {f : Fmt} (hf : f.Fits) (mode : Rnd) (sat : Bool) (r : Nat) (x : Num) : (f.roundTo mode sat r x).1 < 2 ^ f.bits := by
  cases x with
  | nan neg sig =>
    simp only [Fmt.roundTo]
    split
    · exact Fmt.sign_add_lt neg hf.1
    · exact hf.2
  | inf neg =>
    simp only [Fmt.roundTo]
    split
    · exact Fmt.infBits_lt hf neg
    · exact Fmt.sign_add_lt neg hf.1
  | fin neg m e =>
    simp only [Fmt.roundTo]
    split
    · exact Fmt.sign_add_lt neg (Nat.two_pow_pos _)
    · exact Fmt.bounded_lt hf mode sat neg _ _ _

-- comparisons and NaNs (R112)

theorem Num.lt_of_nan {x y : Num} (h : x.isNan = true ∨ y.isNan = true) : x.lt y = false := by
  rcases h with h | h
  · cases x with
    | nan neg sig => rfl
    | inf neg => cases h
    | fin neg m e => cases h
  · cases y with
    | nan neg sig => cases x <;> rfl
    | inf neg => cases h
    | fin neg m e => cases h

theorem Num.eq_of_nan {x y : Num} (h : x.isNan = true ∨ y.isNan = true) : x.eq y = false := by
  rcases h with h | h <;> simp [Num.eq, h]

theorem Num.isSig_of_not_nan {x : Num} (h : x.isNan = false) : x.isSig = false := by
  cases x with
  | nan neg sig => exact absurd h (by simp [Num.isNan])
  | inf neg => rfl
  | fin neg m e => rfl

end Sys2Proof

namespace Sys2Proof.Machine

-- R110, R111, R113: the words

theorem Core.f32_eq (c : Core) (i : BitVec 6) : c.f32 i = (c.rs i).toNat % 2 ^ 32 := rfl

theorem Core.f32_lt (c : Core) (i : BitVec 6) : c.f32 i < 2 ^ 32 := Nat.mod_lt _ (Nat.two_pow_pos 32)

/-- A binary32 result (R110). -/
theorem putF_completes {w : Instr} {s : State} {d : BitVec 6} {r : Nat × Kinds} (h : exec w s = putF s d r) (hr : r.1 < 2 ^ 32) :
    r.1 < 2 ^ 32 ∧ Completes w s fun t => Delivers s t (.s d) (lowMask 64) r.1 4 r.2 :=
  ⟨hr, putS_ofNat_completes h (by omega)⟩

/-- The inverted sign bit of a pattern of n + 1 bits. -/
theorem xor_two_pow_of_lt {n x : Nat} (h : x < 2 ^ (n + 1)) : x ^^^ 2 ^ n = if x < 2 ^ n then x + 2 ^ n else x - 2 ^ n := by
  have hpos : 0 < 2 ^ n := Nat.two_pow_pos n
  have hdiv : (x ^^^ 2 ^ n) / 2 ^ n = x / 2 ^ n ^^^ 1 := by rw [Nat.xor_div_two_pow, Nat.div_self hpos]
  have hmod : (x ^^^ 2 ^ n) % 2 ^ n = x % 2 ^ n := by rw [Nat.xor_mod_two_pow, Nat.mod_self, Nat.xor_zero]
  rw [← Nat.div_add_mod (x ^^^ 2 ^ n) (2 ^ n), hdiv, hmod]
  split
  · next hlt => rw [Nat.div_eq_of_lt hlt, Nat.mod_eq_of_lt hlt, Nat.zero_xor, Nat.mul_one, Nat.add_comm]
  · next hge =>
    have hone : x / 2 ^ n = 1 := Nat.div_eq_of_lt_le (by omega) (by omega)
    rw [hone, Nat.xor_self, Nat.mul_zero, Nat.zero_add, Nat.mod_eq_sub_mod (by omega), Nat.mod_eq_of_lt (by omega)]

/-- FCMP delivers its condition and events. -/
theorem fcmp_completes (s : State) (d a b : BitVec 6) (c : FCond) {v : Bool} {k : Kinds}
    (h : fcmp c (s.me.f32 a) (s.me.f32 b) = (v, k)) :
    Completes (.fcmp d a b c) s fun t => Delivers s t (.s d) (lowMask 64) (if v then 1 else 0) 4 k := by
  have hexec : exec (.fcmp d a b c) s = putF s d (if v then 1 else 0, k) := by
    show putF s d (if (fcmp c _ _).1 then 1 else 0, (fcmp c _ _).2) = _
    rw [h]
  exact (putF_completes hexec (by split <;> omega)).2

/-- FCMP with a NaN operand (R112). -/
theorem fcmp_of_nan {a b : Nat} (h : (fmtF32.decode a).isNan = true ∨ (fmtF32.decode b).isNan = true) :
    let signalling : Kinds := if (fmtF32.decode a).isSig || (fmtF32.decode b).isSig then kInvalid else 0
    fcmp .eq a b = (false, signalling) ∧ fcmp .lt a b = (false, kInvalid) ∧ fcmp .le a b = (false, kInvalid) ∧
      fcmp .un a b = (true, signalling) := by
  have hnan : ((fmtF32.decode a).isNan || (fmtF32.decode b).isNan) = true := by simpa using h
  simp only [fcmp, Num.eq_of_nan h, Num.lt_of_nan h, hnan, kIf, Bool.or_false, if_true, and_self]

/-- FCMP of two numbers raises nothing (R112). -/
theorem fcmp_of_not_nan {a b : Nat} (ha : (fmtF32.decode a).isNan = false) (hb : (fmtF32.decode b).isNan = false) :
    let x := fmtF32.decode a
    let y := fmtF32.decode b
    fcmp .eq a b = (x.eq y, 0) ∧ fcmp .lt a b = (x.lt y, 0) ∧ fcmp .le a b = (x.lt y || x.eq y, 0) ∧ fcmp .un a b = (false, 0) := by
  simp [fcmp, kIf, ha, hb, Num.isSig_of_not_nan]

/-- FCVTFI delivers the rounded integer and its events. -/
theorem fcvtfi_completes (s : State) (d a : BitVec 6) (rtz : Bool) {v : Int} {k : Kinds}
    (h : roundInt 64 (if rtz then .rtz else .rne) false 0 (fmtF32.decode (s.me.f32 a)) = (v, k)) :
    Completes (.fcvtfi d a rtz) s fun t => Delivers s t (.s d) (lowMask 64) (BitVec.ofInt 64 v).toNat 4 k := by
  have hexec : exec (.fcvtfi d a rtz) s = putS s d (BitVec.ofInt 64 v) 4 k := by
    show putS s d (BitVec.ofInt 64 (roundInt _ _ _ _ _).1) 4 (roundInt _ _ _ _ _).2 = _
    rw [h]
  exact putS_completes hexec rfl

/-- What a finite value rounds to in a signed integer, and its events (R145). -/
theorem roundInt_fin (w : Nat) (mode : Rnd) (r : Nat) (neg : Bool) (m : Nat) (e : Int) :
    let k := roundMag mode neg r m e 0
    let v : Int := if neg then -(k.1 : Int) else k.1
    let y := roundInt w mode false r (.fin neg m e)
    (v < -(2 ^ (w - 1)) → y = (-(2 ^ (w - 1)), kInvalid)) ∧ (2 ^ (w - 1) - 1 < v → y = (2 ^ (w - 1) - 1, kInvalid)) ∧
      (-(2 ^ (w - 1)) ≤ v ∧ v ≤ 2 ^ (w - 1) - 1 → y = (v, if k.2 then 0 else kInexact)) := by
  intro k v y
  have hpos : (0 : Int) < 2 ^ (w - 1) := Int.pow_pos (by decide)
  have hy : y = if v < -(2 ^ (w - 1)) then (-(2 ^ (w - 1)), kInvalid) else if 2 ^ (w - 1) - 1 < v then (2 ^ (w - 1) - 1, kInvalid)
    else (v, kIf (!k.2) kInexact) := rfl
  refine ⟨fun h => by rw [hy, if_pos h], fun h => by rw [hy, if_neg (by omega), if_pos h], fun h => ?_⟩
  rw [hy, if_neg (by omega), if_neg (by omega)]
  cases k.2 <;> rfl

/-- Settles O3: every word is one scalar result. A rounding's fits 32 bits; FCMP splits on whether an operand is a NaN, and FCVTFI on what its operand
holds and on which side of the bounds the rounded integer falls. -/
theorem floatResults : Obligations.FloatResults := by
  have hround : ∀ x, (fmtF32.roundTo .rne false 0 x).1 < 2 ^ 32 := Fmt.roundTo_lt fmtF32_fits .rne false 0
  refine ⟨fun s d a b => ?_, fun s d a b => ⟨fun h => ?_, fun ⟨hx, hy⟩ => ?_⟩, fun s d a rtz => ?_⟩
  · have hx := s.me.f32_lt a
    refine ⟨
      -- FADD, FSUB, FMUL, FMA
      putF_completes rfl (hround _), putF_completes rfl (hround _), putF_completes rfl (hround _), putF_completes rfl (hround _),
      -- FMIN, FMAX
      putF_completes rfl (Nat.mod_lt _ (Nat.two_pow_pos 32)), putF_completes rfl (Nat.mod_lt _ (Nat.two_pow_pos 32)),
      -- FNEG, FABS, FCVTIF
      ?_, putF_completes rfl (by omega), putF_completes rfl (hround _)⟩
    have hneg := putF_completes (w := .fneg d a) (s := s) rfl (Nat.xor_lt_two_pow hx (by decide))
    rwa [xor_two_pow_of_lt hx] at hneg
  · obtain ⟨heq, hlt, hle, hun⟩ := fcmp_of_nan h
    exact ⟨fcmp_completes s d a b .eq heq, fcmp_completes s d a b .lt hlt, fcmp_completes s d a b .le hle, fcmp_completes s d a b .un hun⟩
  · obtain ⟨heq, hlt, hle, hun⟩ := fcmp_of_not_nan hx hy
    exact ⟨fcmp_completes s d a b .eq heq, fcmp_completes s d a b .lt hlt, fcmp_completes s d a b .le hle, fcmp_completes s d a b .un hun⟩
  · have hgives := @fcvtfi_completes s d a rtz
    rw [Core.f32_eq] at hgives
    dsimp only
    cases hx : fmtF32.decode ((s.me.rs a).toNat % 2 ^ 32) with
    | nan neg sig => exact hgives (by rw [hx]; rfl)
    | inf neg => exact hgives (by rw [hx]; rfl)
    | fin neg m e =>
      rw [hx] at hgives
      obtain ⟨hbelow, habove, hwithin⟩ := roundInt_fin 64 (if rtz then .rtz else .rne) 0 neg m e
      exact ⟨fun h => hgives (hbelow h), fun h => hgives (habove h), fun h => hgives (hwithin h)⟩

end Sys2Proof.Machine
end

section
/-!
PROOF. The pool accesses of S1 and the stream fields (R98–R101, R107, R109).
-/
namespace Sys2Proof.Machine

open Host

-- R98: the address of a stream

/-- The pairs of two lists, summed by index: a second list that is short is filled up with 0, which adds nothing. -/
theorem sum_map_zip_ofFn {α β : Type} [Zero β] {g : α → β → Word} (hg : ∀ x, g x 0 = 0) {n : Nat} (f : Fin n → α) (ys : List β) :
    (((List.ofFn f).zip ys).map fun p => g p.1 p.2).sum = ((List.finRange n).map fun k => g (f k) (ys.getD k.val 0)).sum := by
  induction n generalizing ys with
  | zero => rfl
  | succ n ih =>
    rw [List.ofFn_succ, List.finRange_succ, List.map_cons, List.map_map, List.sum_cons]
    cases ys with
    | nil =>
      have htail := ih (fun k => f k.succ) []
      rw [List.zip_nil_right] at htail ⊢
      have hhead : g (f 0) (([] : List β).getD (0 : Fin (n + 1)).val 0) = 0 := hg _
      rw [hhead]
      exact htail.trans (BitVec.zero_add _).symm
    | cons y ys =>
      rw [List.zip_cons_cons, List.map_cons, List.sum_cons, ih]
      rfl

theorem foldl_add_eq_add_sum {α : Type} (g : α → Word) (xs : List α) (x : Word) : xs.foldl (fun u p => u + g p) x = x + (xs.map g).sum := by
  induction xs generalizing x with
  | nil => simp
  | cons p xs ih => rw [List.foldl_cons, ih, List.map_cons, List.sum_cons, BitVec.add_assoc]

/-- The address of a stream, term by term: a level that is not active has no index in the tag and adds nothing (R98). -/
theorem streamAddr_eq (a : Stream) (t : Tag) (off : Int) (unit : Nat) :
    streamAddr a t off unit = a.base +
      ((List.finRange 6).map fun k => (t.lidx.getD k.val 0).setWidth 64 * (a.st[k]).signExtend 64).sum + BitVec.ofInt 64 (off * unit) := by
  have hst : a.st.toList = List.ofFn fun k : Fin 6 => a.st[k] := by
    rw [← Vector.toList_ofFn]
    exact congrArg Vector.toList Vector.ofFn_getElem.symm
  rw [streamAddr, foldl_add_eq_add_sum, hst,
    sum_map_zip_ofFn (g := fun (x y : BitVec 32) => y.setWidth 64 * x.signExtend 64) fun x => by simp]

theorem State.addr_eq_streamAt (s : State) (as : BitVec 4) (off : Int) (unit : Nat) : s.addr as off unit = s.streamAt as off unit :=
  streamAddr_eq _ _ _ _

theorem Core.scratch_lt (c : Core) : c.scratch < 2 ^ 24 := by
  unfold Core.scratch scratchSize
  split <;> omega

/-- The scratchpad ends below 2^24, so that the check of the pool's end follows from the check of the scratchpad's (R99, R169). -/
theorem State.inPool_iff_reaches (s : State) (a : Word) {n : Nat} (hn : 0 < n) : s.me.inPool a n n = true ↔ s.reaches a n n := by
  have hlt := s.me.scratch_lt
  simp only [Core.inPool, State.reaches, Bool.and_eq_true, decide_eq_true_eq, beq_iff_eq]
  omega

theorem ssize_pos (z : SSize) : 0 < ssize z := by cases z <;> decide

/-- The bytes that a store writes are those of its register, the lowest first (R23, R107). -/
theorem leBytes_eq_extractLsb' (v : Word) (n : Nat) :
    ((leBytes 0 n v.toNat).map fun x => some x.2) = (List.range n).map fun i => some (v.extractLsb' (8 * i) 8) := by
  rw [leBytes, List.map_map]
  refine List.map_congr_left fun i _ => congrArg some (BitVec.eq_of_toNat_eq ?_)
  rw [BitVec.toNat_ofNat, BitVec.extractLsb'_toNat, Nat.shiftRight_eq_div_pow, Nat.pow_mul]

-- R107 and R109: the loads and the stores

theorem exec_ld (s : State) (r : BitVec 6) (as : BitVec 4) (size : SSize) (sx : Bool) (off : BitVec 10) :
    exec (.ld r as size sx off) s = loadS s r as size sx off.toInt := rfl
theorem exec_st (s : State) (r : BitVec 6) (as : BitVec 4) (size : SSize) (off : BitVec 10) :
    exec (.st r as size off) s = storeS s r as size off.toInt := rfl
theorem exec_lda (s : State) (r : BitVec 6) (as : BitVec 4) (size : SSize) (sc : Scope) :
    exec (.lda r as size sc) s = loadS s r as size false 0 := rfl
theorem exec_stl (s : State) (r : BitVec 6) (as : BitVec 4) (size : SSize) (sc : Scope) :
    exec (.stl r as size sc) s = storeS s r as size 0 := rfl

section Access
variable {w : Instr} {s : State} {r : BitVec 6} {as : BitVec 4} {size : SSize} {off : Int}

/-- A scalar load from a legal address (R107). -/
theorem loadS_completes {sx : Bool} (h : exec w s = loadS s r as size sx off)
    (hr : s.reaches (s.streamAt as off (ssize size)) (ssize size) (ssize size)) :
    Completes w s fun t => Loads s t (.s r) (lowMask 64) 4
      (s.accessOf (s.me.ras as).view (s.streamAt as off (ssize size)).toNat (ssize size) 2 (.load (.s r) 0 0 sx [])) := by
  obtain ⟨t, ht, hl⟩ := loadTo_spec s (.s r) as (s.streamAt as off (ssize size)) (ssize size) 64 2 4 (lowMask 64) (.load (.s r) 0 0 sx [])
  rw [BitVec.and_self] at hl
  refine ⟨t, ?_, hl⟩
  rw [h, loadS, State.addr_eq_streamAt, if_pos ((s.inPool_iff_reaches _ (ssize_pos size)).mpr hr), ht]

/-- A scalar store to a legal address (R107). -/
theorem storeS_completes (h : exec w s = storeS s r as size off)
    (hr : s.reaches (s.streamAt as off (ssize size)) (ssize size) (ssize size)) :
    Completes w s fun t => Stores s t [s.accessOf (s.me.ras as).view (s.streamAt as off (ssize size)).toNat (ssize size) 2
      (.store ((List.range (ssize size)).map fun i => some ((s.me.rs r).extractLsb' (8 * i) 8)))] := by
  refine ⟨_, ?_, stores_reach s _ _ _ _ _⟩
  rw [h, storeS, State.addr_eq_streamAt, if_pos ((s.inPool_iff_reaches _ (ssize_pos size)).mpr hr), ← leBytes_eq_extractLsb']
  exact congrArg Outcome.next (State.issue_congr s rfl)

theorem loadS_illegal {sx : Bool} (h : exec w s = loadS s r as size sx off)
    (hr : ¬ s.reaches (s.streamAt as off (ssize size)) (ssize size) (ssize size)) :
    Completes w s fun t => TrapsIllegal s t (addrInfo (s.streamAt as off (ssize size))) := by
  refine ⟨_, ?_, illegal_spec s _⟩
  rw [h, loadS, State.addr_eq_streamAt, if_neg fun hp => hr ((s.inPool_iff_reaches _ (ssize_pos size)).mp hp)]

theorem storeS_illegal (h : exec w s = storeS s r as size off)
    (hr : ¬ s.reaches (s.streamAt as off (ssize size)) (ssize size) (ssize size)) :
    Completes w s fun t => TrapsIllegal s t (addrInfo (s.streamAt as off (ssize size))) := by
  refine ⟨_, ?_, illegal_spec s _⟩
  rw [h, storeS, State.addr_eq_streamAt, if_neg fun hp => hr ((s.inPool_iff_reaches _ (ssize_pos size)).mp hp)]

end Access

-- R100 and R101: the stream fields

theorem aset_completes (s : State) (as : BitVec 4) (f : BitVec 3) (r : BitVec 6) :
    Completes (.aset as f r) s fun t => Delivers s t (.asf as f) (lowMask 64) (s.me.rs r).toNat 1 :=
  ⟨_, congrArg Outcome.next (State.issue_congr s rfl), delivers_result s _ rfl _ _ _ _ _ _⟩

/-- AGET of a stride (R101). -/
theorem exec_aget_stride (s : State) (as : BitVec 4) (r : BitVec 6) (k : Fin 6) :
    exec (.aget r as (BitVec.ofNat 3 (k.val + 1))) s = putS s r (((s.me.ras as).st[k]).signExtend 64) 1 := by
  have hk : (s.me.ras as).st.toArray.getD k.val 0 = (s.me.ras as).st[k] := by simp [Array.getD]
  rw [← hk]
  match k with
  | 0 | 1 | 2 | 3 | 4 | 5 => rfl

theorem aget_view_completes (s : State) (as : BitVec 4) (r : BitVec 6) :
    Completes (.aget r as 7) s fun t => Delivers s t (.s r) (lowMask 64) ((s.me.ras as).view).toNat 1 := by
  have hexec : exec (.aget r as 7) s = putS s r (BitVec.ofNat 64 (s.me.ras as).view.toNat) 1 := by
    show putS s r (if (s.me.ras as).view then 1 else 0) 1 = _
    cases (s.me.ras as).view <;> rfl
  exact putS_ofNat_completes hexec (Nat.lt_trans (Bool.toNat_lt _) (by decide))

/-- Settles O6: the model's address is R98's sum and its check R99's, so a load or store either puts its access on its way or traps; the stream
fields are one scalar result each. -/
theorem scalarAccesses : Obligations.ScalarAccesses := by
  refine ⟨⟨fun s r as size sx off sc => ?_, fun s r as size sx off sc => ?_⟩, fun s as f r => ⟨aset_completes s as f r,
    putS_completes rfl rfl, fun k => putS_completes (exec_aget_stride s as r k) rfl, aget_view_completes s as r, rfl⟩⟩
  · exact ⟨fun h _ => loadS_completes (exec_ld ..) h, fun h => storeS_completes (exec_st ..) h, fun h => loadS_completes (exec_lda ..) h,
      fun h => storeS_completes (exec_stl ..) h⟩
  · exact ⟨fun h => ⟨loadS_illegal (exec_ld ..) h, storeS_illegal (exec_st ..) h⟩,
      fun h => ⟨loadS_illegal (exec_lda ..) h, storeS_illegal (exec_stl ..) h⟩⟩

end Sys2Proof.Machine
end

section
/-!
PROOF. Roundings (R140, R143, R144, R148): what a rounding of a magnitude chooses, and that a value which a format holds rounds to its own bits.
-/
namespace Sys2Proof

-- R143 and R148: a rounding of a magnitude

/-- A whole multiple of the unit stays as it is. -/
theorem roundMag_self (mode : Rnd) (neg : Bool) (r m : Nat) (e : Int) : roundMag mode neg r m e e = (m, true) := by
  simp [roundMag]

/-- A rounding that drops d bits goes up: of the quotient q and the remainder `rem` by 2^d. -/
def roundsUp (mode : Rnd) (neg : Bool) (r d q rem : Nat) : Bool :=
  match mode with
  | .rne => 2 ^ d < 2 * rem || (2 * rem = 2 ^ d && q % 2 = 1)
  | .rtz => false
  | .rup => !neg && rem != 0
  | .sr => 2 ^ (d + 8) ≤ rem * 256 + r * 2 ^ d

/-- A rounding that drops d bits is a division by 2^d, and its remainder decides. -/
theorem roundMag_drop (mode : Rnd) (neg : Bool) (r m : Nat) {d : Nat} (e : Int) (hd : 0 < d) :
    roundMag mode neg r m e (e + d) =
      (if roundsUp mode neg r d (m / 2 ^ d) (m % 2 ^ d) then m / 2 ^ d + 1 else m / 2 ^ d, decide (m % 2 ^ d = 0)) := by
  have hlsb : ¬ e + (d : Int) ≤ e := by omega
  have hbits : (e + (d : Int) - e).toNat = d := by omega
  rw [roundMag, if_neg hlsb, hbits]
  rfl

/-- Where nothing is dropped no rounding goes up; a random byte alone never reaches the next multiple. -/
theorem roundsUp_exact (mode : Rnd) (neg : Bool) {r : Nat} (d q : Nat) (hr : r < 256) : roundsUp mode neg r d q 0 = false := by
  have hpos : 0 < 2 ^ d := Nat.two_pow_pos d
  cases mode with
  | rne =>
    have hne : ¬ 2 * 0 = 2 ^ d := by omega
    simp only [roundsUp, hne, Nat.mul_zero, Nat.not_lt_zero, decide_false, Bool.false_and, Bool.or_false]
  | rtz => rfl
  | rup => simp [roundsUp]
  | sr =>
    have hlt : r * 2 ^ d < 256 * 2 ^ d := Nat.mul_lt_mul_of_pos_right hr hpos
    simp only [roundsUp, Nat.pow_add, decide_eq_false_iff_not]
    omega

/-- RNE goes up past the middle, and in the middle from an odd quotient. -/
theorem roundsUp_rne (neg : Bool) (r d q rem : Nat) :
    roundsUp .rne neg r d q rem = true ↔ 2 ^ d < 2 * rem ∨ 2 * rem = 2 ^ d ∧ q % 2 = 1 := by
  simp [roundsUp]

/-- The multiple that RNE chooses is at most half a unit off, and in the middle the even one (R143). -/
theorem rne_nearest (neg : Bool) (r d q rem : Nat) (hrem : rem < 2 ^ d) :
    let k := if roundsUp .rne neg r d q rem then q + 1 else q
    2 * (k * 2 ^ d) ≤ 2 * (q * 2 ^ d + rem) + 2 ^ d ∧ 2 * (q * 2 ^ d + rem) ≤ 2 * (k * 2 ^ d) + 2 ^ d ∧
      (2 * rem = 2 ^ d → k % 2 = 0) := by
  dsimp only
  split
  · next hup =>
    rw [roundsUp_rne] at hup
    rw [Nat.succ_mul q]
    omega
  · next hdown =>
    rw [roundsUp_rne] at hdown
    omega

/-- RUP chooses a multiple no smaller for a positive value (R143). -/
theorem rup_not_below (r d q rem : Nat) (hrem : rem < 2 ^ d) :
    q * 2 ^ d + rem ≤ (if roundsUp .rup false r d q rem then q + 1 else q) * 2 ^ d := by
  have hup : roundsUp .rup false r d q rem = (rem != 0) := rfl
  rw [hup]
  split
  · rw [Nat.succ_mul q]
    omega
  · next hzero =>
    simp only [bne_iff_ne, Decidable.not_not] at hzero
    omega

/-- Settles O5: a rounding that drops bits is a division, whose remainder is looked at as the mode says. -/
theorem roundingChoosesANeighbour : Obligations.RoundingChoosesANeighbour := by
  intro mode neg r m d e hr hd
  have hm : m / 2 ^ d * 2 ^ d + m % 2 ^ d = m := Nat.div_add_mod' m (2 ^ d)
  have hrem : m % 2 ^ d < 2 ^ d := Nat.mod_lt m (Nat.two_pow_pos d)
  dsimp only
  rw [roundMag_drop mode neg r m e hd]
  refine ⟨?_, ?_, fun hdvd => ?_, ?_, ?_, ?_⟩
  · split
    · exact .inr rfl
    · exact .inl rfl
  · rw [decide_eq_true_iff]
    exact Nat.dvd_iff_mod_eq_zero.symm
  · rw [Nat.mod_eq_zero_of_dvd hdvd, roundsUp_exact mode neg d _ hr]
    rfl
  · rintro rfl
    have hnear := rne_nearest neg r d (m / 2 ^ d) (m % 2 ^ d) hrem
    rwa [hm] at hnear
  · rintro rfl
    rfl
  · rintro rfl
    refine ⟨?_, ?_⟩
    · rintro rfl
      rfl
    · rintro rfl
      have hup := rup_not_below r d (m / 2 ^ d) (m % 2 ^ d) hrem
      rwa [hm] at hup

-- R140: the patterns of a format

/-- How many magnitudes of a format are finite values: those below its infinity, below its NaN, or all. -/
def Fmt.finites (f : Fmt) : Nat :=
  match f.kind with
  | .ieee => (2 ^ f.ew - 1) * 2 ^ f.fw
  | .oneNan => 2 ^ (f.ew + f.fw) - 1
  | .none => 2 ^ (f.ew + f.fw)

/-- The largest magnitude of a format is its last finite one, and the one NaN of a format with one follows it. -/
def Fmt.TopIsLast (f : Fmt) : Prop := f.top + 1 = f.finites ∧ (f.kind = .oneNan → f.nan = f.finites)

theorem topIsLast_of_format : ∀ f ∈ [fmtF32, fmtF16, fmtBF16, fmtE4M3, fmtE5M2, fmtE3M2, fmtE2M3, fmtE2M1], f.TopIsLast := by
  unfold Fmt.TopIsLast
  decide

/-- A magnitude that is neither an infinity nor a NaN is at most the largest. -/
theorem Fmt.le_top {f : Fmt} (hf : f.TopIsLast) {mag : Nat} (hlt : mag < 2 ^ (f.ew + f.fw))
    (hieee : ¬ (f.kind = .ieee ∧ mag / 2 ^ f.fw = 2 ^ f.ew - 1)) (hnan : ¬ (f.kind = .oneNan ∧ mag = f.nan)) : mag ≤ f.top := by
  obtain ⟨htop, hone⟩ := hf
  suffices hfin : mag < f.finites by omega
  unfold Fmt.finites at hone ⊢
  cases hk : f.kind with
  | ieee =>
    have hex : mag / 2 ^ f.fw < 2 ^ f.ew := (Nat.div_lt_iff_lt_mul (Nat.two_pow_pos _)).mpr (by rwa [← Nat.pow_add])
    have hne : mag / 2 ^ f.fw ≠ 2 ^ f.ew - 1 := fun h => hieee ⟨hk, h⟩
    exact (Nat.div_lt_iff_lt_mul (Nat.two_pow_pos _)).mp (by omega)
  | oneNan =>
    have hne : mag ≠ f.nan := fun h => hnan ⟨hk, h⟩
    have hlast := hone hk
    simp only [hk] at hlast
    show mag < 2 ^ (f.ew + f.fw) - 1
    omega
  | none => exact hlt

theorem Fmt.sign_eq (f : Fmt) (neg : Bool) : f.sign neg = neg.toNat * 2 ^ (f.ew + f.fw) := by
  cases neg <;> simp [Fmt.sign]

/-- A pattern is its sign bit beside its magnitude. -/
theorem Fmt.sign_add_mag {f : Fmt} {x : Nat} (hx : x < 2 ^ f.bits) :
    f.sign (x.testBit (f.ew + f.fw)) + x % 2 ^ (f.ew + f.fw) = x := by
  have hbits : 2 ^ f.bits = 2 * 2 ^ (f.ew + f.fw) := by rw [Fmt.bits, Nat.add_assoc, Nat.pow_add, Nat.pow_one]
  have hhigh : x / 2 ^ (f.ew + f.fw) < 2 := (Nat.div_lt_iff_lt_mul (Nat.two_pow_pos _)).mpr (hbits ▸ hx)
  rw [Fmt.sign_eq, Nat.toNat_testBit, Nat.mod_eq_of_lt hhigh, Nat.div_add_mod']

/-- What a pattern holds whose magnitude is no infinity and no NaN (R140): a subnormal or a zero, or a normal value. -/
def Fmt.finite (f : Fmt) (neg : Bool) (mag : Nat) : Num :=
  if mag / 2 ^ f.fw = 0 then .fin neg (mag % 2 ^ f.fw) f.minLsb
  else .fin neg (2 ^ f.fw + mag % 2 ^ f.fw) (f.minLsb + ((mag / 2 ^ f.fw : Nat) : Int) - 1)

/-- What a pattern holds (R140): a NaN, the infinity of its sign, or a finite value no larger than the largest. -/
theorem Fmt.decode_cases {f : Fmt} (hf : f.TopIsLast) (x : Nat) :
    let neg := x.testBit (f.ew + f.fw)
    let mag := x % 2 ^ (f.ew + f.fw)
    (f.decode x).isNan = true ∨ (f.decode x = .inf neg ∧ f.kind = .ieee ∧ mag = (2 ^ f.ew - 1) * 2 ^ f.fw) ∨
      (f.decode x = f.finite neg mag ∧ mag ≤ f.top) := by
  intro neg mag
  have hdecode : f.decode x =
      if f.kind = .ieee ∧ mag / 2 ^ f.fw = 2 ^ f.ew - 1 then
        if mag % 2 ^ f.fw = 0 then .inf neg else .nan neg (!(mag % 2 ^ f.fw).testBit (f.fw - 1))
      else if f.kind = .oneNan ∧ mag = f.nan then .nan neg false
      else f.finite neg mag := rfl
  rw [hdecode]
  split
  · next hieee =>
    split
    · next hfrac =>
      have hmag := Nat.div_add_mod' mag (2 ^ f.fw)
      rw [hfrac, hieee.2] at hmag
      exact .inr (.inl ⟨rfl, hieee.1, hmag.symm⟩)
    · exact .inl rfl
  · next hieee =>
    split
    · exact .inl rfl
    · next hnan => exact .inr (.inr ⟨rfl, Fmt.le_top hf (Nat.mod_lt _ (Nat.two_pow_pos _)) hieee hnan⟩)

-- R143 and R144: a value of the format

/-- A value whose last bit is the format's last bit at its size rounds to the magnitude that its significand and exponent make. -/
theorem Fmt.roundTo_fin {f : Fmt} (mode : Rnd) (sat : Bool) (r : Nat) (neg : Bool) {m mag : Nat} {e : Int} (hm : m ≠ 0)
    (hlsb : max (log2Floor m e - (f.fw : Int)) f.minLsb = e) (hmag : mag ≤ f.top)
    (hcode : (if m < 2 ^ f.fw then m else (e - f.minLsb + 1).toNat * 2 ^ f.fw + (m - 2 ^ f.fw)) = mag) :
    f.roundTo mode sat r (.fin neg m e) = (f.sign neg + mag, 0) := by
  simp only [Fmt.roundTo, if_neg hm, hlsb, roundMag_self, hcode, if_neg (Nat.not_lt.mpr hmag)]
  simp [kIf]

/-- A finite value of a format rounds to its sign and its magnitude. -/
theorem Fmt.roundTo_finite {f : Fmt} (mode : Rnd) (sat : Bool) (r : Nat) (neg : Bool) {mag : Nat} (hmag : mag ≤ f.top) :
    f.roundTo mode sat r (f.finite neg mag) = (f.sign neg + mag, 0) := by
  have hsplit := Nat.div_add_mod' mag (2 ^ f.fw)
  have hfrac : mag % 2 ^ f.fw < 2 ^ f.fw := Nat.mod_lt _ (Nat.two_pow_pos _)
  unfold Fmt.finite
  split
  · next hsub =>
    have hmod : mag % 2 ^ f.fw = mag := by rwa [hsub, Nat.zero_mul, Nat.zero_add] at hsplit
    rw [hmod] at hfrac ⊢
    by_cases hzero : mag = 0
    · rw [hzero]
      rfl
    · have hlog : mag.log2 < f.fw := (Nat.log2_lt hzero).mpr hfrac
      exact Fmt.roundTo_fin mode sat r neg hzero (by rw [log2Floor]; omega) hmag (if_pos hfrac)
  · next hnormal =>
    have hne : 2 ^ f.fw + mag % 2 ^ f.fw ≠ 0 := by omega
    have hlog : (2 ^ f.fw + mag % 2 ^ f.fw).log2 = f.fw := (Nat.log2_eq_iff hne).mpr ⟨by omega, by rw [Nat.pow_succ]; omega⟩
    generalize mag / 2 ^ f.fw = ex at hnormal hsplit ⊢
    have hexp : (f.minLsb + (ex : Int) - 1 - f.minLsb + 1).toNat = ex := by omega
    refine Fmt.roundTo_fin mode sat r neg hne (by rw [log2Floor, hlog]; omega) hmag ?_
    rw [if_neg (by omega), hexp, Nat.add_sub_cancel_left]
    exact hsplit

/-- An infinity of a format that has one rounds to its own magnitude, under either saturate bit (R145). -/
theorem Fmt.roundTo_inf {f : Fmt} (mode : Rnd) (sat : Bool) (r : Nat) (neg : Bool) (hk : f.kind = .ieee) :
    f.roundTo mode sat r (.inf neg) = (f.sign neg + (2 ^ f.ew - 1) * 2 ^ f.fw, 0) := by
  simp only [Fmt.roundTo, Fmt.infBits, if_pos hk]

/-- Settles O4: a pattern is its sign beside its magnitude, and what it holds, an infinity or a finite value, rounds to the two. -/
theorem representedValuesRoundToThemselves : Obligations.RepresentedValuesRoundToThemselves := by
  intro f hmem mode sat r x _ hx hnan
  rcases Fmt.decode_cases (topIsLast_of_format f hmem) x with h | ⟨hdecode, hk, hmag⟩ | ⟨hdecode, hmag⟩
  · exact absurd (h.symm.trans hnan) (by decide)
  · rw [hdecode, Fmt.roundTo_inf mode sat r _ hk, ← hmag, Fmt.sign_add_mag hx]
  · rw [hdecode, Fmt.roundTo_finite mode sat r _ hmag, Fmt.sign_add_mag hx]

end Sys2Proof
end

section
/-!
PROOF. The conversion words and XRNG (R149, R151–R156): each is one vector result, of the random entry that it takes or of none.
-/
namespace Sys2Proof.Machine

open Host

-- R115: the register check

/-- With the registers that a word names in the file, the word goes on (R115). -/
theorem withV_of_hasV {s : State} {rs : List (BitVec 6)} (h : s.hasV rs) (k : Outcome State Fault Refusal) : withV s rs k = k := by
  refine if_pos ?_
  cases hpw : s.me.ctx.spr.pw.getLsbD 0 with
  | false => rfl
  | true => simpa using h hpw

theorem State.hasV_pair {s : State} {d a : BitVec 6} (hd : s.hasV [d]) (ha : s.hasV [a]) : s.hasV [d, a] := by
  intro hpw r hr
  rcases List.mem_cons.mp hr with rfl | hr
  · exact hd hpw _ (List.mem_singleton_self _)
  · exact ha hpw r hr

-- R149: the random entry

/-- The core whose oldest RQ entry e, with r behind it, has been taken by a slot's next word. -/
def Core.tookRq (c : Core) (sl : Slot) (e : BitVec 256) (r : List (BitVec 256)) : Core :=
  { c with ctx := { c.ctx with rq := r }, undo := .rq (c.nextSeq sl) e :: c.undo }

theorem Core.takeRq_cons {c : Core} {e : BitVec 256} {r : List (BitVec 256)} (h : c.ctx.rq = e :: r) (sl : Slot) :
    c.takeRq sl = (e, c.tookRq sl e r) := by
  unfold Core.takeRq
  rw [h]
  rfl

/-- A word that takes an entry and puts one result on its way. -/
theorem issues_tookRq (s : State) (e : BitVec 256) (r : List (BitVec 256)) (f : Flight) {g : Core → Core}
    (hg : g s.me = (s.me.tookRq s.cur.slot e r).fly f) :
    ∃ c, Adds (s.me.tookRq s.cur.slot e r) f c ∧ Issues s (s.issue g) c := by
  obtain ⟨p, hp, hmeet⟩ := Core.fly_spec (s.me.tookRq s.cur.slot e r) f
  rw [hp] at hg
  have hissue := issues_of s g (by rw [hg]; rfl) (by rw [hg]; rfl)
  rw [hg] at hissue
  exact ⟨_, ⟨p, rfl, hmeet⟩, hissue⟩

-- the conversion words

/-- What a conversion word does (R149): it converts without an entry, waits while RQ is empty, or converts with the oldest entry. -/
def Converts (w : Instr) (s : State) (d : BitVec 6) (rnd : Rnd) (lat : Nat) (f : BitVec 256 → Payload × Nat × Kinds) : Prop :=
  (rnd ≠ .sr → Completes w s fun t => Delivers s t (.v d) (f 0).1 (f 0).2.1 lat (f 0).2.2) ∧
  (rnd = .sr → s.me.ctx.rq = [] → Completes w s fun t => Waits s t) ∧
  (∀ e r, rnd = .sr → s.me.ctx.rq = e :: r → Completes w s fun t => ∃ c,
    Adds (s.me.tookRq s.cur.slot e r) (s.resultOf (.v d) (f e).1 (f e).2.1 lat (f e).2.2 false) c ∧ Issues s t c)

section Conversion
variable {s : State} {d : BitVec 6} {rnd : Rnd} {lat : Nat} {f : BitVec 256 → Payload × Nat × Kinds}

theorem convWord_deterministic (h : rnd ≠ .sr) :
    convWord s d rnd lat f = .next (s.issue fun c => c.fly (s.resultOf (.v d) (f 0).1 (f 0).2.1 lat (f 0).2.2 false)) := by
  rw [convWord, if_neg fun hw => h hw.1]
  refine congrArg Outcome.next (State.issue_congr s ?_)
  simp only [if_neg h]
  rfl

theorem convWord_empty (h : s.me.ctx.rq = []) : convWord s d .sr lat f = .next s := if_pos ⟨rfl, h⟩

theorem convWord_stochastic {e : BitVec 256} {r : List (BitVec 256)} (h : s.me.ctx.rq = e :: r) :
    convWord s d .sr lat f = .next (s.issue fun c =>
      (c.tookRq s.cur.slot e r).fly (s.resultOf (.v d) (f e).1 (f e).2.1 lat (f e).2.2 false)) := by
  rw [convWord, if_neg fun hw => List.cons_ne_nil e r (h.symm.trans hw.2)]
  refine congrArg Outcome.next (State.issue_congr s ?_)
  simp only [if_true, Core.takeRq_cons h]
  rfl

/-- A word whose registers are in the file and whose meaning is a conversion converts. -/
theorem conversion_converts {w : Instr} {a : BitVec 6} (hd : s.hasV [d]) (ha : s.hasV [a])
    (hexec : exec w s = withV s [d, a] (convWord s d rnd lat f)) : Converts w s d rnd lat f := by
  rw [withV_of_hasV (State.hasV_pair hd ha)] at hexec
  refine ⟨fun hdet => ⟨_, hexec.trans (convWord_deterministic hdet), delivers_fly s _ _ _ _ _ _⟩, ?_, ?_⟩
  · rintro rfl hempty
    exact ⟨s, hexec.trans (convWord_empty hempty), waits_same s⟩
  · rintro e r rfl hrq
    exact ⟨_, hexec.trans (convWord_stochastic hrq), issues_tookRq s e r _ rfl⟩

end Conversion

-- R156: XRNG

theorem exec_xrng {s : State} {d : BitVec 6} (hd : s.hasV [d]) :
    exec (.xrng d) s = if s.me.ctx.rq = [] then .next s else .next (s.issue fun c =>
      (c.takeRq s.cur.slot).2.result s.cur.slot (.v d) 256 (c.takeRq s.cur.slot).1.toNat 2) := withV_of_hasV hd _

theorem xrng_waits {s : State} {d : BitVec 6} (hd : s.hasV [d]) (h : s.me.ctx.rq = []) : Completes (.xrng d) s fun t => Waits s t :=
  ⟨s, (exec_xrng hd).trans (if_pos h), waits_same s⟩

theorem xrng_takes {s : State} {d : BitVec 6} (hd : s.hasV [d]) {e : BitVec 256} {r : List (BitVec 256)} (h : s.me.ctx.rq = e :: r) :
    Completes (.xrng d) s fun t => ∃ c,
      Adds (s.me.tookRq s.cur.slot e r) (s.resultOf (.v d) (lowMask 256) e.toNat 2 0 false) c ∧ Issues s t c := by
  refine ⟨_, (exec_xrng hd).trans (if_neg fun hempty => List.cons_ne_nil e r (h.symm.trans hempty)), issues_tookRq s e r _ ?_⟩
  rw [Core.takeRq_cons h]
  rfl

/-- Settles O33: each conversion word is one vector result, of entry 0 or of the oldest entry, and so is XRNG. -/
theorem conversions : Obligations.Conversions := by
  intro s x y rnd sat n d a hd
  exact ⟨fun ha => ⟨
      -- XCVT, XCVTH
      conversion_converts hd ha rfl, conversion_converts hd ha rfl,
      -- XMX, XMXD
      conversion_converts (f := fun e => whole (xmxBlock y rnd sat e (s.me.rv a))) hd ha rfl,
      conversion_converts (f := fun e => whole (xmxdBlock x rnd sat e (s.me.rv a))) hd ha rfl,
      -- XPLANE, XUNPLANE
      conversion_converts (f := fun e => whole (xplaneBlock x (n.toNat + 1) rnd e (s.me.rv a))) hd ha rfl,
      conversion_converts (f := fun e => whole (xunplaneBlock x (n.toNat + 1) rnd sat e (s.me.rv a))) hd ha rfl⟩,
    xrng_waits hd, fun e r => xrng_takes hd⟩

end Sys2Proof.Machine
end
